-- ==== Sys2Proof/Word.lean ====
section
/-! DEFINITION. The word types of the block: 32-bit registers and output words (10_state.md section 3, 20_memory.md R68), frame-buffer
bytes (10_state.md R36) and 17-bit bit positions (10_state.md R28, R29, R33). -/

namespace Sys2Proof

/-- A register, command or output-buffer word. -/
abbrev Word := BitVec 32

/-- A frame-buffer byte. -/
abbrev Byte := BitVec 8

/-- A bit position or a count of bits as BITPOS, BITLEN and ERRPOS hold it. -/
abbrev BitPos := BitVec 17

end Sys2Proof
end

