-- ==== Sys2Proof/Config.lean ====
section
/-! DEFINITION. What an implementation fixes (00_scope.md R8, 10_state.md R43) and the free values (93_implementation_defined.md part 1).
The machine's own configuration, `Config.machine`, stands in Machine/Tables.lean beside the reference tables. -/

namespace Sys2Proof

/-- What an aborted command leaves in the outputs (00_scope.md R8, 60_exceptions.md R217). -/
inductive AbortPolicy where
  /-- `LEAVE_MUTATED`, the reference behaviour: the writes made before the raise stay. -/
  | leaveMutated
  /-- `ANY`: every output the command's rule could write takes any value. -/
  | any
deriving DecidableEq, Repr, Inhabited

/-- Order of selectors and scale-factor indices in a spectral block (00_scope.md R8, 92_eei_decisions.md D8). -/
inductive SideInfoOrder where
  /-- `GROUPED`: all selectors, then the scale-factor indices of the coded subbands (30_encoding.md R88). -/
  | grouped
  /-- `INTERLEAVED`: per subband its selector and, if it is coded, its index (92_eei_decisions.md D8; log 5). -/
  | interleaved
deriving DecidableEq, Repr, Inhabited

/-- The read-only tables (10_state.md R42). Their reference contents are in Machine/Tables.lean. -/
structure Tables where
  /-- `HUFF_LEN[t]` for t = 1, 2, ...: the code lengths of table t by symbol (30_encoding.md R80). -/
  huffLen : List (List Nat)
  /-- `CLC_LEN[sel]` (30_encoding.md R82). -/
  clcLen : List Nat
  /-- `PAIR_TAB[s]`, first and second mantissa (30_encoding.md R84). -/
  pairTab : List (Int × Int)
  /-- `CLC2_TAB[c]` (30_encoding.md R85). -/
  clc2Tab : List Int
  /-- `SUBBAND_TAB[i]` (30_encoding.md R83). -/
  subbandTab : List Nat
deriving DecidableEq, Repr

/-- The implementation parameters (00_scope.md R8). -/
structure Config where
  /-- `MAX_FRAME_BYTES`, the size of the frame buffer in bytes. -/
  maxFrameBytes : Nat
  /-- `TABLES`. -/
  tables : Tables
  /-- `ABORT_POLICY`. -/
  abortPolicy : AbortPolicy
  /-- `SIDE_INFO_ORDER`. -/
  sideInfoOrder : SideInfoOrder
deriving DecidableEq, Repr

/-- The OPEN parameter `MAX_FRAME_BYTES`, less 1: any value of 0..8191, so that `MAX_FRAME_BYTES` is any of 1..8192
(00_scope.md R8, 93_implementation_defined.md U3; log 2). No body: nothing can be proved of its value. -/
opaque Config.openFrameBytes : Fin 8192

/-- The OPEN parameter `ABORT_POLICY` (00_scope.md R8, 93_implementation_defined.md U2; log 3). No body. -/
opaque Config.openAbortPolicy : AbortPolicy

/-- The free values ("draws") of 20_memory.md R64, 44_control.md R195 and 60_exceptions.md R217: the k-th draw of a run is `freeWord k`
for the counter `State.draws` (logs 3, 11, 13, 14). No body: a claim about a draw holds for every value of it. -/
opaque Config.freeWord : Nat → Word

end Sys2Proof
end

