-- ==== Sys2Proof/Syntax.lean ====
section
/-! DEFINITION. The commands of the block: one constructor for each row of spec/opcode_table.json (30_encoding.md R71, R72). -/

namespace Sys2Proof

/-- Coding mode of mantissas: 0 = VLC (Huffman), 1 = CLC (constant length) (30_encoding.md R87, R88). -/
inductive CodingMode where
  | vlc
  | clc
deriving DecidableEq, Repr

/-- A command with its operand fields, each an unsigned field of the command word (30_encoding.md R73). An operand may hold any value of
its field; `Instr.wf` says which values are legal. -/
inductive Instr where
  /-- RDBITS: read `n` unsigned bits (40_bitread.md R102). -/
  | rdbits (n : BitVec 6)
  /-- RDSBITS: read `n` signed bits (40_bitread.md R105). -/
  | rdsbits (n : BitVec 6)
  /-- RDBIT: read one bit (40_bitread.md R107). -/
  | rdbit
  /-- HUFF: decode one symbol of Huffman table `t` (40_bitread.md R112). -/
  | huff (t : BitVec 3)
  /-- MANT: extract `cnt` mantissas with selector `sel` (41_mantissa.md R130). -/
  | mant (sel : BitVec 3) (mode : CodingMode) (cnt : BitVec 8)
  /-- SPECTRUM: parse one spectral block (42_spectrum.md R144). -/
  | spectrum
  /-- TONAL: parse one tonal-component block for QMF bands 0..`nb` (43_tonal.md R166). -/
  | tonal (nb : BitVec 2)
deriving DecidableEq, Repr

end Sys2Proof
end

