-- ==== Sys2Proof/WellFormed.lean ====
section
/-! DEFINITION. The legal operand values of each command (30_encoding.md R72, R90). -/

namespace Sys2Proof

/-- The operand values are legal: the "legal values" column of 30_encoding.md R72. -/
def Instr.wf : Instr → Bool
  | .rdbits n => decide (n.toNat ≤ 32)
  | .rdsbits n => decide (1 ≤ n.toNat) && decide (n.toNat ≤ 32)
  | .rdbit => true
  | .huff t => decide (1 ≤ t.toNat)
  | .mant sel _ cnt =>
    decide (1 ≤ sel.toNat) && decide (1 ≤ cnt.toNat) && decide (cnt.toNat ≤ 128) &&
      (decide (sel.toNat ≠ 1) || decide (cnt.toNat % 2 = 0))
  | .spectrum => true
  | .tonal _ => true

end Sys2Proof
end

