-- ==== Sys2Proof/Decode.lean ====
section
/-! DEFINITION. The command word (30_encoding.md part 1): a total decoder that rejects by name, and the encoder written from the same
bit patterns. -/

namespace Sys2Proof

/-- Why a word is no command (30_encoding.md R90). Each raises E_ILLEGAL_CMD when the word is issued. -/
inductive IllegalWord where
  /-- OP is 0x0 or 0x8..0xF. -/
  | reservedOpcode
  /-- A bit outside the opcode's operand fields is set. -/
  | reservedBits
  /-- An operand field holds an illegal value. -/
  | illegalField
deriving DecidableEq, Repr

/-- The coding mode a MODE field selects: 0 = VLC, 1 = CLC (30_encoding.md R87). -/
def CodingMode.ofField (v : Nat) : CodingMode :=
  if v % 2 = 0 then .vlc else .clc

/-- The MODE bit of a coding mode (30_encoding.md R87). -/
def CodingMode.bit : CodingMode → Bool
  | .vlc => false
  | .clc => true

/-- A command whose word has the row's bit pattern, provided its field values are legal (30_encoding.md R72, R90). -/
def legalOnly (i : Instr) : Except IllegalWord Instr :=
  if i.wf then .ok i else .error .illegalField

/-- The opcode, bits 31..28 (30_encoding.md R70). -/
def opcodeOf (w : Word) : Nat := (w.extractLsb' 28 4).toNat

/-- The command a word stands for. Each test is the row's match and mask of 30_encoding.md R72; the fields are those of R73. -/
def decode (w : Word) : Except IllegalWord Instr :=
  if w &&& 0xFFFFFFC0#32 = 0x10000000#32 then legalOnly (.rdbits (w.extractLsb' 0 6))
  else if w &&& 0xFFFFFFC0#32 = 0x20000000#32 then legalOnly (.rdsbits (w.extractLsb' 0 6))
  else if w = 0x30000000#32 then legalOnly .rdbit
  else if w &&& 0xFFFFFFF8#32 = 0x40000000#32 then legalOnly (.huff (w.extractLsb' 0 3))
  else if w &&& 0xFFFFF000#32 = 0x50000000#32 then
    legalOnly (.mant (w.extractLsb' 0 3) (CodingMode.ofField (w.extractLsb' 3 1).toNat) (w.extractLsb' 4 8))
  else if w = 0x60000000#32 then legalOnly .spectrum
  else if w &&& 0xFFFFFFFC#32 = 0x70000000#32 then legalOnly (.tonal (w.extractLsb' 0 2))
  else if 1 ≤ opcodeOf w ∧ opcodeOf w ≤ 7 then .error .reservedBits
  else .error .reservedOpcode

/-- The word of a command: its row's match bits and its fields in their places (30_encoding.md R72, R73). -/
def encode : Instr → Word
  | .rdbits n => 0x10000000#32 ||| n.setWidth 32
  | .rdsbits n => 0x20000000#32 ||| n.setWidth 32
  | .rdbit => 0x30000000#32
  | .huff t => 0x40000000#32 ||| t.setWidth 32
  | .mant sel mode cnt =>
    0x50000000#32 ||| sel.setWidth 32 ||| ((BitVec.ofBool mode.bit).setWidth 32 <<< 3) ||| (cnt.setWidth 32 <<< 4)
  | .spectrum => 0x60000000#32
  | .tonal nb => 0x70000000#32 ||| nb.setWidth 32

/-- The command read from a table word whose bits above `nbits` are 0. A command is one 32-bit word (30_encoding.md R70). -/
def decodeTableWord (nbits w : Nat) : Option Instr :=
  (decode (BitVec.ofNat 32 (w % 2 ^ nbits))).toOption

end Sys2Proof
end

