-- ==== Sys2Proof/Machine/State.lean ====
section
/-! DEFINITION. The architectural state of ENTROPY_DECODER as plain data (10_state.md), the moves the outside world can make, the error
codes, the reasons a step can stop, and the state after power-on reset (70_reset_and_hazards.md R240). -/

namespace Sys2Proof.Machine

/-- A buffer with unwritten entries: (index, contents) pairs, indices strictly rising. An index that is not listed has never been written
and holds no value (10_state.md R41; logs 12, 26). -/
abbrev Memory (α : Type) := List (Nat × α)

/-- Width of a host access (20_memory.md R58). -/
inductive Width where
  | w8
  | w16
  | w32
deriving DecidableEq, Repr

/-- One host access to the window: an offset from the block's base address (20_memory.md R56) and, for a write, the data, of which a
narrow access uses the low bits. -/
inductive HostOp where
  | read (off : Nat) (w : Width)
  | write (off : Nat) (w : Width) (v : Word)
deriving DecidableEq, Repr

/-- One move: who acts next (10_state.md R20, R21, 20_memory.md R63; log 1). -/
inductive Turn where
  /-- The sequencer takes its step; it does nothing when no command is pending. -/
  | sequencer
  /-- The host makes one access. -/
  | host (op : HostOp)
  /-- The platform applies power-on reset (70_reset_and_hazards.md R240; log 21). -/
  | powerOn
deriving DecidableEq, Repr

/-- The errors a command can end with (60_exceptions.md R211). -/
inductive Err where
  | illegalCmd
  | overrun
  | tonalMode
  | tonalQstep
  | tonalCap
  | badCode
deriving DecidableEq, Repr

/-- A register of the register window (10_state.md R24). -/
inductive Reg where
  | cmd
  | status
  | ctrl
  | bitpos
  | bitlen
  | result
  | specinfo
  | tccount
  | errpos
deriving DecidableEq, Repr

/-- A field of a tonal-component entry (10_state.md R40, 20_memory.md R56). -/
inductive TcField where
  | pos
  | ncoef
  | sfi
  | qstep
  | mant (m : Nat)
deriving DecidableEq, Repr

/-- The machine's state. -/
structure State where
  /-- STATUS.BUSY (10_state.md R26). -/
  busy : Bool
  /-- STATUS.DONE (R26). -/
  done : Bool
  /-- STATUS.ERR (R26). -/
  err : Bool
  /-- STATUS.OVR (R26). -/
  ovr : Bool
  /-- STATUS.ERRCODE (R26, 60_exceptions.md R211). -/
  errcode : BitVec 4
  /-- CTRL.IE (10_state.md R27). -/
  ie : Bool
  /-- BITPOS.POS (R28). -/
  bitpos : BitPos
  /-- BITLEN.LEN (R29). -/
  bitlen : BitPos
  /-- RESULT (R30). -/
  result : Word
  /-- SPECINFO.NSB (R31). -/
  nsb : BitVec 5
  /-- SPECINFO.MODE (R31). -/
  specMode : Bool
  /-- TCCOUNT.COUNT (R32). -/
  tccount : BitVec 7
  /-- ERRPOS (R33). -/
  errpos : BitPos
  /-- PENDING, the latched command word (R34). -/
  pending : Word
  /-- FB, the frame buffer, by byte address (R36). -/
  fb : Memory Byte
  /-- QM, the quantized-mantissa spectrum, by spectral line (R37). -/
  qm : Memory Word
  /-- SEL, the subband selectors, by subband (R38). -/
  sel : Memory Word
  /-- SFI, the scale-factor indices, by subband (R38). -/
  sfi : Memory Word
  /-- MBUF, the mantissa scratch buffer (R39). -/
  mbuf : Memory Word
  /-- TC, the tonal-component list: field `f` of entry `k` at index `tcIndex k f` (R40; log 26). -/
  tc : Memory Word
  /-- The model's own: the index of the next free value (log 11). -/
  draws : Nat
  /-- The model's own: what the last host read returned (log 11). -/
  rdata : Word
  /-- The model's own: the moves to come, the next one first (logs 1, 11). -/
  agenda : List Turn
deriving DecidableEq, Repr

/-- Why the run stops. Each is safe: the hardware goes on where the model stops, and 60_exceptions.md R224 says that such a run has no
meaning (logs 12, 17). -/
inductive Fault where
  /-- Raised by a command that reads a bit of a frame-buffer byte nothing has written (10_state.md R41). Safe. -/
  | fbUnwritten
  /-- Raised by a host read of a frame-buffer byte or an output-buffer entry nothing has written (10_state.md R41). Safe. -/
  | hostReadUnwritten
  /-- Raised by a host access of a width its region does not allow (20_memory.md R58, R59). Safe. -/
  | hostBadWidth
  /-- Raised by a host access at an offset that is no multiple of its width (20_memory.md R58, R59). Safe. -/
  | hostMisaligned
  /-- Raised by a host access outside the window 0x0000..0x7FFF (20_memory.md R56, 93_implementation_defined.md U10). Safe. -/
  | hostOutsideWindow
deriving DecidableEq, Repr

/-- Why an instruction has no meaning in the model. -/
inductive Refusal where
  /-- Raised by `exec` for an instruction without a meaning; no arm of this model raises it. Safe. -/
  | notModelled (mnemonic : String)
deriving DecidableEq, Repr

/-- The machine right after power-on reset (70_reset_and_hazards.md R240). PENDING, which the spec leaves unspecified, is 0
(DESIGN CHOICE, log 10); the model's own fields are 0 and empty (DESIGN CHOICE, log 11). -/
def State.reset : State :=
  { busy := false, done := false, err := false, ovr := false, errcode := 0#4, ie := false, bitpos := 0#17, bitlen := 0#17,
    result := 0#32, nsb := 0#5, specMode := false, tccount := 0#7, errpos := 0#17, pending := 0#32, fb := [], qm := [], sel := [],
    sfi := [], mbuf := [], tc := [], draws := 0, rdata := 0#32, agenda := [] }

end Sys2Proof.Machine
end

