-- ==== Sys2Proof/Machine/Tables.lean ====
section
/-! DEFINITION. The read-only tables: their reference contents (30_encoding.md R81 to R85), the canonical assignment of codewords (R80),
the value maps of the mantissa codes (41_mantissa.md R121 to R123), and the machine's configuration. -/

namespace Sys2Proof.Machine

/-- `HUFF_LEN[1..7]` (30_encoding.md R81). -/
def referenceHuffLen : List (List Nat) :=
  [[1, 3, 3, 4, 4, 5, 5, 5, 5],
   [1, 3, 3, 3, 3],
   [1, 3, 3, 4, 4, 4, 4],
   [1, 3, 3, 4, 4, 5, 5, 5, 5],
   [2, 3, 3, 4, 4, 4, 4, 5, 5, 6, 6, 6, 6, 4, 4],
   [3, 4, 4, 4, 4, 4, 4, 5, 5, 5, 5, 5, 5, 6, 6, 6, 6, 6, 6, 6, 6, 7, 7, 7, 7, 7, 7, 7, 7, 4, 4],
   [3, 5, 5, 5, 5, 5, 5, 5, 5, 5, 5, 6, 6, 6, 6, 6, 6, 6, 6, 6, 6, 6, 6, 6, 6, 6, 6] ++
   [7, 7, 7, 7, 7, 7, 7, 7, 7, 7, 7, 7, 7, 7] ++
   [8, 8, 8, 8, 8, 8, 8, 8, 8, 8, 8, 8, 8, 8, 8, 8, 8, 8, 8, 8, 4, 4]]

/-- `SUBBAND_TAB[0..32]` (30_encoding.md R83). -/
def referenceSubbandTab : List Nat :=
  [0, 8, 16, 24, 32, 40, 48, 56] ++ [64, 80, 96, 112, 128, 144, 160, 176] ++
  [192, 224, 256, 288, 320, 352, 384, 416] ++ [448, 480, 512, 576, 640, 704, 768, 896] ++ [1024]

/-- The reference contents of `TABLES` (30_encoding.md R81 to R85), which the spec itself takes from general knowledge (UNVERIFIED, log 4). -/
def referenceTables : Tables :=
  { huffLen := referenceHuffLen
    clcLen := [0, 4, 3, 3, 4, 4, 5, 6]
    pairTab := [(0, 0), (0, 1), (0, -1), (1, 0), (-1, 0), (1, 1), (1, -1), (-1, 1), (-1, -1)]
    clc2Tab := [0, 1, -2, -1]
    subbandTab := referenceSubbandTab }

/-- The configuration of this machine: the two OPEN parameters stay open (logs 2, 3), the two parameters to which 00_scope.md R8 gives a
value have it (logs 4, 5). -/
def machineConfig : Config :=
  { maxFrameBytes := Config.openFrameBytes.val + 1
    tables := referenceTables
    abortPolicy := Config.openAbortPolicy
    sideInfoOrder := .grouped }

/-- A codeword of a Huffman table: `HUFF_CODE[t][sym] = word`, a `len`-bit value (30_encoding.md R80). -/
structure Code where
  sym : Nat
  len : Nat
  word : Nat
deriving DecidableEq, Repr

/-- Puts a (length, symbol) pair in its place in a list sorted by length, then by symbol (30_encoding.md R80). -/
def insertByLength (p : Nat × Nat) : List (Nat × Nat) → List (Nat × Nat)
  | [] => [p]
  | q :: rest => if p.1 < q.1 ∨ (p.1 = q.1 ∧ p.2 ≤ q.2) then p :: q :: rest else q :: insertByLength p rest

/-- The symbols from `s` on whose lengths are listed, sorted by (length, symbol): `order` of 30_encoding.md R80. -/
def canonicalOrder : Nat → List Nat → List (Nat × Nat)
  | _, [] => []
  | s, len :: rest => insertByLength (len, s) (canonicalOrder (s + 1) rest)

/-- The codewords after a codeword `prev` of length `prevLen`, in canonical order (30_encoding.md R80). -/
def assignAfter (prevLen prev : Nat) : List (Nat × Nat) → List Code
  | [] => []
  | (len, s) :: rest =>
    let word := (prev + 1) <<< (len - prevLen)
    { sym := s, len := len, word := word } :: assignAfter len word rest

/-- The codewords in canonical order: the first is all zero (30_encoding.md R80). -/
def assignCodes : List (Nat × Nat) → List Code
  | [] => []
  | (len, s) :: rest => { sym := s, len := len, word := 0 } :: assignAfter len 0 rest

/-- The codewords of a table given by its code lengths (30_encoding.md R80). -/
def canonicalCodes (lens : List Nat) : List Code :=
  assignCodes (canonicalOrder 0 lens)

/-- `HUFF_LEN[t]`, with no symbol for a table number outside 1..7 (log 22). -/
def huffLens (T : Tables) (t : Nat) : List Nat :=
  if t = 0 then [] else T.huffLen.getD (t - 1) []

/-- `HUFF_NSYM[t]` (00_scope.md R13). -/
def huffNsym (T : Tables) (t : Nat) : Nat := (huffLens T t).length

/-- `HUFF_MAXLEN[t]` (00_scope.md R13). -/
def huffMaxLen (T : Tables) (t : Nat) : Nat := (huffLens T t).foldl max 0

/-- The codewords of table `t`. -/
def huffCodes (T : Tables) (t : Nat) : List Code := canonicalCodes (huffLens T t)

/-- The symbol whose codeword has this length and value: "some s has HUFF_LEN[t][s] = len and HUFF_CODE[t][s] = code"
(40_bitread.md R110). -/
def findSymbol (book : List Code) (len word : Nat) : Option Nat :=
  match book with
  | [] => none
  | c :: rest => if c.len = len ∧ c.word = word then some c.sym else findSymbol rest len word

/-- `CLC_LEN[sel]`. -/
def clcWidth (T : Tables) (sel : Nat) : Nat := T.clcLen.getD sel 0

/-- `SUBBAND_TAB[i]`. -/
def subbandStart (T : Tables) (i : Nat) : Nat := T.subbandTab.getD i 0

/-- The number of spectral lines of subband `i` (30_encoding.md R83). -/
def subbandWidth (T : Tables) (i : Nat) : Nat := subbandStart T (i + 1) - subbandStart T i

end Sys2Proof.Machine
end

