-- ==== Sys2Proof/Machine/Ops.lean ====
section
/-! DEFINITION. The operations over buffers and registers, the result of a part of a command (a value, a raise, a fault), and ending a
command: with success (60_exceptions.md R216), and with an error (R214, R217), which is this block's only exception. There is no return
from one (R223). -/

namespace Sys2Proof.Machine

/-! ### Buffers -/

/-- The contents of an entry; none where nothing has been written (10_state.md R41). -/
def Memory.read {α : Type} : Memory α → Nat → Option α
  | [], _ => none
  | (k, v) :: rest, a => if a = k then some v else Memory.read rest a

/-- Writes one entry and keeps the canonical form. -/
def Memory.write {α : Type} : Memory α → Nat → α → Memory α
  | [], a, v => [(a, v)]
  | (k, x) :: rest, a, v =>
    if a < k then (a, v) :: (k, x) :: rest
    else if a = k then (a, v) :: rest
    else (k, x) :: Memory.write rest a v

/-- The pairs (lo, f lo), ..., (lo + n - 1, f (lo + n - 1)). -/
def Memory.block {α : Type} (f : Nat → α) : Nat → Nat → Memory α
  | _, 0 => []
  | lo, n + 1 => (lo, f lo) :: Memory.block f (lo + 1) n

/-- Writes the `n` entries from `lo` on, entry `a` with `f a`, and keeps the canonical form. -/
def Memory.fill {α : Type} (m : Memory α) (lo n : Nat) (f : Nat → α) : Memory α :=
  m.filter (fun p => decide (p.1 < lo)) ++ Memory.block f lo n ++ m.filter (fun p => decide (lo + n ≤ p.1))

/-- The canonical form of a buffer: indices strictly rising. -/
def Memory.wf {α : Type} : Memory α → Bool
  | [] => true
  | [_] => true
  | (a, _) :: (b, v) :: rest => decide (a < b) && Memory.wf ((b, v) :: rest)

/-- Every listed index lies below `bound`. -/
def Memory.below {α : Type} (bound : Nat) (m : Memory α) : Bool :=
  m.all (fun p => decide (p.1 < bound))

/-- Where TC holds field `f` of entry `k`: twelve words an entry (10_state.md R40; log 26). -/
def tcIndex (k : Nat) : TcField → Nat
  | .pos => 12 * k
  | .ncoef => 12 * k + 1
  | .sfi => 12 * k + 2
  | .qstep => 12 * k + 3
  | .mant m => 12 * k + 4 + m

/-- A signed value as a 32-bit two's-complement word (00_scope.md R11, 20_memory.md R68). -/
def wordOfInt (v : Int) : Word := BitVec.ofInt 32 v

/-- An unsigned value as a 32-bit word (20_memory.md R68). -/
def wordOfNat (v : Nat) : Word := BitVec.ofNat 32 v

/-! ### Writes a command makes -/

/-- `BITPOS <- p`. -/
def State.setBitpos (s : State) (p : Nat) : State := { s with bitpos := BitVec.ofNat 17 p }

/-- `SPECINFO.NSB <- n`. -/
def State.setNsb (s : State) (n : Nat) : State := { s with nsb := BitVec.ofNat 5 n }

/-- `SPECINFO.MODE <- m`. -/
def State.setSpecMode (s : State) (m : CodingMode) : State := { s with specMode := m.bit }

/-- `TCCOUNT <- n`. -/
def State.setTccount (s : State) (n : Nat) : State := { s with tccount := BitVec.ofNat 7 n }

/-- `QM[i] <- v`. -/
def State.writeQm (s : State) (i : Nat) (v : Int) : State := { s with qm := s.qm.write i (wordOfInt v) }

/-- `QM[j] <- 0` for the `n` lines from `lo` on. -/
def State.zeroQm (s : State) (lo n : Nat) : State := { s with qm := s.qm.fill lo n (fun _ => 0#32) }

/-- `SEL[i] <- v`. -/
def State.writeSel (s : State) (i v : Nat) : State := { s with sel := s.sel.write i (wordOfNat v) }

/-- `SFI[i] <- v`. -/
def State.writeSfi (s : State) (i v : Nat) : State := { s with sfi := s.sfi.write i (wordOfNat v) }

/-- `SEL[i] <- 0; SFI[i] <- 0` for the `n` subbands from `lo` on. -/
def State.zeroSide (s : State) (lo n : Nat) : State :=
  { s with sel := s.sel.fill lo n (fun _ => 0#32), sfi := s.sfi.fill lo n (fun _ => 0#32) }

/-- `MBUF[i] <- v`. -/
def State.writeMbuf (s : State) (i : Nat) (v : Int) : State := { s with mbuf := s.mbuf.write i (wordOfInt v) }

/-- `TC[k].f <- v`. -/
def State.writeTc (s : State) (k : Nat) (f : TcField) (v : Int) : State :=
  { s with tc := s.tc.write (tcIndex k f) (wordOfInt v) }

/-- `TC[k].MANT[m] <- 0` for the `n` coefficients from `lo` on. -/
def State.zeroTcMant (s : State) (k lo n : Nat) : State :=
  { s with tc := s.tc.fill (tcIndex k (.mant lo)) n (fun _ => 0#32) }

/-! ### A part of a command -/

/-- How a part of a command ends: with a value, with `raise E_X(info)` (00_scope.md R12), or with a fault of the model. -/
inductive Res (α : Type) where
  | ok (a : α) (s : State)
  | raise (e : Err) (info : BitPos) (s : State)
  | fault (f : Fault)

/-- Goes on with `k` after a value; a raise or a fault ends the command, and nothing after it executes (00_scope.md R12). -/
def Res.andThen {α β : Type} (r : Res α) (k : α → State → Res β) : Res β :=
  match r with
  | .ok a s => k a s
  | .raise e info s => .raise e info s
  | .fault f => .fault f

/-! ### Ending a command -/

/-- The number of an error in STATUS.ERRCODE (60_exceptions.md R211). -/
def Err.code : Err → BitVec 4
  | .illegalCmd => 1#4
  | .overrun => 2#4
  | .tonalMode => 3#4
  | .tonalQstep => 4#4
  | .tonalCap => 5#4
  | .badCode => 6#4

/-- The end of a command without error (60_exceptions.md R216), RESULT written (10_state.md R30). ERRCODE is not written: it was cleared
at issue (log 24). -/
def State.endOk (s : State) (r : Word) : State :=
  { s with busy := false, done := true, err := false, result := r }

/-- `raise E_X(info)`: the registers an error writes (60_exceptions.md R214). -/
def State.endErr (s : State) (e : Err) (info : BitPos) : State :=
  { s with busy := false, err := true, done := false, errcode := e.code, errpos := info }

/-- Draws for MBUF[0..n-1]. -/
def State.drawMbuf (s : State) (n : Nat) : State :=
  { s with mbuf := s.mbuf.fill 0 n (fun i => Config.freeWord (s.draws + i)), draws := s.draws + n }

/-- Draws for everything SPECTRUM can write: QM, SEL, SFI and SPECINFO. -/
def State.drawSpectrum (s : State) : State :=
  { s with
    qm := s.qm.fill 0 1024 (fun i => Config.freeWord (s.draws + i))
    sel := s.sel.fill 0 32 (fun i => Config.freeWord (s.draws + 1024 + i))
    sfi := s.sfi.fill 0 32 (fun i => Config.freeWord (s.draws + 1056 + i))
    nsb := (Config.freeWord (s.draws + 1088)).setWidth 5
    specMode := (Config.freeWord (s.draws + 1089)).getLsbD 0
    draws := s.draws + 1090 }

/-- Draws for everything TONAL can write: the 768 words of TC, and TCCOUNT. -/
def State.drawTonal (s : State) : State :=
  { s with
    tc := s.tc.fill 0 768 (fun i => Config.freeWord (s.draws + i))
    tccount := (Config.freeWord (s.draws + 768)).setWidth 7
    draws := s.draws + 769 }

/-- Draws for every output the command's rule can write (60_exceptions.md R217, 44_control.md R195; logs 3, 14, 16). A command with
an illegal operand writes nothing (30_encoding.md R90; log 15). -/
def State.drawOutputs (s : State) (i : Instr) : State :=
  if i.wf then
    match i with
    | .rdbits _ => s
    | .rdsbits _ => s
    | .rdbit => s
    | .huff _ => s
    | .mant _ _ cnt => s.drawMbuf cnt.toNat
    | .spectrum => s.drawSpectrum
    | .tonal _ => s.drawTonal
  else s

/-- What an error leaves in the outputs of command `i` (60_exceptions.md R217): under LEAVE_MUTATED what its pseudocode wrote, under ANY
a draw for each. -/
def State.applyAbortPolicy (c : Config) (i : Instr) (s : State) : State :=
  match c.abortPolicy with
  | .leaveMutated => s
  | .any => s.drawOutputs i

/-- Taking an error: the registers it writes, and the outputs of the command as the abort policy leaves them (60_exceptions.md R210,
R214, R217). -/
def takeError (c : Config) (i : Instr) (e : Err) (info : BitPos) (s : State) : State :=
  (s.endErr e info).applyAbortPolicy c i

/-- E_ILLEGAL_CMD, raised before any bit is read: BITPOS and every output stay (30_encoding.md R90, 60_exceptions.md R215; log 15). -/
def illegalCommand (s : State) : Host.Outcome State Fault Refusal :=
  .next (s.endErr .illegalCmd s.bitpos)

/-- The end of command `i`, whose pseudocode came out as `r` with the value it writes to RESULT. -/
def endCommand (c : Config) (i : Instr) (r : Res Word) : Host.Outcome State Fault Refusal :=
  match r with
  | .ok v s => .next (s.endOk v)
  | .raise e info s => .next (takeError c i e info s)
  | .fault f => .fault f

end Sys2Proof.Machine
end

