-- ==== Sys2Proof/Machine/Flags.lean ====
section
/-! DEFINITION. STATUS, CTRL and the interrupt output: the views of the registers (10_state.md R26, R27, R31), `irq` (60_exceptions.md
R220), and the flag effects of host writes (44_control.md R190 to R197). -/

namespace Sys2Proof.Machine

/-- STATUS as the host reads it (10_state.md R26): bits 31..8 reserved, ERRCODE, OVR, ERR, DONE, BUSY. -/
def statusWord (s : State) : Word :=
  0#24 ++ s.errcode ++ BitVec.ofBool s.ovr ++ BitVec.ofBool s.err ++ BitVec.ofBool s.done ++ BitVec.ofBool s.busy

/-- CTRL as the host reads it (10_state.md R27): SRST reads 0. -/
def ctrlWord (s : State) : Word := 0#31 ++ BitVec.ofBool s.ie

/-- SPECINFO as the host reads it (10_state.md R31): MODE in bit 8, NSB in bits 4..0. -/
def specinfoWord (s : State) : Word := 0#23 ++ BitVec.ofBool s.specMode ++ 0#3 ++ s.nsb

/-- The completion interrupt output: `irq = CTRL.IE & (STATUS.DONE | STATUS.ERR)` (60_exceptions.md R220, 10_state.md R35). -/
def irq (s : State) : Bool := s.ie && (s.done || s.err)

/-- A host write was ignored because BUSY = 1 (44_control.md R191, R192). -/
def State.setOvr (s : State) : State := { s with ovr := true }

/-- A command is issued (44_control.md R190). -/
def State.issue (s : State) (w : Word) : State :=
  { s with pending := w, done := false, err := false, errcode := 0#4, busy := true }

/-- WR STATUS: a 1 clears DONE, ERR or OVR (44_control.md R193). -/
def State.ackStatus (s : State) (v : Word) : State :=
  { s with done := s.done && !v.getLsbD 1, err := s.err && !v.getLsbD 2, ovr := s.ovr && !v.getLsbD 3 }

/-- WR CTRL with SRST = 0 (44_control.md R197). -/
def State.setIe (s : State) (b : Bool) : State := { s with ie := b }

/-- WR BITLEN: `BITLEN <- min(v[16:0], 8 * MAX_FRAME_BYTES)` (44_control.md R194). -/
def State.setBitlen (c : Config) (s : State) (v : Word) : State :=
  { s with bitlen := BitVec.ofNat 17 (min (v.extractLsb' 0 17).toNat (8 * c.maxFrameBytes)) }

/-- A pending command is abandoned: every output its rule may write takes any value (44_control.md R195; log 14). -/
def State.abandon (s : State) : State :=
  if s.busy then
    match decode s.pending with
    | .ok i => s.drawOutputs i
    | .error _ => s
  else s

/-- The registers a reset clears (44_control.md R195, 70_reset_and_hazards.md R242). -/
def State.clearRegisters (s : State) : State :=
  { s with busy := false, done := false, err := false, ovr := false, errcode := 0#4, ie := false, bitpos := 0#17, bitlen := 0#17,
           result := 0#32, nsb := 0#5, specMode := false, tccount := 0#7, errpos := 0#17 }

/-- WR CTRL with SRST = 1: the soft reset (44_control.md R195). FB and the output buffers keep their contents. -/
def State.softReset (s : State) : State := s.abandon.clearRegisters

end Sys2Proof.Machine
end

