-- ==== Sys2Proof/Machine/HostBus.lean ====
section
/-! DEFINITION. The host window (20_memory.md R56 to R59) and what each host access does (44_control.md R190 to R198). -/

namespace Sys2Proof.Machine

/-- The bytes of an access. -/
def Width.bytes : Width → Nat
  | .w8 => 1
  | .w16 => 2
  | .w32 => 4

/-- What an offset of the window addresses (20_memory.md R56). -/
inductive Region where
  | reg (r : Reg)
  /-- Byte `a` of FB. -/
  | fb (a : Nat)
  | qm (i : Nat)
  | sel (i : Nat)
  | sfi (i : Nat)
  | mbuf (i : Nat)
  | tc (k : Nat) (f : TcField)
  /-- The reserved words of a TC entry. -/
  | tcReserved
  /-- A reserved offset that 44_control.md R192 names: above FB, below 0x3000. -/
  | aboveFb
  | reserved
deriving DecidableEq, Repr

/-- The register of the k-th word of the register window (10_state.md R24). -/
def regAt : Nat → Reg
  | 0 => .cmd
  | 1 => .status
  | 2 => .ctrl
  | 3 => .bitpos
  | 4 => .bitlen
  | 5 => .result
  | 6 => .specinfo
  | 7 => .tccount
  | _ => .errpos

/-- The offset of a register (10_state.md R24). -/
def Reg.offset : Reg → Nat
  | .cmd => 0x000
  | .status => 0x004
  | .ctrl => 0x008
  | .bitpos => 0x00C
  | .bitlen => 0x010
  | .result => 0x014
  | .specinfo => 0x018
  | .tccount => 0x01C
  | .errpos => 0x020

/-- The field of the k-th word of a TC entry, k below 12 (20_memory.md R56). -/
def tcFieldAt : Nat → TcField
  | 0 => .pos
  | 1 => .ncoef
  | 2 => .sfi
  | 3 => .qstep
  | m + 4 => .mant m

/-- The host window map (20_memory.md R56), by the offset of an access's first byte. The offsets above FB are reserved (R57, R58);
44_control.md R192 names those of them below 0x3000 (log 18). -/
def regionOf (c : Config) (off : Nat) : Region :=
  if off < 0x24 then .reg (regAt (off / 4))
  else if off < 0x1000 then .reserved
  else if off < 0x1000 + c.maxFrameBytes then .fb (off - 0x1000)
  else if off < 0x3000 then .aboveFb
  else if off < 0x4000 then .reserved
  else if off < 0x5000 then .qm ((off - 0x4000) / 4)
  else if off < 0x5080 then .sel ((off - 0x5000) / 4)
  else if off < 0x5100 then .sfi ((off - 0x5080) / 4)
  else if off < 0x5300 then .mbuf ((off - 0x5100) / 4)
  else if off < 0x6000 then .reserved
  else if off < 0x7000 then
    if (off - 0x6000) % 64 / 4 < 12 then .tc ((off - 0x6000) / 64) (tcFieldAt ((off - 0x6000) % 64 / 4)) else .tcReserved
  else .reserved

/-- The region takes accesses of any width: FB and the reserved offsets; a register or an output word takes 32 bits only
(20_memory.md R58; log 17). -/
def Region.anyWidth : Region → Bool
  | .fb _ => true
  | .aboveFb => true
  | .reserved => true
  | .reg _ => false
  | .qm _ => false
  | .sel _ => false
  | .sfi _ => false
  | .mbuf _ => false
  | .tc _ _ => false
  | .tcReserved => false

/-- The host protocol violation of an access, if it is one (20_memory.md R58, R59, 60_exceptions.md R224; log 17). -/
def accessFault (c : Config) (off : Nat) (w : Width) : Option Fault :=
  if 0x8000 ≤ off then some .hostOutsideWindow
  else if off % w.bytes ≠ 0 then some .hostMisaligned
  else if w = .w32 ∨ (regionOf c off).anyWidth then none
  else some .hostBadWidth

/-- A register's current value, reserved bits 0 (44_control.md R196). -/
def regWord (s : State) : Reg → Word
  | .cmd => 0#32
  | .status => statusWord s
  | .ctrl => ctrlWord s
  | .bitpos => s.bitpos.setWidth 32
  | .bitlen => s.bitlen.setWidth 32
  | .result => s.result
  | .specinfo => specinfoWord s
  | .tccount => s.tccount.setWidth 32
  | .errpos => s.errpos.setWidth 32

/-- The registers a command writes as it goes, whose reads while BUSY = 1 are draws (20_memory.md R64, 44_control.md R196). -/
def Reg.drawnWhileBusy : Reg → Bool
  | .result => true
  | .specinfo => true
  | .tccount => true
  | .errpos => true
  | .bitpos => true
  | .cmd => false
  | .status => false
  | .ctrl => false
  | .bitlen => false

/-- The host reads `v`. -/
def State.setRdata (s : State) (v : Word) : State := { s with rdata := v }

/-- The host reads a draw (20_memory.md R64; log 13). -/
def State.drawRdata (s : State) : State := { s with rdata := Config.freeWord s.draws, draws := s.draws + 1 }

/-- `n` bytes from FB address `a` on, the lowest address in the low bits (20_memory.md R55); bytes past FB read 0 (R58); none where a byte
is unwritten. -/
def fbLoad (c : Config) (s : State) : Nat → Nat → Option Nat
  | _, 0 => some 0
  | a, n + 1 =>
    match (if a < c.maxFrameBytes then s.fb.read a else some 0#8), fbLoad c s (a + 1) n with
    | some b, some rest => some (b.toNat + 256 * rest)
    | _, _ => none

/-- Stores the low `n` bytes of `v` from FB address `a` on (20_memory.md R55); bytes past FB are ignored (R58). -/
def fbStore (c : Config) : Nat → Nat → Nat → Memory Byte → Memory Byte
  | _, 0, _, m => m
  | a, n + 1, v, m =>
    fbStore c (a + 1) n (v / 256) (if a < c.maxFrameBytes then m.write a (BitVec.ofNat 8 v) else m)

/-- A host write to FB while BUSY = 0 (44_control.md R198). -/
def State.storeFb (c : Config) (s : State) (a n v : Nat) : State := { s with fb := fbStore c a n v s.fb }

/-- A host read of an output-buffer word: a fault where nothing has been written, whether BUSY is 0 or 1 (60_exceptions.md R224,
10_state.md R41; log 13), else a draw while BUSY = 1 (20_memory.md R64), and the stored word while BUSY = 0 (44_control.md R198). -/
def readOutput (s : State) (v : Option Word) : Host.Outcome State Fault Refusal :=
  match v with
  | none => .fault .hostReadUnwritten
  | some x => if s.busy then .next s.drawRdata else .next (s.setRdata x)

/-- A host read that breaks no rule of access (44_control.md R196, R198, 20_memory.md R57). -/
def readRegion (c : Config) (r : Region) (w : Width) (s : State) : Host.Outcome State Fault Refusal :=
  match r with
  | .reg g => if s.busy && g.drawnWhileBusy then .next s.drawRdata else .next (s.setRdata (regWord s g))
  | .fb a =>
    match fbLoad c s a w.bytes with
    | some v => .next (s.setRdata (wordOfNat v))
    | none => .fault .hostReadUnwritten
  | .qm i => readOutput s (s.qm.read i)
  | .sel i => readOutput s (s.sel.read i)
  | .sfi i => readOutput s (s.sfi.read i)
  | .mbuf i => readOutput s (s.mbuf.read i)
  | .tc k f => readOutput s (s.tc.read (tcIndex k f))
  | .tcReserved => .next (s.setRdata 0#32)
  | .aboveFb => .next (s.setRdata 0#32)
  | .reserved => .next (s.setRdata 0#32)

/-- A host write of a register (44_control.md R190 to R197); read-only registers ignore it (log 19). -/
def writeReg (c : Config) (g : Reg) (v : Word) (s : State) : State :=
  match g with
  | .cmd => if s.busy then s.setOvr else s.issue v
  | .status => s.ackStatus v
  | .ctrl => if v.getLsbD 1 then s.softReset else s.setIe (v.getLsbD 0)
  | .bitpos => if s.busy then s.setOvr else s.setBitpos (v.extractLsb' 0 17).toNat
  | .bitlen => if s.busy then s.setOvr else s.setBitlen c v
  | .result => s
  | .specinfo => s
  | .tccount => s
  | .errpos => s

/-- A host write that breaks no rule of access (44_control.md R190 to R198, 20_memory.md R57; above FB while BUSY = 1, R192, log 18). -/
def writeRegion (c : Config) (r : Region) (w : Width) (v : Word) (s : State) : State :=
  match r with
  | .reg g => writeReg c g v s
  | .fb a => if s.busy then s.setOvr else s.storeFb c a w.bytes v.toNat
  | .qm _ => s
  | .sel _ => s
  | .sfi _ => s
  | .mbuf _ => s
  | .tc _ _ => s
  | .tcReserved => s
  | .aboveFb => if s.busy then s.setOvr else s
  | .reserved => s

/-- One host access (20_memory.md R63). -/
def hostAccess (c : Config) (op : HostOp) (s : State) : Host.Outcome State Fault Refusal :=
  match op with
  | .read off w =>
    match accessFault c off w with
    | some f => .fault f
    | none => readRegion c (regionOf c off) w s
  | .write off w v =>
    match accessFault c off w with
    | some f => .fault f
    | none => .next (writeRegion c (regionOf c off) w v s)

end Sys2Proof.Machine
end

