-- ==== Sys2Proof/Machine/Operands.lean ====
section
/-! DEFINITION. How a command reads its operands from the bitstream: single bits (20_memory.md R52), fields (R53, 40_bitread.md R100,
R104), Huffman symbols (R110), and the values a mantissa code stands for (41_mantissa.md R120 to R123). -/

namespace Sys2Proof.Machine

/-- `Bit(p)`: bit `7 - (p mod 8)` of byte `FB[p div 8]` (20_memory.md R52); none where the byte is unwritten. -/
def fbBit (s : State) (p : Nat) : Option Bool :=
  (s.fb.read (p / 8)).map (fun b => b.getLsbD (7 - p % 8))

/-- The value of the field of `n` bits at position `p`, the first bit most significant (20_memory.md R53); none where one of its bytes is
unwritten. -/
def fieldAt (s : State) (p : Nat) : Nat → Option Nat
  | 0 => some 0
  | n + 1 =>
    match fieldAt s p n, fbBit s (p + n) with
    | some v, some b => some (2 * v + b.toNat)
    | _, _ => none

/-- `ReadBits(n)` (40_bitread.md R100): the whole field or nothing is consumed. -/
def readBits (n : Nat) (s : State) : Res Nat :=
  if s.bitlen.toNat < s.bitpos.toNat + n then .raise .overrun s.bitpos s
  else
    match fieldAt s s.bitpos.toNat n with
    | none => .fault .fbUnwritten
    | some v => .ok v (s.setBitpos (s.bitpos.toNat + n))

/-- `sext_n(v)`: the n-bit field `v` as two's complement (00_scope.md R11). -/
def sext (n v : Nat) : Int :=
  if v.testBit (n - 1) then (v : Int) - 2 ^ n else v

/-- `ReadSBits(n) = sext_n(ReadBits(n))` (40_bitread.md R104). -/
def readSBits (n : Nat) (s : State) : Res Int :=
  (readBits n s).andThen fun v s1 => .ok (sext n v) s1

/-- The loop of `HuffDecode` (40_bitread.md R110) after `len` bits with the value `word`, `more` bits short of HUFF_MAXLEN. BITPOS stays at
the first bit of the codeword until a symbol is found. -/
def huffLoop (book : List Code) (s : State) : Nat → Nat → Nat → Res Nat
  | 0, _, _ => .raise .badCode s.bitpos s
  | more + 1, len, word =>
    if s.bitlen.toNat < s.bitpos.toNat + len + 1 then .raise .overrun s.bitpos s
    else
      match fbBit s (s.bitpos.toNat + len) with
      | none => .fault .fbUnwritten
      | some b =>
        match findSymbol book (len + 1) (2 * word + b.toNat) with
        | some sym => .ok sym (s.setBitpos (s.bitpos.toNat + len + 1))
        | none => huffLoop book s more (len + 1) (2 * word + b.toNat)

/-- `HuffDecode(t)` (40_bitread.md R110). -/
def huffDecode (T : Tables) (t : Nat) (s : State) : Res Nat :=
  huffLoop (huffCodes T t) s (huffMaxLen T t) 0 0

/-- `VlcValue(s)` (41_mantissa.md R121). -/
def vlcValue (sym : Nat) : Int :=
  if (sym + 1) % 2 = 0 then (((sym + 1) / 2 : Nat) : Int) else -(((sym + 1) / 2 : Nat) : Int)

/-- The mantissas one code carries: two for selector 1, one for every other selector (41_mantissa.md R120). -/
def perCode (sel : Nat) : Nat := if sel = 1 then 2 else 1

/-- The number of codes that carry `cnt` mantissas (41_mantissa.md R120). -/
def codeCount (sel cnt : Nat) : Nat := if sel = 1 then cnt / 2 else cnt

/-- The mantissas of a code, the first one first, from its field (CLC) or its Huffman symbol (VLC) (41_mantissa.md R120 to R123). -/
def codeValues (T : Tables) (sel : Nat) (mode : CodingMode) (raw : Nat) : List Int :=
  match mode with
  | .clc =>
    if sel = 1 then [T.clc2Tab.getD (raw / 4) 0, T.clc2Tab.getD (raw % 4) 0] else [sext (clcWidth T sel) raw]
  | .vlc =>
    if sel = 1 then [(T.pairTab.getD raw (0, 0)).1, (T.pairTab.getD raw (0, 0)).2] else [vlcValue raw]

/-- Reads one mantissa code: a field of `CLC_LEN[sel]` bits, of which a field of width 0 reads nothing, or a symbol of the table whose
number is the selector (41_mantissa.md R120). -/
def readCode (T : Tables) (sel : Nat) (mode : CodingMode) (s : State) : Res Nat :=
  match mode with
  | .clc => if clcWidth T sel = 0 then .ok 0 s else readBits (clcWidth T sel) s
  | .vlc => huffDecode T sel s

/-- Delivers mantissas to `dst` from index `k` on, in increasing order (41_mantissa.md R120). -/
def deliver (dst : Nat → Int → State → State) : Nat → List Int → State → State
  | _, [], s => s
  | k, v :: rest, s => deliver dst (k + 1) rest (dst k v s)

/-- `n` mantissa codes, the mantissas delivered as soon as their code is read, from index `k` on (41_mantissa.md R120). -/
def mantCodes (T : Tables) (sel : Nat) (mode : CodingMode) (dst : Nat → Int → State → State) : Nat → Nat → State → Res Unit
  | 0, _, s => .ok () s
  | n + 1, k, s =>
    (readCode T sel mode s).andThen fun raw s1 =>
      mantCodes T sel mode dst n (k + perCode sel) (deliver dst k (codeValues T sel mode raw) s1)

/-- `MantExtract(sel, mode, cnt, dst)` (41_mantissa.md R120). -/
def mantExtract (T : Tables) (sel : Nat) (mode : CodingMode) (cnt : Nat) (dst : Nat → Int → State → State) (s : State) : Res Unit :=
  mantCodes T sel mode dst (codeCount sel cnt) 0 s

end Sys2Proof.Machine
end

