-- ==== Sys2Proof/Machine/BitRead.lean ====
section
/-! DEFINITION. The bit-reader commands RDBITS, RDSBITS, RDBIT and HUFF (40_bitread.md section 2). Each is written for any configuration
(`...With`); the instruction's meaning is that of the machine's own. -/

namespace Sys2Proof.Machine

/-- RDBITS (40_bitread.md R102). -/
def rdbitsWith (c : Config) (n : BitVec 6) (s : State) : Host.Outcome State Fault Refusal :=
  if (Instr.rdbits n).wf then
    endCommand c (.rdbits n) ((readBits n.toNat s).andThen fun v s1 => .ok (wordOfNat v) s1)
  else illegalCommand s

/-- RDSBITS (40_bitread.md R105). -/
def rdsbitsWith (c : Config) (n : BitVec 6) (s : State) : Host.Outcome State Fault Refusal :=
  if (Instr.rdsbits n).wf then
    endCommand c (.rdsbits n) ((readSBits n.toNat s).andThen fun v s1 => .ok (wordOfInt v) s1)
  else illegalCommand s

/-- RDBIT (40_bitread.md R107). -/
def rdbitWith (c : Config) (s : State) : Host.Outcome State Fault Refusal :=
  endCommand c .rdbit ((readBits 1 s).andThen fun v s1 => .ok (wordOfNat v) s1)

/-- HUFF (40_bitread.md R112): RESULT is the raw symbol number. -/
def huffWith (c : Config) (t : BitVec 3) (s : State) : Host.Outcome State Fault Refusal :=
  if (Instr.huff t).wf then
    endCommand c (.huff t) ((huffDecode c.tables t.toNat s).andThen fun v s1 => .ok (wordOfNat v) s1)
  else illegalCommand s

/-- The meaning of RDBITS. -/
def execRdbits (n : BitVec 6) (s : State) : Host.Outcome State Fault Refusal := rdbitsWith machineConfig n s

/-- The meaning of RDSBITS. -/
def execRdsbits (n : BitVec 6) (s : State) : Host.Outcome State Fault Refusal := rdsbitsWith machineConfig n s

/-- The meaning of RDBIT. -/
def execRdbit (s : State) : Host.Outcome State Fault Refusal := rdbitWith machineConfig s

/-- The meaning of HUFF. -/
def execHuff (t : BitVec 3) (s : State) : Host.Outcome State Fault Refusal := huffWith machineConfig t s

end Sys2Proof.Machine
end

