-- ==== Sys2Proof/Machine/Mantissa.lean ====
section
/-! DEFINITION. The MANT command (41_mantissa.md R130). -/

namespace Sys2Proof.Machine

/-- The pseudocode of MANT: the mantissas go to MBUF, and CNT to RESULT (41_mantissa.md R130). -/
def mantBody (c : Config) (sel : Nat) (mode : CodingMode) (cnt : Nat) (s : State) : Res Word :=
  (mantExtract c.tables sel mode cnt (fun k v s1 => s1.writeMbuf k v) s).andThen fun _ s1 => .ok (wordOfNat cnt) s1

/-- MANT (41_mantissa.md R130). -/
def mantWith (c : Config) (sel : BitVec 3) (mode : CodingMode) (cnt : BitVec 8) (s : State) : Host.Outcome State Fault Refusal :=
  if (Instr.mant sel mode cnt).wf then
    endCommand c (.mant sel mode cnt) (mantBody c sel.toNat mode cnt.toNat s)
  else illegalCommand s

/-- The meaning of MANT. -/
def execMant (sel : BitVec 3) (mode : CodingMode) (cnt : BitVec 8) (s : State) : Host.Outcome State Fault Refusal :=
  mantWith machineConfig sel mode cnt s

end Sys2Proof.Machine
end

