-- ==== Sys2Proof/Machine/Spectrum.lean ====
section
/-! DEFINITION. The SPECTRUM command: the parse of one spectral block (42_spectrum.md R144, 30_encoding.md R88). -/

namespace Sys2Proof.Machine

/-- The selectors of `n` subbands from subband `i` on, each written to SEL as it is read (42_spectrum.md R144). -/
def readSelectors : Nat → Nat → State → Res (List Nat)
  | 0, _, s => .ok [] s
  | n + 1, i, s =>
    (readBits 3 s).andThen fun v s1 =>
      (readSelectors n (i + 1) (s1.writeSel i v)).andThen fun rest s2 => .ok (v :: rest) s2

/-- The scale-factor index of subband `i`: read where the subband is coded, else 0 (42_spectrum.md R144, R145). -/
def readIndex (i sel : Nat) (s : State) : Res Unit :=
  if sel = 0 then .ok () (s.writeSfi i 0)
  else (readBits 6 s).andThen fun v s1 => .ok () (s1.writeSfi i v)

/-- The scale-factor indices of the subbands from `i` on, given their selectors (42_spectrum.md R144). -/
def readIndices : List Nat → Nat → State → Res Unit
  | [], _, s => .ok () s
  | sel :: rest, i, s => (readIndex i sel s).andThen fun _ s1 => readIndices rest (i + 1) s1

/-- SIDE_INFO_ORDER = INTERLEAVED: selector, then index, per subband (92_eei_decisions.md D8; log 5). -/
def readInterleaved : Nat → Nat → State → Res (List Nat)
  | 0, _, s => .ok [] s
  | n + 1, i, s =>
    (readBits 3 s).andThen fun v s1 =>
      (readIndex i v (s1.writeSel i v)).andThen fun _ s2 =>
        (readInterleaved n (i + 1) s2).andThen fun rest s3 => .ok (v :: rest) s3

/-- The selectors and scale-factor indices of subbands 0..n-1 in the order of `SIDE_INFO_ORDER`; the selectors are returned. -/
def readSideInfo (c : Config) (n : Nat) (s : State) : Res (List Nat) :=
  match c.sideInfoOrder with
  | .grouped =>
    (readSelectors n 0 s).andThen fun sels s1 => (readIndices sels 0 s1).andThen fun _ s2 => .ok sels s2
  | .interleaved => readInterleaved n 0 s

/-- The mantissas of the lines of subband `i`, or zeros where it is not coded (42_spectrum.md R143, R144). -/
def readBand (c : Config) (mode : CodingMode) (i sel : Nat) (s : State) : Res Unit :=
  if sel = 0 then .ok () (s.zeroQm (subbandStart c.tables i) (subbandWidth c.tables i))
  else
    mantExtract c.tables sel mode (subbandWidth c.tables i) (fun k v s1 => s1.writeQm (subbandStart c.tables i + k) v) s

/-- The subbands from `i` on, given their selectors (42_spectrum.md R144). -/
def readBands (c : Config) (mode : CodingMode) : List Nat → Nat → State → Res Unit
  | [], _, s => .ok () s
  | sel :: rest, i, s => (readBand c mode i sel s).andThen fun _ s1 => readBands c mode rest (i + 1) s1

/-- The pseudocode of SPECTRUM (42_spectrum.md R144). -/
def spectrumBody (c : Config) (s : State) : Res Word :=
  (readBits 5 s).andThen fun n s1 =>
    (readBits 1 (s1.setNsb n)).andThen fun m s2 =>
      (readSideInfo c (n + 1) (s2.setSpecMode (CodingMode.ofField m))).andThen fun sels s3 =>
        (readBands c (CodingMode.ofField m) sels 0 s3).andThen fun _ s4 =>
          .ok (wordOfNat n)
            ((s4.zeroSide (n + 1) (31 - n)).zeroQm (subbandStart c.tables (n + 1)) (1024 - subbandStart c.tables (n + 1)))

/-- SPECTRUM (42_spectrum.md R144). -/
def spectrumWith (c : Config) (s : State) : Host.Outcome State Fault Refusal :=
  endCommand c .spectrum (spectrumBody c s)

/-- The meaning of SPECTRUM. -/
def execSpectrum (s : State) : Host.Outcome State Fault Refusal := spectrumWith machineConfig s

end Sys2Proof.Machine
end

