-- ==== Sys2Proof/Machine/Tonal.lean ====
section
/-! DEFINITION. The TONAL command: the parse of one tonal-component block (43_tonal.md R166, 30_encoding.md R89). -/

namespace Sys2Proof.Machine

/-- The largest number of tonal components of one TONAL command, `TC_MAX` (00_scope.md R8). -/
def tcMax : Nat := 64

/-- `n` band flags (43_tonal.md R166). -/
def readFlags : Nat → State → Res (List Bool)
  | 0, s => .ok [] s
  | n + 1, s =>
    (readBits 1 s).andThen fun b s1 => (readFlags n s1).andThen fun rest s2 => .ok (decide (b = 1) :: rest) s2

/-- The quarter-band positions whose band flag is set, in increasing order (43_tonal.md R162, R166). -/
def activePositions (flags : List Bool) : List Nat :=
  (List.range (4 * flags.length)).filter (fun j => flags.getD (j / 4) false)

/-- The fields and mantissas of component `count` at quarter-band position `j`, after its scale-factor index `sfi` (43_tonal.md R165,
R166). -/
def readPlaced (T : Tables) (cv qs : Nat) (mode : CodingMode) (j count sfi : Nat) (s : State) : Res Unit :=
  (readBits 6 s).andThen fun p s1 =>
    let pos := 64 * j + p
    let n := min (1024 - pos) (cv + 1)
    let s2 := (((s1.writeTc count .pos pos).writeTc count .ncoef n).writeTc count .sfi sfi).writeTc count .qstep qs
    (mantExtract T qs mode n (fun m v s3 => s3.writeTc count (.mant m) v) s2).andThen fun _ s4 =>
      .ok () ((s4.zeroTcMant count n (8 - n)).setTccount (count + 1))

/-- One tonal component: its scale-factor index, the check of the cap, and the rest (43_tonal.md R166, R167). -/
def readComponent (T : Tables) (cv qs : Nat) (mode : CodingMode) (j count : Nat) (s : State) : Res Unit :=
  (readBits 6 s).andThen fun sfi s1 =>
    if count = tcMax then .raise .tonalCap s.bitpos s1 else readPlaced T cv qs mode j count sfi s1

/-- `n` tonal components at one quarter-band position; the new component count is returned (43_tonal.md R166). -/
def readComponents (T : Tables) (cv qs : Nat) (mode : CodingMode) (j : Nat) : Nat → Nat → State → Res Nat
  | 0, count, s => .ok count s
  | n + 1, count, s =>
    (readComponent T cv qs mode j count s).andThen fun _ s1 => readComponents T cv qs mode j n (count + 1) s1

/-- The tonal components at the listed quarter-band positions (43_tonal.md R166). -/
def readPositions (T : Tables) (cv qs : Nat) (mode : CodingMode) : List Nat → Nat → State → Res Nat
  | [], count, s => .ok count s
  | j :: rest, count, s =>
    (readBits 3 s).andThen fun ncc s1 =>
      (readComponents T cv qs mode j ncc count s1).andThen fun count1 s2 => readPositions T cv qs mode rest count1 s2

/-- The coding mode of a declared component: its own bit when CMS = 3, else CMS & 1 (43_tonal.md R163). -/
def readGroupMode (cms : Nat) (s : State) : Res CodingMode :=
  if cms = 3 then (readBits 1 s).andThen fun m s1 => .ok (CodingMode.ofField m) s1
  else .ok (CodingMode.ofField (cms % 2)) s

/-- One declared component (43_tonal.md R166). -/
def readGroup (T : Tables) (nb cms count : Nat) (s : State) : Res Nat :=
  (readFlags (nb + 1) s).andThen fun flags s1 =>
    (readBits 3 s1).andThen fun cv s2 =>
      (readBits 3 s2).andThen fun qs s3 =>
        if qs ≤ 1 then .raise .tonalQstep s2.bitpos s3
        else (readGroupMode cms s3).andThen fun mode s4 => readPositions T cv qs mode (activePositions flags) count s4

/-- `n` declared components (43_tonal.md R166). -/
def readGroups (T : Tables) (nb cms : Nat) : Nat → Nat → State → Res Nat
  | 0, count, s => .ok count s
  | n + 1, count, s => (readGroup T nb cms count s).andThen fun count1 s1 => readGroups T nb cms n count1 s1

/-- The pseudocode of TONAL (43_tonal.md R166). -/
def tonalBody (c : Config) (nb : Nat) (s : State) : Res Word :=
  (readBits 5 (s.setTccount 0)).andThen fun nc s1 =>
    if nc = 0 then .ok 0#32 s1
    else
      (readBits 2 s1).andThen fun cms s2 =>
        if cms = 2 then .raise .tonalMode s1.bitpos s2
        else (readGroups c.tables nb cms nc 0 s2).andThen fun count s3 => .ok (wordOfNat count) s3

/-- TONAL (43_tonal.md R166). -/
def tonalWith (c : Config) (nb : BitVec 2) (s : State) : Host.Outcome State Fault Refusal :=
  endCommand c (.tonal nb) (tonalBody c nb.toNat s)

/-- The meaning of TONAL. -/
def execTonal (nb : BitVec 2) (s : State) : Host.Outcome State Fault Refusal := tonalWith machineConfig nb s

end Sys2Proof.Machine
end

