-- ==== Sys2Proof/Machine/Dispatch.lean ====
section
/-! DEFINITION. The dispatch: one arm per command (30_encoding.md R71), each one call of that command's meaning. -/

namespace Sys2Proof.Machine

def exec (i : Instr) (s : State) : Host.Outcome State Fault Refusal :=
  match i with
  | .rdbits n => Sys2Proof.Machine.execRdbits n s
  | .rdsbits n => Sys2Proof.Machine.execRdsbits n s
  | .rdbit => Sys2Proof.Machine.execRdbit s
  | .huff t => Sys2Proof.Machine.execHuff t s
  | .mant sel mode cnt => Sys2Proof.Machine.execMant sel mode cnt s
  | .spectrum => Sys2Proof.Machine.execSpectrum s
  | .tonal nb => Sys2Proof.Machine.execTonal nb s

end Sys2Proof.Machine
end

