-- ==== Sys2Proof/Machine/Sequencer.lean ====
section
/-! DEFINITION. The sequencer's step (10_state.md R21): the pending command, or an illegal word's error. -/

namespace Sys2Proof.Machine

/-- Executes PENDING by the rule of its opcode; an illegal word raises E_ILLEGAL_CMD (44_control.md R190, 30_encoding.md R90). -/
def runPending (s : State) : Host.Outcome State Fault Refusal :=
  match decode s.pending with
  | .ok i => exec i s
  | .error _ => illegalCommand s

/-- The sequencer's turn: the pending command, or nothing while the block is idle (70_reset_and_hazards.md R241). -/
def sequencerTurn (s : State) : Host.Outcome State Fault Refusal :=
  if s.busy then runPending s else .next s

/-- Power-on reset (70_reset_and_hazards.md R240); the model's own fields go on (log 21). -/
def powerOn (s : State) : State :=
  { State.reset with draws := s.draws, rdata := s.rdata, agenda := s.agenda }

end Sys2Proof.Machine
end

