-- ==== Sys2Proof/Machine/Step.lean ====
section
/-! DEFINITION. One step of the machine: the next move of the agenda (10_state.md R21, 20_memory.md R63; logs 1, 20), and how a command
word comes to be the one the next step runs. -/

namespace Sys2Proof.Machine

/-- The state after the next move is taken off the agenda. -/
def State.withAgenda (s : State) (rest : List Turn) : State := { s with agenda := rest }

/-- One step: a host access, the sequencer's step or power-on reset, as the agenda says; with nothing left on it a pending command runs,
and an idle block stays as it is (70_reset_and_hazards.md R241, R254). -/
def step (s : State) : Host.Outcome State Fault Refusal :=
  match s.agenda with
  | [] => sequencerTurn s
  | .sequencer :: rest => sequencerTurn (s.withAgenda rest)
  | .host op :: rest => hostAccess machineConfig op (s.withAgenda rest)
  | .powerOn :: rest => .next (powerOn (s.withAgenda rest))

/-- The state in which the command word `w` has just been issued (44_control.md R190) and the sequencer moves next (log 1). -/
def State.withFetchWord (s : State) (nbits w : Nat) : State :=
  (s.issue (BitVec.ofNat 32 (w % 2 ^ nbits))).withAgenda (.sequencer :: s.agenda)

end Sys2Proof.Machine
end

