-- ==== Sys2Proof/Machine/Assembler.lean ====
section
/-! DEFINITION. The assembler syntax (30_encoding.md R92) at the level of mnemonics and operand values, and the pseudo-commands (R93). -/

namespace Sys2Proof.Machine

/-- The command of a line: a mnemonic and its operands in field order; none where an operand does not fit its field
(30_encoding.md R92). -/
def assemble (mnemonic : String) (operands : List Nat) : Option Instr :=
  match mnemonic, operands with
  | "RDBITS", [n] => if n < 64 then some (.rdbits (BitVec.ofNat 6 n)) else none
  | "RDSBITS", [n] => if n < 64 then some (.rdsbits (BitVec.ofNat 6 n)) else none
  | "RDBIT", [] => some .rdbit
  | "HUFF", [t] => if t < 8 then some (.huff (BitVec.ofNat 3 t)) else none
  | "MANT", [sel, mode, cnt] =>
    if sel < 8 ∧ mode < 2 ∧ cnt < 256 then some (.mant (BitVec.ofNat 3 sel) (CodingMode.ofField mode) (BitVec.ofNat 8 cnt)) else none
  | "SPECTRUM", [] => some .spectrum
  | "TONAL", [nb] => if nb < 4 then some (.tonal (BitVec.ofNat 2 nb)) else none
  | _, _ => none

/-- The line of a command, operands in decimal (30_encoding.md R92). -/
def Instr.line : Instr → String
  | .rdbits n => "RDBITS " ++ toString n.toNat
  | .rdsbits n => "RDSBITS " ++ toString n.toNat
  | .rdbit => "RDBIT"
  | .huff t => "HUFF " ++ toString t.toNat
  | .mant sel mode cnt => "MANT " ++ toString sel.toNat ++ ", " ++ toString mode.bit.toNat ++ ", " ++ toString cnt.toNat
  | .spectrum => "SPECTRUM"
  | .tonal nb => "TONAL " ++ toString nb.toNat

/-- `WR <reg>, <value>` (30_encoding.md R92). -/
def wr (r : Reg) (v : Word) : HostOp := .write r.offset .w32 v

/-- `RD <reg>` (30_encoding.md R92). -/
def rd (r : Reg) : HostOp := .read r.offset .w32

/-- `LDFB <byte address>, <byte>, ...` (30_encoding.md R92). -/
def ldfb : Nat → List Byte → List HostOp
  | _, [] => []
  | a, b :: rest => .write (0x1000 + a) .w8 (b.setWidth 32) :: ldfb (a + 1) rest

/-- A command mnemonic as a host operation: `WR CMD, <word>` (95_test_vectors.md L3). -/
def issueOp (i : Instr) : HostOp := wr .cmd (encode i)

/-- `SKIP n` is `RDBITS n` with RESULT ignored (30_encoding.md R93). -/
def pseudoSkip (n : BitVec 6) : Instr := .rdbits n

/-- `SEEK p` is `WR BITPOS, p` (30_encoding.md R93). -/
def pseudoSeek (p : Word) : HostOp := wr .bitpos p

/-- `LOADFRAME bytes` (30_encoding.md R93). -/
def pseudoLoadFrame (bytes : List Byte) : List HostOp :=
  ldfb 0 bytes ++ [wr .bitlen (BitVec.ofNat 32 (8 * bytes.length)), wr .bitpos 0#32]

/-- `WAIT`: the moves of a host that reads STATUS `n` times before it sees BUSY = 0, the command ending before the last read
(30_encoding.md R93). -/
def pseudoWait (n : Nat) : List Turn :=
  List.replicate (n - 1) (.host (rd .status)) ++ [.sequencer, .host (rd .status)]

/-- `ACK` is `WR STATUS, 0x0E` (30_encoding.md R93). -/
def pseudoAck : HostOp := wr .status 0x0E#32

end Sys2Proof.Machine
end

