-- ==== Sys2Proof/Machine/Bitstream.lean ====
section
/-! DEFINITION. The bitstream syntax (30_encoding.md part 2) written from the sender's side: the bits of a spectral block (R88), of a
tonal block (R89) and of mantissa codes (R80, 41_mantissa.md R120), and when a state has given bits at its bit pointer. No command uses
this file; claims about the parsers do. -/

namespace Sys2Proof.Machine

/-- The `n`-bit field with value `v`, first bit most significant (20_memory.md R53). -/
def natBits : Nat → Nat → List Bool
  | 0, _ => []
  | n + 1, v => v.testBit n :: natBits n v

/-- The bits of FB from position `p` on are `bits` (20_memory.md R52). -/
def spells (s : State) : Nat → List Bool → Bool
  | _, [] => true
  | p, b :: rest => decide (fbBit s p = some b) && spells s (p + 1) rest

/-- `bits` stand at BITPOS and lie below BITLEN. -/
def onStream (s : State) (bits : List Bool) : Bool :=
  spells s s.bitpos.toNat bits && decide (s.bitpos.toNat + bits.length ≤ s.bitlen.toNat)

/-- The codeword of symbol `sym`. -/
def findCode (book : List Code) (sym : Nat) : Option Code :=
  match book with
  | [] => none
  | c :: rest => if c.sym = sym then some c else findCode rest sym

/-- The bits of one mantissa code: a constant-length field or a codeword (41_mantissa.md R120). -/
def codeBits (T : Tables) (sel : Nat) (mode : CodingMode) (raw : Nat) : List Bool :=
  match mode with
  | .clc => natBits (clcWidth T sel) raw
  | .vlc =>
    match findCode (huffCodes T sel) raw with
    | some c => natBits c.len c.word
    | none => []

/-- `raw` is a code of the selector: it fits the field, or is a symbol of the table. -/
def codeOk (T : Tables) (sel : Nat) (mode : CodingMode) (raw : Nat) : Bool :=
  match mode with
  | .clc => decide (raw < 2 ^ clcWidth T sel)
  | .vlc => decide (raw < huffNsym T sel)

/-- The bits of a run of mantissa codes. -/
def mantBits (T : Tables) (sel : Nat) (mode : CodingMode) (codes : List Nat) : List Bool :=
  codes.flatMap (codeBits T sel mode)

/-- The mantissas of a run of codes, in order (41_mantissa.md R120). -/
def mantValues (T : Tables) (sel : Nat) (mode : CodingMode) (codes : List Nat) : List Int :=
  codes.flatMap (codeValues T sel mode)

/-- One present subband of a spectral block: its selector and, where that is not 0, its scale-factor index and mantissa codes
(30_encoding.md R88). -/
structure Band where
  sel : Nat
  sfi : Nat
  codes : List Nat
deriving DecidableEq, Repr

/-- A spectral block: the coding mode and the present subbands 0..NSB (30_encoding.md R88). -/
structure SpectralBlock where
  mode : CodingMode
  bands : List Band
deriving DecidableEq, Repr

/-- The values of subband `i` are those 30_encoding.md R88 allows. -/
def Band.ok (T : Tables) (mode : CodingMode) (i : Nat) (b : Band) : Bool :=
  if b.sel = 0 then decide (b.sfi = 0) && decide (b.codes = [])
  else
    decide (b.sel < 8) && decide (b.sfi < 64) && decide (b.codes.length = codeCount b.sel (subbandWidth T i)) &&
      b.codes.all (codeOk T b.sel mode)

/-- The subbands from `i` on are all well formed. -/
def bandsOk (T : Tables) (mode : CodingMode) : Nat → List Band → Bool
  | _, [] => true
  | i, b :: rest => b.ok T mode i && bandsOk T mode (i + 1) rest

/-- A spectral block as 30_encoding.md R88 allows it: 1 to 32 present subbands. -/
def SpectralBlock.ok (T : Tables) (b : SpectralBlock) : Bool :=
  decide (1 ≤ b.bands.length) && decide (b.bands.length ≤ 32) && bandsOk T b.mode 0 b.bands

/-- The bits of a spectral block in GROUPED order (30_encoding.md R88). -/
def SpectralBlock.bits (T : Tables) (b : SpectralBlock) : List Bool :=
  natBits 5 (b.bands.length - 1) ++ [b.mode.bit] ++ b.bands.flatMap (fun x => natBits 3 x.sel) ++
    b.bands.flatMap (fun x => if x.sel = 0 then [] else natBits 6 x.sfi) ++
    b.bands.flatMap (fun x => if x.sel = 0 then [] else mantBits T x.sel b.mode x.codes)

/-- SEL, SFI and QM hold the block `b`: the present subbands their selectors, indices and mantissas, everything else 0 (42_spectrum.md
R143 to R145). -/
def holdsSpectrum (T : Tables) (s : State) (b : SpectralBlock) : Prop :=
  (∀ i (h : i < b.bands.length), s.sel.read i = some (wordOfNat b.bands[i].sel) ∧ s.sfi.read i = some (wordOfNat b.bands[i].sfi) ∧
    ∀ k, k < subbandWidth T i →
      s.qm.read (subbandStart T i + k) = some (wordOfInt ((mantValues T b.bands[i].sel b.mode b.bands[i].codes).getD k 0))) ∧
    (∀ i, b.bands.length ≤ i → i < 32 → s.sel.read i = some 0#32 ∧ s.sfi.read i = some 0#32) ∧
    ∀ j, subbandStart T b.bands.length ≤ j → j < 1024 → s.qm.read j = some 0#32

/-- One tonal component in the stream (30_encoding.md R89, rows 8 to 10). -/
structure TonalComp where
  sfi : Nat
  place : Nat
  codes : List Nat
deriving DecidableEq, Repr

/-- One declared component: for each active quarter-band position, in increasing order, the list of its tonal components
(30_encoding.md R89, rows 3 to 10). -/
structure TonalGroup where
  flags : List Bool
  cv : Nat
  qs : Nat
  mode : CodingMode
  comps : List (List TonalComp)
deriving DecidableEq, Repr

/-- A tonal block with its coding-mode selector (30_encoding.md R89). -/
structure TonalBlock where
  cms : Nat
  groups : List TonalGroup
deriving DecidableEq, Repr

/-- A tonal-component entry as TC holds it (10_state.md R40). -/
structure TcEntry where
  pos : Nat
  ncoef : Nat
  sfi : Nat
  qstep : Nat
  mants : List Int
deriving DecidableEq, Repr

/-- The coefficient count at position `j` with offset `p` (43_tonal.md R165). -/
def coefCount (cv j p : Nat) : Nat := min (1024 - (64 * j + p)) (cv + 1)

/-- The values of a component at position `j` are those 30_encoding.md R89 allows. -/
def TonalComp.ok (T : Tables) (cv qs : Nat) (mode : CodingMode) (j : Nat) (x : TonalComp) : Bool :=
  decide (x.sfi < 64) && decide (x.place < 64) && decide (x.codes.length = coefCount cv j x.place) &&
    x.codes.all (codeOk T qs mode)

/-- A declared component as 30_encoding.md R89 allows it for operand NB and selector CMS. -/
def TonalGroup.ok (T : Tables) (nb cms : Nat) (g : TonalGroup) : Bool :=
  decide (g.flags.length = nb + 1) && decide (g.cv < 8) && decide (2 ≤ g.qs) && decide (g.qs < 8) &&
    (decide (cms = 3) || decide (g.mode = CodingMode.ofField (cms % 2))) &&
    decide (g.comps.length = (activePositions g.flags).length) && g.comps.all (fun xs => decide (xs.length < 8)) &&
    ((activePositions g.flags).zip g.comps).all (fun jx => jx.2.all (TonalComp.ok T g.cv g.qs g.mode jx.1))

/-- The entry a component at position `j` gives (43_tonal.md R165, R166). -/
def TonalComp.entry (T : Tables) (cv qs : Nat) (mode : CodingMode) (j : Nat) (x : TonalComp) : TcEntry :=
  { pos := 64 * j + x.place, ncoef := coefCount cv j x.place, sfi := x.sfi, qstep := qs, mants := mantValues T qs mode x.codes }

/-- The entries of a declared component, in stream order. -/
def TonalGroup.entries (T : Tables) (g : TonalGroup) : List TcEntry :=
  ((activePositions g.flags).zip g.comps).flatMap (fun jx => jx.2.map (TonalComp.entry T g.cv g.qs g.mode jx.1))

/-- The entries of a tonal block, in stream order (43_tonal.md R170). -/
def TonalBlock.entries (T : Tables) (b : TonalBlock) : List TcEntry := b.groups.flatMap (TonalGroup.entries T)

/-- A tonal block as 30_encoding.md R89 allows it for operand NB, however many components it holds. -/
def TonalBlock.shape (T : Tables) (nb : Nat) (b : TonalBlock) : Bool :=
  decide (b.groups.length ≤ 31) && decide (b.cms < 4) && decide (b.cms ≠ 2) && b.groups.all (TonalGroup.ok T nb b.cms)

/-- A tonal block that TONAL accepts: at most 64 components (43_tonal.md R167). -/
def TonalBlock.ok (T : Tables) (nb : Nat) (b : TonalBlock) : Bool :=
  b.shape T nb && decide ((b.entries T).length ≤ tcMax)

/-- The bits of a component (30_encoding.md R89, rows 8 to 10). -/
def TonalComp.bits (T : Tables) (qs : Nat) (mode : CodingMode) (x : TonalComp) : List Bool :=
  natBits 6 x.sfi ++ natBits 6 x.place ++ mantBits T qs mode x.codes

/-- The bits of a declared component (30_encoding.md R89, rows 3 to 10). -/
def TonalGroup.bits (T : Tables) (cms : Nat) (g : TonalGroup) : List Bool :=
  g.flags ++ natBits 3 g.cv ++ natBits 3 g.qs ++ (if cms = 3 then [g.mode.bit] else []) ++
    g.comps.flatMap (fun xs => natBits 3 xs.length ++ xs.flatMap (TonalComp.bits T g.qs g.mode))

/-- The bits of a tonal block (30_encoding.md R89). -/
def TonalBlock.bits (T : Tables) (b : TonalBlock) : List Bool :=
  natBits 5 b.groups.length ++
    (if b.groups = [] then [] else natBits 2 b.cms ++ b.groups.flatMap (TonalGroup.bits T b.cms))

/-- Entry `k` of TC holds `e`: its four fields, its mantissas, and 0 in the MANT fields above them (10_state.md R40, 43_tonal.md R166). -/
def holdsEntry (s : State) (k : Nat) (e : TcEntry) : Prop :=
  s.tc.read (tcIndex k .pos) = some (wordOfNat e.pos) ∧ s.tc.read (tcIndex k .ncoef) = some (wordOfNat e.ncoef) ∧
    s.tc.read (tcIndex k .sfi) = some (wordOfNat e.sfi) ∧ s.tc.read (tcIndex k .qstep) = some (wordOfNat e.qstep) ∧
    ∀ m, m < 8 → s.tc.read (tcIndex k (.mant m)) = some (wordOfInt (e.mants.getD m 0))

/-! ### Where a block breaks off at BITLEN -/

/-- `s` after a command that E_OVERRUN ended at the field or codeword `n` bits after the command's first bit, outputs apart
(60_exceptions.md R214, R215, 40_bitread.md R111). -/
def State.overran (s : State) (n : Nat) : State :=
  { s with
    busy := false, done := false, err := true, errcode := 2#4
    bitpos := BitVec.ofNat 17 (s.bitpos.toNat + n), errpos := BitVec.ofNat 17 (s.bitpos.toNat + n) }

/-- From position `p` a mantissa code runs past BITLEN: its constant-length field does not fit (40_bitread.md R100), or only a proper
beginning of a codeword stands before BITLEN (R110). -/
def codeCut (T : Tables) (sel : Nat) (mode : CodingMode) (s : State) (p : Nat) : Prop :=
  match mode with
  | .clc => s.bitlen.toNat < p + clcWidth T sel
  | .vlc => ∃ c ∈ huffCodes T sel, ∃ k, k < c.len ∧ spells s p ((natBits c.len c.word).take k) = true ∧ s.bitlen.toNat ≤ p + k

/-- The bits of a spectral block before the selector of subband `m` (30_encoding.md R88). -/
def SpectralBlock.bitsBeforeSel (b : SpectralBlock) (m : Nat) : List Bool :=
  natBits 5 (b.bands.length - 1) ++ [b.mode.bit] ++ (b.bands.take m).flatMap (fun x => natBits 3 x.sel)

/-- The bits of a spectral block before the scale-factor index of subband `m`. -/
def SpectralBlock.bitsBeforeSfi (b : SpectralBlock) (m : Nat) : List Bool :=
  b.bitsBeforeSel b.bands.length ++ (b.bands.take m).flatMap (fun x => if x.sel = 0 then [] else natBits 6 x.sfi)

/-- The bits of a spectral block before the mantissas of subband `m`. -/
def SpectralBlock.bitsBeforeMant (T : Tables) (b : SpectralBlock) (m : Nat) : List Bool :=
  b.bitsBeforeSfi b.bands.length ++ (b.bands.take m).flatMap (fun x => if x.sel = 0 then [] else mantBits T x.sel b.mode x.codes)

/-- The bits of a tonal block before its declared component `g` (30_encoding.md R89). -/
def TonalBlock.bitsBefore (T : Tables) (b : TonalBlock) (g : Nat) : List Bool :=
  natBits 5 b.groups.length ++ natBits 2 b.cms ++ (b.groups.take g).flatMap (TonalGroup.bits T b.cms)

/-- The entries of a tonal block before its declared component `g`. -/
def TonalBlock.entriesBefore (T : Tables) (b : TonalBlock) (g : Nat) : List TcEntry :=
  (b.groups.take g).flatMap (TonalGroup.entries T)

/-- The bits of a declared component before the component count of its active position number `p`. -/
def TonalGroup.bitsBefore (T : Tables) (cms : Nat) (g : TonalGroup) (p : Nat) : List Bool :=
  ({ g with comps := g.comps.take p } : TonalGroup).bits T cms

/-- The entries of a declared component before component `r` of its active position number `p`. -/
def TonalGroup.entriesBefore (T : Tables) (g : TonalGroup) (p r : Nat) : List TcEntry :=
  ({ g with comps := g.comps.take p ++ [(g.comps.getD p []).take r] } : TonalGroup).entries T

/-- The bits of a declared component before component `r` of its active position number `p`, whose components are `xs`. -/
def TonalGroup.bitsBeforeComp (T : Tables) (cms : Nat) (g : TonalGroup) (p : Nat) (xs : List TonalComp) (r : Nat) : List Bool :=
  g.bitsBefore T cms p ++ natBits 3 xs.length ++ (xs.take r).flatMap (TonalComp.bits T g.qs g.mode)

/-- A boundary between two fields of a declared component at which no tonal component is half read: the bits before it, the entries that
these complete, and the width of the field after it (30_encoding.md R89, rows 3 to 8). -/
inductive TonalBoundary (T : Tables) (cms : Nat) (g : TonalGroup) : List Bool → List TcEntry → Nat → Prop where
  /-- Before band flag `b`. -/
  | flag (b : Nat) (h : b < g.flags.length) : TonalBoundary T cms g (g.flags.take b) [] 1
  /-- Before CV. -/
  | codedValues : TonalBoundary T cms g g.flags [] 3
  /-- Before QS. -/
  | qstep : TonalBoundary T cms g (g.flags ++ natBits 3 g.cv) [] 3
  /-- Before the coding mode, which only CMS = 3 has. -/
  | mode (h : cms = 3) : TonalBoundary T cms g (g.flags ++ natBits 3 g.cv ++ natBits 3 g.qs) [] 1
  /-- Before the component count of active position number `p`. -/
  | compCount (p : Nat) (h : p < g.comps.length) : TonalBoundary T cms g (g.bitsBefore T cms p) (g.entriesBefore T p 0) 3
  /-- Before the scale-factor index of component `r` there. -/
  | sfIndex (p r : Nat) (xs : List TonalComp) (h : g.comps[p]? = some xs) (hr : r < xs.length) :
      TonalBoundary T cms g (g.bitsBeforeComp T cms p xs r) (g.entriesBefore T p r) 6

end Sys2Proof.Machine
end

