-- ==== Sys2Proof/Safety.lean ====
section
/-! DEFINITION. What claims about whole runs speak of: the invariant of the machine, and when no command can stop the run. -/

namespace Sys2Proof.Machine

/-- Every buffer is in its canonical form and lists only entries the block has (10_state.md R36 to R40). -/
structure BuffersOk (c : Config) (s : State) : Prop where
  fb : s.fb.wf = true ∧ s.fb.below c.maxFrameBytes = true
  qm : s.qm.wf = true ∧ s.qm.below 1024 = true
  sel : s.sel.wf = true ∧ s.sel.below 32 = true
  sfi : s.sfi.wf = true ∧ s.sfi.below 32 = true
  mbuf : s.mbuf.wf = true ∧ s.mbuf.below 128 = true
  tc : s.tc.wf = true ∧ s.tc.below 768 = true

/-- STATUS is one the rules allow (10_state.md R26, 44_control.md R190, 60_exceptions.md R211): DONE and ERR are never both 1, both and
ERRCODE are 0 while BUSY = 1, ERRCODE is 0 when DONE = 1 and one of 1..6 when ERR = 1. -/
structure StatusOk (s : State) : Prop where
  not_both : ¬(s.done = true ∧ s.err = true)
  busy : s.busy = true → s.done = false ∧ s.err = false ∧ s.errcode = 0#4
  done : s.done = true → s.errcode = 0#4
  err : s.err = true → s.errcode ≠ 0#4
  code : s.errcode.toNat ≤ 6

/-- The invariant of the machine of configuration `c`: the buffers and STATUS, and BITLEN within the frame buffer (10_state.md R29). -/
structure Inv (c : Config) (s : State) : Prop where
  buffers : BuffersOk c s
  status : StatusOk s
  bitlen : s.bitlen.toNat ≤ 8 * c.maxFrameBytes

/-- Every FB byte that holds a bit below BITLEN has been written, so that no command meets the fault of 60_exceptions.md R224. -/
def FrameLoaded (s : State) : Prop :=
  ∀ p, p < s.bitlen.toNat → (s.fb.read (p / 8)).isSome = true

/-- The output-buffer word at offset `off` of the window holds `v`, as 20_memory.md R56 lays the buffers out. -/
def OutputAt (s : State) (off : Nat) (v : Option Word) : Prop :=
  (∃ i, i < 1024 ∧ off = 0x4000 + 4 * i ∧ v = s.qm.read i) ∨ (∃ i, i < 32 ∧ off = 0x5000 + 4 * i ∧ v = s.sel.read i) ∨
    (∃ i, i < 32 ∧ off = 0x5080 + 4 * i ∧ v = s.sfi.read i) ∨ (∃ i, i < 128 ∧ off = 0x5100 + 4 * i ∧ v = s.mbuf.read i) ∨
    ∃ k, k < 64 ∧ ((off = 0x6000 + 64 * k ∧ v = s.tc.read (tcIndex k .pos)) ∨ (off = 0x6004 + 64 * k ∧ v = s.tc.read (tcIndex k .ncoef)) ∨
      (off = 0x6008 + 64 * k ∧ v = s.tc.read (tcIndex k .sfi)) ∨ (off = 0x600C + 64 * k ∧ v = s.tc.read (tcIndex k .qstep)) ∨
      ∃ m, m < 8 ∧ off = 0x6010 + 64 * k + 4 * m ∧ v = s.tc.read (tcIndex k (.mant m)))

/-- The meaning of a command in a machine of configuration `c`; `exec` is the one of the machine's own configuration. -/
def commandWith (c : Config) (i : Instr) (s : State) : Host.Outcome State Fault Refusal :=
  match i with
  | .rdbits n => rdbitsWith c n s
  | .rdsbits n => rdsbitsWith c n s
  | .rdbit => rdbitWith c s
  | .huff t => huffWith c t s
  | .mant sel mode cnt => mantWith c sel mode cnt s
  | .spectrum => spectrumWith c s
  | .tonal nb => tonalWith c nb s

end Sys2Proof.Machine
end

