-- ==== Sys2Proof/Certificates/Slice0/Obligations.lean ====
section
/-! DEFINITION. The statements for the provers. Each docstring names the rules of spec/ the statement formalises; a state after a command or
a host access is written as a whole, so that it says the frame as well. -/

open Sys2Proof Sys2Proof.Machine

/-! ### Encoding -/

/-- One word of each command, written out from the bit patterns of 30_encoding.md R72: RDBITS 5, RDSBITS 32, RDBIT, HUFF 7, MANT 2 VLC 4,
MANT 7 CLC 128, SPECTRUM, TONAL 3; and two illegal words of R90. -/
def Obligations.SpecWordsDecodeToTheirCommands : Prop :=
  decode 0b00010000000000000000000000000101#32 = .ok (.rdbits 5#6) ∧
  decode 0b00100000000000000000000000100000#32 = .ok (.rdsbits 32#6) ∧
  decode 0b00110000000000000000000000000000#32 = .ok .rdbit ∧
  decode 0b01000000000000000000000000000111#32 = .ok (.huff 7#3) ∧
  decode 0b01010000000000000000000001000010#32 = .ok (.mant 2#3 .vlc 4#8) ∧
  decode 0b01010000000000000000100000001111#32 = .ok (.mant 7#3 .clc 128#8) ∧
  decode 0b01100000000000000000000000000000#32 = .ok .spectrum ∧
  decode 0b01110000000000000000000000000011#32 = .ok (.tonal 3#2) ∧
  decode 0b00000000000000000000000000000000#32 = .error .reservedOpcode ∧
  decode 0b01110000000000000000000000000100#32 = .error .reservedBits

/-- 30_encoding.md R72, R73: the word of every command with legal operands decodes to that command with those operands. -/
def Obligations.DecodeUndoesEncode : Prop :=
  ∀ i : Instr, i.wf = true → decode (encode i) = .ok i

/-- 30_encoding.md R70 to R73: a word that decodes is the one word of its command, and the operands are legal. -/
def Obligations.EncodeUndoesDecode : Prop :=
  ∀ (w : Word) (i : Instr), decode w = .ok i → encode i = w ∧ i.wf = true

/-- 30_encoding.md R90: the words that are no command are exactly those of the rule, and running one raises E_ILLEGAL_CMD with BITPOS as
ERRPOS and changes nothing but STATUS and ERRPOS. -/
def Obligations.IllegalWordsRaiseIllegalCmd : Prop :=
  (∀ w : Word, (∃ e, decode w = .error e) ↔
    (w.extractLsb' 28 4 = 0#4 ∨ 8#4 ≤ w.extractLsb' 28 4) ∨
    (w.extractLsb' 28 4 = 1#4 ∧ (w.extractLsb' 6 22 ≠ 0#22 ∨ 32 < (w.extractLsb' 0 6).toNat)) ∨
    (w.extractLsb' 28 4 = 2#4 ∧ (w.extractLsb' 6 22 ≠ 0#22 ∨ (w.extractLsb' 0 6).toNat = 0 ∨ 32 < (w.extractLsb' 0 6).toNat)) ∨
    (w.extractLsb' 28 4 = 3#4 ∧ w.extractLsb' 0 28 ≠ 0#28) ∨
    (w.extractLsb' 28 4 = 4#4 ∧ (w.extractLsb' 3 25 ≠ 0#25 ∨ w.extractLsb' 0 3 = 0#3)) ∨
    (w.extractLsb' 28 4 = 5#4 ∧ (w.extractLsb' 12 16 ≠ 0#16 ∨ w.extractLsb' 0 3 = 0#3 ∨ w.extractLsb' 4 8 = 0#8 ∨
      128 < (w.extractLsb' 4 8).toNat ∨ (w.extractLsb' 0 3 = 1#3 ∧ (w.extractLsb' 4 8).toNat % 2 = 1))) ∨
    (w.extractLsb' 28 4 = 6#4 ∧ w.extractLsb' 0 28 ≠ 0#28) ∨
    (w.extractLsb' 28 4 = 7#4 ∧ w.extractLsb' 2 26 ≠ 0#26)) ∧
  (∀ (s : State) (e : IllegalWord), decode s.pending = .error e →
    runPending s = .next { s with busy := false, done := false, err := true, errcode := 1#4, errpos := s.bitpos })

/-! ### Running a command -/

/-- 10_state.md R21 (logs 1, 20): the sequencer's step runs the command PENDING decodes to, on the state without the move taken from the
agenda, and ends an illegal word with E_ILLEGAL_CMD (30_encoding.md R90); `withFetchWord` issues a word as 44_control.md R190 does and lets the sequencer move next. -/
def Obligations.StepRunsThePendingCommand : Prop :=
  (∀ (s : State) (i : Instr) (rest : List Turn), s.busy = true → decode s.pending = .ok i → s.agenda = .sequencer :: rest →
    step s = exec i { s with agenda := rest }) ∧
  (∀ (s : State) (i : Instr), s.busy = true → decode s.pending = .ok i → s.agenda = [] → step s = exec i s) ∧
  (∀ (s : State) (e : IllegalWord) (rest : List Turn), s.busy = true → decode s.pending = .error e → s.agenda = .sequencer :: rest →
    step s = .next { s with agenda := rest, busy := false, done := false, err := true, errcode := 1#4, errpos := s.bitpos }) ∧
  (∀ (s : State) (e : IllegalWord), s.busy = true → decode s.pending = .error e → s.agenda = [] →
    step s = .next { s with busy := false, done := false, err := true, errcode := 1#4, errpos := s.bitpos }) ∧
  (∀ (s : State) (w : Nat) (i : Instr), decode (BitVec.ofNat 32 w) = .ok i →
    step (s.withFetchWord 32 w) =
      exec i { s with pending := BitVec.ofNat 32 w, busy := true, done := false, err := false, errcode := 0#4 }) ∧
  (∀ (s : State) (w : Nat) (e : IllegalWord), decode (BitVec.ofNat 32 w) = .error e →
    step (s.withFetchWord 32 w) =
      .next { s with pending := BitVec.ofNat 32 w, busy := false, done := false, err := true, errcode := 1#4, errpos := s.bitpos })

/-- 70_reset_and_hazards.md R241 (the agenda is the model's own: logs 1, 20): after reset the block is idle and IE is 0; an idle block's
sequencer does nothing; and only a write of CMD makes an idle block busy. -/
def Obligations.OnlyACmdWriteStartsWork : Prop :=
  State.reset.busy = false ∧ State.reset.ie = false ∧
  (∀ (s : State) (rest : List Turn), s.busy = false → s.agenda = .sequencer :: rest → step s = .next { s with agenda := rest }) ∧
  (∀ s : State, s.busy = false → s.agenda = [] → step s = .next s) ∧
  (∀ (s t : State), s.busy = false → step s = .next t → t.busy = true →
    ∃ (w : Word) (rest : List Turn), s.agenda = .host (.write 0x000 .w32 w) :: rest)

/-- The state of 70_reset_and_hazards.md R240, but for PENDING: every register 0, `irq` 0, every buffer entry unwritten. It holds of the
reset state, and a power-on move (log 21) leads to it. -/
def Obligations.PowerOnResetLeavesTheResetValues : Prop :=
  (∀ r : Reg, regWord State.reset r = 0#32) ∧ irq State.reset = false ∧
  (∀ a, State.reset.fb.read a = none ∧ State.reset.qm.read a = none ∧ State.reset.sel.read a = none ∧ State.reset.sfi.read a = none ∧
    State.reset.mbuf.read a = none ∧ State.reset.tc.read a = none) ∧
  machineConfig.tables = referenceTables ∧
  (∀ (s : State) (rest : List Turn), s.agenda = .powerOn :: rest →
    ∃ t, step s = .next t ∧ (∀ r : Reg, regWord t r = 0#32) ∧ irq t = false ∧
      ∀ a, t.fb.read a = none ∧ t.qm.read a = none ∧ t.sel.read a = none ∧ t.sfi.read a = none ∧ t.mbuf.read a = none ∧
        t.tc.read a = none)

/-! ### Bit-reader commands -/

/-- 40_bitread.md R102 (with R100, and Bit(p) and the field's value as 20_memory.md R52 and R53 give them): RDBITS with every operand, with
or without enough bits. -/
def Obligations.RdbitsReadsAnUnsignedField : Prop :=
  (∀ w : Word, w.extractLsb' 28 4 = 1#4 →
    (w.extractLsb' 6 22 = 0#22 ∧ (w.extractLsb' 0 6).toNat ≤ 32 → decode w = .ok (.rdbits (w.extractLsb' 0 6))) ∧
    (w.extractLsb' 6 22 ≠ 0#22 ∨ 32 < (w.extractLsb' 0 6).toNat → ∃ e, decode w = .error e)) ∧
  (∀ (s : State) (e : IllegalWord), decode s.pending = .error e →
    runPending s = .next { s with busy := false, done := false, err := true, errcode := 1#4, errpos := s.bitpos }) ∧
  (∀ (n : BitVec 6) (s : State), 32 < n.toNat →
    exec (.rdbits n) s = .next { s with busy := false, done := false, err := true, errcode := 1#4, errpos := s.bitpos }) ∧
  (∀ (n : BitVec 6) (s : State), n.toNat ≤ 32 → s.bitlen.toNat < s.bitpos.toNat + n.toNat →
    exec (.rdbits n) s = .next { s with busy := false, done := false, err := true, errcode := 2#4, errpos := s.bitpos }) ∧
  (∀ (n : BitVec 6) (s : State) (fb : Nat → Byte), n.toNat ≤ 32 → s.bitpos.toNat + n.toNat ≤ s.bitlen.toNat →
    (∀ i, i < n.toNat → s.fb.read ((s.bitpos.toNat + i) / 8) = some (fb ((s.bitpos.toNat + i) / 8))) →
    exec (.rdbits n) s = .next { s with
      busy := false, done := true, err := false
      bitpos := BitVec.ofNat 17 (s.bitpos.toNat + n.toNat)
      result := BitVec.ofNat 32 (∑ i ∈ Finset.range n.toNat,
        ((fb ((s.bitpos.toNat + i) / 8)).getLsbD (7 - (s.bitpos.toNat + i) % 8)).toNat * 2 ^ (n.toNat - 1 - i)) })

/-- 40_bitread.md R105 (with R104 and R100): RDSBITS with every operand, with or without enough bits; the field is taken as two's
complement. -/
def Obligations.RdsbitsReadsASignedField : Prop :=
  (∀ w : Word, w.extractLsb' 28 4 = 2#4 →
    (w.extractLsb' 6 22 = 0#22 ∧ 1 ≤ (w.extractLsb' 0 6).toNat ∧ (w.extractLsb' 0 6).toNat ≤ 32 →
      decode w = .ok (.rdsbits (w.extractLsb' 0 6))) ∧
    (w.extractLsb' 6 22 ≠ 0#22 ∨ (w.extractLsb' 0 6).toNat = 0 ∨ 32 < (w.extractLsb' 0 6).toNat → ∃ e, decode w = .error e)) ∧
  (∀ (s : State) (e : IllegalWord), decode s.pending = .error e →
    runPending s = .next { s with busy := false, done := false, err := true, errcode := 1#4, errpos := s.bitpos }) ∧
  (∀ (n : BitVec 6) (s : State), n.toNat = 0 ∨ 32 < n.toNat →
    exec (.rdsbits n) s = .next { s with busy := false, done := false, err := true, errcode := 1#4, errpos := s.bitpos }) ∧
  (∀ (n : BitVec 6) (s : State), 1 ≤ n.toNat → n.toNat ≤ 32 → s.bitlen.toNat < s.bitpos.toNat + n.toNat →
    exec (.rdsbits n) s = .next { s with busy := false, done := false, err := true, errcode := 2#4, errpos := s.bitpos }) ∧
  (∀ (n : BitVec 6) (s : State) (fb : Nat → Byte) (v : Nat), 1 ≤ n.toNat → n.toNat ≤ 32 →
    s.bitpos.toNat + n.toNat ≤ s.bitlen.toNat →
    (∀ i, i < n.toNat → s.fb.read ((s.bitpos.toNat + i) / 8) = some (fb ((s.bitpos.toNat + i) / 8))) →
    v = ∑ i ∈ Finset.range n.toNat,
      ((fb ((s.bitpos.toNat + i) / 8)).getLsbD (7 - (s.bitpos.toNat + i) % 8)).toNat * 2 ^ (n.toNat - 1 - i) →
    exec (.rdsbits n) s = .next { s with
      busy := false, done := true, err := false
      bitpos := BitVec.ofNat 17 (s.bitpos.toNat + n.toNat)
      result := BitVec.ofInt 32 (if 2 ^ (n.toNat - 1) ≤ v then (v : Int) - 2 ^ n.toNat else v) })

/-- 40_bitread.md R107 (with R100 and 20_memory.md R52): RDBIT, with or without a bit left. -/
def Obligations.RdbitReadsOneBit : Prop :=
  (∀ w : Word, w.extractLsb' 28 4 = 3#4 →
    (w.extractLsb' 0 28 = 0#28 → decode w = .ok .rdbit) ∧ (w.extractLsb' 0 28 ≠ 0#28 → ∃ e, decode w = .error e)) ∧
  (∀ (s : State) (e : IllegalWord), decode s.pending = .error e →
    runPending s = .next { s with busy := false, done := false, err := true, errcode := 1#4, errpos := s.bitpos }) ∧
  (∀ s : State, s.bitlen.toNat < s.bitpos.toNat + 1 →
    exec .rdbit s = .next { s with busy := false, done := false, err := true, errcode := 2#4, errpos := s.bitpos }) ∧
  (∀ (s : State) (b : Byte), s.bitpos.toNat + 1 ≤ s.bitlen.toNat → s.fb.read (s.bitpos.toNat / 8) = some b →
    exec .rdbit s = .next { s with
      busy := false, done := true, err := false
      bitpos := BitVec.ofNat 17 (s.bitpos.toNat + 1)
      result := BitVec.ofNat 32 (b.getLsbD (7 - s.bitpos.toNat % 8)).toNat })

/-- 40_bitread.md R108: RDBIT and RDBITS 1 have the same effect on every state. -/
def Obligations.RdbitIsRdbitsOne : Prop :=
  ∀ s : State, exec .rdbit s = exec (.rdbits 1#6) s

/-- 40_bitread.md R112 (with R110): HUFF with every operand; a codeword of table T on the stream gives its symbol, and bits that are only
the beginning of a codeword before BITLEN raise E_OVERRUN at its first bit. -/
def Obligations.HuffDecodesACodeword : Prop :=
  (∀ s : State, exec (.huff 0#3) s = .next { s with busy := false, done := false, err := true, errcode := 1#4, errpos := s.bitpos }) ∧
  (∀ (t : BitVec 3) (s : State) (c : Code), 1 ≤ t.toNat → c ∈ huffCodes referenceTables t.toNat → onStream s (natBits c.len c.word) = true →
    exec (.huff t) s = .next { s with
      busy := false, done := true, err := false
      bitpos := BitVec.ofNat 17 (s.bitpos.toNat + c.len), result := BitVec.ofNat 32 c.sym }) ∧
  (∀ (t : BitVec 3) (s : State) (c : Code) (k : Nat), 1 ≤ t.toNat → c ∈ huffCodes referenceTables t.toNat → k < c.len →
    spells s s.bitpos.toNat ((natBits c.len c.word).take k) = true → s.bitlen.toNat ≤ s.bitpos.toNat + k →
    exec (.huff t) s = .next { s with busy := false, done := false, err := true, errcode := 2#4, errpos := s.bitpos })

/-- 40_bitread.md R110, 30_encoding.md R86: with 8 bits left in a loaded frame every HUFF with a legal operand completes, consumes 1 to 8
bits and returns a symbol of its table. -/
def Obligations.HuffCompletesWithinEightBits : Prop :=
  ∀ (t : BitVec 3) (s : State), 1 ≤ t.toNat → FrameLoaded s → s.bitpos.toNat + 8 ≤ s.bitlen.toNat →
    ∃ (sym len : Nat), sym < huffNsym referenceTables t.toNat ∧ 1 ≤ len ∧ len ≤ 8 ∧
      exec (.huff t) s = .next { s with
        busy := false, done := true, err := false
        bitpos := BitVec.ofNat 17 (s.bitpos.toNat + len), result := BitVec.ofNat 32 sym }

/-- 40_bitread.md R110: with tables of which T is not complete, HUFF T raises E_BADCODE at its first bit, BITPOS staying there, when the
HUFF_MAXLEN[T] bits on the stream begin with no codeword. With the reference tables there are no such bits (30_encoding.md R86). -/
def Obligations.HuffRaisesBadCodeWhereNoCodewordMatches : Prop :=
  ∀ (c : Config) (t : BitVec 3) (s : State) (bits : List Bool), 1 ≤ t.toNat → bits.length = huffMaxLen c.tables t.toNat →
    onStream s bits = true → (∀ code ∈ huffCodes c.tables t.toNat, ∀ k, k ≤ bits.length → bits.take k ≠ natBits code.len code.word) →
    huffWith c t s = .next { s with busy := false, done := false, err := true, errcode := 6#4, errpos := s.bitpos }

/-- 30_encoding.md R86: every one of the seven reference tables is complete and prefix-free: each symbol has one codeword of its listed
length, and every word of the maximum length begins with exactly one codeword. -/
def Obligations.ReferenceTablesAreCompleteAndPrefixFree : Prop :=
  ∀ t, 1 ≤ t → t < 8 →
    (∀ s, s < huffNsym referenceTables t → ∃ c ∈ huffCodes referenceTables t, c.sym = s ∧ c.len = (huffLens referenceTables t).getD s 0) ∧
    (∑ s ∈ Finset.range (huffNsym referenceTables t), 2 ^ (huffMaxLen referenceTables t - (huffLens referenceTables t).getD s 0)) =
      2 ^ huffMaxLen referenceTables t ∧
    ∀ v, v < 2 ^ huffMaxLen referenceTables t →
      ∃ c ∈ huffCodes referenceTables t, v / 2 ^ (huffMaxLen referenceTables t - c.len) = c.word ∧
        ∀ d ∈ huffCodes referenceTables t, v / 2 ^ (huffMaxLen referenceTables t - d.len) = d.word → d = c

/-! ### How commands end -/

/-- 10_state.md R21, R30, 60_exceptions.md R214, R216: a command that ends has BUSY = 0 and either DONE = 1, ERR = 0 with ERRCODE and
ERRPOS as they were, or ERR = 1, DONE = 0 with an error code 1..6 and RESULT as it was. -/
def Obligations.EveryCommandEndsDoneOrWithAnError : Prop :=
  ∀ (i : Instr) (s t : State), exec i s = .next t →
    t.busy = false ∧
    ((t.done = true ∧ t.err = false ∧ t.errcode = s.errcode ∧ t.errpos = s.errpos) ∨
      (t.err = true ∧ t.done = false ∧ 1 ≤ t.errcode.toNat ∧ t.errcode.toNat ≤ 6 ∧ t.result = s.result))

/-- 70_reset_and_hazards.md R255, 60_exceptions.md R224: over a loaded frame every command, legal or not, ends with a next state. -/
def Obligations.LoadedFrameNeverStopsACommand : Prop :=
  ∀ (i : Instr) (s : State), FrameLoaded s → ∃ t, exec i s = .next t

/-- 60_exceptions.md R224, 10_state.md R41 (log 12): a command stops only where a bit it comes to, from BITPOS on and below BITLEN, lies in a
byte never written; a command that goes on has read only written bits; and a field, a codeword or the first field of a block that lies
within BITLEN but has such a bit stops its command. -/
def Obligations.UnwrittenBitsStopACommand : Prop :=
  (∀ (i : Instr) (s : State) (f : Fault), exec i s = .fault f →
    f = .fbUnwritten ∧ ∃ p, s.bitpos.toNat ≤ p ∧ p < s.bitlen.toNat ∧ s.fb.read (p / 8) = none) ∧
  (∀ (i : Instr) (s t : State), exec i s = .next t →
    ∀ p, s.bitpos.toNat ≤ p → p < t.bitpos.toNat → (s.fb.read (p / 8)).isSome = true) ∧
  (∀ (n : BitVec 6) (s : State) (k : Nat), n.toNat ≤ 32 → s.bitpos.toNat + n.toNat ≤ s.bitlen.toNat → k < n.toNat →
    s.fb.read ((s.bitpos.toNat + k) / 8) = none →
    exec (.rdbits n) s = .fault .fbUnwritten ∧ exec (.rdsbits n) s = .fault .fbUnwritten) ∧
  (∀ s : State, s.bitpos.toNat + 1 ≤ s.bitlen.toNat → s.fb.read (s.bitpos.toNat / 8) = none → exec .rdbit s = .fault .fbUnwritten) ∧
  (∀ (t : BitVec 3) (s : State) (c : Code) (k : Nat), 1 ≤ t.toNat → c ∈ huffCodes referenceTables t.toNat → k < c.len →
    spells s s.bitpos.toNat ((natBits c.len c.word).take k) = true → s.bitpos.toNat + k < s.bitlen.toNat →
    s.fb.read ((s.bitpos.toNat + k) / 8) = none →
    exec (.huff t) s = .fault .fbUnwritten ∧ ∀ cnt, (Instr.mant t .vlc cnt).wf = true → exec (.mant t .vlc cnt) s = .fault .fbUnwritten) ∧
  (∀ (sel : BitVec 3) (cnt : BitVec 8) (s : State) (k : Nat), (Instr.mant sel .clc cnt).wf = true →
    s.bitpos.toNat + clcWidth referenceTables sel.toNat ≤ s.bitlen.toNat → k < clcWidth referenceTables sel.toNat →
    s.fb.read ((s.bitpos.toNat + k) / 8) = none → exec (.mant sel .clc cnt) s = .fault .fbUnwritten) ∧
  ∀ (s : State) (k : Nat), s.bitpos.toNat + 5 ≤ s.bitlen.toNat → k < 5 → s.fb.read ((s.bitpos.toNat + k) / 8) = none →
    exec .spectrum s = .fault .fbUnwritten ∧ ∀ nb, exec (.tonal nb) s = .fault .fbUnwritten

/-- 60_exceptions.md R211, R212, 30_encoding.md R86: which errors each command of this machine can report; E_BADCODE is none of them. -/
def Obligations.ErrorsAreThoseOfTheCommand : Prop :=
  ∀ (i : Instr) (s t : State), exec i s = .next t → t.err = true →
    (t.errcode = 1#4 ∧ i.wf = false) ∨
    (i.wf = true ∧ (t.errcode = 2#4 ∨ (∃ nb, i = .tonal nb) ∧ (t.errcode = 3#4 ∨ t.errcode = 4#4 ∨ t.errcode = 5#4)))

/-- 60_exceptions.md R215: BITPOS after an error, against ERRPOS, by the error code, in a machine of any configuration (E_BADCODE needs
tables other than the reference ones, R211). -/
def Obligations.ErrorsLeaveBitposByTheirCode : Prop :=
  ∀ (c : Config) (i : Instr) (s t : State), commandWith c i s = .next t → t.err = true →
    (t.errcode = 1#4 → t.bitpos = s.bitpos ∧ t.errpos = s.bitpos) ∧
    (t.errcode = 2#4 → t.bitpos = t.errpos) ∧
    (t.errcode = 3#4 → t.bitpos.toNat = t.errpos.toNat + 2) ∧
    (t.errcode = 4#4 → t.bitpos.toNat = t.errpos.toNat + 3) ∧
    (t.errcode = 5#4 → t.bitpos.toNat = t.errpos.toNat + 6) ∧
    (t.errcode = 6#4 → t.bitpos = t.errpos) ∧
    s.bitpos.toNat ≤ t.errpos.toNat

/-- 10_state.md R23: BITPOS only increases during a command, and a command that moves it leaves it within BITLEN (40_bitread.md R100). -/
def Obligations.BitposOnlyAdvancesWithinBitlen : Prop :=
  ∀ (i : Instr) (s t : State), exec i s = .next t →
    s.bitpos.toNat ≤ t.bitpos.toNat ∧ (t.bitpos = s.bitpos ∨ t.bitpos.toNat ≤ s.bitlen.toNat)

/-- 20_memory.md R51: no command writes FB, BITLEN or CTRL; nor PENDING, OVR, or what the host has read and will do. -/
def Obligations.NoCommandWritesItsInputs : Prop :=
  ∀ (i : Instr) (s t : State), exec i s = .next t →
    t.fb = s.fb ∧ t.bitlen = s.bitlen ∧ t.ie = s.ie ∧ t.pending = s.pending ∧ t.ovr = s.ovr ∧ t.rdata = s.rdata ∧ t.agenda = s.agenda

/-- The outputs each command leaves alone, however it ends: RDBITS, RDSBITS, RDBIT and HUFF all of them (40_bitread.md R102 to R112), MANT
all but MBUF[0..CNT-1] (41_mantissa.md R130), SPECTRUM all but QM, SEL, SFI and SPECINFO (42_spectrum.md R144), TONAL all but TC and TCCOUNT
(43_tonal.md R166). -/
def Obligations.CommandsWriteOnlyTheirOwnOutputs : Prop :=
  ∀ (i : Instr) (s t : State), exec i s = .next t →
    ((∀ nb, i ≠ .tonal nb) → t.tc = s.tc ∧ t.tccount = s.tccount) ∧
    (i ≠ .spectrum → t.qm = s.qm ∧ t.sel = s.sel ∧ t.sfi = s.sfi ∧ t.nsb = s.nsb ∧ t.specMode = s.specMode) ∧
    ((∀ sel mode cnt, i ≠ .mant sel mode cnt) → t.mbuf = s.mbuf) ∧
    (∀ sel mode cnt, i = .mant sel mode cnt → ∀ k, cnt.toNat ≤ k → t.mbuf.read k = s.mbuf.read k)

/-- 60_exceptions.md R217: two machines that differ in ABORT_POLICY only end every command with the same registers, FB and BITPOS (SPECINFO
and TCCOUNT apart), and in the same state when the command succeeds. -/
def Obligations.AbortPolicyChangesOnlyOutputsOfAbortedCommands : Prop :=
  ∀ (c : Config) (i : Instr) (s t u : State),
    commandWith { c with abortPolicy := .leaveMutated } i s = .next t → commandWith { c with abortPolicy := .any } i s = .next u →
    u.busy = t.busy ∧ u.done = t.done ∧ u.err = t.err ∧ u.ovr = t.ovr ∧ u.errcode = t.errcode ∧ u.ie = t.ie ∧ u.bitpos = t.bitpos ∧
      u.bitlen = t.bitlen ∧ u.result = t.result ∧ u.errpos = t.errpos ∧ u.pending = t.pending ∧ u.fb = t.fb ∧ (t.done = true → u = t)

/-- 00_scope.md R7: what a command does depends on FB, BITPOS and BITLEN (and the draws) alone: two runs of it from states that agree on
these come out alike, with the same STATUS outcome, BITPOS, RESULT or ERRPOS, and every output entry and field is either the same in both or
untouched in both. -/
def Obligations.ResultsDependOnlyOnTheStream : Prop :=
  ∀ (i : Instr) (s s' : State), s'.fb = s.fb → s'.bitpos = s.bitpos → s'.bitlen = s.bitlen → s'.draws = s.draws →
    (∀ f, exec i s = .fault f ↔ exec i s' = .fault f) ∧
    ∀ t, exec i s = .next t → ∃ t', exec i s' = .next t' ∧ t'.busy = t.busy ∧ t'.done = t.done ∧ t'.err = t.err ∧ t'.bitpos = t.bitpos ∧
      (t.done = true → t'.result = t.result) ∧ (t.err = true → t'.errcode = t.errcode ∧ t'.errpos = t.errpos) ∧
      (∀ a, (t'.qm.read a = t.qm.read a ∨ t.qm.read a = s.qm.read a ∧ t'.qm.read a = s'.qm.read a) ∧
        (t'.sel.read a = t.sel.read a ∨ t.sel.read a = s.sel.read a ∧ t'.sel.read a = s'.sel.read a) ∧
        (t'.sfi.read a = t.sfi.read a ∨ t.sfi.read a = s.sfi.read a ∧ t'.sfi.read a = s'.sfi.read a) ∧
        (t'.mbuf.read a = t.mbuf.read a ∨ t.mbuf.read a = s.mbuf.read a ∧ t'.mbuf.read a = s'.mbuf.read a) ∧
        (t'.tc.read a = t.tc.read a ∨ t.tc.read a = s.tc.read a ∧ t'.tc.read a = s'.tc.read a)) ∧
      (t'.nsb = t.nsb ∨ t.nsb = s.nsb ∧ t'.nsb = s'.nsb) ∧
      (t'.specMode = t.specMode ∨ t.specMode = s.specMode ∧ t'.specMode = s'.specMode) ∧
      (t'.tccount = t.tccount ∨ t.tccount = s.tccount ∧ t'.tccount = s'.tccount)

/-! ### MANT -/

/-- 41_mantissa.md R121 to R123, 30_encoding.md R84, R85: the mantissas of a code. VLC symbols of tables 2..7 alternate 0, +1, -1, +2, -2, ...;
CLC fields of selectors 2..7 are two's complement; a CLC code of selector 1 is two 2-bit two's-complement fields, high bits first; VLC symbols of
selector 1 are the pairs of PAIR_TAB. -/
def Obligations.MantissaCodesStandForTheSpecValues : Prop :=
  (∀ sel sym, 2 ≤ sel →
    codeValues referenceTables sel .vlc sym = [if sym % 2 = 1 then ((sym + 1) / 2 : Int) else -((sym : Int) / 2)]) ∧
  (∀ sel v, 2 ≤ sel → sel < 8 → v < 2 ^ clcWidth referenceTables sel →
    codeValues referenceTables sel .clc v =
      [if 2 ^ (clcWidth referenceTables sel - 1) ≤ v then (v : Int) - 2 ^ clcWidth referenceTables sel else v]) ∧
  (∀ a b : BitVec 2, codeValues referenceTables 1 .clc (a ++ b).toNat = [a.toInt, b.toInt]) ∧
  (List.range 9).map (codeValues referenceTables 1 .vlc) =
    [[0, 0], [0, 1], [0, -1], [1, 0], [-1, 0], [1, 1], [1, -1], [-1, 1], [-1, -1]]

/-- 41_mantissa.md R130, R120: a run of codes for CNT mantissas on the stream is decoded into MBUF[0..CNT-1], RESULT is CNT, and nothing else
changes; an illegal operand raises E_ILLEGAL_CMD. -/
def Obligations.MantDecodesTheCodesOnTheStream : Prop :=
  (∀ (sel : BitVec 3) (mode : CodingMode) (cnt : BitVec 8) (s : State),
    sel.toNat = 0 ∨ cnt.toNat = 0 ∨ 128 < cnt.toNat ∨ (sel.toNat = 1 ∧ cnt.toNat % 2 = 1) →
    exec (.mant sel mode cnt) s = .next { s with busy := false, done := false, err := true, errcode := 1#4, errpos := s.bitpos }) ∧
  (∀ (sel : BitVec 3) (mode : CodingMode) (cnt : BitVec 8) (s : State) (codes : List Nat), (Instr.mant sel mode cnt).wf = true →
    codes.length = codeCount sel.toNat cnt.toNat → (∀ raw ∈ codes, codeOk referenceTables sel.toNat mode raw = true) →
    onStream s (mantBits referenceTables sel.toNat mode codes) = true →
    ∃ m, exec (.mant sel mode cnt) s = .next { s with
        busy := false, done := true, err := false, mbuf := m
        bitpos := BitVec.ofNat 17 (s.bitpos.toNat + (mantBits referenceTables sel.toNat mode codes).length)
        result := BitVec.ofNat 32 cnt.toNat } ∧
      ∀ k, m.read k = if k < cnt.toNat then some (BitVec.ofInt 32 ((mantValues referenceTables sel.toNat mode codes).getD k 0))
        else s.mbuf.read k)

/-- 41_mantissa.md R130, R125: with 8 bits a mantissa left in a loaded frame MANT completes, whatever the bits are, and every mantissa lies in
-32..31. -/
def Obligations.MantCompletesWithMantissasInRange : Prop :=
  ∀ (sel : BitVec 3) (mode : CodingMode) (cnt : BitVec 8) (s : State), (Instr.mant sel mode cnt).wf = true → FrameLoaded s →
    s.bitpos.toNat + 8 * cnt.toNat ≤ s.bitlen.toNat →
    ∃ t, exec (.mant sel mode cnt) s = .next t ∧ t.done = true ∧ t.err = false ∧ t.result = BitVec.ofNat 32 cnt.toNat ∧
      t.bitpos.toNat ≤ s.bitpos.toNat + 8 * cnt.toNat ∧
      ∀ k, k < cnt.toNat → ∃ v : Int, -32 ≤ v ∧ v ≤ 31 ∧ t.mbuf.read k = some (BitVec.ofInt 32 v)

/-- 41_mantissa.md R130, 60_exceptions.md R217: under LEAVE_MUTATED a MANT that runs out of bits in a code, be it a constant-length field
or a codeword, keeps the mantissas it had delivered and every other MBUF entry, and reports E_OVERRUN at that code. -/
def Obligations.MantKeepsEarlierMantissasOnOverrun : Prop :=
  ∀ (c : Config) (sel : BitVec 3) (mode : CodingMode) (cnt : BitVec 8) (s : State) (codes : List Nat), c.tables = referenceTables →
    c.abortPolicy = .leaveMutated → (Instr.mant sel mode cnt).wf = true → codes.length < codeCount sel.toNat cnt.toNat →
    (∀ raw ∈ codes, codeOk referenceTables sel.toNat mode raw = true) → onStream s (mantBits referenceTables sel.toNat mode codes) = true →
    codeCut referenceTables sel.toNat mode s (s.bitpos.toNat + (mantBits referenceTables sel.toNat mode codes).length) →
    ∃ m, mantWith c sel mode cnt s = .next { s.overran (mantBits referenceTables sel.toNat mode codes).length with mbuf := m } ∧
      ∀ k, m.read k = if k < (mantValues referenceTables sel.toNat mode codes).length then
          some (BitVec.ofInt 32 ((mantValues referenceTables sel.toNat mode codes).getD k 0))
        else s.mbuf.read k

/-! ### SPECTRUM -/

/-- 42_spectrum.md R144, 30_encoding.md R88: SPECTRUM parses exactly the spectral blocks. A block on the stream is parsed: QM, SEL, SFI and
SPECINFO hold it, RESULT is NSB, BITPOS stands after it, and nothing else changes; and a SPECTRUM that ends without error had a block on the
stream. -/
def Obligations.SpectrumParsesTheSpectralBlock : Prop :=
  (∀ (s : State) (b : SpectralBlock), b.ok referenceTables = true → onStream s (b.bits referenceTables) = true →
    ∃ qm sel sfi, exec .spectrum s = .next { s with
        busy := false, done := true, err := false
        bitpos := BitVec.ofNat 17 (s.bitpos.toNat + (b.bits referenceTables).length)
        nsb := BitVec.ofNat 5 (b.bands.length - 1), specMode := b.mode.bit, result := BitVec.ofNat 32 (b.bands.length - 1)
        qm := qm, sel := sel, sfi := sfi } ∧
      holdsSpectrum referenceTables { s with qm := qm, sel := sel, sfi := sfi } b) ∧
  (∀ s t : State, exec .spectrum s = .next t → t.err = false →
    ∃ b : SpectralBlock, b.ok referenceTables = true ∧ onStream s (b.bits referenceTables) = true)

/-- 70_reset_and_hazards.md R255: with 8486 bits left in a loaded frame SPECTRUM completes, whatever the bits are, and consumes no more than
that. -/
def Obligations.SpectrumCompletesWithin8486Bits : Prop :=
  ∀ s : State, FrameLoaded s → s.bitpos.toNat + 8486 ≤ s.bitlen.toNat →
    ∃ t, exec .spectrum s = .next t ∧ t.done = true ∧ t.err = false ∧ t.result.toNat < 32 ∧ t.bitpos.toNat ≤ s.bitpos.toNat + 8486

/-- 42_spectrum.md R149: when every present selector is 0, SPECTRUM zero-fills all 1024 lines and consumes 6 + 3*(N+1) bits. -/
def Obligations.AllZeroSelectorsZeroTheSpectrum : Prop :=
  ∀ (s : State) (n : Nat) (mode : Bool), n < 32 →
    onStream s (natBits 5 n ++ [mode] ++ List.replicate (3 * (n + 1)) false) = true →
    ∃ t, exec .spectrum s = .next t ∧ t.done = true ∧ t.err = false ∧ (∀ j, j < 1024 → t.qm.read j = some 0#32) ∧
      (∀ i, i < 32 → t.sel.read i = some 0#32 ∧ t.sfi.read i = some 0#32) ∧
      t.bitpos.toNat = s.bitpos.toNat + 6 + 3 * (n + 1) ∧ t.result = BitVec.ofNat 32 n

/-- 10_state.md R37, R38, 42_spectrum.md R145, R147: after a successful SPECTRUM every one of QM[0..1023], SEL[0..31] and SFI[0..31] is
written with a value of its range; SFI[i] is 0 where SEL[i] is 0, both are 0 above NSB, and QM is 0 on every line of a subband with SEL[i] = 0. -/
def Obligations.SpectrumOutputsAreWrittenAndInRange : Prop :=
  ∀ s t : State, exec .spectrum s = .next t → t.done = true →
    t.result.toNat = t.nsb.toNat ∧
    (∀ j, j < 1024 → ∃ v : Int, -32 ≤ v ∧ v ≤ 31 ∧ t.qm.read j = some (BitVec.ofInt 32 v)) ∧
    (∀ i, i < 32 → ∃ sel sfi : Nat, sel < 8 ∧ sfi < 64 ∧ t.sel.read i = some (BitVec.ofNat 32 sel) ∧ t.sfi.read i = some (BitVec.ofNat 32 sfi) ∧
      (sel = 0 → sfi = 0 ∧ ∀ j, subbandStart referenceTables i ≤ j → j < subbandStart referenceTables (i + 1) → t.qm.read j = some 0#32) ∧
      (t.nsb.toNat < i → sel = 0))

/-- 42_spectrum.md R144, 60_exceptions.md R217, 40_bitread.md R111: under LEAVE_MUTATED a SPECTRUM whose block runs past BITLEN reports
E_OVERRUN at the field or codeword that does, with BITPOS there, and leaves what it had written: SPECINFO field by field, SEL, SFI and QM
entry by entry in the order of the block; every later entry keeps its earlier value. One clause for each kind of field: NSB, the mode bit, a
selector, a scale-factor index, a mantissa code. -/
def Obligations.SpectrumKeepsEarlierFieldsOnOverrun : Prop :=
  ∀ (c : Config) (s : State) (b : SpectralBlock), c.tables = referenceTables → c.sideInfoOrder = .grouped → c.abortPolicy = .leaveMutated →
    b.ok referenceTables = true →
    (s.bitlen.toNat < s.bitpos.toNat + 5 → spectrumWith c s = .next (s.overran 0)) ∧
    (onStream s (natBits 5 (b.bands.length - 1)) = true → s.bitlen.toNat < s.bitpos.toNat + 6 →
      spectrumWith c s = .next { s.overran 5 with nsb := BitVec.ofNat 5 (b.bands.length - 1) }) ∧
    (∀ m, m < b.bands.length → onStream s (b.bitsBeforeSel m) = true →
      s.bitlen.toNat < s.bitpos.toNat + (b.bitsBeforeSel m).length + 3 →
      ∃ sel, spectrumWith c s = .next { s.overran (b.bitsBeforeSel m).length with
          nsb := BitVec.ofNat 5 (b.bands.length - 1), specMode := b.mode.bit, sel := sel } ∧
        ∀ i, sel.read i = if i < m then some (BitVec.ofNat 32 ((b.bands.map Band.sel).getD i 0)) else s.sel.read i) ∧
    (∀ m x, b.bands[m]? = some x → x.sel ≠ 0 → onStream s (b.bitsBeforeSfi m) = true →
      s.bitlen.toNat < s.bitpos.toNat + (b.bitsBeforeSfi m).length + 6 →
      ∃ sel sfi, spectrumWith c s = .next { s.overran (b.bitsBeforeSfi m).length with
          nsb := BitVec.ofNat 5 (b.bands.length - 1), specMode := b.mode.bit, sel := sel, sfi := sfi } ∧
        (∀ i, sel.read i = if i < b.bands.length then some (BitVec.ofNat 32 ((b.bands.map Band.sel).getD i 0)) else s.sel.read i) ∧
        ∀ i, sfi.read i = if i < m then some (BitVec.ofNat 32 ((b.bands.map Band.sfi).getD i 0)) else s.sfi.read i) ∧
    (∀ m x n, b.bands[m]? = some x → x.sel ≠ 0 → n < x.codes.length →
      onStream s (b.bitsBeforeMant referenceTables m ++ mantBits referenceTables x.sel b.mode (x.codes.take n)) = true →
      codeCut referenceTables x.sel b.mode s
        (s.bitpos.toNat + (b.bitsBeforeMant referenceTables m ++ mantBits referenceTables x.sel b.mode (x.codes.take n)).length) →
      ∃ sel sfi qm, spectrumWith c s = .next
          { s.overran (b.bitsBeforeMant referenceTables m ++ mantBits referenceTables x.sel b.mode (x.codes.take n)).length with
            nsb := BitVec.ofNat 5 (b.bands.length - 1), specMode := b.mode.bit, sel := sel, sfi := sfi, qm := qm } ∧
        (∀ i, sel.read i = if i < b.bands.length then some (BitVec.ofNat 32 ((b.bands.map Band.sel).getD i 0)) else s.sel.read i) ∧
        (∀ i, sfi.read i = if i < b.bands.length then some (BitVec.ofNat 32 ((b.bands.map Band.sfi).getD i 0)) else s.sfi.read i) ∧
        (∀ i y, i < m → b.bands[i]? = some y → ∀ k, k < subbandWidth referenceTables i →
          qm.read (subbandStart referenceTables i + k) = some (BitVec.ofInt 32 ((mantValues referenceTables y.sel b.mode y.codes).getD k 0))) ∧
        ∀ j, subbandStart referenceTables m ≤ j → qm.read j =
          if j < subbandStart referenceTables m + (mantValues referenceTables x.sel b.mode (x.codes.take n)).length then
            some (BitVec.ofInt 32 ((mantValues referenceTables x.sel b.mode (x.codes.take n)).getD (j - subbandStart referenceTables m) 0))
          else s.qm.read j)

/-! ### TONAL -/

/-- 43_tonal.md R166, R170, 30_encoding.md R89: TONAL parses exactly the tonal blocks of at most 64 components. A block on the stream is parsed:
TC[0..count-1] hold its components in stream order, TCCOUNT and RESULT are their number, BITPOS stands after it, and nothing else changes; and a
TONAL that ends without error had such a block on the stream. -/
def Obligations.TonalParsesTheTonalBlock : Prop :=
  (∀ (s : State) (nb : BitVec 2) (b : TonalBlock), b.ok referenceTables nb.toNat = true → onStream s (b.bits referenceTables) = true →
    ∃ tc, exec (.tonal nb) s = .next { s with
        busy := false, done := true, err := false
        bitpos := BitVec.ofNat 17 (s.bitpos.toNat + (b.bits referenceTables).length)
        tccount := BitVec.ofNat 7 (b.entries referenceTables).length
        result := BitVec.ofNat 32 (b.entries referenceTables).length, tc := tc } ∧
      (∀ k (h : k < (b.entries referenceTables).length), holdsEntry { s with tc := tc } k (b.entries referenceTables)[k]) ∧
      ∀ a, 12 * (b.entries referenceTables).length ≤ a → tc.read a = s.tc.read a) ∧
  (∀ (s t : State) (nb : BitVec 2), exec (.tonal nb) s = .next t → t.err = false →
    ∃ b : TonalBlock, b.ok referenceTables nb.toNat = true ∧ onStream s (b.bits referenceTables) = true)

/-- 43_tonal.md R161: with NC = 0 the block is those 5 bits alone and TONAL returns 0. -/
def Obligations.TonalWithoutComponentsReadsFiveBits : Prop :=
  ∀ (s : State) (nb : BitVec 2), onStream s [false, false, false, false, false] = true →
    exec (.tonal nb) s = .next { s with
      busy := false, done := true, err := false, bitpos := BitVec.ofNat 17 (s.bitpos.toNat + 5), tccount := 0#7, result := 0#32 }

/-- 43_tonal.md R163, 60_exceptions.md R211, R215, R217: the coding-mode selector 2 raises E_TONAL_MODE at its first bit, having read it;
under LEAVE_MUTATED TCCOUNT is 0, TC as before, and nothing else changes. -/
def Obligations.TonalModeTwoRaisesTonalMode : Prop :=
  ∀ (s : State) (nb : BitVec 2) (nc : Nat), 1 ≤ nc → nc < 32 → onStream s (natBits 5 nc ++ [true, false]) = true →
    (∃ t, exec (.tonal nb) s = .next t ∧ t.busy = false ∧ t.done = false ∧ t.err = true ∧ t.errcode = 3#4 ∧
      t.errpos.toNat = s.bitpos.toNat + 5 ∧ t.bitpos.toNat = s.bitpos.toNat + 7 ∧ t.result = s.result) ∧
    ∀ c : Config, c.abortPolicy = .leaveMutated → tonalWith c nb s = .next { s with
      busy := false, done := false, err := true, errcode := 3#4, tccount := 0#7
      errpos := BitVec.ofNat 17 (s.bitpos.toNat + 5), bitpos := BitVec.ofNat 17 (s.bitpos.toNat + 7) }

/-- 43_tonal.md R164, R168, 60_exceptions.md R215, R217: a quantization-step index 0 or 1 in any declared component raises E_TONAL_QSTEP at its
first bit, BITPOS standing right after it; under LEAVE_MUTATED TC holds the components of the declared components before it, TCCOUNT is
their number, and nothing else changes. -/
def Obligations.TonalQstepBelowTwoRaisesTonalQstep : Prop :=
  ∀ (s : State) (nb : BitVec 2) (nc cms cv qs p : Nat) (before : List TonalGroup) (flags : List Bool) (es : List TcEntry), nc < 32 →
    before.length < nc → cms < 4 → cms ≠ 2 → (∀ g ∈ before, g.ok referenceTables nb.toNat cms = true) →
    es = before.flatMap (TonalGroup.entries referenceTables) → es.length ≤ 64 → flags.length = nb.toNat + 1 → cv < 8 → qs < 2 →
    onStream s (natBits 5 nc ++ natBits 2 cms ++ before.flatMap (TonalGroup.bits referenceTables cms) ++ flags ++ natBits 3 cv ++
      natBits 3 qs) = true →
    p = s.bitpos.toNat + 7 + (before.flatMap (TonalGroup.bits referenceTables cms)).length + flags.length + 3 →
    (∃ t, exec (.tonal nb) s = .next t ∧ t.busy = false ∧ t.done = false ∧ t.err = true ∧ t.errcode = 4#4 ∧
      t.errpos.toNat = p ∧ t.bitpos.toNat = p + 3 ∧ t.result = s.result) ∧
    ∀ c : Config, c.tables = referenceTables → c.abortPolicy = .leaveMutated →
      ∃ tc, tonalWith c nb s = .next { s with
          busy := false, done := false, err := true, errcode := 4#4, tccount := BitVec.ofNat 7 es.length, tc := tc
          errpos := BitVec.ofNat 17 p, bitpos := BitVec.ofNat 17 (p + 3) } ∧
        (∀ k (h : k < es.length), holdsEntry { s with tc := tc } k es[k]) ∧ ∀ a, 12 * es.length ≤ a → tc.read a = s.tc.read a

/-- 43_tonal.md R167, R166, 60_exceptions.md R211, R217: a block with more than 64 components raises E_TONAL_CAP; ERRPOS is the first bit of
the 65th component's scale-factor index, whose 6 bits have been read and need be the last ones on the stream; under LEAVE_MUTATED TC holds
the first 64, TCCOUNT is 64, and nothing else changes. -/
def Obligations.TonalCapStopsAtTheSixtyFifth : Prop :=
  (∀ (s : State) (nb : BitVec 2) (b : TonalBlock), b.shape referenceTables nb.toNat = true → 64 < (b.entries referenceTables).length →
    onStream s (b.bits referenceTables) = true →
    (∃ t, exec (.tonal nb) s = .next t ∧ t.busy = false ∧ t.done = false ∧ t.err = true ∧ t.errcode = 5#4 ∧
      t.bitpos.toNat = t.errpos.toNat + 6 ∧ t.result = s.result) ∧
    ∀ c : Config, c.tables = referenceTables → c.abortPolicy = .leaveMutated →
      ∃ t, tonalWith c nb s = .next t ∧ t.errcode = 5#4 ∧ t.tccount = 64#7 ∧
        ∀ k (h : k < (b.entries referenceTables).length), k < 64 → holdsEntry t k (b.entries referenceTables)[k]) ∧
  (∀ (s : State) (nb : BitVec 2) (b : TonalBlock), b.shape referenceTables nb.toNat = true →
    ∀ n g p xs r x es q, b.groups[n]? = some g → g.comps[p]? = some xs → xs[r]? = some x →
      es = b.entriesBefore referenceTables n ++ g.entriesBefore referenceTables p r → es.length = 64 →
      onStream s (b.bitsBefore referenceTables n ++ g.bitsBeforeComp referenceTables b.cms p xs r ++ natBits 6 x.sfi) = true →
      q = s.bitpos.toNat + (b.bitsBefore referenceTables n ++ g.bitsBeforeComp referenceTables b.cms p xs r).length →
      (∃ t, exec (.tonal nb) s = .next t ∧ t.busy = false ∧ t.done = false ∧ t.err = true ∧ t.errcode = 5#4 ∧
        t.errpos.toNat = q ∧ t.bitpos.toNat = q + 6 ∧ t.result = s.result) ∧
      ∀ c : Config, c.tables = referenceTables → c.abortPolicy = .leaveMutated →
        ∃ tc, tonalWith c nb s = .next { s with
            busy := false, done := false, err := true, errcode := 5#4, tccount := 64#7, tc := tc
            errpos := BitVec.ofNat 17 q, bitpos := BitVec.ofNat 17 (q + 6) } ∧
          (∀ k (h : k < es.length), holdsEntry { s with tc := tc } k es[k]) ∧ ∀ a, 12 * 64 ≤ a → tc.read a = s.tc.read a)

/-- 43_tonal.md R166, 60_exceptions.md R217, 40_bitread.md R111, 10_state.md R32: under LEAVE_MUTATED a TONAL whose block runs past BITLEN
reports E_OVERRUN at the field or codeword that does, with BITPOS there; TCCOUNT is the number of components completed before, TC holds them,
of a component half read the four fields and the mantissas it had delivered, and every later field keeps its earlier value. One clause each
for NC, CMS, a field at which no component is half read, the place of a component, and a mantissa code of one. -/
def Obligations.TonalKeepsEarlierComponentsOnOverrun : Prop :=
  ∀ (c : Config) (s : State) (nb : BitVec 2) (b : TonalBlock), c.tables = referenceTables → c.abortPolicy = .leaveMutated →
    b.shape referenceTables nb.toNat = true →
    (s.bitlen.toNat < s.bitpos.toNat + 5 → tonalWith c nb s = .next { s.overran 0 with tccount := 0#7 }) ∧
    (b.groups ≠ [] → onStream s (natBits 5 b.groups.length) = true → s.bitlen.toNat < s.bitpos.toNat + 7 →
      tonalWith c nb s = .next { s.overran 5 with tccount := 0#7 }) ∧
    (∀ n g bits es w, b.groups[n]? = some g → TonalBoundary referenceTables b.cms g bits es w →
      (b.entriesBefore referenceTables n ++ es).length ≤ 64 → onStream s (b.bitsBefore referenceTables n ++ bits) = true →
      s.bitlen.toNat < s.bitpos.toNat + (b.bitsBefore referenceTables n ++ bits).length + w →
      ∃ tc, tonalWith c nb s = .next { s.overran (b.bitsBefore referenceTables n ++ bits).length with
          tccount := BitVec.ofNat 7 (b.entriesBefore referenceTables n ++ es).length, tc := tc } ∧
        (∀ k (h : k < (b.entriesBefore referenceTables n ++ es).length),
          holdsEntry { s with tc := tc } k (b.entriesBefore referenceTables n ++ es)[k]) ∧
        ∀ a, 12 * (b.entriesBefore referenceTables n ++ es).length ≤ a → tc.read a = s.tc.read a) ∧
    (∀ n g p xs r x bits es, b.groups[n]? = some g → g.comps[p]? = some xs → xs[r]? = some x →
      bits = b.bitsBefore referenceTables n ++ g.bitsBeforeComp referenceTables b.cms p xs r ++ natBits 6 x.sfi →
      es = b.entriesBefore referenceTables n ++ g.entriesBefore referenceTables p r → es.length < 64 →
      onStream s bits = true → s.bitlen.toNat < s.bitpos.toNat + bits.length + 6 →
      ∃ tc, tonalWith c nb s = .next { s.overran bits.length with tccount := BitVec.ofNat 7 es.length, tc := tc } ∧
        (∀ k (h : k < es.length), holdsEntry { s with tc := tc } k es[k]) ∧ ∀ a, 12 * es.length ≤ a → tc.read a = s.tc.read a) ∧
    ∀ n g p j xs r x m bits es, b.groups[n]? = some g → (activePositions g.flags)[p]? = some j → g.comps[p]? = some xs → xs[r]? = some x →
      m < x.codes.length →
      bits = b.bitsBefore referenceTables n ++ g.bitsBeforeComp referenceTables b.cms p xs r ++ natBits 6 x.sfi ++ natBits 6 x.place ++
        mantBits referenceTables g.qs g.mode (x.codes.take m) →
      es = b.entriesBefore referenceTables n ++ g.entriesBefore referenceTables p r → es.length < 64 →
      onStream s bits = true → codeCut referenceTables g.qs g.mode s (s.bitpos.toNat + bits.length) →
      ∃ tc, tonalWith c nb s = .next { s.overran bits.length with tccount := BitVec.ofNat 7 es.length, tc := tc } ∧
        (∀ k (h : k < es.length), holdsEntry { s with tc := tc } k es[k]) ∧
        tc.read (tcIndex es.length .pos) = some (BitVec.ofNat 32 (64 * j + x.place)) ∧
        tc.read (tcIndex es.length .ncoef) = some (BitVec.ofNat 32 (min (1024 - (64 * j + x.place)) (g.cv + 1))) ∧
        tc.read (tcIndex es.length .sfi) = some (BitVec.ofNat 32 x.sfi) ∧ tc.read (tcIndex es.length .qstep) = some (BitVec.ofNat 32 g.qs) ∧
        (∀ k, k < 8 → tc.read (tcIndex es.length (.mant k)) =
          if k < m then some (BitVec.ofInt 32 ((mantValues referenceTables g.qs g.mode (x.codes.take m)).getD k 0))
          else s.tc.read (tcIndex es.length (.mant k))) ∧
        ∀ a, 12 * (es.length + 1) ≤ a → tc.read a = s.tc.read a

/-- 43_tonal.md R165, R169, 10_state.md R40: every component of a successful TONAL lies in the coded QMF bands and has fields of their ranges,
and its MANT fields from NCOEF on are 0. -/
def Obligations.TonalEntriesAreInRange : Prop :=
  ∀ (s t : State) (nb : BitVec 2), exec (.tonal nb) s = .next t → t.done = true →
    t.tccount.toNat ≤ 64 ∧ t.result.toNat = t.tccount.toNat ∧
    ∀ k, k < t.tccount.toNat → ∃ e : TcEntry, holdsEntry t k e ∧ e.pos < 256 * (nb.toNat + 1) ∧ 1 ≤ e.ncoef ∧ e.ncoef ≤ 8 ∧
      e.pos + e.ncoef ≤ 1024 ∧ e.sfi < 64 ∧ 2 ≤ e.qstep ∧ e.qstep ≤ 7 ∧ e.mants.length = e.ncoef ∧ ∀ v ∈ e.mants, -32 ≤ v ∧ v ≤ 31

/-! ### The host window -/

/-- 44_control.md R190, R191: a CMD write issues the command while BUSY = 0, and only sets OVR while BUSY = 1. -/
def Obligations.CmdWriteIssuesOrSetsOvr : Prop :=
  ∀ (s : State) (w : Word) (rest : List Turn), s.agenda = .host (.write 0x000 .w32 w) :: rest →
    (s.busy = false → step s = .next { s with
      agenda := rest, pending := w, done := false, err := false, errcode := 0#4, busy := true }) ∧
    (s.busy = true → step s = .next { s with agenda := rest, ovr := true })

/-- 44_control.md R192: a write to 0x1000..0x2FFF, BITPOS or BITLEN while BUSY = 1 is ignored and sets OVR. Those of these offsets that lie
above a smaller FB are among them (log 18). -/
def Obligations.InputWritesWhileBusySetOvr : Prop :=
  ∀ (s : State) (off : Nat) (w : Width) (v : Word) (rest : List Turn), s.busy = true →
    s.agenda = .host (.write off w v) :: rest →
    (0x1000 ≤ off ∧ off < 0x3000 ∧ off % w.bytes = 0) ∨ ((off = 0x00C ∨ off = 0x010) ∧ w = .w32) →
    step s = .next { s with agenda := rest, ovr := true }

/-- 44_control.md R193: WR STATUS clears DONE, ERR and OVR where bits 1, 2 and 3 are 1, and changes nothing else. -/
def Obligations.StatusWriteClearsTheMarkedBits : Prop :=
  ∀ (s : State) (v : Word) (rest : List Turn), s.agenda = .host (.write 0x004 .w32 v) :: rest →
    step s = .next { s with
      agenda := rest
      done := if v.getLsbD 1 then false else s.done
      err := if v.getLsbD 2 then false else s.err
      ovr := if v.getLsbD 3 then false else s.ovr }

/-- 44_control.md R194: WR BITPOS and WR BITLEN while BUSY = 0. -/
def Obligations.PositionWritesStoreAndClamp : Prop :=
  ∀ (s : State) (v : Word) (rest : List Turn), s.busy = false →
    (s.agenda = .host (.write 0x00C .w32 v) :: rest → step s = .next { s with agenda := rest, bitpos := v.extractLsb' 0 17 }) ∧
    (s.agenda = .host (.write 0x010 .w32 v) :: rest →
      ∃ t, step s = .next t ∧ t = { s with agenda := rest, bitlen := t.bitlen } ∧
        t.bitlen.toNat = min (v.extractLsb' 0 17).toNat (8 * machineConfig.maxFrameBytes))

/-- 44_control.md R195, 70_reset_and_hazards.md R242: WR CTRL with SRST = 1 puts every register at its reset value and keeps FB; while
BUSY = 0 it keeps the output buffers, while BUSY = 1 it keeps those the abandoned command may not write. -/
def Obligations.SoftResetClearsTheRegisters : Prop :=
  ∀ (s : State) (v : Word) (rest : List Turn), v.getLsbD 1 = true → s.agenda = .host (.write 0x008 .w32 v) :: rest →
    ∃ t, step s = .next t ∧ (∀ r : Reg, regWord t r = 0#32) ∧ irq t = false ∧ t.fb = s.fb ∧ t.agenda = rest ∧
      (s.busy = false → t.qm = s.qm ∧ t.sel = s.sel ∧ t.sfi = s.sfi ∧ t.mbuf = s.mbuf ∧ t.tc = s.tc) ∧
      (decode s.pending ≠ .ok .spectrum → t.qm = s.qm ∧ t.sel = s.sel ∧ t.sfi = s.sfi) ∧
      ((∀ nb, decode s.pending ≠ .ok (.tonal nb)) → t.tc = s.tc) ∧
      (∀ k, (∀ sel mode cnt, decode s.pending = .ok (.mant sel mode cnt) → cnt.toNat ≤ k) → t.mbuf.read k = s.mbuf.read k)

/-- 44_control.md R197: WR CTRL with SRST = 0 sets IE, also while BUSY, and changes nothing else. -/
def Obligations.CtrlWriteSetsInterruptEnable : Prop :=
  ∀ (s : State) (v : Word) (rest : List Turn), v.getLsbD 1 = false → s.agenda = .host (.write 0x008 .w32 v) :: rest →
    step s = .next { s with agenda := rest, ie := v.getLsbD 0 }

/-- 60_exceptions.md R220: `irq` is CTRL.IE and one of DONE and ERR. It rises when a command ends with IE = 1 and is low after a CMD write that
issues a command. -/
def Obligations.IrqFollowsDoneAndErr : Prop :=
  (∀ s : State, irq s = true ↔ s.ie = true ∧ (s.done = true ∨ s.err = true)) ∧
  (∀ (i : Instr) (s t : State), exec i s = .next t → irq t = s.ie) ∧
  (∀ (s : State) (w : Word), irq (s.issue w) = false)

/-- 44_control.md R196, 10_state.md R24 to R33: RD of each register while BUSY = 0 returns its value, field by field, and changes nothing
else. -/
def Obligations.RegisterReadsReturnTheFields : Prop :=
  ∀ (s : State) (off : Nat) (rest : List Turn), s.busy = false → s.agenda = .host (.read off .w32) :: rest → off % 4 = 0 → off ≤ 0x020 →
    ∃ v : Word, step s = .next { s with agenda := rest, rdata := v } ∧
      (off = 0x000 → v = 0#32) ∧
      (off = 0x004 → v.getLsbD 0 = false ∧ v.getLsbD 1 = s.done ∧ v.getLsbD 2 = s.err ∧ v.getLsbD 3 = s.ovr ∧
        v.extractLsb' 4 4 = s.errcode ∧ v.extractLsb' 8 24 = 0#24) ∧
      (off = 0x008 → v.getLsbD 0 = s.ie ∧ v.extractLsb' 1 31 = 0#31) ∧
      (off = 0x00C → v.extractLsb' 0 17 = s.bitpos ∧ v.extractLsb' 17 15 = 0#15) ∧
      (off = 0x010 → v.extractLsb' 0 17 = s.bitlen ∧ v.extractLsb' 17 15 = 0#15) ∧
      (off = 0x014 → v = s.result) ∧
      (off = 0x018 → v.extractLsb' 0 5 = s.nsb ∧ v.getLsbD 8 = s.specMode ∧ v.extractLsb' 5 3 = 0#3 ∧ v.extractLsb' 9 23 = 0#23) ∧
      (off = 0x01C → v.extractLsb' 0 7 = s.tccount ∧ v.extractLsb' 7 25 = 0#25) ∧
      (off = 0x020 → v.extractLsb' 0 17 = s.errpos ∧ v.extractLsb' 17 15 = 0#15)

/-- 20_memory.md R64, R65, 44_control.md R196, 10_state.md R26, R27, R29 (logs 11, 13): while BUSY = 1 a read of RESULT, SPECINFO, TCCOUNT,
ERRPOS, BITPOS or of an output-buffer word that has been written returns the next draw and changes nothing else; STATUS, CTRL and BITLEN
return their fields at their bits, STATUS with BUSY = 1 in bit 0, and CMD reads 0. -/
def Obligations.BusyReadsReturnADraw : Prop :=
  ∀ (s : State) (off : Nat) (rest : List Turn), s.busy = true → s.agenda = .host (.read off .w32) :: rest → off % 4 = 0 →
    (off = 0x00C ∨ (0x014 ≤ off ∧ off ≤ 0x020) ∨ (∃ x, OutputAt s off (some x)) →
      step s = .next { s with agenda := rest, rdata := Config.freeWord s.draws, draws := s.draws + 1 }) ∧
    (off = 0x000 → step s = .next { s with agenda := rest, rdata := 0#32 }) ∧
    (off = 0x004 → ∃ v : Word, step s = .next { s with agenda := rest, rdata := v } ∧ v.getLsbD 0 = true ∧ v.getLsbD 1 = s.done ∧
      v.getLsbD 2 = s.err ∧ v.getLsbD 3 = s.ovr ∧ v.extractLsb' 4 4 = s.errcode ∧ v.extractLsb' 8 24 = 0#24) ∧
    (off = 0x008 → ∃ v : Word, step s = .next { s with agenda := rest, rdata := v } ∧ v.getLsbD 0 = s.ie ∧ v.extractLsb' 1 31 = 0#31) ∧
    (off = 0x010 → ∃ v : Word, step s = .next { s with agenda := rest, rdata := v } ∧ v.extractLsb' 0 17 = s.bitlen ∧
      v.extractLsb' 17 15 = 0#15)

/-- 20_memory.md R55, R58, 44_control.md R198: an aligned FB write while BUSY = 0 stores its bytes, the lowest address in the low bits, and
bytes past FB are ignored; every other byte and register stays. -/
def Obligations.FrameBufferWriteStoresLittleEndian : Prop :=
  ∀ (s : State) (a : Nat) (w : Width) (v : Word) (rest : List Turn), s.busy = false → a < machineConfig.maxFrameBytes →
    (0x1000 + a) % w.bytes = 0 → s.agenda = .host (.write (0x1000 + a) w v) :: rest →
    ∃ m, step s = .next { s with agenda := rest, fb := m } ∧
      ∀ b, m.read b = if a ≤ b ∧ b < a + w.bytes ∧ b < machineConfig.maxFrameBytes then some (v.extractLsb' (8 * (b - a)) 8)
        else s.fb.read b

/-- 20_memory.md R55, R58, 44_control.md R198: an aligned FB read returns the stored bytes, the lowest address in the low bits, bytes past FB
as 0 (zero-extended: log 25), whether BUSY is 0 or 1; with a byte never written the run stops (10_state.md R41). -/
def Obligations.FrameBufferReadReturnsLittleEndian : Prop :=
  ∀ (s : State) (a : Nat) (w : Width) (rest : List Turn), a < machineConfig.maxFrameBytes → (0x1000 + a) % w.bytes = 0 →
    s.agenda = .host (.read (0x1000 + a) w) :: rest →
    ((∀ b, a ≤ b → b < a + w.bytes → b < machineConfig.maxFrameBytes → (s.fb.read b).isSome = true) →
      ∃ v : Word, step s = .next { s with agenda := rest, rdata := v } ∧
        ∀ k, k < 4 → v.extractLsb' (8 * k) 8 =
          if k < w.bytes ∧ a + k < machineConfig.maxFrameBytes then (s.fb.read (a + k)).getD 0#8 else 0#8) ∧
    ((∃ b, a ≤ b ∧ b < a + w.bytes ∧ b < machineConfig.maxFrameBytes ∧ s.fb.read b = none) → step s = .fault .hostReadUnwritten)

/-- 44_control.md R198, 20_memory.md R56, R68, 10_state.md R41, 60_exceptions.md R224: a read of an output word while BUSY = 0 returns the
stored word; where the entry has never been written the read stops the run, whether BUSY is 0 or 1 (log 13). -/
def Obligations.OutputReadsReturnTheStoredWord : Prop :=
  ∀ (s : State) (off : Nat) (rest : List Turn) (v : Option Word), s.agenda = .host (.read off .w32) :: rest → OutputAt s off v →
    (∀ x, v = some x → s.busy = false → step s = .next { s with agenda := rest, rdata := x }) ∧
    (v = none → step s = .fault .hostReadUnwritten)

/-- 20_memory.md R58, R59, 60_exceptions.md R224 (log 17): the accesses that stop the run as a host protocol violation: those outside the window,
misaligned ones, and narrow ones to a register or an output word. Every other write goes on. -/
def Obligations.ProtocolViolationsStopTheRun : Prop :=
  (∀ (s : State) (off : Nat) (w : Width) (v : Word) (rest : List Turn), s.agenda = .host (.write off w v) :: rest →
    ((∃ f, step s = .fault f) ↔ (0x8000 ≤ off ∨ off % w.bytes ≠ 0 ∨
      (w ≠ .w32 ∧ (off < 0x24 ∨ (0x4000 ≤ off ∧ off < 0x5300) ∨ (0x6000 ≤ off ∧ off < 0x7000))))) ∧
    ((∃ t, step s = .next t) ∨ ∃ f, step s = .fault f)) ∧
  (∀ (s : State) (off : Nat) (w : Width) (rest : List Turn), s.agenda = .host (.read off w) :: rest →
    ((∃ f, f ≠ .hostReadUnwritten ∧ step s = .fault f) ↔ (0x8000 ≤ off ∨ off % w.bytes ≠ 0 ∨
      (w ≠ .w32 ∧ (off < 0x24 ∨ (0x4000 ≤ off ∧ off < 0x5300) ∨ (0x6000 ≤ off ∧ off < 0x7000))))))

/-- 20_memory.md R57, R56, 10_state.md R24, R30 to R33: a read of a reserved offset returns 0; a write to a reserved offset, to an output
buffer or to a read-only register (RESULT, SPECINFO, TCCOUNT, ERRPOS; log 19) is ignored, with no other effect, whether BUSY is 0 or 1. The
offsets above FB are reserved; a write to those of them that R192 names has this effect while BUSY = 0 (log 18); a reserved offset outside the TC entries takes every width (log 17). -/
def Obligations.ReservedOffsetsReadZeroAndIgnoreWrites : Prop :=
  (∀ (s : State) (off : Nat) (w : Width) (rest : List Turn), s.agenda = .host (.read off w) :: rest → off % w.bytes = 0 →
    (0x24 ≤ off ∧ off < 0x1000) ∨ (0x1000 + machineConfig.maxFrameBytes ≤ off ∧ off < 0x4000) ∨ (0x5300 ≤ off ∧ off < 0x6000) ∨
      (0x6000 ≤ off ∧ off < 0x7000 ∧ 0x30 ≤ off % 64 ∧ w = .w32) ∨ (0x7000 ≤ off ∧ off < 0x8000) →
    step s = .next { s with agenda := rest, rdata := 0#32 }) ∧
  (∀ (s : State) (off : Nat) (w : Width) (v : Word) (rest : List Turn), s.agenda = .host (.write off w v) :: rest → off % w.bytes = 0 →
    (0x24 ≤ off ∧ off < 0x1000) ∨ (0x1000 + machineConfig.maxFrameBytes ≤ off ∧ off < 0x4000 ∧ (0x3000 ≤ off ∨ s.busy = false)) ∨ (0x5300 ≤ off ∧ off < 0x6000) ∨
      (0x7000 ≤ off ∧ off < 0x8000) ∨ (0x4000 ≤ off ∧ off < 0x8000 ∧ w = .w32) ∨ (0x014 ≤ off ∧ off < 0x024 ∧ w = .w32) →
    step s = .next { s with agenda := rest })

/-- 20_memory.md R61: no host read changes anything but what the host has read (and the model's counter of draws). -/
def Obligations.HostReadsHaveNoSideEffect : Prop :=
  ∀ (s t : State) (off : Nat) (w : Width) (rest : List Turn), s.agenda = .host (.read off w) :: rest → step s = .next t →
    t = { s with agenda := rest, rdata := t.rdata, draws := t.draws }

/-- 20_memory.md R64, R66: while BUSY = 1 no host access but a soft reset changes FB, BITPOS, BITLEN, PENDING or BUSY, and none changes FB. -/
def Obligations.InputsAreFrozenWhileBusy : Prop :=
  ∀ (s t : State) (op : HostOp) (rest : List Turn), s.busy = true → s.agenda = .host op :: rest → step s = .next t →
    t.fb = s.fb ∧ t.pending = s.pending ∧
    ((t.bitpos = s.bitpos ∧ t.bitlen = s.bitlen ∧ t.busy = true) ∨ ∃ v : Word, v.getLsbD 1 = true ∧ op = .write 0x008 .w32 v)

/-- 30_encoding.md R93, 70_reset_and_hazards.md R243: the host accesses of LOADFRAME, one after another on an idle block, leave the bytes in
FB[0..], BITLEN at 8 times their number and BITPOS at 0, and change nothing else. -/
def Obligations.LoadFrameLoadsTheBytes : Prop :=
  ∀ (s : State) (bytes : List Byte), s.busy = false → bytes.length ≤ machineConfig.maxFrameBytes →
    ∃ m, Sys2Proof.core.run (bytes.length + 2) { s with agenda := (pseudoLoadFrame bytes).map Turn.host } =
        .next { s with agenda := [], fb := m, bitlen := BitVec.ofNat 17 (8 * bytes.length), bitpos := 0#17 } ∧
      ∀ a, m.read a = if h : a < bytes.length then some bytes[a] else s.fb.read a

/-! ### The invariant -/

/-- The reset state meets the invariant: buffers in canonical form and within the block's sizes (10_state.md R36 to R40), a STATUS the rules
allow (R26, 44_control.md R190, 60_exceptions.md R211), BITLEN within FB (10_state.md R29). -/
def Obligations.ResetMeetsTheInvariant : Prop :=
  Inv machineConfig State.reset

/-- Every step, whoever moves, keeps the invariant (10_state.md R26, R29, R36 to R40, 44_control.md R190, 60_exceptions.md R211). -/
def Obligations.EveryStepKeepsTheInvariant : Prop :=
  ∀ s t : State, Inv machineConfig s → step s = .next t → Inv machineConfig t
end

