-- ==== Sys2Proof/Laws/Memory.lean ====
section
/-! SUPPORT. Buffers: what a read sees after a write, and that every operation keeps the canonical form. -/

namespace Sys2Proof.Machine

variable {α : Type}

@[simp] theorem Memory.read_nil (a : Nat) : Memory.read ([] : Memory α) a = none := rfl

theorem Memory.read_cons (k : Nat) (v : α) (m : Memory α) (a : Nat) :
    Memory.read ((k, v) :: m) a = if a = k then some v else Memory.read m a := rfl

theorem Memory.read_write (m : Memory α) (a : Nat) (v : α) (b : Nat) :
    Memory.read (m.write a v) b = if b = a then some v else Memory.read m b := by
  induction m with
  | nil => simp [Memory.write, Memory.read_cons]
  | cons p rest ih =>
    obtain ⟨k, x⟩ := p
    rw [Memory.write]
    by_cases h1 : a < k
    · rw [if_pos h1, Memory.read_cons]
    · rw [if_neg h1]
      by_cases h2 : a = k
      · subst h2
        rw [if_pos rfl, Memory.read_cons, Memory.read_cons]
        by_cases h3 : b = a <;> simp [h3]
      · rw [if_neg h2, Memory.read_cons, ih, Memory.read_cons]
        by_cases h3 : b = k
        · have h4 : ¬ b = a := by omega
          simp [h3, h4, Ne.symm h2]
        · simp [h3]

@[simp] theorem Memory.read_write_same (m : Memory α) (a : Nat) (v : α) : Memory.read (m.write a v) a = some v := by
  simp [Memory.read_write]

theorem Memory.read_write_other (m : Memory α) {a b : Nat} (v : α) (h : b ≠ a) :
    Memory.read (m.write a v) b = Memory.read m b := by
  simp [Memory.read_write, h]

theorem Memory.read_append (m n : Memory α) (a : Nat) :
    Memory.read (m ++ n) a = (Memory.read m a).or (Memory.read n a) := by
  induction m with
  | nil => simp
  | cons p rest ih =>
    obtain ⟨k, x⟩ := p
    simp only [List.cons_append, Memory.read_cons, ih]
    split_ifs <;> simp

theorem Memory.read_filter (m : Memory α) (P : Nat → Bool) (a : Nat) :
    Memory.read (m.filter (fun p => P p.1)) a = if P a then Memory.read m a else none := by
  induction m with
  | nil => simp
  | cons p rest ih =>
    obtain ⟨k, x⟩ := p
    by_cases hk : P k = true
    · rw [List.filter_cons_of_pos (by simpa using hk), Memory.read_cons, Memory.read_cons, ih]
      by_cases h : a = k
      · subst h; simp [hk]
      · simp [h]
    · rw [List.filter_cons_of_neg (by simpa using hk), Memory.read_cons, ih]
      by_cases h : a = k
      · subst h; simp [hk]
      · simp [h]

theorem Memory.read_block (f : Nat → α) (lo n a : Nat) :
    Memory.read (Memory.block f lo n) a = if lo ≤ a ∧ a < lo + n then some (f a) else none := by
  induction n generalizing lo with
  | zero => simp [Memory.block]
  | succ n ih =>
    simp only [Memory.block, Memory.read_cons, ih]
    split_ifs with h1 h2 h3 h4 h5
    · subst h1; rfl
    · omega
    · rfl
    · omega
    · omega
    · rfl

theorem Memory.read_fill (m : Memory α) (lo n : Nat) (f : Nat → α) (a : Nat) :
    Memory.read (m.fill lo n f) a = if lo ≤ a ∧ a < lo + n then some (f a) else Memory.read m a := by
  have h1 := Memory.read_filter m (fun k => decide (k < lo)) a
  have h2 := Memory.read_filter m (fun k => decide (lo + n ≤ k)) a
  simp only [Memory.fill, Memory.read_append, Memory.read_block] at *
  rw [h1, h2]
  by_cases ha : a < lo
  · have : ¬ lo ≤ a := by omega
    have h3 : ¬ lo + n ≤ a := by omega
    simp [ha, this, h3]
  · by_cases hb : lo + n ≤ a
    · have : ¬ a < lo + n := by omega
      simp [ha, hb, this]
    · have h3 : lo ≤ a := by omega
      have h4 : a < lo + n := by omega
      simp [ha, h3, h4]

/-! ### The canonical form -/

theorem Memory.wf_iff (m : Memory α) : m.wf = true ↔ m.Pairwise (fun p q => p.1 < q.1) := by
  induction m with
  | nil => simp [Memory.wf]
  | cons p rest ih =>
    obtain ⟨a, x⟩ := p
    cases rest with
    | nil => simp [Memory.wf]
    | cons q rest =>
      obtain ⟨b, v⟩ := q
      simp only [Memory.wf, Bool.and_eq_true, decide_eq_true_eq, ih, List.pairwise_cons]
      constructor
      · rintro ⟨hab, hb, hr⟩
        refine ⟨?_, hb, hr⟩
        intro r hr'
        rcases List.mem_cons.1 hr' with h | h
        · subst h; exact hab
        · exact lt_trans hab (hb r h)
      · rintro ⟨ha, hb, hr⟩
        exact ⟨ha (b, v) (by simp), hb, hr⟩

theorem Memory.mem_write {m : Memory α} {a : Nat} {v : α} {p : Nat × α} (h : p ∈ m.write a v) : p = (a, v) ∨ p ∈ m := by
  induction m with
  | nil => simpa [Memory.write] using h
  | cons q rest ih =>
    obtain ⟨k, x⟩ := q
    simp only [Memory.write] at h
    split_ifs at h with h1 h2
    · simpa using h
    · rcases List.mem_cons.1 h with h | h
      · exact .inl h
      · exact .inr (List.mem_cons_of_mem _ h)
    · rcases List.mem_cons.1 h with h | h
      · exact .inr (by simp [h])
      · rcases ih h with h | h
        · exact .inl h
        · exact .inr (List.mem_cons_of_mem _ h)

theorem Memory.wf_write {m : Memory α} (a : Nat) (v : α) (h : m.wf = true) : (m.write a v).wf = true := by
  rw [Memory.wf_iff] at *
  induction m with
  | nil => simp [Memory.write]
  | cons q rest ih =>
    obtain ⟨k, x⟩ := q
    have h' := List.pairwise_cons.1 h
    simp only [Memory.write]
    split_ifs with h1 h2
    · refine List.pairwise_cons.2 ⟨?_, h⟩
      intro r hr
      rcases List.mem_cons.1 hr with hr | hr
      · subst hr; exact h1
      · exact lt_trans h1 (h'.1 r hr)
    · subst h2; exact List.pairwise_cons.2 ⟨h'.1, h'.2⟩
    · refine List.pairwise_cons.2 ⟨?_, ih h'.2⟩
      intro r hr
      rcases Memory.mem_write hr with hr | hr
      · subst hr; show k < a; omega
      · exact h'.1 r hr

theorem Memory.mem_block {f : Nat → α} {lo n : Nat} {p : Nat × α} (h : p ∈ Memory.block f lo n) : lo ≤ p.1 ∧ p.1 < lo + n := by
  induction n generalizing lo with
  | zero => simp [Memory.block] at h
  | succ n ih =>
    rcases List.mem_cons.1 h with h | h
    · subst h; show lo ≤ lo ∧ lo < lo + (n + 1); omega
    · have := ih h; omega

theorem Memory.wf_block (f : Nat → α) (lo n : Nat) : (Memory.block f lo n).Pairwise (fun p q => p.1 < q.1) := by
  induction n generalizing lo with
  | zero => simp [Memory.block]
  | succ n ih =>
    refine List.pairwise_cons.2 ⟨?_, ih (lo + 1)⟩
    intro r hr
    have := Memory.mem_block hr
    show lo < r.1
    omega

theorem Memory.wf_fill {m : Memory α} (lo n : Nat) (f : Nat → α) (h : m.wf = true) : (m.fill lo n f).wf = true := by
  rw [Memory.wf_iff] at *
  simp only [Memory.fill]
  rw [List.pairwise_append, List.pairwise_append]
  refine ⟨⟨h.filter _, Memory.wf_block f lo n, ?_⟩, h.filter _, ?_⟩
  · intro p hp q hq
    have h1 : p.1 < lo := by simpa using (List.mem_filter.1 hp).2
    have := Memory.mem_block hq
    omega
  · intro p hp q hq
    have h2 : lo + n ≤ q.1 := by simpa using (List.mem_filter.1 hq).2
    rcases List.mem_append.1 hp with hp | hp
    · have h1 : p.1 < lo := by simpa using (List.mem_filter.1 hp).2
      omega
    · have := Memory.mem_block hp
      omega

theorem Memory.below_iff (bound : Nat) (m : Memory α) : m.below bound = true ↔ ∀ p ∈ m, p.1 < bound := by
  simp [Memory.below]

theorem Memory.below_write {m : Memory α} {bound a : Nat} (v : α) (h : m.below bound = true) (ha : a < bound) :
    (m.write a v).below bound = true := by
  rw [Memory.below_iff] at *
  intro p hp
  rcases Memory.mem_write hp with hp | hp
  · subst hp; exact ha
  · exact h p hp

theorem Memory.below_fill {m : Memory α} {bound lo n : Nat} (f : Nat → α) (h : m.below bound = true) (ha : lo + n ≤ bound) :
    (m.fill lo n f).below bound = true := by
  rw [Memory.below_iff] at *
  intro p hp
  simp only [Memory.fill, List.mem_append] at hp
  rcases hp with (hp | hp) | hp
  · exact h p (List.mem_filter.1 hp).1
  · have := Memory.mem_block hp; omega
  · exact h p (List.mem_filter.1 hp).1

theorem Memory.wf_fbStore (c : Config) {m : Memory Byte} (h : m.wf = true) (a n v : Nat) : (fbStore c a n v m).wf = true := by
  induction n generalizing a v m with
  | zero => exact h
  | succ n ih =>
    simp only [fbStore]
    split_ifs
    · exact ih (Memory.wf_write _ _ h) _ _
    · exact ih h _ _

theorem Memory.below_fbStore (c : Config) {m : Memory Byte} (h : m.below c.maxFrameBytes = true) (a n v : Nat) :
    (fbStore c a n v m).below c.maxFrameBytes = true := by
  induction n generalizing a v m with
  | zero => exact h
  | succ n ih =>
    simp only [fbStore]
    split_ifs with ha
    · exact ih (Memory.below_write _ h ha) _ _
    · exact ih h _ _

end Sys2Proof.Machine
end

