-- ==== Sys2Proof/Laws/State.lean ====
section
/-! SUPPORT. One lemma for each field and each named update of the state, true by rfl. -/

namespace Sys2Proof.Machine

variable (s : State)

@[simp] theorem State.setBitpos_busy (p : Nat) : (s.setBitpos p).busy = s.busy := rfl
@[simp] theorem State.setBitpos_done (p : Nat) : (s.setBitpos p).done = s.done := rfl
@[simp] theorem State.setBitpos_err (p : Nat) : (s.setBitpos p).err = s.err := rfl
@[simp] theorem State.setBitpos_ovr (p : Nat) : (s.setBitpos p).ovr = s.ovr := rfl
@[simp] theorem State.setBitpos_errcode (p : Nat) : (s.setBitpos p).errcode = s.errcode := rfl
@[simp] theorem State.setBitpos_ie (p : Nat) : (s.setBitpos p).ie = s.ie := rfl
@[simp] theorem State.setBitpos_bitpos (p : Nat) : (s.setBitpos p).bitpos = BitVec.ofNat 17 p := rfl
@[simp] theorem State.setBitpos_bitlen (p : Nat) : (s.setBitpos p).bitlen = s.bitlen := rfl
@[simp] theorem State.setBitpos_result (p : Nat) : (s.setBitpos p).result = s.result := rfl
@[simp] theorem State.setBitpos_nsb (p : Nat) : (s.setBitpos p).nsb = s.nsb := rfl
@[simp] theorem State.setBitpos_specMode (p : Nat) : (s.setBitpos p).specMode = s.specMode := rfl
@[simp] theorem State.setBitpos_tccount (p : Nat) : (s.setBitpos p).tccount = s.tccount := rfl
@[simp] theorem State.setBitpos_errpos (p : Nat) : (s.setBitpos p).errpos = s.errpos := rfl
@[simp] theorem State.setBitpos_pending (p : Nat) : (s.setBitpos p).pending = s.pending := rfl
@[simp] theorem State.setBitpos_fb (p : Nat) : (s.setBitpos p).fb = s.fb := rfl
@[simp] theorem State.setBitpos_qm (p : Nat) : (s.setBitpos p).qm = s.qm := rfl
@[simp] theorem State.setBitpos_sel (p : Nat) : (s.setBitpos p).sel = s.sel := rfl
@[simp] theorem State.setBitpos_sfi (p : Nat) : (s.setBitpos p).sfi = s.sfi := rfl
@[simp] theorem State.setBitpos_mbuf (p : Nat) : (s.setBitpos p).mbuf = s.mbuf := rfl
@[simp] theorem State.setBitpos_tc (p : Nat) : (s.setBitpos p).tc = s.tc := rfl
@[simp] theorem State.setBitpos_draws (p : Nat) : (s.setBitpos p).draws = s.draws := rfl
@[simp] theorem State.setBitpos_rdata (p : Nat) : (s.setBitpos p).rdata = s.rdata := rfl
@[simp] theorem State.setBitpos_agenda (p : Nat) : (s.setBitpos p).agenda = s.agenda := rfl

@[simp] theorem State.setNsb_busy (n : Nat) : (s.setNsb n).busy = s.busy := rfl
@[simp] theorem State.setNsb_done (n : Nat) : (s.setNsb n).done = s.done := rfl
@[simp] theorem State.setNsb_err (n : Nat) : (s.setNsb n).err = s.err := rfl
@[simp] theorem State.setNsb_ovr (n : Nat) : (s.setNsb n).ovr = s.ovr := rfl
@[simp] theorem State.setNsb_errcode (n : Nat) : (s.setNsb n).errcode = s.errcode := rfl
@[simp] theorem State.setNsb_ie (n : Nat) : (s.setNsb n).ie = s.ie := rfl
@[simp] theorem State.setNsb_bitpos (n : Nat) : (s.setNsb n).bitpos = s.bitpos := rfl
@[simp] theorem State.setNsb_bitlen (n : Nat) : (s.setNsb n).bitlen = s.bitlen := rfl
@[simp] theorem State.setNsb_result (n : Nat) : (s.setNsb n).result = s.result := rfl
@[simp] theorem State.setNsb_nsb (n : Nat) : (s.setNsb n).nsb = BitVec.ofNat 5 n := rfl
@[simp] theorem State.setNsb_specMode (n : Nat) : (s.setNsb n).specMode = s.specMode := rfl
@[simp] theorem State.setNsb_tccount (n : Nat) : (s.setNsb n).tccount = s.tccount := rfl
@[simp] theorem State.setNsb_errpos (n : Nat) : (s.setNsb n).errpos = s.errpos := rfl
@[simp] theorem State.setNsb_pending (n : Nat) : (s.setNsb n).pending = s.pending := rfl
@[simp] theorem State.setNsb_fb (n : Nat) : (s.setNsb n).fb = s.fb := rfl
@[simp] theorem State.setNsb_qm (n : Nat) : (s.setNsb n).qm = s.qm := rfl
@[simp] theorem State.setNsb_sel (n : Nat) : (s.setNsb n).sel = s.sel := rfl
@[simp] theorem State.setNsb_sfi (n : Nat) : (s.setNsb n).sfi = s.sfi := rfl
@[simp] theorem State.setNsb_mbuf (n : Nat) : (s.setNsb n).mbuf = s.mbuf := rfl
@[simp] theorem State.setNsb_tc (n : Nat) : (s.setNsb n).tc = s.tc := rfl
@[simp] theorem State.setNsb_draws (n : Nat) : (s.setNsb n).draws = s.draws := rfl
@[simp] theorem State.setNsb_rdata (n : Nat) : (s.setNsb n).rdata = s.rdata := rfl
@[simp] theorem State.setNsb_agenda (n : Nat) : (s.setNsb n).agenda = s.agenda := rfl

@[simp] theorem State.setSpecMode_busy (m : CodingMode) : (s.setSpecMode m).busy = s.busy := rfl
@[simp] theorem State.setSpecMode_done (m : CodingMode) : (s.setSpecMode m).done = s.done := rfl
@[simp] theorem State.setSpecMode_err (m : CodingMode) : (s.setSpecMode m).err = s.err := rfl
@[simp] theorem State.setSpecMode_ovr (m : CodingMode) : (s.setSpecMode m).ovr = s.ovr := rfl
@[simp] theorem State.setSpecMode_errcode (m : CodingMode) : (s.setSpecMode m).errcode = s.errcode := rfl
@[simp] theorem State.setSpecMode_ie (m : CodingMode) : (s.setSpecMode m).ie = s.ie := rfl
@[simp] theorem State.setSpecMode_bitpos (m : CodingMode) : (s.setSpecMode m).bitpos = s.bitpos := rfl
@[simp] theorem State.setSpecMode_bitlen (m : CodingMode) : (s.setSpecMode m).bitlen = s.bitlen := rfl
@[simp] theorem State.setSpecMode_result (m : CodingMode) : (s.setSpecMode m).result = s.result := rfl
@[simp] theorem State.setSpecMode_nsb (m : CodingMode) : (s.setSpecMode m).nsb = s.nsb := rfl
@[simp] theorem State.setSpecMode_specMode (m : CodingMode) : (s.setSpecMode m).specMode = m.bit := rfl
@[simp] theorem State.setSpecMode_tccount (m : CodingMode) : (s.setSpecMode m).tccount = s.tccount := rfl
@[simp] theorem State.setSpecMode_errpos (m : CodingMode) : (s.setSpecMode m).errpos = s.errpos := rfl
@[simp] theorem State.setSpecMode_pending (m : CodingMode) : (s.setSpecMode m).pending = s.pending := rfl
@[simp] theorem State.setSpecMode_fb (m : CodingMode) : (s.setSpecMode m).fb = s.fb := rfl
@[simp] theorem State.setSpecMode_qm (m : CodingMode) : (s.setSpecMode m).qm = s.qm := rfl
@[simp] theorem State.setSpecMode_sel (m : CodingMode) : (s.setSpecMode m).sel = s.sel := rfl
@[simp] theorem State.setSpecMode_sfi (m : CodingMode) : (s.setSpecMode m).sfi = s.sfi := rfl
@[simp] theorem State.setSpecMode_mbuf (m : CodingMode) : (s.setSpecMode m).mbuf = s.mbuf := rfl
@[simp] theorem State.setSpecMode_tc (m : CodingMode) : (s.setSpecMode m).tc = s.tc := rfl
@[simp] theorem State.setSpecMode_draws (m : CodingMode) : (s.setSpecMode m).draws = s.draws := rfl
@[simp] theorem State.setSpecMode_rdata (m : CodingMode) : (s.setSpecMode m).rdata = s.rdata := rfl
@[simp] theorem State.setSpecMode_agenda (m : CodingMode) : (s.setSpecMode m).agenda = s.agenda := rfl

@[simp] theorem State.setTccount_busy (n : Nat) : (s.setTccount n).busy = s.busy := rfl
@[simp] theorem State.setTccount_done (n : Nat) : (s.setTccount n).done = s.done := rfl
@[simp] theorem State.setTccount_err (n : Nat) : (s.setTccount n).err = s.err := rfl
@[simp] theorem State.setTccount_ovr (n : Nat) : (s.setTccount n).ovr = s.ovr := rfl
@[simp] theorem State.setTccount_errcode (n : Nat) : (s.setTccount n).errcode = s.errcode := rfl
@[simp] theorem State.setTccount_ie (n : Nat) : (s.setTccount n).ie = s.ie := rfl
@[simp] theorem State.setTccount_bitpos (n : Nat) : (s.setTccount n).bitpos = s.bitpos := rfl
@[simp] theorem State.setTccount_bitlen (n : Nat) : (s.setTccount n).bitlen = s.bitlen := rfl
@[simp] theorem State.setTccount_result (n : Nat) : (s.setTccount n).result = s.result := rfl
@[simp] theorem State.setTccount_nsb (n : Nat) : (s.setTccount n).nsb = s.nsb := rfl
@[simp] theorem State.setTccount_specMode (n : Nat) : (s.setTccount n).specMode = s.specMode := rfl
@[simp] theorem State.setTccount_tccount (n : Nat) : (s.setTccount n).tccount = BitVec.ofNat 7 n := rfl
@[simp] theorem State.setTccount_errpos (n : Nat) : (s.setTccount n).errpos = s.errpos := rfl
@[simp] theorem State.setTccount_pending (n : Nat) : (s.setTccount n).pending = s.pending := rfl
@[simp] theorem State.setTccount_fb (n : Nat) : (s.setTccount n).fb = s.fb := rfl
@[simp] theorem State.setTccount_qm (n : Nat) : (s.setTccount n).qm = s.qm := rfl
@[simp] theorem State.setTccount_sel (n : Nat) : (s.setTccount n).sel = s.sel := rfl
@[simp] theorem State.setTccount_sfi (n : Nat) : (s.setTccount n).sfi = s.sfi := rfl
@[simp] theorem State.setTccount_mbuf (n : Nat) : (s.setTccount n).mbuf = s.mbuf := rfl
@[simp] theorem State.setTccount_tc (n : Nat) : (s.setTccount n).tc = s.tc := rfl
@[simp] theorem State.setTccount_draws (n : Nat) : (s.setTccount n).draws = s.draws := rfl
@[simp] theorem State.setTccount_rdata (n : Nat) : (s.setTccount n).rdata = s.rdata := rfl
@[simp] theorem State.setTccount_agenda (n : Nat) : (s.setTccount n).agenda = s.agenda := rfl

@[simp] theorem State.writeQm_busy (i : Nat) (v : Int) : (s.writeQm i v).busy = s.busy := rfl
@[simp] theorem State.writeQm_done (i : Nat) (v : Int) : (s.writeQm i v).done = s.done := rfl
@[simp] theorem State.writeQm_err (i : Nat) (v : Int) : (s.writeQm i v).err = s.err := rfl
@[simp] theorem State.writeQm_ovr (i : Nat) (v : Int) : (s.writeQm i v).ovr = s.ovr := rfl
@[simp] theorem State.writeQm_errcode (i : Nat) (v : Int) : (s.writeQm i v).errcode = s.errcode := rfl
@[simp] theorem State.writeQm_ie (i : Nat) (v : Int) : (s.writeQm i v).ie = s.ie := rfl
@[simp] theorem State.writeQm_bitpos (i : Nat) (v : Int) : (s.writeQm i v).bitpos = s.bitpos := rfl
@[simp] theorem State.writeQm_bitlen (i : Nat) (v : Int) : (s.writeQm i v).bitlen = s.bitlen := rfl
@[simp] theorem State.writeQm_result (i : Nat) (v : Int) : (s.writeQm i v).result = s.result := rfl
@[simp] theorem State.writeQm_nsb (i : Nat) (v : Int) : (s.writeQm i v).nsb = s.nsb := rfl
@[simp] theorem State.writeQm_specMode (i : Nat) (v : Int) : (s.writeQm i v).specMode = s.specMode := rfl
@[simp] theorem State.writeQm_tccount (i : Nat) (v : Int) : (s.writeQm i v).tccount = s.tccount := rfl
@[simp] theorem State.writeQm_errpos (i : Nat) (v : Int) : (s.writeQm i v).errpos = s.errpos := rfl
@[simp] theorem State.writeQm_pending (i : Nat) (v : Int) : (s.writeQm i v).pending = s.pending := rfl
@[simp] theorem State.writeQm_fb (i : Nat) (v : Int) : (s.writeQm i v).fb = s.fb := rfl
@[simp] theorem State.writeQm_qm (i : Nat) (v : Int) : (s.writeQm i v).qm = s.qm.write i (wordOfInt v) := rfl
@[simp] theorem State.writeQm_sel (i : Nat) (v : Int) : (s.writeQm i v).sel = s.sel := rfl
@[simp] theorem State.writeQm_sfi (i : Nat) (v : Int) : (s.writeQm i v).sfi = s.sfi := rfl
@[simp] theorem State.writeQm_mbuf (i : Nat) (v : Int) : (s.writeQm i v).mbuf = s.mbuf := rfl
@[simp] theorem State.writeQm_tc (i : Nat) (v : Int) : (s.writeQm i v).tc = s.tc := rfl
@[simp] theorem State.writeQm_draws (i : Nat) (v : Int) : (s.writeQm i v).draws = s.draws := rfl
@[simp] theorem State.writeQm_rdata (i : Nat) (v : Int) : (s.writeQm i v).rdata = s.rdata := rfl
@[simp] theorem State.writeQm_agenda (i : Nat) (v : Int) : (s.writeQm i v).agenda = s.agenda := rfl

@[simp] theorem State.zeroQm_busy (lo n : Nat) : (s.zeroQm lo n).busy = s.busy := rfl
@[simp] theorem State.zeroQm_done (lo n : Nat) : (s.zeroQm lo n).done = s.done := rfl
@[simp] theorem State.zeroQm_err (lo n : Nat) : (s.zeroQm lo n).err = s.err := rfl
@[simp] theorem State.zeroQm_ovr (lo n : Nat) : (s.zeroQm lo n).ovr = s.ovr := rfl
@[simp] theorem State.zeroQm_errcode (lo n : Nat) : (s.zeroQm lo n).errcode = s.errcode := rfl
@[simp] theorem State.zeroQm_ie (lo n : Nat) : (s.zeroQm lo n).ie = s.ie := rfl
@[simp] theorem State.zeroQm_bitpos (lo n : Nat) : (s.zeroQm lo n).bitpos = s.bitpos := rfl
@[simp] theorem State.zeroQm_bitlen (lo n : Nat) : (s.zeroQm lo n).bitlen = s.bitlen := rfl
@[simp] theorem State.zeroQm_result (lo n : Nat) : (s.zeroQm lo n).result = s.result := rfl
@[simp] theorem State.zeroQm_nsb (lo n : Nat) : (s.zeroQm lo n).nsb = s.nsb := rfl
@[simp] theorem State.zeroQm_specMode (lo n : Nat) : (s.zeroQm lo n).specMode = s.specMode := rfl
@[simp] theorem State.zeroQm_tccount (lo n : Nat) : (s.zeroQm lo n).tccount = s.tccount := rfl
@[simp] theorem State.zeroQm_errpos (lo n : Nat) : (s.zeroQm lo n).errpos = s.errpos := rfl
@[simp] theorem State.zeroQm_pending (lo n : Nat) : (s.zeroQm lo n).pending = s.pending := rfl
@[simp] theorem State.zeroQm_fb (lo n : Nat) : (s.zeroQm lo n).fb = s.fb := rfl
@[simp] theorem State.zeroQm_qm (lo n : Nat) : (s.zeroQm lo n).qm = s.qm.fill lo n (fun _ => 0#32) := rfl
@[simp] theorem State.zeroQm_sel (lo n : Nat) : (s.zeroQm lo n).sel = s.sel := rfl
@[simp] theorem State.zeroQm_sfi (lo n : Nat) : (s.zeroQm lo n).sfi = s.sfi := rfl
@[simp] theorem State.zeroQm_mbuf (lo n : Nat) : (s.zeroQm lo n).mbuf = s.mbuf := rfl
@[simp] theorem State.zeroQm_tc (lo n : Nat) : (s.zeroQm lo n).tc = s.tc := rfl
@[simp] theorem State.zeroQm_draws (lo n : Nat) : (s.zeroQm lo n).draws = s.draws := rfl
@[simp] theorem State.zeroQm_rdata (lo n : Nat) : (s.zeroQm lo n).rdata = s.rdata := rfl
@[simp] theorem State.zeroQm_agenda (lo n : Nat) : (s.zeroQm lo n).agenda = s.agenda := rfl

@[simp] theorem State.writeSel_busy (i v : Nat) : (s.writeSel i v).busy = s.busy := rfl
@[simp] theorem State.writeSel_done (i v : Nat) : (s.writeSel i v).done = s.done := rfl
@[simp] theorem State.writeSel_err (i v : Nat) : (s.writeSel i v).err = s.err := rfl
@[simp] theorem State.writeSel_ovr (i v : Nat) : (s.writeSel i v).ovr = s.ovr := rfl
@[simp] theorem State.writeSel_errcode (i v : Nat) : (s.writeSel i v).errcode = s.errcode := rfl
@[simp] theorem State.writeSel_ie (i v : Nat) : (s.writeSel i v).ie = s.ie := rfl
@[simp] theorem State.writeSel_bitpos (i v : Nat) : (s.writeSel i v).bitpos = s.bitpos := rfl
@[simp] theorem State.writeSel_bitlen (i v : Nat) : (s.writeSel i v).bitlen = s.bitlen := rfl
@[simp] theorem State.writeSel_result (i v : Nat) : (s.writeSel i v).result = s.result := rfl
@[simp] theorem State.writeSel_nsb (i v : Nat) : (s.writeSel i v).nsb = s.nsb := rfl
@[simp] theorem State.writeSel_specMode (i v : Nat) : (s.writeSel i v).specMode = s.specMode := rfl
@[simp] theorem State.writeSel_tccount (i v : Nat) : (s.writeSel i v).tccount = s.tccount := rfl
@[simp] theorem State.writeSel_errpos (i v : Nat) : (s.writeSel i v).errpos = s.errpos := rfl
@[simp] theorem State.writeSel_pending (i v : Nat) : (s.writeSel i v).pending = s.pending := rfl
@[simp] theorem State.writeSel_fb (i v : Nat) : (s.writeSel i v).fb = s.fb := rfl
@[simp] theorem State.writeSel_qm (i v : Nat) : (s.writeSel i v).qm = s.qm := rfl
@[simp] theorem State.writeSel_sel (i v : Nat) : (s.writeSel i v).sel = s.sel.write i (wordOfNat v) := rfl
@[simp] theorem State.writeSel_sfi (i v : Nat) : (s.writeSel i v).sfi = s.sfi := rfl
@[simp] theorem State.writeSel_mbuf (i v : Nat) : (s.writeSel i v).mbuf = s.mbuf := rfl
@[simp] theorem State.writeSel_tc (i v : Nat) : (s.writeSel i v).tc = s.tc := rfl
@[simp] theorem State.writeSel_draws (i v : Nat) : (s.writeSel i v).draws = s.draws := rfl
@[simp] theorem State.writeSel_rdata (i v : Nat) : (s.writeSel i v).rdata = s.rdata := rfl
@[simp] theorem State.writeSel_agenda (i v : Nat) : (s.writeSel i v).agenda = s.agenda := rfl

@[simp] theorem State.writeSfi_busy (i v : Nat) : (s.writeSfi i v).busy = s.busy := rfl
@[simp] theorem State.writeSfi_done (i v : Nat) : (s.writeSfi i v).done = s.done := rfl
@[simp] theorem State.writeSfi_err (i v : Nat) : (s.writeSfi i v).err = s.err := rfl
@[simp] theorem State.writeSfi_ovr (i v : Nat) : (s.writeSfi i v).ovr = s.ovr := rfl
@[simp] theorem State.writeSfi_errcode (i v : Nat) : (s.writeSfi i v).errcode = s.errcode := rfl
@[simp] theorem State.writeSfi_ie (i v : Nat) : (s.writeSfi i v).ie = s.ie := rfl
@[simp] theorem State.writeSfi_bitpos (i v : Nat) : (s.writeSfi i v).bitpos = s.bitpos := rfl
@[simp] theorem State.writeSfi_bitlen (i v : Nat) : (s.writeSfi i v).bitlen = s.bitlen := rfl
@[simp] theorem State.writeSfi_result (i v : Nat) : (s.writeSfi i v).result = s.result := rfl
@[simp] theorem State.writeSfi_nsb (i v : Nat) : (s.writeSfi i v).nsb = s.nsb := rfl
@[simp] theorem State.writeSfi_specMode (i v : Nat) : (s.writeSfi i v).specMode = s.specMode := rfl
@[simp] theorem State.writeSfi_tccount (i v : Nat) : (s.writeSfi i v).tccount = s.tccount := rfl
@[simp] theorem State.writeSfi_errpos (i v : Nat) : (s.writeSfi i v).errpos = s.errpos := rfl
@[simp] theorem State.writeSfi_pending (i v : Nat) : (s.writeSfi i v).pending = s.pending := rfl
@[simp] theorem State.writeSfi_fb (i v : Nat) : (s.writeSfi i v).fb = s.fb := rfl
@[simp] theorem State.writeSfi_qm (i v : Nat) : (s.writeSfi i v).qm = s.qm := rfl
@[simp] theorem State.writeSfi_sel (i v : Nat) : (s.writeSfi i v).sel = s.sel := rfl
@[simp] theorem State.writeSfi_sfi (i v : Nat) : (s.writeSfi i v).sfi = s.sfi.write i (wordOfNat v) := rfl
@[simp] theorem State.writeSfi_mbuf (i v : Nat) : (s.writeSfi i v).mbuf = s.mbuf := rfl
@[simp] theorem State.writeSfi_tc (i v : Nat) : (s.writeSfi i v).tc = s.tc := rfl
@[simp] theorem State.writeSfi_draws (i v : Nat) : (s.writeSfi i v).draws = s.draws := rfl
@[simp] theorem State.writeSfi_rdata (i v : Nat) : (s.writeSfi i v).rdata = s.rdata := rfl
@[simp] theorem State.writeSfi_agenda (i v : Nat) : (s.writeSfi i v).agenda = s.agenda := rfl

@[simp] theorem State.zeroSide_busy (lo n : Nat) : (s.zeroSide lo n).busy = s.busy := rfl
@[simp] theorem State.zeroSide_done (lo n : Nat) : (s.zeroSide lo n).done = s.done := rfl
@[simp] theorem State.zeroSide_err (lo n : Nat) : (s.zeroSide lo n).err = s.err := rfl
@[simp] theorem State.zeroSide_ovr (lo n : Nat) : (s.zeroSide lo n).ovr = s.ovr := rfl
@[simp] theorem State.zeroSide_errcode (lo n : Nat) : (s.zeroSide lo n).errcode = s.errcode := rfl
@[simp] theorem State.zeroSide_ie (lo n : Nat) : (s.zeroSide lo n).ie = s.ie := rfl
@[simp] theorem State.zeroSide_bitpos (lo n : Nat) : (s.zeroSide lo n).bitpos = s.bitpos := rfl
@[simp] theorem State.zeroSide_bitlen (lo n : Nat) : (s.zeroSide lo n).bitlen = s.bitlen := rfl
@[simp] theorem State.zeroSide_result (lo n : Nat) : (s.zeroSide lo n).result = s.result := rfl
@[simp] theorem State.zeroSide_nsb (lo n : Nat) : (s.zeroSide lo n).nsb = s.nsb := rfl
@[simp] theorem State.zeroSide_specMode (lo n : Nat) : (s.zeroSide lo n).specMode = s.specMode := rfl
@[simp] theorem State.zeroSide_tccount (lo n : Nat) : (s.zeroSide lo n).tccount = s.tccount := rfl
@[simp] theorem State.zeroSide_errpos (lo n : Nat) : (s.zeroSide lo n).errpos = s.errpos := rfl
@[simp] theorem State.zeroSide_pending (lo n : Nat) : (s.zeroSide lo n).pending = s.pending := rfl
@[simp] theorem State.zeroSide_fb (lo n : Nat) : (s.zeroSide lo n).fb = s.fb := rfl
@[simp] theorem State.zeroSide_qm (lo n : Nat) : (s.zeroSide lo n).qm = s.qm := rfl
@[simp] theorem State.zeroSide_sel (lo n : Nat) : (s.zeroSide lo n).sel = s.sel.fill lo n (fun _ => 0#32) := rfl
@[simp] theorem State.zeroSide_sfi (lo n : Nat) : (s.zeroSide lo n).sfi = s.sfi.fill lo n (fun _ => 0#32) := rfl
@[simp] theorem State.zeroSide_mbuf (lo n : Nat) : (s.zeroSide lo n).mbuf = s.mbuf := rfl
@[simp] theorem State.zeroSide_tc (lo n : Nat) : (s.zeroSide lo n).tc = s.tc := rfl
@[simp] theorem State.zeroSide_draws (lo n : Nat) : (s.zeroSide lo n).draws = s.draws := rfl
@[simp] theorem State.zeroSide_rdata (lo n : Nat) : (s.zeroSide lo n).rdata = s.rdata := rfl
@[simp] theorem State.zeroSide_agenda (lo n : Nat) : (s.zeroSide lo n).agenda = s.agenda := rfl

@[simp] theorem State.writeMbuf_busy (i : Nat) (v : Int) : (s.writeMbuf i v).busy = s.busy := rfl
@[simp] theorem State.writeMbuf_done (i : Nat) (v : Int) : (s.writeMbuf i v).done = s.done := rfl
@[simp] theorem State.writeMbuf_err (i : Nat) (v : Int) : (s.writeMbuf i v).err = s.err := rfl
@[simp] theorem State.writeMbuf_ovr (i : Nat) (v : Int) : (s.writeMbuf i v).ovr = s.ovr := rfl
@[simp] theorem State.writeMbuf_errcode (i : Nat) (v : Int) : (s.writeMbuf i v).errcode = s.errcode := rfl
@[simp] theorem State.writeMbuf_ie (i : Nat) (v : Int) : (s.writeMbuf i v).ie = s.ie := rfl
@[simp] theorem State.writeMbuf_bitpos (i : Nat) (v : Int) : (s.writeMbuf i v).bitpos = s.bitpos := rfl
@[simp] theorem State.writeMbuf_bitlen (i : Nat) (v : Int) : (s.writeMbuf i v).bitlen = s.bitlen := rfl
@[simp] theorem State.writeMbuf_result (i : Nat) (v : Int) : (s.writeMbuf i v).result = s.result := rfl
@[simp] theorem State.writeMbuf_nsb (i : Nat) (v : Int) : (s.writeMbuf i v).nsb = s.nsb := rfl
@[simp] theorem State.writeMbuf_specMode (i : Nat) (v : Int) : (s.writeMbuf i v).specMode = s.specMode := rfl
@[simp] theorem State.writeMbuf_tccount (i : Nat) (v : Int) : (s.writeMbuf i v).tccount = s.tccount := rfl
@[simp] theorem State.writeMbuf_errpos (i : Nat) (v : Int) : (s.writeMbuf i v).errpos = s.errpos := rfl
@[simp] theorem State.writeMbuf_pending (i : Nat) (v : Int) : (s.writeMbuf i v).pending = s.pending := rfl
@[simp] theorem State.writeMbuf_fb (i : Nat) (v : Int) : (s.writeMbuf i v).fb = s.fb := rfl
@[simp] theorem State.writeMbuf_qm (i : Nat) (v : Int) : (s.writeMbuf i v).qm = s.qm := rfl
@[simp] theorem State.writeMbuf_sel (i : Nat) (v : Int) : (s.writeMbuf i v).sel = s.sel := rfl
@[simp] theorem State.writeMbuf_sfi (i : Nat) (v : Int) : (s.writeMbuf i v).sfi = s.sfi := rfl
@[simp] theorem State.writeMbuf_mbuf (i : Nat) (v : Int) : (s.writeMbuf i v).mbuf = s.mbuf.write i (wordOfInt v) := rfl
@[simp] theorem State.writeMbuf_tc (i : Nat) (v : Int) : (s.writeMbuf i v).tc = s.tc := rfl
@[simp] theorem State.writeMbuf_draws (i : Nat) (v : Int) : (s.writeMbuf i v).draws = s.draws := rfl
@[simp] theorem State.writeMbuf_rdata (i : Nat) (v : Int) : (s.writeMbuf i v).rdata = s.rdata := rfl
@[simp] theorem State.writeMbuf_agenda (i : Nat) (v : Int) : (s.writeMbuf i v).agenda = s.agenda := rfl

@[simp] theorem State.writeTc_busy (k : Nat) (f : TcField) (v : Int) : (s.writeTc k f v).busy = s.busy := rfl
@[simp] theorem State.writeTc_done (k : Nat) (f : TcField) (v : Int) : (s.writeTc k f v).done = s.done := rfl
@[simp] theorem State.writeTc_err (k : Nat) (f : TcField) (v : Int) : (s.writeTc k f v).err = s.err := rfl
@[simp] theorem State.writeTc_ovr (k : Nat) (f : TcField) (v : Int) : (s.writeTc k f v).ovr = s.ovr := rfl
@[simp] theorem State.writeTc_errcode (k : Nat) (f : TcField) (v : Int) : (s.writeTc k f v).errcode = s.errcode := rfl
@[simp] theorem State.writeTc_ie (k : Nat) (f : TcField) (v : Int) : (s.writeTc k f v).ie = s.ie := rfl
@[simp] theorem State.writeTc_bitpos (k : Nat) (f : TcField) (v : Int) : (s.writeTc k f v).bitpos = s.bitpos := rfl
@[simp] theorem State.writeTc_bitlen (k : Nat) (f : TcField) (v : Int) : (s.writeTc k f v).bitlen = s.bitlen := rfl
@[simp] theorem State.writeTc_result (k : Nat) (f : TcField) (v : Int) : (s.writeTc k f v).result = s.result := rfl
@[simp] theorem State.writeTc_nsb (k : Nat) (f : TcField) (v : Int) : (s.writeTc k f v).nsb = s.nsb := rfl
@[simp] theorem State.writeTc_specMode (k : Nat) (f : TcField) (v : Int) : (s.writeTc k f v).specMode = s.specMode := rfl
@[simp] theorem State.writeTc_tccount (k : Nat) (f : TcField) (v : Int) : (s.writeTc k f v).tccount = s.tccount := rfl
@[simp] theorem State.writeTc_errpos (k : Nat) (f : TcField) (v : Int) : (s.writeTc k f v).errpos = s.errpos := rfl
@[simp] theorem State.writeTc_pending (k : Nat) (f : TcField) (v : Int) : (s.writeTc k f v).pending = s.pending := rfl
@[simp] theorem State.writeTc_fb (k : Nat) (f : TcField) (v : Int) : (s.writeTc k f v).fb = s.fb := rfl
@[simp] theorem State.writeTc_qm (k : Nat) (f : TcField) (v : Int) : (s.writeTc k f v).qm = s.qm := rfl
@[simp] theorem State.writeTc_sel (k : Nat) (f : TcField) (v : Int) : (s.writeTc k f v).sel = s.sel := rfl
@[simp] theorem State.writeTc_sfi (k : Nat) (f : TcField) (v : Int) : (s.writeTc k f v).sfi = s.sfi := rfl
@[simp] theorem State.writeTc_mbuf (k : Nat) (f : TcField) (v : Int) : (s.writeTc k f v).mbuf = s.mbuf := rfl
@[simp] theorem State.writeTc_tc (k : Nat) (f : TcField) (v : Int) : (s.writeTc k f v).tc = s.tc.write (tcIndex k f) (wordOfInt v) := rfl
@[simp] theorem State.writeTc_draws (k : Nat) (f : TcField) (v : Int) : (s.writeTc k f v).draws = s.draws := rfl
@[simp] theorem State.writeTc_rdata (k : Nat) (f : TcField) (v : Int) : (s.writeTc k f v).rdata = s.rdata := rfl
@[simp] theorem State.writeTc_agenda (k : Nat) (f : TcField) (v : Int) : (s.writeTc k f v).agenda = s.agenda := rfl

@[simp] theorem State.zeroTcMant_busy (k lo n : Nat) : (s.zeroTcMant k lo n).busy = s.busy := rfl
@[simp] theorem State.zeroTcMant_done (k lo n : Nat) : (s.zeroTcMant k lo n).done = s.done := rfl
@[simp] theorem State.zeroTcMant_err (k lo n : Nat) : (s.zeroTcMant k lo n).err = s.err := rfl
@[simp] theorem State.zeroTcMant_ovr (k lo n : Nat) : (s.zeroTcMant k lo n).ovr = s.ovr := rfl
@[simp] theorem State.zeroTcMant_errcode (k lo n : Nat) : (s.zeroTcMant k lo n).errcode = s.errcode := rfl
@[simp] theorem State.zeroTcMant_ie (k lo n : Nat) : (s.zeroTcMant k lo n).ie = s.ie := rfl
@[simp] theorem State.zeroTcMant_bitpos (k lo n : Nat) : (s.zeroTcMant k lo n).bitpos = s.bitpos := rfl
@[simp] theorem State.zeroTcMant_bitlen (k lo n : Nat) : (s.zeroTcMant k lo n).bitlen = s.bitlen := rfl
@[simp] theorem State.zeroTcMant_result (k lo n : Nat) : (s.zeroTcMant k lo n).result = s.result := rfl
@[simp] theorem State.zeroTcMant_nsb (k lo n : Nat) : (s.zeroTcMant k lo n).nsb = s.nsb := rfl
@[simp] theorem State.zeroTcMant_specMode (k lo n : Nat) : (s.zeroTcMant k lo n).specMode = s.specMode := rfl
@[simp] theorem State.zeroTcMant_tccount (k lo n : Nat) : (s.zeroTcMant k lo n).tccount = s.tccount := rfl
@[simp] theorem State.zeroTcMant_errpos (k lo n : Nat) : (s.zeroTcMant k lo n).errpos = s.errpos := rfl
@[simp] theorem State.zeroTcMant_pending (k lo n : Nat) : (s.zeroTcMant k lo n).pending = s.pending := rfl
@[simp] theorem State.zeroTcMant_fb (k lo n : Nat) : (s.zeroTcMant k lo n).fb = s.fb := rfl
@[simp] theorem State.zeroTcMant_qm (k lo n : Nat) : (s.zeroTcMant k lo n).qm = s.qm := rfl
@[simp] theorem State.zeroTcMant_sel (k lo n : Nat) : (s.zeroTcMant k lo n).sel = s.sel := rfl
@[simp] theorem State.zeroTcMant_sfi (k lo n : Nat) : (s.zeroTcMant k lo n).sfi = s.sfi := rfl
@[simp] theorem State.zeroTcMant_mbuf (k lo n : Nat) : (s.zeroTcMant k lo n).mbuf = s.mbuf := rfl
@[simp] theorem State.zeroTcMant_tc (k lo n : Nat) : (s.zeroTcMant k lo n).tc = s.tc.fill (tcIndex k (.mant lo)) n (fun _ => 0#32) := rfl
@[simp] theorem State.zeroTcMant_draws (k lo n : Nat) : (s.zeroTcMant k lo n).draws = s.draws := rfl
@[simp] theorem State.zeroTcMant_rdata (k lo n : Nat) : (s.zeroTcMant k lo n).rdata = s.rdata := rfl
@[simp] theorem State.zeroTcMant_agenda (k lo n : Nat) : (s.zeroTcMant k lo n).agenda = s.agenda := rfl

@[simp] theorem State.endOk_busy (r : Word) : (s.endOk r).busy = false := rfl
@[simp] theorem State.endOk_done (r : Word) : (s.endOk r).done = true := rfl
@[simp] theorem State.endOk_err (r : Word) : (s.endOk r).err = false := rfl
@[simp] theorem State.endOk_ovr (r : Word) : (s.endOk r).ovr = s.ovr := rfl
@[simp] theorem State.endOk_errcode (r : Word) : (s.endOk r).errcode = s.errcode := rfl
@[simp] theorem State.endOk_ie (r : Word) : (s.endOk r).ie = s.ie := rfl
@[simp] theorem State.endOk_bitpos (r : Word) : (s.endOk r).bitpos = s.bitpos := rfl
@[simp] theorem State.endOk_bitlen (r : Word) : (s.endOk r).bitlen = s.bitlen := rfl
@[simp] theorem State.endOk_result (r : Word) : (s.endOk r).result = r := rfl
@[simp] theorem State.endOk_nsb (r : Word) : (s.endOk r).nsb = s.nsb := rfl
@[simp] theorem State.endOk_specMode (r : Word) : (s.endOk r).specMode = s.specMode := rfl
@[simp] theorem State.endOk_tccount (r : Word) : (s.endOk r).tccount = s.tccount := rfl
@[simp] theorem State.endOk_errpos (r : Word) : (s.endOk r).errpos = s.errpos := rfl
@[simp] theorem State.endOk_pending (r : Word) : (s.endOk r).pending = s.pending := rfl
@[simp] theorem State.endOk_fb (r : Word) : (s.endOk r).fb = s.fb := rfl
@[simp] theorem State.endOk_qm (r : Word) : (s.endOk r).qm = s.qm := rfl
@[simp] theorem State.endOk_sel (r : Word) : (s.endOk r).sel = s.sel := rfl
@[simp] theorem State.endOk_sfi (r : Word) : (s.endOk r).sfi = s.sfi := rfl
@[simp] theorem State.endOk_mbuf (r : Word) : (s.endOk r).mbuf = s.mbuf := rfl
@[simp] theorem State.endOk_tc (r : Word) : (s.endOk r).tc = s.tc := rfl
@[simp] theorem State.endOk_draws (r : Word) : (s.endOk r).draws = s.draws := rfl
@[simp] theorem State.endOk_rdata (r : Word) : (s.endOk r).rdata = s.rdata := rfl
@[simp] theorem State.endOk_agenda (r : Word) : (s.endOk r).agenda = s.agenda := rfl

@[simp] theorem State.endErr_busy (e : Err) (i : BitPos) : (s.endErr e i).busy = false := rfl
@[simp] theorem State.endErr_done (e : Err) (i : BitPos) : (s.endErr e i).done = false := rfl
@[simp] theorem State.endErr_err (e : Err) (i : BitPos) : (s.endErr e i).err = true := rfl
@[simp] theorem State.endErr_ovr (e : Err) (i : BitPos) : (s.endErr e i).ovr = s.ovr := rfl
@[simp] theorem State.endErr_errcode (e : Err) (i : BitPos) : (s.endErr e i).errcode = e.code := rfl
@[simp] theorem State.endErr_ie (e : Err) (i : BitPos) : (s.endErr e i).ie = s.ie := rfl
@[simp] theorem State.endErr_bitpos (e : Err) (i : BitPos) : (s.endErr e i).bitpos = s.bitpos := rfl
@[simp] theorem State.endErr_bitlen (e : Err) (i : BitPos) : (s.endErr e i).bitlen = s.bitlen := rfl
@[simp] theorem State.endErr_result (e : Err) (i : BitPos) : (s.endErr e i).result = s.result := rfl
@[simp] theorem State.endErr_nsb (e : Err) (i : BitPos) : (s.endErr e i).nsb = s.nsb := rfl
@[simp] theorem State.endErr_specMode (e : Err) (i : BitPos) : (s.endErr e i).specMode = s.specMode := rfl
@[simp] theorem State.endErr_tccount (e : Err) (i : BitPos) : (s.endErr e i).tccount = s.tccount := rfl
@[simp] theorem State.endErr_errpos (e : Err) (i : BitPos) : (s.endErr e i).errpos = i := rfl
@[simp] theorem State.endErr_pending (e : Err) (i : BitPos) : (s.endErr e i).pending = s.pending := rfl
@[simp] theorem State.endErr_fb (e : Err) (i : BitPos) : (s.endErr e i).fb = s.fb := rfl
@[simp] theorem State.endErr_qm (e : Err) (i : BitPos) : (s.endErr e i).qm = s.qm := rfl
@[simp] theorem State.endErr_sel (e : Err) (i : BitPos) : (s.endErr e i).sel = s.sel := rfl
@[simp] theorem State.endErr_sfi (e : Err) (i : BitPos) : (s.endErr e i).sfi = s.sfi := rfl
@[simp] theorem State.endErr_mbuf (e : Err) (i : BitPos) : (s.endErr e i).mbuf = s.mbuf := rfl
@[simp] theorem State.endErr_tc (e : Err) (i : BitPos) : (s.endErr e i).tc = s.tc := rfl
@[simp] theorem State.endErr_draws (e : Err) (i : BitPos) : (s.endErr e i).draws = s.draws := rfl
@[simp] theorem State.endErr_rdata (e : Err) (i : BitPos) : (s.endErr e i).rdata = s.rdata := rfl
@[simp] theorem State.endErr_agenda (e : Err) (i : BitPos) : (s.endErr e i).agenda = s.agenda := rfl

@[simp] theorem State.drawMbuf_busy (n : Nat) : (s.drawMbuf n).busy = s.busy := rfl
@[simp] theorem State.drawMbuf_done (n : Nat) : (s.drawMbuf n).done = s.done := rfl
@[simp] theorem State.drawMbuf_err (n : Nat) : (s.drawMbuf n).err = s.err := rfl
@[simp] theorem State.drawMbuf_ovr (n : Nat) : (s.drawMbuf n).ovr = s.ovr := rfl
@[simp] theorem State.drawMbuf_errcode (n : Nat) : (s.drawMbuf n).errcode = s.errcode := rfl
@[simp] theorem State.drawMbuf_ie (n : Nat) : (s.drawMbuf n).ie = s.ie := rfl
@[simp] theorem State.drawMbuf_bitpos (n : Nat) : (s.drawMbuf n).bitpos = s.bitpos := rfl
@[simp] theorem State.drawMbuf_bitlen (n : Nat) : (s.drawMbuf n).bitlen = s.bitlen := rfl
@[simp] theorem State.drawMbuf_result (n : Nat) : (s.drawMbuf n).result = s.result := rfl
@[simp] theorem State.drawMbuf_nsb (n : Nat) : (s.drawMbuf n).nsb = s.nsb := rfl
@[simp] theorem State.drawMbuf_specMode (n : Nat) : (s.drawMbuf n).specMode = s.specMode := rfl
@[simp] theorem State.drawMbuf_tccount (n : Nat) : (s.drawMbuf n).tccount = s.tccount := rfl
@[simp] theorem State.drawMbuf_errpos (n : Nat) : (s.drawMbuf n).errpos = s.errpos := rfl
@[simp] theorem State.drawMbuf_pending (n : Nat) : (s.drawMbuf n).pending = s.pending := rfl
@[simp] theorem State.drawMbuf_fb (n : Nat) : (s.drawMbuf n).fb = s.fb := rfl
@[simp] theorem State.drawMbuf_qm (n : Nat) : (s.drawMbuf n).qm = s.qm := rfl
@[simp] theorem State.drawMbuf_sel (n : Nat) : (s.drawMbuf n).sel = s.sel := rfl
@[simp] theorem State.drawMbuf_sfi (n : Nat) : (s.drawMbuf n).sfi = s.sfi := rfl
@[simp] theorem State.drawMbuf_mbuf (n : Nat) : (s.drawMbuf n).mbuf = s.mbuf.fill 0 n (fun i => Config.freeWord (s.draws + i)) := rfl
@[simp] theorem State.drawMbuf_tc (n : Nat) : (s.drawMbuf n).tc = s.tc := rfl
@[simp] theorem State.drawMbuf_draws (n : Nat) : (s.drawMbuf n).draws = s.draws + n := rfl
@[simp] theorem State.drawMbuf_rdata (n : Nat) : (s.drawMbuf n).rdata = s.rdata := rfl
@[simp] theorem State.drawMbuf_agenda (n : Nat) : (s.drawMbuf n).agenda = s.agenda := rfl

@[simp] theorem State.drawSpectrum_busy : (s.drawSpectrum).busy = s.busy := rfl
@[simp] theorem State.drawSpectrum_done : (s.drawSpectrum).done = s.done := rfl
@[simp] theorem State.drawSpectrum_err : (s.drawSpectrum).err = s.err := rfl
@[simp] theorem State.drawSpectrum_ovr : (s.drawSpectrum).ovr = s.ovr := rfl
@[simp] theorem State.drawSpectrum_errcode : (s.drawSpectrum).errcode = s.errcode := rfl
@[simp] theorem State.drawSpectrum_ie : (s.drawSpectrum).ie = s.ie := rfl
@[simp] theorem State.drawSpectrum_bitpos : (s.drawSpectrum).bitpos = s.bitpos := rfl
@[simp] theorem State.drawSpectrum_bitlen : (s.drawSpectrum).bitlen = s.bitlen := rfl
@[simp] theorem State.drawSpectrum_result : (s.drawSpectrum).result = s.result := rfl
@[simp] theorem State.drawSpectrum_nsb : (s.drawSpectrum).nsb = (Config.freeWord (s.draws + 1088)).setWidth 5 := rfl
@[simp] theorem State.drawSpectrum_specMode : (s.drawSpectrum).specMode = (Config.freeWord (s.draws + 1089)).getLsbD 0 := rfl
@[simp] theorem State.drawSpectrum_tccount : (s.drawSpectrum).tccount = s.tccount := rfl
@[simp] theorem State.drawSpectrum_errpos : (s.drawSpectrum).errpos = s.errpos := rfl
@[simp] theorem State.drawSpectrum_pending : (s.drawSpectrum).pending = s.pending := rfl
@[simp] theorem State.drawSpectrum_fb : (s.drawSpectrum).fb = s.fb := rfl
@[simp] theorem State.drawSpectrum_qm : (s.drawSpectrum).qm = s.qm.fill 0 1024 (fun i => Config.freeWord (s.draws + i)) := rfl
@[simp] theorem State.drawSpectrum_sel : (s.drawSpectrum).sel = s.sel.fill 0 32 (fun i => Config.freeWord (s.draws + 1024 + i)) := rfl
@[simp] theorem State.drawSpectrum_sfi : (s.drawSpectrum).sfi = s.sfi.fill 0 32 (fun i => Config.freeWord (s.draws + 1056 + i)) := rfl
@[simp] theorem State.drawSpectrum_mbuf : (s.drawSpectrum).mbuf = s.mbuf := rfl
@[simp] theorem State.drawSpectrum_tc : (s.drawSpectrum).tc = s.tc := rfl
@[simp] theorem State.drawSpectrum_draws : (s.drawSpectrum).draws = s.draws + 1090 := rfl
@[simp] theorem State.drawSpectrum_rdata : (s.drawSpectrum).rdata = s.rdata := rfl
@[simp] theorem State.drawSpectrum_agenda : (s.drawSpectrum).agenda = s.agenda := rfl

@[simp] theorem State.drawTonal_busy : (s.drawTonal).busy = s.busy := rfl
@[simp] theorem State.drawTonal_done : (s.drawTonal).done = s.done := rfl
@[simp] theorem State.drawTonal_err : (s.drawTonal).err = s.err := rfl
@[simp] theorem State.drawTonal_ovr : (s.drawTonal).ovr = s.ovr := rfl
@[simp] theorem State.drawTonal_errcode : (s.drawTonal).errcode = s.errcode := rfl
@[simp] theorem State.drawTonal_ie : (s.drawTonal).ie = s.ie := rfl
@[simp] theorem State.drawTonal_bitpos : (s.drawTonal).bitpos = s.bitpos := rfl
@[simp] theorem State.drawTonal_bitlen : (s.drawTonal).bitlen = s.bitlen := rfl
@[simp] theorem State.drawTonal_result : (s.drawTonal).result = s.result := rfl
@[simp] theorem State.drawTonal_nsb : (s.drawTonal).nsb = s.nsb := rfl
@[simp] theorem State.drawTonal_specMode : (s.drawTonal).specMode = s.specMode := rfl
@[simp] theorem State.drawTonal_tccount : (s.drawTonal).tccount = (Config.freeWord (s.draws + 768)).setWidth 7 := rfl
@[simp] theorem State.drawTonal_errpos : (s.drawTonal).errpos = s.errpos := rfl
@[simp] theorem State.drawTonal_pending : (s.drawTonal).pending = s.pending := rfl
@[simp] theorem State.drawTonal_fb : (s.drawTonal).fb = s.fb := rfl
@[simp] theorem State.drawTonal_qm : (s.drawTonal).qm = s.qm := rfl
@[simp] theorem State.drawTonal_sel : (s.drawTonal).sel = s.sel := rfl
@[simp] theorem State.drawTonal_sfi : (s.drawTonal).sfi = s.sfi := rfl
@[simp] theorem State.drawTonal_mbuf : (s.drawTonal).mbuf = s.mbuf := rfl
@[simp] theorem State.drawTonal_tc : (s.drawTonal).tc = s.tc.fill 0 768 (fun i => Config.freeWord (s.draws + i)) := rfl
@[simp] theorem State.drawTonal_draws : (s.drawTonal).draws = s.draws + 769 := rfl
@[simp] theorem State.drawTonal_rdata : (s.drawTonal).rdata = s.rdata := rfl
@[simp] theorem State.drawTonal_agenda : (s.drawTonal).agenda = s.agenda := rfl

@[simp] theorem State.setOvr_busy : (s.setOvr).busy = s.busy := rfl
@[simp] theorem State.setOvr_done : (s.setOvr).done = s.done := rfl
@[simp] theorem State.setOvr_err : (s.setOvr).err = s.err := rfl
@[simp] theorem State.setOvr_ovr : (s.setOvr).ovr = true := rfl
@[simp] theorem State.setOvr_errcode : (s.setOvr).errcode = s.errcode := rfl
@[simp] theorem State.setOvr_ie : (s.setOvr).ie = s.ie := rfl
@[simp] theorem State.setOvr_bitpos : (s.setOvr).bitpos = s.bitpos := rfl
@[simp] theorem State.setOvr_bitlen : (s.setOvr).bitlen = s.bitlen := rfl
@[simp] theorem State.setOvr_result : (s.setOvr).result = s.result := rfl
@[simp] theorem State.setOvr_nsb : (s.setOvr).nsb = s.nsb := rfl
@[simp] theorem State.setOvr_specMode : (s.setOvr).specMode = s.specMode := rfl
@[simp] theorem State.setOvr_tccount : (s.setOvr).tccount = s.tccount := rfl
@[simp] theorem State.setOvr_errpos : (s.setOvr).errpos = s.errpos := rfl
@[simp] theorem State.setOvr_pending : (s.setOvr).pending = s.pending := rfl
@[simp] theorem State.setOvr_fb : (s.setOvr).fb = s.fb := rfl
@[simp] theorem State.setOvr_qm : (s.setOvr).qm = s.qm := rfl
@[simp] theorem State.setOvr_sel : (s.setOvr).sel = s.sel := rfl
@[simp] theorem State.setOvr_sfi : (s.setOvr).sfi = s.sfi := rfl
@[simp] theorem State.setOvr_mbuf : (s.setOvr).mbuf = s.mbuf := rfl
@[simp] theorem State.setOvr_tc : (s.setOvr).tc = s.tc := rfl
@[simp] theorem State.setOvr_draws : (s.setOvr).draws = s.draws := rfl
@[simp] theorem State.setOvr_rdata : (s.setOvr).rdata = s.rdata := rfl
@[simp] theorem State.setOvr_agenda : (s.setOvr).agenda = s.agenda := rfl

@[simp] theorem State.issue_busy (w : Word) : (s.issue w).busy = true := rfl
@[simp] theorem State.issue_done (w : Word) : (s.issue w).done = false := rfl
@[simp] theorem State.issue_err (w : Word) : (s.issue w).err = false := rfl
@[simp] theorem State.issue_ovr (w : Word) : (s.issue w).ovr = s.ovr := rfl
@[simp] theorem State.issue_errcode (w : Word) : (s.issue w).errcode = 0#4 := rfl
@[simp] theorem State.issue_ie (w : Word) : (s.issue w).ie = s.ie := rfl
@[simp] theorem State.issue_bitpos (w : Word) : (s.issue w).bitpos = s.bitpos := rfl
@[simp] theorem State.issue_bitlen (w : Word) : (s.issue w).bitlen = s.bitlen := rfl
@[simp] theorem State.issue_result (w : Word) : (s.issue w).result = s.result := rfl
@[simp] theorem State.issue_nsb (w : Word) : (s.issue w).nsb = s.nsb := rfl
@[simp] theorem State.issue_specMode (w : Word) : (s.issue w).specMode = s.specMode := rfl
@[simp] theorem State.issue_tccount (w : Word) : (s.issue w).tccount = s.tccount := rfl
@[simp] theorem State.issue_errpos (w : Word) : (s.issue w).errpos = s.errpos := rfl
@[simp] theorem State.issue_pending (w : Word) : (s.issue w).pending = w := rfl
@[simp] theorem State.issue_fb (w : Word) : (s.issue w).fb = s.fb := rfl
@[simp] theorem State.issue_qm (w : Word) : (s.issue w).qm = s.qm := rfl
@[simp] theorem State.issue_sel (w : Word) : (s.issue w).sel = s.sel := rfl
@[simp] theorem State.issue_sfi (w : Word) : (s.issue w).sfi = s.sfi := rfl
@[simp] theorem State.issue_mbuf (w : Word) : (s.issue w).mbuf = s.mbuf := rfl
@[simp] theorem State.issue_tc (w : Word) : (s.issue w).tc = s.tc := rfl
@[simp] theorem State.issue_draws (w : Word) : (s.issue w).draws = s.draws := rfl
@[simp] theorem State.issue_rdata (w : Word) : (s.issue w).rdata = s.rdata := rfl
@[simp] theorem State.issue_agenda (w : Word) : (s.issue w).agenda = s.agenda := rfl

@[simp] theorem State.ackStatus_busy (v : Word) : (s.ackStatus v).busy = s.busy := rfl
@[simp] theorem State.ackStatus_done (v : Word) : (s.ackStatus v).done = (s.done && !v.getLsbD 1) := rfl
@[simp] theorem State.ackStatus_err (v : Word) : (s.ackStatus v).err = (s.err && !v.getLsbD 2) := rfl
@[simp] theorem State.ackStatus_ovr (v : Word) : (s.ackStatus v).ovr = (s.ovr && !v.getLsbD 3) := rfl
@[simp] theorem State.ackStatus_errcode (v : Word) : (s.ackStatus v).errcode = s.errcode := rfl
@[simp] theorem State.ackStatus_ie (v : Word) : (s.ackStatus v).ie = s.ie := rfl
@[simp] theorem State.ackStatus_bitpos (v : Word) : (s.ackStatus v).bitpos = s.bitpos := rfl
@[simp] theorem State.ackStatus_bitlen (v : Word) : (s.ackStatus v).bitlen = s.bitlen := rfl
@[simp] theorem State.ackStatus_result (v : Word) : (s.ackStatus v).result = s.result := rfl
@[simp] theorem State.ackStatus_nsb (v : Word) : (s.ackStatus v).nsb = s.nsb := rfl
@[simp] theorem State.ackStatus_specMode (v : Word) : (s.ackStatus v).specMode = s.specMode := rfl
@[simp] theorem State.ackStatus_tccount (v : Word) : (s.ackStatus v).tccount = s.tccount := rfl
@[simp] theorem State.ackStatus_errpos (v : Word) : (s.ackStatus v).errpos = s.errpos := rfl
@[simp] theorem State.ackStatus_pending (v : Word) : (s.ackStatus v).pending = s.pending := rfl
@[simp] theorem State.ackStatus_fb (v : Word) : (s.ackStatus v).fb = s.fb := rfl
@[simp] theorem State.ackStatus_qm (v : Word) : (s.ackStatus v).qm = s.qm := rfl
@[simp] theorem State.ackStatus_sel (v : Word) : (s.ackStatus v).sel = s.sel := rfl
@[simp] theorem State.ackStatus_sfi (v : Word) : (s.ackStatus v).sfi = s.sfi := rfl
@[simp] theorem State.ackStatus_mbuf (v : Word) : (s.ackStatus v).mbuf = s.mbuf := rfl
@[simp] theorem State.ackStatus_tc (v : Word) : (s.ackStatus v).tc = s.tc := rfl
@[simp] theorem State.ackStatus_draws (v : Word) : (s.ackStatus v).draws = s.draws := rfl
@[simp] theorem State.ackStatus_rdata (v : Word) : (s.ackStatus v).rdata = s.rdata := rfl
@[simp] theorem State.ackStatus_agenda (v : Word) : (s.ackStatus v).agenda = s.agenda := rfl

@[simp] theorem State.setIe_busy (b : Bool) : (s.setIe b).busy = s.busy := rfl
@[simp] theorem State.setIe_done (b : Bool) : (s.setIe b).done = s.done := rfl
@[simp] theorem State.setIe_err (b : Bool) : (s.setIe b).err = s.err := rfl
@[simp] theorem State.setIe_ovr (b : Bool) : (s.setIe b).ovr = s.ovr := rfl
@[simp] theorem State.setIe_errcode (b : Bool) : (s.setIe b).errcode = s.errcode := rfl
@[simp] theorem State.setIe_ie (b : Bool) : (s.setIe b).ie = b := rfl
@[simp] theorem State.setIe_bitpos (b : Bool) : (s.setIe b).bitpos = s.bitpos := rfl
@[simp] theorem State.setIe_bitlen (b : Bool) : (s.setIe b).bitlen = s.bitlen := rfl
@[simp] theorem State.setIe_result (b : Bool) : (s.setIe b).result = s.result := rfl
@[simp] theorem State.setIe_nsb (b : Bool) : (s.setIe b).nsb = s.nsb := rfl
@[simp] theorem State.setIe_specMode (b : Bool) : (s.setIe b).specMode = s.specMode := rfl
@[simp] theorem State.setIe_tccount (b : Bool) : (s.setIe b).tccount = s.tccount := rfl
@[simp] theorem State.setIe_errpos (b : Bool) : (s.setIe b).errpos = s.errpos := rfl
@[simp] theorem State.setIe_pending (b : Bool) : (s.setIe b).pending = s.pending := rfl
@[simp] theorem State.setIe_fb (b : Bool) : (s.setIe b).fb = s.fb := rfl
@[simp] theorem State.setIe_qm (b : Bool) : (s.setIe b).qm = s.qm := rfl
@[simp] theorem State.setIe_sel (b : Bool) : (s.setIe b).sel = s.sel := rfl
@[simp] theorem State.setIe_sfi (b : Bool) : (s.setIe b).sfi = s.sfi := rfl
@[simp] theorem State.setIe_mbuf (b : Bool) : (s.setIe b).mbuf = s.mbuf := rfl
@[simp] theorem State.setIe_tc (b : Bool) : (s.setIe b).tc = s.tc := rfl
@[simp] theorem State.setIe_draws (b : Bool) : (s.setIe b).draws = s.draws := rfl
@[simp] theorem State.setIe_rdata (b : Bool) : (s.setIe b).rdata = s.rdata := rfl
@[simp] theorem State.setIe_agenda (b : Bool) : (s.setIe b).agenda = s.agenda := rfl

@[simp] theorem State.clearRegisters_busy : (s.clearRegisters).busy = false := rfl
@[simp] theorem State.clearRegisters_done : (s.clearRegisters).done = false := rfl
@[simp] theorem State.clearRegisters_err : (s.clearRegisters).err = false := rfl
@[simp] theorem State.clearRegisters_ovr : (s.clearRegisters).ovr = false := rfl
@[simp] theorem State.clearRegisters_errcode : (s.clearRegisters).errcode = 0#4 := rfl
@[simp] theorem State.clearRegisters_ie : (s.clearRegisters).ie = false := rfl
@[simp] theorem State.clearRegisters_bitpos : (s.clearRegisters).bitpos = 0#17 := rfl
@[simp] theorem State.clearRegisters_bitlen : (s.clearRegisters).bitlen = 0#17 := rfl
@[simp] theorem State.clearRegisters_result : (s.clearRegisters).result = 0#32 := rfl
@[simp] theorem State.clearRegisters_nsb : (s.clearRegisters).nsb = 0#5 := rfl
@[simp] theorem State.clearRegisters_specMode : (s.clearRegisters).specMode = false := rfl
@[simp] theorem State.clearRegisters_tccount : (s.clearRegisters).tccount = 0#7 := rfl
@[simp] theorem State.clearRegisters_errpos : (s.clearRegisters).errpos = 0#17 := rfl
@[simp] theorem State.clearRegisters_pending : (s.clearRegisters).pending = s.pending := rfl
@[simp] theorem State.clearRegisters_fb : (s.clearRegisters).fb = s.fb := rfl
@[simp] theorem State.clearRegisters_qm : (s.clearRegisters).qm = s.qm := rfl
@[simp] theorem State.clearRegisters_sel : (s.clearRegisters).sel = s.sel := rfl
@[simp] theorem State.clearRegisters_sfi : (s.clearRegisters).sfi = s.sfi := rfl
@[simp] theorem State.clearRegisters_mbuf : (s.clearRegisters).mbuf = s.mbuf := rfl
@[simp] theorem State.clearRegisters_tc : (s.clearRegisters).tc = s.tc := rfl
@[simp] theorem State.clearRegisters_draws : (s.clearRegisters).draws = s.draws := rfl
@[simp] theorem State.clearRegisters_rdata : (s.clearRegisters).rdata = s.rdata := rfl
@[simp] theorem State.clearRegisters_agenda : (s.clearRegisters).agenda = s.agenda := rfl

@[simp] theorem State.setRdata_busy (v : Word) : (s.setRdata v).busy = s.busy := rfl
@[simp] theorem State.setRdata_done (v : Word) : (s.setRdata v).done = s.done := rfl
@[simp] theorem State.setRdata_err (v : Word) : (s.setRdata v).err = s.err := rfl
@[simp] theorem State.setRdata_ovr (v : Word) : (s.setRdata v).ovr = s.ovr := rfl
@[simp] theorem State.setRdata_errcode (v : Word) : (s.setRdata v).errcode = s.errcode := rfl
@[simp] theorem State.setRdata_ie (v : Word) : (s.setRdata v).ie = s.ie := rfl
@[simp] theorem State.setRdata_bitpos (v : Word) : (s.setRdata v).bitpos = s.bitpos := rfl
@[simp] theorem State.setRdata_bitlen (v : Word) : (s.setRdata v).bitlen = s.bitlen := rfl
@[simp] theorem State.setRdata_result (v : Word) : (s.setRdata v).result = s.result := rfl
@[simp] theorem State.setRdata_nsb (v : Word) : (s.setRdata v).nsb = s.nsb := rfl
@[simp] theorem State.setRdata_specMode (v : Word) : (s.setRdata v).specMode = s.specMode := rfl
@[simp] theorem State.setRdata_tccount (v : Word) : (s.setRdata v).tccount = s.tccount := rfl
@[simp] theorem State.setRdata_errpos (v : Word) : (s.setRdata v).errpos = s.errpos := rfl
@[simp] theorem State.setRdata_pending (v : Word) : (s.setRdata v).pending = s.pending := rfl
@[simp] theorem State.setRdata_fb (v : Word) : (s.setRdata v).fb = s.fb := rfl
@[simp] theorem State.setRdata_qm (v : Word) : (s.setRdata v).qm = s.qm := rfl
@[simp] theorem State.setRdata_sel (v : Word) : (s.setRdata v).sel = s.sel := rfl
@[simp] theorem State.setRdata_sfi (v : Word) : (s.setRdata v).sfi = s.sfi := rfl
@[simp] theorem State.setRdata_mbuf (v : Word) : (s.setRdata v).mbuf = s.mbuf := rfl
@[simp] theorem State.setRdata_tc (v : Word) : (s.setRdata v).tc = s.tc := rfl
@[simp] theorem State.setRdata_draws (v : Word) : (s.setRdata v).draws = s.draws := rfl
@[simp] theorem State.setRdata_rdata (v : Word) : (s.setRdata v).rdata = v := rfl
@[simp] theorem State.setRdata_agenda (v : Word) : (s.setRdata v).agenda = s.agenda := rfl

@[simp] theorem State.drawRdata_busy : (s.drawRdata).busy = s.busy := rfl
@[simp] theorem State.drawRdata_done : (s.drawRdata).done = s.done := rfl
@[simp] theorem State.drawRdata_err : (s.drawRdata).err = s.err := rfl
@[simp] theorem State.drawRdata_ovr : (s.drawRdata).ovr = s.ovr := rfl
@[simp] theorem State.drawRdata_errcode : (s.drawRdata).errcode = s.errcode := rfl
@[simp] theorem State.drawRdata_ie : (s.drawRdata).ie = s.ie := rfl
@[simp] theorem State.drawRdata_bitpos : (s.drawRdata).bitpos = s.bitpos := rfl
@[simp] theorem State.drawRdata_bitlen : (s.drawRdata).bitlen = s.bitlen := rfl
@[simp] theorem State.drawRdata_result : (s.drawRdata).result = s.result := rfl
@[simp] theorem State.drawRdata_nsb : (s.drawRdata).nsb = s.nsb := rfl
@[simp] theorem State.drawRdata_specMode : (s.drawRdata).specMode = s.specMode := rfl
@[simp] theorem State.drawRdata_tccount : (s.drawRdata).tccount = s.tccount := rfl
@[simp] theorem State.drawRdata_errpos : (s.drawRdata).errpos = s.errpos := rfl
@[simp] theorem State.drawRdata_pending : (s.drawRdata).pending = s.pending := rfl
@[simp] theorem State.drawRdata_fb : (s.drawRdata).fb = s.fb := rfl
@[simp] theorem State.drawRdata_qm : (s.drawRdata).qm = s.qm := rfl
@[simp] theorem State.drawRdata_sel : (s.drawRdata).sel = s.sel := rfl
@[simp] theorem State.drawRdata_sfi : (s.drawRdata).sfi = s.sfi := rfl
@[simp] theorem State.drawRdata_mbuf : (s.drawRdata).mbuf = s.mbuf := rfl
@[simp] theorem State.drawRdata_tc : (s.drawRdata).tc = s.tc := rfl
@[simp] theorem State.drawRdata_draws : (s.drawRdata).draws = s.draws + 1 := rfl
@[simp] theorem State.drawRdata_rdata : (s.drawRdata).rdata = Config.freeWord s.draws := rfl
@[simp] theorem State.drawRdata_agenda : (s.drawRdata).agenda = s.agenda := rfl

@[simp] theorem State.withAgenda_busy (l : List Turn) : (s.withAgenda l).busy = s.busy := rfl
@[simp] theorem State.withAgenda_done (l : List Turn) : (s.withAgenda l).done = s.done := rfl
@[simp] theorem State.withAgenda_err (l : List Turn) : (s.withAgenda l).err = s.err := rfl
@[simp] theorem State.withAgenda_ovr (l : List Turn) : (s.withAgenda l).ovr = s.ovr := rfl
@[simp] theorem State.withAgenda_errcode (l : List Turn) : (s.withAgenda l).errcode = s.errcode := rfl
@[simp] theorem State.withAgenda_ie (l : List Turn) : (s.withAgenda l).ie = s.ie := rfl
@[simp] theorem State.withAgenda_bitpos (l : List Turn) : (s.withAgenda l).bitpos = s.bitpos := rfl
@[simp] theorem State.withAgenda_bitlen (l : List Turn) : (s.withAgenda l).bitlen = s.bitlen := rfl
@[simp] theorem State.withAgenda_result (l : List Turn) : (s.withAgenda l).result = s.result := rfl
@[simp] theorem State.withAgenda_nsb (l : List Turn) : (s.withAgenda l).nsb = s.nsb := rfl
@[simp] theorem State.withAgenda_specMode (l : List Turn) : (s.withAgenda l).specMode = s.specMode := rfl
@[simp] theorem State.withAgenda_tccount (l : List Turn) : (s.withAgenda l).tccount = s.tccount := rfl
@[simp] theorem State.withAgenda_errpos (l : List Turn) : (s.withAgenda l).errpos = s.errpos := rfl
@[simp] theorem State.withAgenda_pending (l : List Turn) : (s.withAgenda l).pending = s.pending := rfl
@[simp] theorem State.withAgenda_fb (l : List Turn) : (s.withAgenda l).fb = s.fb := rfl
@[simp] theorem State.withAgenda_qm (l : List Turn) : (s.withAgenda l).qm = s.qm := rfl
@[simp] theorem State.withAgenda_sel (l : List Turn) : (s.withAgenda l).sel = s.sel := rfl
@[simp] theorem State.withAgenda_sfi (l : List Turn) : (s.withAgenda l).sfi = s.sfi := rfl
@[simp] theorem State.withAgenda_mbuf (l : List Turn) : (s.withAgenda l).mbuf = s.mbuf := rfl
@[simp] theorem State.withAgenda_tc (l : List Turn) : (s.withAgenda l).tc = s.tc := rfl
@[simp] theorem State.withAgenda_draws (l : List Turn) : (s.withAgenda l).draws = s.draws := rfl
@[simp] theorem State.withAgenda_rdata (l : List Turn) : (s.withAgenda l).rdata = s.rdata := rfl
@[simp] theorem State.withAgenda_agenda (l : List Turn) : (s.withAgenda l).agenda = l := rfl

@[simp] theorem State.setBitlen_busy (c : Config) (v : Word) : (s.setBitlen c v).busy = s.busy := rfl
@[simp] theorem State.setBitlen_done (c : Config) (v : Word) : (s.setBitlen c v).done = s.done := rfl
@[simp] theorem State.setBitlen_err (c : Config) (v : Word) : (s.setBitlen c v).err = s.err := rfl
@[simp] theorem State.setBitlen_ovr (c : Config) (v : Word) : (s.setBitlen c v).ovr = s.ovr := rfl
@[simp] theorem State.setBitlen_errcode (c : Config) (v : Word) : (s.setBitlen c v).errcode = s.errcode := rfl
@[simp] theorem State.setBitlen_ie (c : Config) (v : Word) : (s.setBitlen c v).ie = s.ie := rfl
@[simp] theorem State.setBitlen_bitpos (c : Config) (v : Word) : (s.setBitlen c v).bitpos = s.bitpos := rfl
@[simp] theorem State.setBitlen_bitlen (c : Config) (v : Word) : (s.setBitlen c v).bitlen = BitVec.ofNat 17 (min (v.extractLsb' 0 17).toNat (8 * c.maxFrameBytes)) := rfl
@[simp] theorem State.setBitlen_result (c : Config) (v : Word) : (s.setBitlen c v).result = s.result := rfl
@[simp] theorem State.setBitlen_nsb (c : Config) (v : Word) : (s.setBitlen c v).nsb = s.nsb := rfl
@[simp] theorem State.setBitlen_specMode (c : Config) (v : Word) : (s.setBitlen c v).specMode = s.specMode := rfl
@[simp] theorem State.setBitlen_tccount (c : Config) (v : Word) : (s.setBitlen c v).tccount = s.tccount := rfl
@[simp] theorem State.setBitlen_errpos (c : Config) (v : Word) : (s.setBitlen c v).errpos = s.errpos := rfl
@[simp] theorem State.setBitlen_pending (c : Config) (v : Word) : (s.setBitlen c v).pending = s.pending := rfl
@[simp] theorem State.setBitlen_fb (c : Config) (v : Word) : (s.setBitlen c v).fb = s.fb := rfl
@[simp] theorem State.setBitlen_qm (c : Config) (v : Word) : (s.setBitlen c v).qm = s.qm := rfl
@[simp] theorem State.setBitlen_sel (c : Config) (v : Word) : (s.setBitlen c v).sel = s.sel := rfl
@[simp] theorem State.setBitlen_sfi (c : Config) (v : Word) : (s.setBitlen c v).sfi = s.sfi := rfl
@[simp] theorem State.setBitlen_mbuf (c : Config) (v : Word) : (s.setBitlen c v).mbuf = s.mbuf := rfl
@[simp] theorem State.setBitlen_tc (c : Config) (v : Word) : (s.setBitlen c v).tc = s.tc := rfl
@[simp] theorem State.setBitlen_draws (c : Config) (v : Word) : (s.setBitlen c v).draws = s.draws := rfl
@[simp] theorem State.setBitlen_rdata (c : Config) (v : Word) : (s.setBitlen c v).rdata = s.rdata := rfl
@[simp] theorem State.setBitlen_agenda (c : Config) (v : Word) : (s.setBitlen c v).agenda = s.agenda := rfl

@[simp] theorem State.storeFb_busy (c : Config) (a n v : Nat) : (s.storeFb c a n v).busy = s.busy := rfl
@[simp] theorem State.storeFb_done (c : Config) (a n v : Nat) : (s.storeFb c a n v).done = s.done := rfl
@[simp] theorem State.storeFb_err (c : Config) (a n v : Nat) : (s.storeFb c a n v).err = s.err := rfl
@[simp] theorem State.storeFb_ovr (c : Config) (a n v : Nat) : (s.storeFb c a n v).ovr = s.ovr := rfl
@[simp] theorem State.storeFb_errcode (c : Config) (a n v : Nat) : (s.storeFb c a n v).errcode = s.errcode := rfl
@[simp] theorem State.storeFb_ie (c : Config) (a n v : Nat) : (s.storeFb c a n v).ie = s.ie := rfl
@[simp] theorem State.storeFb_bitpos (c : Config) (a n v : Nat) : (s.storeFb c a n v).bitpos = s.bitpos := rfl
@[simp] theorem State.storeFb_bitlen (c : Config) (a n v : Nat) : (s.storeFb c a n v).bitlen = s.bitlen := rfl
@[simp] theorem State.storeFb_result (c : Config) (a n v : Nat) : (s.storeFb c a n v).result = s.result := rfl
@[simp] theorem State.storeFb_nsb (c : Config) (a n v : Nat) : (s.storeFb c a n v).nsb = s.nsb := rfl
@[simp] theorem State.storeFb_specMode (c : Config) (a n v : Nat) : (s.storeFb c a n v).specMode = s.specMode := rfl
@[simp] theorem State.storeFb_tccount (c : Config) (a n v : Nat) : (s.storeFb c a n v).tccount = s.tccount := rfl
@[simp] theorem State.storeFb_errpos (c : Config) (a n v : Nat) : (s.storeFb c a n v).errpos = s.errpos := rfl
@[simp] theorem State.storeFb_pending (c : Config) (a n v : Nat) : (s.storeFb c a n v).pending = s.pending := rfl
@[simp] theorem State.storeFb_fb (c : Config) (a n v : Nat) : (s.storeFb c a n v).fb = fbStore c a n v s.fb := rfl
@[simp] theorem State.storeFb_qm (c : Config) (a n v : Nat) : (s.storeFb c a n v).qm = s.qm := rfl
@[simp] theorem State.storeFb_sel (c : Config) (a n v : Nat) : (s.storeFb c a n v).sel = s.sel := rfl
@[simp] theorem State.storeFb_sfi (c : Config) (a n v : Nat) : (s.storeFb c a n v).sfi = s.sfi := rfl
@[simp] theorem State.storeFb_mbuf (c : Config) (a n v : Nat) : (s.storeFb c a n v).mbuf = s.mbuf := rfl
@[simp] theorem State.storeFb_tc (c : Config) (a n v : Nat) : (s.storeFb c a n v).tc = s.tc := rfl
@[simp] theorem State.storeFb_draws (c : Config) (a n v : Nat) : (s.storeFb c a n v).draws = s.draws := rfl
@[simp] theorem State.storeFb_rdata (c : Config) (a n v : Nat) : (s.storeFb c a n v).rdata = s.rdata := rfl
@[simp] theorem State.storeFb_agenda (c : Config) (a n v : Nat) : (s.storeFb c a n v).agenda = s.agenda := rfl

end Sys2Proof.Machine
end

