-- ==== Sys2Proof/Laws/Reading.lean ====
section
/-! SUPPORT. What a part of a command can do: a value, a raise or a fault (`Res.Sat`), and one lemma for each reading primitive. -/

namespace Sys2Proof.Machine

variable {α β : Type}

/-- `r` ends with a value and a state of `P`, or with a raise of `E`, or with a fault of `F`. -/
def Res.Sat (r : Res α) (P : α → State → Prop) (E : Err → BitPos → State → Prop) (F : Fault → Prop) : Prop :=
  match r with
  | .ok a s => P a s
  | .raise e i s => E e i s
  | .fault f => F f

@[simp] theorem Res.sat_ok (a : α) (s : State) (P : α → State → Prop) (E : Err → BitPos → State → Prop) (F : Fault → Prop) :
    (Res.ok a s).Sat P E F ↔ P a s := Iff.rfl

@[simp] theorem Res.sat_raise (e : Err) (i : BitPos) (s : State) (P : α → State → Prop) (E : Err → BitPos → State → Prop) (F : Fault → Prop) :
    (Res.raise e i s : Res α).Sat P E F ↔ E e i s := Iff.rfl

@[simp] theorem Res.sat_fault (f : Fault) (P : α → State → Prop) (E : Err → BitPos → State → Prop) (F : Fault → Prop) :
    (Res.fault f : Res α).Sat P E F ↔ F f := Iff.rfl

theorem Res.Sat.andThen {r : Res α} {k : α → State → Res β} {P : α → State → Prop} {Q : β → State → Prop}
    {E : Err → BitPos → State → Prop} {F : Fault → Prop} (h : r.Sat P E F) (hk : ∀ a s, P a s → (k a s).Sat Q E F) :
    (r.andThen k).Sat Q E F := by
  cases r with
  | ok a s => exact hk a s h
  | raise e i s => exact h
  | fault f => exact h

theorem Res.Sat.mono {r : Res α} {P Q : α → State → Prop} {E G : Err → BitPos → State → Prop} {F H : Fault → Prop}
    (h : r.Sat P E F) (hp : ∀ a s, P a s → Q a s) (he : ∀ e i s, E e i s → G e i s) (hf : ∀ f, F f → H f) : r.Sat Q G H := by
  cases r with
  | ok a s => exact hp a s h
  | raise e i s => exact he e i s h
  | fault f => exact hf f h

@[simp] theorem Res.andThen_ok (a : α) (s : State) (k : α → State → Res β) : (Res.ok a s).andThen k = k a s := rfl
@[simp] theorem Res.andThen_raise (e : Err) (i : BitPos) (s : State) (k : α → State → Res β) :
    (Res.raise e i s : Res α).andThen k = .raise e i s := rfl
@[simp] theorem Res.andThen_fault (f : Fault) (k : α → State → Res β) : (Res.fault f : Res α).andThen k = .fault f := rfl

theorem Res.andThen_eq_ok {r : Res α} {k : α → State → Res β} {b : β} {t : State} :
    r.andThen k = .ok b t ↔ ∃ a s, r = .ok a s ∧ k a s = .ok b t := by
  cases r <;> simp

/-! ### Where an error leaves the bit pointer -/

/-- BITPOS against ERRPOS for each error a command raises after it began to read (60_exceptions.md R215). -/
def ErrAt : Err → BitPos → State → Prop
  | .illegalCmd, _, _ => False
  | .overrun, i, t => t.bitpos = i
  | .badCode, i, t => t.bitpos = i
  | .tonalMode, i, t => t.bitpos.toNat = i.toNat + 2
  | .tonalQstep, i, t => t.bitpos.toNat = i.toNat + 3
  | .tonalCap, i, t => t.bitpos.toNat = i.toNat + 6

/-- The errors a read can raise with tables `T` (40_bitread.md R100, R110, 30_encoding.md R86). -/
def readErr (T : Tables) (e : Err) : Prop := e = .overrun ∨ (e = .badCode ∧ T ≠ referenceTables)

/-- The byte of every bit from position `a` up to `b` has been written. -/
def WrittenBits (s : State) (a b : Nat) : Prop :=
  ∀ q, a ≤ q → q < b → (s.fb.read (q / 8)).isSome = true

/-- A bit from BITPOS on and below BITLEN lies in a byte never written. -/
def UnwrittenAhead (s : State) : Prop :=
  ∃ q, s.bitpos.toNat ≤ q ∧ q < s.bitlen.toNat ∧ s.fb.read (q / 8) = none

theorem UnwrittenAhead.not_loaded {s : State} (h : UnwrittenAhead s) : ¬FrameLoaded s := by
  obtain ⟨q, -, h2, h3⟩ := h
  intro hl
  simpa [h3] using hl q h2

/-- `I` survives a move of the bit pointer forward within BITLEN over bits that have been written. -/
def BitMoves (I : State → Prop) : Prop :=
  ∀ s p, I s → s.bitpos.toNat ≤ p → p ≤ s.bitlen.toNat → WrittenBits s s.bitpos.toNat p → I (s.setBitpos p)

/-- A part of a command that keeps `I`, returns values of `P`, and raises errors of `A` only, at a bit position where the command stood; it faults only at a bit
never written, ahead of where the command stood. -/
def Ends (A : Err → Prop) (I : State → Prop) (r : Res α) (P : α → Prop) : Prop :=
  r.Sat (fun a t => I t ∧ P a) (fun e i t => I t ∧ A e ∧ ErrAt e i t ∧ ∃ u, I u ∧ u.bitpos = i) (fun f => f = .fbUnwritten ∧ ∃ t, I t ∧ UnwrittenAhead t)

theorem Ends.andThen {A : Err → Prop} {I : State → Prop} {r : Res α} {k : α → State → Res β} {P : α → Prop} {Q : β → Prop}
    (h : Ends A I r P) (hk : ∀ a s, I s → P a → Ends A I (k a s) Q) : Ends A I (r.andThen k) Q :=
  Res.Sat.andThen h fun a s hs => hk a s hs.1 hs.2

theorem Ends.mono {A B : Err → Prop} {I : State → Prop} {r : Res α} {P Q : α → Prop} (h : Ends A I r P)
    (ha : ∀ e, A e → B e) (hp : ∀ a, P a → Q a) : Ends B I r Q :=
  Res.Sat.mono h (fun a _ hs => ⟨hs.1, hp a hs.2⟩) (fun e _ _ hs => ⟨hs.1, ha e hs.2.1, hs.2.2⟩) fun _ h => h

theorem Ends.ok {A : Err → Prop} {I : State → Prop} {a : α} {s : State} {P : α → Prop} (hi : I s) (hp : P a) :
    Ends A I (.ok a s) P := ⟨hi, hp⟩

/-! ### Bits and fields -/

theorem setBitpos_toNat (s : State) {p : Nat} (h : p ≤ s.bitlen.toNat) : (s.setBitpos p).bitpos.toNat = p := by
  have := s.bitlen.isLt
  simp only [State.setBitpos_bitpos, BitVec.toNat_ofNat]
  exact Nat.mod_eq_of_lt (by omega)

theorem fbBit_isSome {s : State} {p : Nat} (h : FrameLoaded s) (hp : p < s.bitlen.toNat) : (fbBit s p).isSome = true := by
  simpa [fbBit] using h p hp

theorem fbBit_congr {s t : State} (h : t.fb = s.fb) (p : Nat) : fbBit t p = fbBit s p := by simp [fbBit, h]

theorem fieldAt_lt {s : State} {p n v : Nat} (h : fieldAt s p n = some v) : v < 2 ^ n := by
  induction n generalizing v with
  | zero => simp [fieldAt] at h; omega
  | succ n ih =>
    simp only [fieldAt] at h
    split at h
    · rename_i w b hw hb
      have := ih hw
      obtain rfl : 2 * w + b.toNat = v := by simpa using h
      have : b.toNat ≤ 1 := by cases b <;> simp
      rw [pow_succ]; omega
    · cases h

theorem fieldAt_isSome {s : State} {p n : Nat} (h : FrameLoaded s) (hp : p + n ≤ s.bitlen.toNat) : (fieldAt s p n).isSome = true := by
  induction n with
  | zero => simp [fieldAt]
  | succ n ih =>
    have h1 := ih (by omega)
    have h2 := fbBit_isSome h (p := p + n) (by omega)
    obtain ⟨v, hv⟩ := Option.isSome_iff_exists.1 h1
    obtain ⟨b, hb⟩ := Option.isSome_iff_exists.1 h2
    simp [fieldAt, hv, hb]

theorem fbBit_eq_none {s : State} {p : Nat} : fbBit s p = none ↔ s.fb.read (p / 8) = none := by simp [fbBit]

theorem fieldAt_written {s : State} {p n v : Nat} (h : fieldAt s p n = some v) : WrittenBits s p (p + n) := by
  induction n generalizing v with
  | zero => intro q h1 h2; omega
  | succ n ih =>
    simp only [fieldAt] at h
    split at h
    · rename_i w b hw hb
      intro q h1 h2
      rcases Nat.lt_or_ge q (p + n) with h3 | h3
      · exact ih hw q h1 h3
      · obtain rfl : q = p + n := by omega
        unfold fbBit at hb
        cases hr : s.fb.read ((p + n) / 8) with
        | none => rw [hr] at hb; cases hb
        | some _ => rfl
    · cases h

/-- A field of which a bit has never been written. -/
theorem fieldAt_eq_none {s : State} {p n : Nat} : fieldAt s p n = none ↔ ∃ q, p ≤ q ∧ q < p + n ∧ s.fb.read (q / 8) = none := by
  constructor
  · intro h
    induction n with
    | zero => simp [fieldAt] at h
    | succ n ih =>
      cases hf : fieldAt s p n with
      | none => obtain ⟨q, h1, h2, h3⟩ := ih hf; exact ⟨q, h1, by omega, h3⟩
      | some v =>
        cases hb : fbBit s (p + n) with
        | none => exact ⟨p + n, by omega, by omega, fbBit_eq_none.1 hb⟩
        | some b => simp [fieldAt, hf, hb] at h
  · rintro ⟨q, h1, h2, h3⟩
    cases hf : fieldAt s p n with
    | none => rfl
    | some v => simpa [h3] using fieldAt_written hf q h1 h2

theorem fieldAt_unwrittenAhead {s : State} {n : Nat} (h : s.bitpos.toNat + n ≤ s.bitlen.toNat) (hf : fieldAt s s.bitpos.toNat n = none) :
    UnwrittenAhead s := by
  obtain ⟨q, h1, h2, h3⟩ := fieldAt_eq_none.1 hf
  exact ⟨q, h1, by omega, h3⟩

/-- What `ReadBits(n)` can do (40_bitread.md R100). -/
theorem readBits_cases (n : Nat) (s : State) :
    (s.bitlen.toNat < s.bitpos.toNat + n ∧ readBits n s = .raise .overrun s.bitpos s) ∨
    (s.bitpos.toNat + n ≤ s.bitlen.toNat ∧ fieldAt s s.bitpos.toNat n = none ∧ readBits n s = .fault .fbUnwritten) ∨
    (s.bitpos.toNat + n ≤ s.bitlen.toNat ∧ ∃ v, v < 2 ^ n ∧ fieldAt s s.bitpos.toNat n = some v ∧
      readBits n s = .ok v (s.setBitpos (s.bitpos.toNat + n))) := by
  unfold readBits
  by_cases h : s.bitlen.toNat < s.bitpos.toNat + n
  · exact .inl ⟨h, by rw [if_pos h]⟩
  · rw [if_neg h]
    cases hf : fieldAt s s.bitpos.toNat n with
    | none => exact .inr (.inl ⟨by omega, rfl, rfl⟩)
    | some v => exact .inr (.inr ⟨by omega, v, fieldAt_lt hf, rfl, rfl⟩)

theorem readBits_ends (T : Tables) {I : State → Prop} (hI : BitMoves I) {s : State} (hs : I s) (n : Nat) :
    Ends (readErr T) I (readBits n s) (fun v => v < 2 ^ n) := by
  rcases readBits_cases n s with ⟨h, he⟩ | ⟨h, hf, he⟩ | ⟨h, v, hv, hf, he⟩ <;> rw [he]
  · exact ⟨hs, .inl rfl, rfl, s, hs, rfl⟩
  · exact ⟨rfl, s, hs, fieldAt_unwrittenAhead h hf⟩
  · exact ⟨hI s _ hs (by omega) h (fieldAt_written hf), hv⟩

/-! ### Huffman symbols -/

theorem findSymbol_mem {book : List Code} {len word sym : Nat} (h : findSymbol book len word = some sym) :
    ∃ c ∈ book, c.sym = sym ∧ c.len = len ∧ c.word = word := by
  induction book with
  | nil => simp [findSymbol] at h
  | cons c rest ih =>
    simp only [findSymbol] at h
    split_ifs at h with hc
    · exact ⟨c, by simp, by simpa using h, hc.1, hc.2⟩
    · obtain ⟨d, hd, h'⟩ := ih h
      exact ⟨d, List.mem_cons_of_mem _ hd, h'⟩

theorem mem_insertByLength {p q : Nat × Nat} {l : List (Nat × Nat)} (h : q ∈ insertByLength p l) : q = p ∨ q ∈ l := by
  induction l with
  | nil => simpa [insertByLength] using h
  | cons r rest ih =>
    simp only [insertByLength] at h
    split_ifs at h
    · simpa using h
    · rcases List.mem_cons.1 h with h | h
      · exact .inr (by simp [h])
      · rcases ih h with h | h
        · exact .inl h
        · exact .inr (List.mem_cons_of_mem _ h)

theorem mem_canonicalOrder {lens : List Nat} {s : Nat} {q : Nat × Nat} (h : q ∈ canonicalOrder s lens) :
    s ≤ q.2 ∧ q.2 < s + lens.length := by
  induction lens generalizing s with
  | nil => simp [canonicalOrder] at h
  | cons len rest ih =>
    rcases mem_insertByLength h with h | h
    · subst h; simp
    · have := ih h; simp only [List.length_cons]; omega

theorem mem_assignAfter {l : List (Nat × Nat)} {a b : Nat} {c : Code} (h : c ∈ assignAfter a b l) : (c.len, c.sym) ∈ l := by
  induction l generalizing a b with
  | nil => simp [assignAfter] at h
  | cons q rest ih =>
    obtain ⟨len, sym⟩ := q
    simp only [assignAfter, List.mem_cons] at h
    rcases h with h | h
    · subst h; simp
    · exact List.mem_cons_of_mem _ (ih h)

theorem canonicalCodes_sym {lens : List Nat} {c : Code} (h : c ∈ canonicalCodes lens) : c.sym < lens.length := by
  unfold canonicalCodes at h
  have hm : (c.len, c.sym) ∈ canonicalOrder 0 lens := by
    cases ho : canonicalOrder 0 lens with
    | nil => simp [ho, assignCodes] at h
    | cons q rest =>
      obtain ⟨len, sym⟩ := q
      rw [ho] at h
      simp only [assignCodes, List.mem_cons] at h
      rcases h with h | h
      · subst h; simp
      · exact List.mem_cons_of_mem _ (mem_assignAfter h)
  have := mem_canonicalOrder hm
  simpa using this.2

/-- Every word of `more` further bits after `len` bits of value `word` has a codeword of `book` as its beginning. -/
def completeFrom (book : List Code) : Nat → Nat → Nat → Bool
  | 0, _, _ => false
  | more + 1, len, word =>
    ((findSymbol book (len + 1) (2 * word)).isSome || completeFrom book more (len + 1) (2 * word)) &&
      ((findSymbol book (len + 1) (2 * word + 1)).isSome || completeFrom book more (len + 1) (2 * word + 1))

theorem reference_complete : ∀ t, 1 ≤ t → t < 8 →
    completeFrom (huffCodes referenceTables t) (huffMaxLen referenceTables t) 0 0 = true := by
  intro t h1 h2
  interval_cases t <;> decide +kernel

theorem huffLoop_ends {A : Err → Prop} {I : State → Prop} (hI : BitMoves I) {s : State} (hs : I s) {book : List Code} {N : Nat}
    (hN : ∀ c ∈ book, c.sym < N) (ho : A .overrun) (more len word : Nat) (hb : A .badCode ∨ completeFrom book more len word = true)
    (hw : WrittenBits s s.bitpos.toNat (s.bitpos.toNat + len)) :
    Ends A I (huffLoop book s more len word) (fun v => v < N) := by
  induction more generalizing len word with
  | zero =>
    rcases hb with hb | hb
    · exact ⟨hs, hb, rfl, s, hs, rfl⟩
    · simp [completeFrom] at hb
  | succ more ih =>
    unfold huffLoop
    by_cases h : s.bitlen.toNat < s.bitpos.toNat + len + 1
    · rw [if_pos h]; exact ⟨hs, ho, rfl, s, hs, rfl⟩
    · rw [if_neg h]
      cases hbit : fbBit s (s.bitpos.toNat + len) with
      | none =>
        exact ⟨rfl, s, hs, s.bitpos.toNat + len, by omega, by omega, fbBit_eq_none.1 hbit⟩
      | some b =>
        have hw' : WrittenBits s s.bitpos.toNat (s.bitpos.toNat + len + 1) := by
          intro q h1 h2
          rcases Nat.lt_or_ge q (s.bitpos.toNat + len) with h3 | h3
          · exact hw q h1 h3
          · obtain rfl : q = s.bitpos.toNat + len := by omega
            cases hr : s.fb.read ((s.bitpos.toNat + len) / 8) with
            | none => rw [fbBit_eq_none.2 hr] at hbit; cases hbit
            | some _ => rfl
        show Ends A I (match findSymbol book (len + 1) (2 * word + b.toNat) with
          | some sym => .ok sym (s.setBitpos (s.bitpos.toNat + len + 1))
          | none => huffLoop book s more (len + 1) (2 * word + b.toNat)) _
        cases hsym : findSymbol book (len + 1) (2 * word + b.toNat) with
        | some sym =>
          obtain ⟨c, hc, rfl, -, -⟩ := findSymbol_mem hsym
          exact ⟨hI s _ hs (by omega) (by omega) hw', hN c hc⟩
        | none =>
          refine ih _ _ ?_ hw'
          rcases hb with hb | hb
          · exact .inl hb
          · right
            simp only [completeFrom, Bool.and_eq_true, Bool.or_eq_true] at hb
            cases b
            · simpa [hsym] using hb.1.resolve_left (by simp at hsym; simp [hsym])
            · simpa [hsym] using hb.2.resolve_left (by simp at hsym; simp [hsym])

/-- What `HuffDecode(t)` can do (40_bitread.md R110, 30_encoding.md R86). -/
theorem huffDecode_ends (T : Tables) {I : State → Prop} (hI : BitMoves I) {s : State} (hs : I s) {t : Nat} (h1 : 1 ≤ t) (h8 : t < 8) :
    Ends (readErr T) I (huffDecode T t s) (fun v => v < huffNsym T t) := by
  refine huffLoop_ends hI hs (fun c hc => canonicalCodes_sym hc) (.inl rfl) _ _ _ ?_ (fun q h1 h2 => by omega)
  by_cases hT : T = referenceTables
  · subst hT; exact .inr (reference_complete t h1 h8)
  · exact .inl (.inr ⟨rfl, hT⟩)

/-! ### Mantissas -/

/-- `v` is a mantissa of some code of the selector and mode. -/
def ValueOk (T : Tables) (sel : Nat) (mode : CodingMode) (v : Int) : Prop :=
  ∃ raw, codeOk T sel mode raw = true ∧ v ∈ codeValues T sel mode raw

theorem readCode_ends (T : Tables) {I : State → Prop} (hI : BitMoves I) {s : State} (hs : I s) {sel : Nat} (h1 : 1 ≤ sel) (h8 : sel < 8)
    (mode : CodingMode) : Ends (readErr T) I (readCode T sel mode s) (fun raw => codeOk T sel mode raw = true) := by
  cases mode with
  | clc =>
    simp only [readCode]
    split_ifs with hw
    · exact ⟨hs, by simp [codeOk]⟩
    · exact (readBits_ends T hI hs _).mono (fun _ h => h) (fun v hv => by simpa [codeOk] using hv)
  | vlc =>
    exact (huffDecode_ends T hI hs h1 h8).mono (fun _ h => h) (fun v hv => by simpa [codeOk] using hv)

theorem codeValues_length (T : Tables) (sel : Nat) (mode : CodingMode) (raw : Nat) :
    (codeValues T sel mode raw).length = perCode sel := by
  cases mode <;> simp only [codeValues, perCode] <;> split_ifs <;> rfl

theorem deliver_keeps {I : State → Prop} {dst : Nat → Int → State → State} {lo hi : Nat} {Q : Int → Prop}
    (hd : ∀ k v s, lo ≤ k → k < hi → Q v → I s → I (dst k v s)) (vs : List Int) (k : Nat) (s : State) (hk : lo ≤ k)
    (hh : k + vs.length ≤ hi) (hv : ∀ v ∈ vs, Q v) (hs : I s) : I (deliver dst k vs s) := by
  induction vs generalizing k s with
  | nil => exact hs
  | cons v rest ih =>
    simp only [List.length_cons] at hh
    exact ih (k + 1) (dst k v s) (by omega) (by omega) (fun w hw => hv w (List.mem_cons_of_mem _ hw))
      (hd k v s hk (by omega) (hv v (by simp)) hs)

/-- What a run of mantissa codes can do: only `dst` writes, for indices from `k` on, with mantissas of the selector
(41_mantissa.md R120). -/
theorem mantCodes_ends (T : Tables) {I : State → Prop} (hI : BitMoves I) {sel : Nat} (h1 : 1 ≤ sel) (h8 : sel < 8) (mode : CodingMode)
    {dst : Nat → Int → State → State} {hi : Nat} (hd : ∀ k v s, k < hi → ValueOk T sel mode v → I s → I (dst k v s)) (n k : Nat)
    (hk : k + n * perCode sel ≤ hi) {s : State} (hs : I s) : Ends (readErr T) I (mantCodes T sel mode dst n k s) (fun _ => True) := by
  induction n generalizing k s with
  | zero => exact ⟨hs, trivial⟩
  | succ n ih =>
    unfold mantCodes
    refine (readCode_ends T hI hs h1 h8 mode).andThen fun raw s1 hs1 hraw => ?_
    have e : (n + 1) * perCode sel = n * perCode sel + perCode sel := by ring
    refine ih (k + perCode sel) (by omega) ?_
    refine deliver_keeps (lo := 0) (hi := hi) (Q := ValueOk T sel mode) (fun k v s _ h hv hi => hd k v s h hv hi) _ k s1 (by omega) ?_ ?_ hs1
    · rw [codeValues_length]; omega
    · intro v hv; exact ⟨raw, hraw, hv⟩

theorem codeCount_le (sel cnt : Nat) : codeCount sel cnt * perCode sel ≤ cnt := by
  unfold codeCount perCode; split_ifs <;> omega

theorem mantExtract_ends (T : Tables) {I : State → Prop} (hI : BitMoves I) {sel : Nat} (h1 : 1 ≤ sel) (h8 : sel < 8) (mode : CodingMode)
    {dst : Nat → Int → State → State} (cnt : Nat) (hd : ∀ k v s, k < cnt → ValueOk T sel mode v → I s → I (dst k v s)) {s : State}
    (hs : I s) : Ends (readErr T) I (mantExtract T sel mode cnt dst s) (fun _ => True) :=
  mantCodes_ends T hI h1 h8 mode hd _ 0 (by have := codeCount_le sel cnt; omega) hs

end Sys2Proof.Machine
end

