-- ==== Sys2Proof/Laws/Parsing.lean ====
section
/-! SUPPORT. What the parsers of a spectral block and of a tonal block can do, one lemma for each part: any property of the state that
survives their bit moves and their writes survives them. -/

namespace Sys2Proof.Machine

/-! ### SPECTRUM -/

/-- The subband table tiles lines below 1024 (30_encoding.md R83). -/
def SubbandsOk (T : Tables) : Prop :=
  ∀ i, i < 32 → subbandStart T i ≤ subbandStart T (i + 1) ∧ subbandStart T (i + 1) ≤ 1024

theorem reference_subbandsOk : SubbandsOk referenceTables := by
  intro i hi
  interval_cases i <;> decide

/-- `I` survives every write SPECTRUM can make (42_spectrum.md R144). -/
structure SpectrumWrites (T : Tables) (I : State → Prop) : Prop where
  nsb : ∀ s n, n < 32 → I s → I (s.setNsb n)
  mode : ∀ s m, I s → I (s.setSpecMode m)
  sel : ∀ s i v, i < 32 → v < 8 → I s → I (s.writeSel i v)
  sfi : ∀ s i v, i < 32 → v < 64 → I s → I (s.writeSfi i v)
  qm : ∀ s i v, i < 1024 → (∃ sel mode, 1 ≤ sel ∧ sel < 8 ∧ ValueOk T sel mode v) → I s → I (s.writeQm i v)
  zeroQm : ∀ s lo n, lo + n ≤ 1024 → I s → I (s.zeroQm lo n)
  zeroSide : ∀ s lo n, lo + n ≤ 32 → I s → I (s.zeroSide lo n)

section Spectrum

variable {T : Tables} {I : State → Prop} (hI : BitMoves I) (hW : SpectrumWrites T I)
include hI hW

theorem readSelectors_ends (n i : Nat) (hi : i + n ≤ 32) {s : State} (hs : I s) :
    Ends (readErr T) I (readSelectors n i s) (fun l => l.length = n ∧ ∀ x ∈ l, x < 8) := by
  induction n generalizing i s with
  | zero => exact ⟨hs, rfl, by simp⟩
  | succ n ih =>
    unfold readSelectors
    refine (readBits_ends T hI hs 3).andThen fun v s1 hs1 hv => ?_
    refine (ih (i + 1) (by omega) (hW.sel s1 i v (by omega) (by simpa using hv) hs1)).andThen fun l s2 hs2 hl => ?_
    refine ⟨hs2, by simp [hl.1], ?_⟩
    intro x hx
    rcases List.mem_cons.1 hx with hx | hx
    · subst hx; simpa using hv
    · exact hl.2 x hx

theorem readIndex_ends (i sel : Nat) (hi : i < 32) {s : State} (hs : I s) :
    Ends (readErr T) I (readIndex i sel s) (fun _ => True) := by
  unfold readIndex
  split_ifs
  · exact ⟨hW.sfi s i 0 hi (by omega) hs, trivial⟩
  · exact (readBits_ends T hI hs 6).andThen fun v s1 hs1 hv => ⟨hW.sfi s1 i v hi (by simpa using hv) hs1, trivial⟩

theorem readIndices_ends (l : List Nat) (i : Nat) (hi : i + l.length ≤ 32) {s : State} (hs : I s) :
    Ends (readErr T) I (readIndices l i s) (fun _ => True) := by
  induction l generalizing i s with
  | nil => exact ⟨hs, trivial⟩
  | cons sel rest ih =>
    simp only [List.length_cons] at hi
    exact (readIndex_ends hI hW i sel (by omega) hs).andThen fun _ s1 hs1 _ => ih (i + 1) (by omega) hs1

theorem readInterleaved_ends (n i : Nat) (hi : i + n ≤ 32) {s : State} (hs : I s) :
    Ends (readErr T) I (readInterleaved n i s) (fun l => l.length = n ∧ ∀ x ∈ l, x < 8) := by
  induction n generalizing i s with
  | zero => exact ⟨hs, rfl, by simp⟩
  | succ n ih =>
    unfold readInterleaved
    refine (readBits_ends T hI hs 3).andThen fun v s1 hs1 hv => ?_
    refine (readIndex_ends hI hW i v (by omega) (hW.sel s1 i v (by omega) (by simpa using hv) hs1)).andThen fun _ s2 hs2 _ => ?_
    refine (ih (i + 1) (by omega) hs2).andThen fun l s3 hs3 hl => ?_
    refine ⟨hs3, by simp [hl.1], ?_⟩
    intro x hx
    rcases List.mem_cons.1 hx with hx | hx
    · subst hx; simpa using hv
    · exact hl.2 x hx

theorem readSideInfo_ends (c : Config) (n : Nat) (hn : n ≤ 32) {s : State} (hs : I s) :
    Ends (readErr T) I (readSideInfo c n s) (fun l => l.length = n ∧ ∀ x ∈ l, x < 8) := by
  unfold readSideInfo
  cases c.sideInfoOrder with
  | grouped =>
    refine (readSelectors_ends hI hW n 0 (by omega) hs).andThen fun l s1 hs1 hl => ?_
    exact (readIndices_ends hI hW l 0 (by omega) hs1).andThen fun _ s2 hs2 _ => ⟨hs2, hl⟩
  | interleaved => exact readInterleaved_ends hI hW n 0 (by omega) hs

end Spectrum

/-- `I` survives writes of QM at any line, also at lines no block has: then the subband table may hold anything. -/
structure AnyLine (I : State → Prop) : Prop where
  qm : ∀ s i v, I s → I (s.writeQm i v)
  zeroQm : ∀ s lo n, I s → I (s.zeroQm lo n)

section Bands

variable {c : Config} {I : State → Prop} (hI : BitMoves I) (hW : SpectrumWrites c.tables I) (hT : SubbandsOk c.tables ∨ AnyLine I)
include hI hW hT

theorem readBand_ends (mode : CodingMode) (i sel : Nat) (hi : i < 32) (h8 : sel < 8) {s : State} (hs : I s) :
    Ends (readErr c.tables) I (readBand c mode i sel s) (fun _ => True) := by
  unfold readBand
  split_ifs with h0
  · refine ⟨hT.elim (fun hT => ?_) (fun h => h.zeroQm s _ _ hs), trivial⟩
    have h := hT i hi
    exact hW.zeroQm s _ _ (by unfold subbandWidth; omega) hs
  · refine mantExtract_ends c.tables hI (by omega) h8 mode _ (fun k v s1 hk hv hs1 => ?_) hs
    refine hT.elim (fun hT => ?_) (fun h => h.qm s1 _ v hs1)
    have h := hT i hi
    exact hW.qm s1 _ v (by unfold subbandWidth at hk; omega) ⟨sel, mode, by omega, h8, hv⟩ hs1

theorem readBands_ends (mode : CodingMode) (l : List Nat) (i : Nat) (hi : i + l.length ≤ 32) (hl : ∀ x ∈ l, x < 8) {s : State}
    (hs : I s) : Ends (readErr c.tables) I (readBands c mode l i s) (fun _ => True) := by
  induction l generalizing i s with
  | nil => exact ⟨hs, trivial⟩
  | cons sel rest ih =>
    simp only [List.length_cons] at hi
    exact (readBand_ends hI hW hT mode i sel (by omega) (hl sel (by simp)) hs).andThen fun _ s1 hs1 _ =>
      ih (i + 1) (by omega) (fun x hx => hl x (List.mem_cons_of_mem _ hx)) hs1

theorem spectrumBody_ends {s : State} (hs : I s) : Ends (readErr c.tables) I (spectrumBody c s) (fun _ => True) := by
  unfold spectrumBody
  refine (readBits_ends c.tables hI hs 5).andThen fun n s1 hs1 hn => ?_
  have hn : n < 32 := by simpa using hn
  refine (readBits_ends c.tables hI (hW.nsb s1 n hn hs1) 1).andThen fun m s2 hs2 _ => ?_
  refine (readSideInfo_ends hI hW c (n + 1) (by omega) (hW.mode s2 _ hs2)).andThen fun l s3 hs3 hl => ?_
  refine (readBands_ends hI hW hT _ l 0 (by omega) hl.2 hs3).andThen fun _ s4 hs4 _ => ?_
  have hz := hW.zeroSide s4 (n + 1) (31 - n) (by omega) hs4
  refine ⟨hT.elim (fun hT => hW.zeroQm _ _ _ ?_ hz) (fun h => h.zeroQm _ _ _ hz), trivial⟩
  have := hT n hn
  omega

end Bands

/-! ### TONAL -/

/-- The errors TONAL can raise once it reads (60_exceptions.md R211). -/
def tonalErr (T : Tables) (e : Err) : Prop := readErr T e ∨ e = .tonalMode ∨ e = .tonalQstep ∨ e = .tonalCap

/-- `I` survives every write TONAL can make (43_tonal.md R166). -/
structure TonalWrites (I : State → Prop) : Prop where
  count : ∀ s n, n ≤ 64 → I s → I (s.setTccount n)
  field : ∀ s k f v, k < 64 → (∀ m, f = .mant m → m < 8) → I s → I (s.writeTc k f v)
  zero : ∀ s k lo n, k < 64 → lo + n ≤ 8 → I s → I (s.zeroTcMant k lo n)

section Tonal

variable (T : Tables) {I : State → Prop} (hI : BitMoves I) (hW : TonalWrites I)
include hI

theorem readBits_tonal {s : State} (hs : I s) (n : Nat) : Ends (tonalErr T) I (readBits n s) (fun v => v < 2 ^ n) :=
  (readBits_ends T hI hs n).mono (fun _ h => .inl h) (fun _ h => h)

theorem readFlags_ends (n : Nat) {s : State} (hs : I s) : Ends (tonalErr T) I (readFlags n s) (fun l => l.length = n) := by
  induction n generalizing s with
  | zero => exact ⟨hs, rfl⟩
  | succ n ih =>
    unfold readFlags
    refine (readBits_tonal T hI hs 1).andThen fun b s1 hs1 _ => ?_
    exact (ih hs1).andThen fun l s2 hs2 hl => ⟨hs2, by simp [hl]⟩

theorem readGroupMode_ends (cms : Nat) {s : State} (hs : I s) : Ends (tonalErr T) I (readGroupMode cms s) (fun _ => True) := by
  unfold readGroupMode
  split_ifs
  · exact (readBits_tonal T hI hs 1).andThen fun m s1 hs1 _ => ⟨hs1, trivial⟩
  · exact ⟨hs, trivial⟩

include hW

theorem readPlaced_ends {cv qs : Nat} (mode : CodingMode) (j : Nat) {count : Nat} (sfi : Nat) (hcv : cv < 8) (h2 : 2 ≤ qs) (h8 : qs < 8)
    (hc : count < 64) {s : State} (hs : I s) : Ends (tonalErr T) I (readPlaced T cv qs mode j count sfi s) (fun _ => True) := by
  unfold readPlaced
  refine (readBits_tonal T hI hs 6).andThen fun p s1 hs1 _ => ?_
  have hf : ∀ (s : State) (f : TcField) (v : Int), (∀ m, f ≠ .mant m) → I s → I (s.writeTc count f v) :=
    fun s f v h hs => hW.field s count f v hc (fun m hm => absurd hm (h m)) hs
  refine Ends.andThen (P := fun _ => True) ?_ fun _ s4 hs4 _ => ?_
  · refine (mantExtract_ends T hI (by omega) h8 mode _ (fun k v s3 hk _ hs3 => ?_) ?_).mono (fun _ h => .inl h) (fun _ h => h)
    · exact hW.field s3 count _ v hc (fun m hm => by cases hm; omega) hs3
    · exact hf _ _ _ (by simp) (hf _ _ _ (by simp) (hf _ _ _ (by simp) (hf _ _ _ (by simp) hs1)))
  · refine ⟨hW.count _ _ (by omega) (hW.zero _ _ _ _ hc ?_ hs4), trivial⟩
    omega

theorem readComponent_ends {cv qs : Nat} (mode : CodingMode) (j : Nat) {count : Nat} (hcv : cv < 8) (h2 : 2 ≤ qs) (h8 : qs < 8)
    (hc : count ≤ 64) {s : State} (hs : I s) :
    Ends (tonalErr T) I (readComponent T cv qs mode j count s) (fun _ => count < 64) := by
  unfold readComponent
  rcases readBits_cases 6 s with ⟨h, he⟩ | ⟨h, hf, he⟩ | ⟨h, v, hv, hf, he⟩ <;> rw [he]
  · exact ⟨hs, .inl (.inl rfl), rfl, s, hs, rfl⟩
  · exact ⟨rfl, s, hs, fieldAt_unwrittenAhead h hf⟩
  · have hs1 := hI s _ hs (by omega) h (fieldAt_written hf)
    show Ends _ _ (if count = tcMax then _ else _) _
    split_ifs with hcap
    · refine ⟨hs1, .inr (.inr (.inr rfl)), ?_⟩
      exact ⟨setBitpos_toNat s h, s, hs, rfl⟩
    · have hc' : count < 64 := by unfold tcMax at hcap; omega
      exact (readPlaced_ends T hI hW mode j v hcv h2 h8 hc' hs1).mono (fun _ h => h) (fun _ _ => hc')

theorem readComponents_ends {cv qs : Nat} (mode : CodingMode) (j n count : Nat) (hcv : cv < 8) (h2 : 2 ≤ qs) (h8 : qs < 8)
    (hc : count ≤ 64) {s : State} (hs : I s) :
    Ends (tonalErr T) I (readComponents T cv qs mode j n count s) (fun m => m ≤ 64) := by
  induction n generalizing count s with
  | zero => exact ⟨hs, hc⟩
  | succ n ih =>
    exact (readComponent_ends T hI hW mode j hcv h2 h8 hc hs).andThen fun _ s1 hs1 hlt => ih (count + 1) (by omega) hs1

theorem readPositions_ends {cv qs : Nat} (mode : CodingMode) (js : List Nat) (count : Nat) (hcv : cv < 8) (h2 : 2 ≤ qs) (h8 : qs < 8)
    (hc : count ≤ 64) {s : State} (hs : I s) :
    Ends (tonalErr T) I (readPositions T cv qs mode js count s) (fun m => m ≤ 64) := by
  induction js generalizing count s with
  | nil => exact ⟨hs, hc⟩
  | cons j rest ih =>
    unfold readPositions
    refine (readBits_tonal T hI hs 3).andThen fun ncc s1 hs1 _ => ?_
    exact (readComponents_ends T hI hW mode j ncc count hcv h2 h8 hc hs1).andThen fun m s2 hs2 hm => ih m hm hs2

theorem readGroup_ends (nb cms : Nat) {count : Nat} (hc : count ≤ 64) {s : State} (hs : I s) :
    Ends (tonalErr T) I (readGroup T nb cms count s) (fun m => m ≤ 64) := by
  unfold readGroup
  refine (readFlags_ends T hI (nb + 1) hs).andThen fun flags s1 hs1 _ => ?_
  refine (readBits_tonal T hI hs1 3).andThen fun cv s2 hs2 hcv => ?_
  rcases readBits_cases 3 s2 with ⟨h, he⟩ | ⟨h, hf, he⟩ | ⟨h, v, hv, hf, he⟩ <;> rw [he]
  · exact ⟨hs2, .inl (.inl rfl), rfl, s2, hs2, rfl⟩
  · exact ⟨rfl, s2, hs2, fieldAt_unwrittenAhead h hf⟩
  · have hs3 := hI s2 _ hs2 (by omega) h (fieldAt_written hf)
    show Ends _ _ (if v ≤ 1 then _ else _) _
    split_ifs with hq
    · exact ⟨hs3, .inr (.inr (.inl rfl)), setBitpos_toNat s2 h, s2, hs2, rfl⟩
    · refine (readGroupMode_ends T hI cms hs3).andThen fun mode s4 hs4 _ => ?_
      exact readPositions_ends T hI hW mode _ count (by simpa using hcv) (by omega) (by simpa using hv) hc hs4

theorem readGroups_ends (nb cms n count : Nat) (hc : count ≤ 64) {s : State} (hs : I s) :
    Ends (tonalErr T) I (readGroups T nb cms n count s) (fun m => m ≤ 64) := by
  induction n generalizing count s with
  | zero => exact ⟨hs, hc⟩
  | succ n ih =>
    exact (readGroup_ends T hI hW nb cms hc hs).andThen fun m s1 hs1 hm => ih m hm hs1

theorem tonalBody_ends (c : Config) (nb : Nat) {s : State} (hs : I s) :
    Ends (tonalErr c.tables) I (tonalBody c nb s) (fun v => v.toNat ≤ 64) := by
  unfold tonalBody
  refine (readBits_tonal c.tables hI (hW.count s 0 (by omega) hs) 5).andThen fun nc s1 hs1 _ => ?_
  split_ifs with h0
  · exact ⟨hs1, by simp⟩
  · rcases readBits_cases 2 s1 with ⟨h, he⟩ | ⟨h, hf, he⟩ | ⟨h, v, hv, hf, he⟩ <;> rw [he]
    · exact ⟨hs1, .inl (.inl rfl), rfl, s1, hs1, rfl⟩
    · exact ⟨rfl, s1, hs1, fieldAt_unwrittenAhead h hf⟩
    · have hs2 := hI s1 _ hs1 (by omega) h (fieldAt_written hf)
      show Ends _ _ (if v = 2 then _ else _) _
      split_ifs with hm
      · exact ⟨hs2, .inr (.inl rfl), setBitpos_toNat s1 h, s1, hs1, rfl⟩
      · refine (readGroups_ends c.tables hI hW nb v nc 0 (by omega) hs2).andThen fun m s3 hs3 hm => ⟨hs3, ?_⟩
        simp only [wordOfNat, BitVec.toNat_ofNat]
        omega

end Tonal

/-! ### MANT -/

theorem mantBody_ends (c : Config) {I : State → Prop} (hI : BitMoves I) {sel cnt : Nat} (h1 : 1 ≤ sel) (h8 : sel < 8) (mode : CodingMode)
    (hd : ∀ s k v, k < cnt → ValueOk c.tables sel mode v → I s → I (s.writeMbuf k v)) {s : State} (hs : I s) :
    Ends (readErr c.tables) I (mantBody c sel mode cnt s) (fun v => v = wordOfNat cnt) :=
  (mantExtract_ends c.tables hI h1 h8 mode cnt (fun k v s1 hk hv hs1 => hd s1 k v hk hv hs1) hs).andThen
    fun _ _ hs1 _ => ⟨hs1, rfl⟩

end Sys2Proof.Machine
end

