-- ==== Sys2Proof/Laws/Commands.lean ====
section
/-! SUPPORT. What a whole command can do: one form for all seven meanings, and what each ending leaves. -/

namespace Sys2Proof.Machine

/-- The pseudocode of a command with legal operands, and the value it writes to RESULT. -/
def commandBody (c : Config) (i : Instr) (s : State) : Res Word :=
  match i with
  | .rdbits n => (readBits n.toNat s).andThen fun v s1 => .ok (wordOfNat v) s1
  | .rdsbits n => (readSBits n.toNat s).andThen fun v s1 => .ok (wordOfInt v) s1
  | .rdbit => (readBits 1 s).andThen fun v s1 => .ok (wordOfNat v) s1
  | .huff t => (huffDecode c.tables t.toNat s).andThen fun v s1 => .ok (wordOfNat v) s1
  | .mant sel mode cnt => mantBody c sel.toNat mode cnt.toNat s
  | .spectrum => spectrumBody c s
  | .tonal nb => tonalBody c nb.toNat s

/-- The machine's own meaning of a command. -/
theorem exec_eq_commandWith (i : Instr) (s : State) : exec i s = commandWith machineConfig i s := by
  cases i <;> rfl

/-- Every meaning is the end of its pseudocode, or E_ILLEGAL_CMD where an operand is illegal (30_encoding.md R90). -/
theorem commandWith_eq (c : Config) (i : Instr) (s : State) :
    commandWith c i s = if i.wf = true then endCommand c i (commandBody c i s) else illegalCommand s := by
  cases i <;> rfl

theorem exec_eq (i : Instr) (s : State) :
    exec i s = if i.wf = true then endCommand machineConfig i (commandBody machineConfig i s) else illegalCommand s := by
  rw [exec_eq_commandWith, commandWith_eq]

theorem exec_of_wf {i : Instr} (h : i.wf = true) (s : State) : exec i s = endCommand machineConfig i (commandBody machineConfig i s) := by
  rw [exec_eq, if_pos h]

theorem exec_of_not_wf {i : Instr} (h : ¬i.wf = true) (s : State) : exec i s = .next (s.endErr .illegalCmd s.bitpos) := by
  rw [exec_eq, if_neg h]; rfl

/-- `I` survives every write command `i` can make (the "Flags written" of each command's rule). -/
def CommandWrites (T : Tables) (i : Instr) (I : State → Prop) : Prop :=
  match i with
  | .rdbits _ => True
  | .rdsbits _ => True
  | .rdbit => True
  | .huff _ => True
  | .mant sel mode cnt => ∀ s k v, k < cnt.toNat → ValueOk T sel.toNat mode v → I s → I (s.writeMbuf k v)
  | .spectrum => SpectrumWrites T I
  | .tonal _ => TonalWrites I

/-- The errors of command `i` once it reads (60_exceptions.md R211). -/
def commandErr (T : Tables) (i : Instr) (e : Err) : Prop :=
  match i with
  | .rdbits _ => e = .overrun
  | .rdsbits _ => e = .overrun
  | .rdbit => e = .overrun
  | .huff _ => readErr T e
  | .mant _ _ _ => readErr T e
  | .spectrum => readErr T e
  | .tonal _ => tonalErr T e

theorem readBits_overrun {I : State → Prop} (hI : BitMoves I) {s : State} (hs : I s) (n : Nat) :
    Ends (fun e => e = .overrun) I (readBits n s) (fun v => v < 2 ^ n) :=
  (readBits_ends referenceTables hI hs n).mono (fun _ h => h.resolve_right fun h => h.2 rfl) (fun _ h => h)

/-- What the pseudocode of a command can do, said once for all seven. -/
theorem commandBody_ends (c : Config) {i : Instr} (hwf : i.wf = true) {I : State → Prop} (hT : SubbandsOk c.tables ∨ AnyLine I)
    (hI : BitMoves I) (hW : CommandWrites c.tables i I) {s : State} (hs : I s) :
    Ends (commandErr c.tables i) I (commandBody c i s) (fun _ => True) := by
  cases i with
  | rdbits n => exact (readBits_overrun hI hs _).andThen fun v s1 hs1 _ => ⟨hs1, trivial⟩
  | rdsbits n =>
    have h : Ends (fun e => e = .overrun) I (readSBits n.toNat s) (fun _ => True) :=
      (readBits_overrun hI hs n.toNat).andThen fun v s1 hs1 _ => ⟨hs1, trivial⟩
    exact h.andThen fun v s1 hs1 _ => ⟨hs1, trivial⟩
  | rdbit => exact (readBits_overrun hI hs _).andThen fun v s1 hs1 _ => ⟨hs1, trivial⟩
  | huff t =>
    have h1 : 1 ≤ t.toNat := by simpa [Instr.wf] using hwf
    exact (huffDecode_ends c.tables hI hs h1 t.isLt).andThen fun v s1 hs1 _ => ⟨hs1, trivial⟩
  | mant sel mode cnt =>
    simp only [Instr.wf, Bool.and_eq_true, decide_eq_true_eq] at hwf
    exact (mantBody_ends c hI hwf.1.1.1 sel.isLt mode hW hs).mono (fun _ h => h) (fun _ _ => trivial)
  | spectrum => exact spectrumBody_ends hI hW hT hs
  | tonal nb => exact (tonalBody_ends hI hW c nb.toNat hs).mono (fun _ h => h) (fun _ _ => trivial)

end Sys2Proof.Machine
end

