-- ==== Sys2Proof/Laws/Streams.lean ====
section
/-! SUPPORT. Reading what the stream spells: each reading primitive gives a value exactly where the stream has that value's bits. -/

namespace Sys2Proof.Machine

/-! ### Bits on the stream -/

theorem spells_append (s : State) (p : Nat) (a b : List Bool) :
    spells s p (a ++ b) = (spells s p a && spells s (p + a.length) b) := by
  induction a generalizing p with
  | nil => simp [spells]
  | cons x rest ih =>
    simp only [List.cons_append, spells, ih, List.length_cons, Bool.and_assoc]
    rw [show p + 1 + rest.length = p + (rest.length + 1) by omega]

theorem spells_congr {s t : State} (h : t.fb = s.fb) (p : Nat) (bits : List Bool) : spells t p bits = spells s p bits := by
  induction bits generalizing p with
  | nil => rfl
  | cons x rest ih => simp only [spells, ih, fbBit_congr h]

@[simp] theorem spells_setBitpos (s : State) (q p : Nat) (bits : List Bool) : spells (s.setBitpos q) p bits = spells s p bits :=
  spells_congr (State.setBitpos_fb s q) p bits

theorem onStream_iff (s : State) (bits : List Bool) :
    onStream s bits = true ↔ spells s s.bitpos.toNat bits = true ∧ s.bitpos.toNat + bits.length ≤ s.bitlen.toNat := by
  simp [onStream]

theorem onStream_congr {s t : State} (hf : t.fb = s.fb) (hp : t.bitpos = s.bitpos) (hl : t.bitlen = s.bitlen) (bits : List Bool) :
    onStream t bits = onStream s bits := by
  simp only [onStream, spells_congr hf, hp, hl]

/-- The bits of two fields in a row are those of the first, and those of the second where the first ends. -/
theorem onStream_append (s : State) (a b : List Bool) :
    onStream s (a ++ b) = true ↔ onStream s a = true ∧ onStream (s.setBitpos (s.bitpos.toNat + a.length)) b = true := by
  simp only [onStream_iff, spells_append, Bool.and_eq_true, List.length_append]
  constructor
  · rintro ⟨⟨h1, h2⟩, h3⟩
    have hp := setBitpos_toNat s (p := s.bitpos.toNat + a.length) (by omega)
    refine ⟨⟨h1, by omega⟩, ?_, ?_⟩
    · rw [hp, spells_setBitpos]; exact h2
    · rw [hp]; simpa using by omega
  · rintro ⟨⟨h1, h2⟩, h3, h4⟩
    have hp := setBitpos_toNat s (p := s.bitpos.toNat + a.length) (by omega)
    rw [hp] at h3 h4
    refine ⟨⟨h1, by rwa [spells_setBitpos] at h3⟩, ?_⟩
    simp only [State.setBitpos_bitlen] at h4
    omega

theorem setBitpos_setBitpos (s : State) (p q : Nat) : (s.setBitpos p).setBitpos q = s.setBitpos q := rfl

theorem setBitpos_self (s : State) : s.setBitpos s.bitpos.toNat = s := by
  simp [State.setBitpos]

theorem onStream_nil (s : State) : onStream s [] = true ↔ s.bitpos.toNat ≤ s.bitlen.toNat := by simp [onStream, spells]

theorem onStream_le {s : State} {bits : List Bool} (h : onStream s bits = true) : s.bitpos.toNat + bits.length ≤ s.bitlen.toNat :=
  ((onStream_iff s bits).1 h).2

/-- BITPOS after bits that stand on the stream. -/
theorem onStream_bitpos {s : State} {bits : List Bool} (h : onStream s bits = true) :
    (s.setBitpos (s.bitpos.toNat + bits.length)).bitpos.toNat = s.bitpos.toNat + bits.length :=
  setBitpos_toNat s (onStream_le h)

/-! ### Fields -/

@[simp] theorem natBits_length (n v : Nat) : (natBits n v).length = n := by
  induction n with
  | zero => rfl
  | succ n ih => simp [natBits, ih]

theorem fieldAt_first (s : State) (p n : Nat) :
    fieldAt s p (n + 1) = match fbBit s p, fieldAt s (p + 1) n with
      | some b, some v => some (b.toNat * 2 ^ n + v)
      | _, _ => none := by
  induction n with
  | zero =>
    simp only [fieldAt]
    cases fbBit s (p + 0) <;> simp_all
  | succ n ih =>
    rw [fieldAt, ih, fieldAt, show p + (n + 1) = p + 1 + n by omega]
    cases fbBit s p <;> cases fieldAt s (p + 1) n <;> cases fbBit s (p + 1 + n) <;> simp
    ring

theorem fieldAt_of_spells {s : State} {p n v : Nat} (h : spells s p (natBits n v) = true) : fieldAt s p n = some (v % 2 ^ n) := by
  induction n generalizing p with
  | zero => simp [fieldAt, Nat.mod_one]
  | succ n ih =>
    simp only [natBits, spells, Bool.and_eq_true, decide_eq_true_eq] at h
    rw [fieldAt_first, h.1, ih h.2, Nat.mod_pow_succ, ← Nat.toNat_testBit]
    simp only [Option.some.injEq]
    ring

theorem natBits_mod (n v : Nat) : ∀ m, n ≤ m → natBits n (v % 2 ^ m) = natBits n v := by
  induction n with
  | zero => intros; rfl
  | succ n ih =>
    intro m hm
    simp only [natBits, ih m (by omega)]
    rw [Nat.testBit_mod_two_pow]
    simp [show n < m by omega]

theorem spells_of_fieldAt {s : State} {p n v : Nat} (h : fieldAt s p n = some v) : spells s p (natBits n v) = true := by
  induction n generalizing p v with
  | zero => rfl
  | succ n ih =>
    rw [fieldAt_first] at h
    cases hb : fbBit s p with
    | none => simp [hb] at h
    | some b =>
      cases hf : fieldAt s (p + 1) n with
      | none => simp [hb, hf] at h
      | some w =>
        simp only [hb, hf, Option.some.injEq] at h
        have hw := fieldAt_lt hf
        have h2 := ih hf
        subst h
        simp only [natBits, spells, Bool.and_eq_true, decide_eq_true_eq]
        have ht : (b.toNat * 2 ^ n + w).testBit n = b := by
          rw [mul_comm, Nat.testBit_two_pow_mul_add _ hw]
          cases b <;> simp
        have hm : natBits n (b.toNat * 2 ^ n + w) = natBits n w := by
          rw [← natBits_mod n (b.toNat * 2 ^ n + w) n (le_refl n), Nat.add_mod, Nat.mul_mod_left, Nat.zero_add, Nat.mod_mod,
            Nat.mod_eq_of_lt hw]
        rw [ht, hm]
        exact ⟨hb, h2⟩

/-- A field that stands on the stream is read. -/
theorem readBits_spelled {s : State} {n v : Nat} (hv : v < 2 ^ n) (h : onStream s (natBits n v) = true) :
    readBits n s = .ok v (s.setBitpos (s.bitpos.toNat + n)) := by
  obtain ⟨h1, h2⟩ := (onStream_iff _ _).1 h
  rw [natBits_length] at h2
  have hf := fieldAt_of_spells h1
  rw [Nat.mod_eq_of_lt hv] at hf
  unfold readBits
  rw [if_neg (by omega), hf]

/-- A field that was read stood on the stream. -/
theorem readBits_ok {s t : State} {n v : Nat} (h : readBits n s = .ok v t) :
    v < 2 ^ n ∧ onStream s (natBits n v) = true ∧ t = s.setBitpos (s.bitpos.toNat + n) := by
  rcases readBits_cases n s with ⟨_, he⟩ | ⟨_, _, he⟩ | ⟨hle, w, hw, hf, he⟩ <;> rw [he] at h <;> cases h
  exact ⟨hw, (onStream_iff _ _).2 ⟨spells_of_fieldAt hf, by simpa using hle⟩, rfl⟩

/-! ### Codewords -/

/-- Every codeword of `book` is the one of its symbol and is found, and no beginning of it is a codeword (30_encoding.md R86). -/
def bookOk (book : List Code) (maxLen : Nat) : Bool :=
  book.all fun c =>
    decide (findCode book c.sym = some c) && decide (1 ≤ c.len) && decide (c.len ≤ maxLen) && decide (c.word < 2 ^ c.len) &&
      decide (findSymbol book c.len c.word = some c.sym) &&
      (List.range c.len).all fun l => decide (l = 0) || decide (findSymbol book l (c.word / 2 ^ (c.len - l)) = none)

theorem reference_bookOk : ∀ t, 1 ≤ t → t < 8 → bookOk (huffCodes referenceTables t) (huffMaxLen referenceTables t) = true := by
  intro t h1 h2
  interval_cases t <;> decide +kernel

theorem reference_codes : ∀ t, 1 ≤ t → t < 8 →
    (List.range (huffNsym referenceTables t)).all (fun x => (findCode (huffCodes referenceTables t) x).isSome) = true := by
  intro t h1 h2
  interval_cases t <;> decide +kernel

theorem findCode_mem {book : List Code} {sym : Nat} {c : Code} (h : findCode book sym = some c) : c ∈ book ∧ c.sym = sym := by
  induction book with
  | nil => simp [findCode] at h
  | cons d rest ih =>
    simp only [findCode] at h
    split_ifs at h with hd
    · obtain rfl : d = c := by simpa using h
      exact ⟨by simp, hd⟩
    · exact ⟨List.mem_cons_of_mem _ (ih h).1, (ih h).2⟩

theorem bookOk_spec {book : List Code} {m : Nat} (h : bookOk book m = true) {c : Code} (hc : c ∈ book) :
    findCode book c.sym = some c ∧ 1 ≤ c.len ∧ c.len ≤ m ∧ c.word < 2 ^ c.len ∧ findSymbol book c.len c.word = some c.sym ∧
      ∀ l, 1 ≤ l → l < c.len → findSymbol book l (c.word / 2 ^ (c.len - l)) = none := by
  have h' := List.all_eq_true.1 h c hc
  simp only [Bool.and_eq_true, decide_eq_true_eq, List.all_eq_true, List.mem_range, Bool.or_eq_true] at h'
  obtain ⟨⟨⟨⟨⟨a1, a2⟩, a3⟩, a4⟩, a5⟩, a6⟩ := h'
  refine ⟨a1, a2, a3, a4, a5, fun l h1 h2 => ?_⟩
  exact (a6 l h2).resolve_left (by omega)

theorem div_two_pow_step (w r : Nat) : 2 * (w / 2 ^ (r + 1)) + (w.testBit r).toNat = w / 2 ^ r := by
  rw [Nat.testBit_eq_decide_div_mod_eq, pow_succ, ← Nat.div_div_eq_div_mul]
  have := Nat.div_add_mod (w / 2 ^ r) 2
  have h2 : w / 2 ^ r % 2 < 2 := Nat.mod_lt _ (by omega)
  by_cases h : w / 2 ^ r % 2 = 1
  · simp [h]; omega
  · simp [h]; omega

theorem huffLoop_spelled {book : List Code} {s : State} {c : Code} (hsome : findSymbol book c.len c.word = some c.sym)
    (hnone : ∀ l, 1 ≤ l → l < c.len → findSymbol book l (c.word / 2 ^ (c.len - l)) = none) (hle : s.bitpos.toNat + c.len ≤ s.bitlen.toNat) :
    ∀ r len more, len + (r + 1) = c.len → r + 1 ≤ more → spells s (s.bitpos.toNat + len) (natBits (r + 1) c.word) = true →
      huffLoop book s more len (c.word / 2 ^ (r + 1)) = .ok c.sym (s.setBitpos (s.bitpos.toNat + c.len)) := by
  intro r
  induction r with
  | zero =>
    intro len more hl hm hs
    obtain ⟨m, rfl⟩ : ∃ m, more = m + 1 := ⟨more - 1, by omega⟩
    simp only [natBits, spells, Bool.and_eq_true, decide_eq_true_eq] at hs
    have hstep := div_two_pow_step c.word 0
    simp only [pow_zero, Nat.div_one] at hstep
    unfold huffLoop
    rw [if_neg (by omega), hs.1]
    simp only
    rw [hstep, show len + 1 = c.len by omega, hsome]
    simp only
    rw [show s.bitpos.toNat + len + 1 = s.bitpos.toNat + c.len by omega]
  | succ r ih =>
    intro len more hl hm hs
    obtain ⟨m, rfl⟩ : ∃ m, more = m + 1 := ⟨more - 1, by omega⟩
    have hs' : fbBit s (s.bitpos.toNat + len) = some (c.word.testBit (r + 1)) ∧
        spells s (s.bitpos.toNat + len + 1) (natBits (r + 1) c.word) = true := by
      rw [natBits, spells, Bool.and_eq_true, decide_eq_true_eq] at hs
      exact hs
    have hn := hnone (len + 1) (by omega) (by omega)
    rw [show c.len - (len + 1) = r + 1 by omega] at hn
    unfold huffLoop
    rw [if_neg (by omega), hs'.1]
    simp only
    rw [div_two_pow_step, hn]
    exact ih (len + 1) m (by omega) (by omega) (by rw [← Nat.add_assoc]; exact hs'.2)

theorem huffLoop_ok {book : List Code} {s t : State} {sym : Nat} :
    ∀ more len word, huffLoop book s more len word = .ok sym t →
      ∃ c ∈ book, c.sym = sym ∧ len < c.len ∧ c.word / 2 ^ (c.len - len) = word ∧
        spells s (s.bitpos.toNat + len) (natBits (c.len - len) c.word) = true ∧ s.bitpos.toNat + c.len ≤ s.bitlen.toNat ∧
        t = s.setBitpos (s.bitpos.toNat + c.len) := by
  intro more
  induction more with
  | zero => intro len word h; simp [huffLoop] at h
  | succ m ih =>
    intro len word h
    unfold huffLoop at h
    split_ifs at h with hlt
    cases hb : fbBit s (s.bitpos.toNat + len) with
    | none => simp [hb] at h
    | some b =>
      simp only [hb] at h
      cases hsym : findSymbol book (len + 1) (2 * word + b.toNat) with
      | some x =>
        simp only [hsym] at h
        cases h
        obtain ⟨c, hc, h1, h2, h3⟩ := findSymbol_mem hsym
        refine ⟨c, hc, h1, by omega, ?_, ?_, by omega, by rw [h2]; rfl⟩
        · rw [h2, h3, show len + 1 - len = 1 by omega]; cases b <;> simp; omega
        · rw [h2, h3, show len + 1 - len = 1 by omega]
          simp only [natBits, spells, Bool.and_eq_true, decide_eq_true_eq, hb, and_true, Option.some.injEq]
          rw [Nat.testBit_zero]
          cases b <;> simp
      | none =>
        simp only [hsym] at h
        obtain ⟨c, hc, h1, h2, h3, h4, h5, h6⟩ := ih _ _ h
        obtain ⟨r, hr⟩ : ∃ r, c.len - (len + 1) = r := ⟨_, rfl⟩
        have hr2 : c.len - len = r + 1 := by omega
        rw [hr] at h3 h4
        have hstep := div_two_pow_step c.word r
        rw [h3] at hstep
        have hbit : c.word.testBit r = b ∧ c.word / 2 ^ (r + 1) = word := by
          cases hx : c.word.testBit r <;> cases b <;> simp [hx] at hstep ⊢ <;> omega
        refine ⟨c, hc, h1, by omega, by rw [hr2]; exact hbit.2, ?_, h5, h6⟩
        rw [hr2]
        simp only [natBits, spells, Bool.and_eq_true, decide_eq_true_eq]
        rw [hbit.1]
        exact ⟨hb, by rw [Nat.add_assoc]; exact h4⟩

/-- A codeword that stands on the stream is decoded (40_bitread.md R110). -/
theorem huffDecode_spelled {s : State} {t sym : Nat} (h1 : 1 ≤ t) (h8 : t < 8) {c : Code}
    (hc : findCode (huffCodes referenceTables t) sym = some c) (h : onStream s (natBits c.len c.word) = true) :
    huffDecode referenceTables t s = .ok sym (s.setBitpos (s.bitpos.toNat + c.len)) := by
  obtain ⟨hm, rfl⟩ := findCode_mem hc
  obtain ⟨-, b1, b2, b3, b4, b5⟩ := bookOk_spec (reference_bookOk t h1 h8) hm
  obtain ⟨s1, s2⟩ := (onStream_iff _ _).1 h
  rw [natBits_length] at s2
  obtain ⟨r, hr⟩ : ∃ r, c.len = r + 1 := ⟨c.len - 1, by omega⟩
  have := huffLoop_spelled b4 b5 s2 r 0 (huffMaxLen referenceTables t) (by omega) (by omega) (by rw [← hr]; exact s1)
  rw [← hr, Nat.div_eq_of_lt b3] at this
  exact this

/-- A symbol that was decoded had its codeword on the stream. -/
theorem huffDecode_ok {s u : State} {t sym : Nat} (h1 : 1 ≤ t) (h8 : t < 8) (h : huffDecode referenceTables t s = .ok sym u) :
    ∃ c, findCode (huffCodes referenceTables t) sym = some c ∧ onStream s (natBits c.len c.word) = true ∧
      u = s.setBitpos (s.bitpos.toNat + c.len) := by
  obtain ⟨c, hc, a1, a2, a3, a4, a5, a6⟩ := huffLoop_ok _ _ _ h
  have hb := bookOk_spec (reference_bookOk t h1 h8) hc
  refine ⟨c, by rw [← a1]; exact hb.1, (onStream_iff _ _).2 ⟨by simpa using a4, by simpa using a5⟩, a6⟩

/-! ### Mantissa codes -/

/-- A mantissa code that stands on the stream is read. -/
theorem readCode_spelled {s : State} {sel raw : Nat} {mode : CodingMode} (h1 : 1 ≤ sel) (h8 : sel < 8)
    (hraw : codeOk referenceTables sel mode raw = true) (h : onStream s (codeBits referenceTables sel mode raw) = true) :
    readCode referenceTables sel mode s = .ok raw (s.setBitpos (s.bitpos.toNat + (codeBits referenceTables sel mode raw).length)) := by
  cases mode with
  | clc =>
    simp only [codeBits, codeOk, decide_eq_true_eq] at *
    simp only [readCode, natBits_length]
    split_ifs with hw
    · rw [hw] at hraw ⊢
      have hr0 : raw = 0 := by simpa using hraw
      subst hr0
      simp [setBitpos_self]
    · exact readBits_spelled hraw h
  | vlc =>
    simp only [codeOk, decide_eq_true_eq] at hraw
    have hex := List.all_eq_true.1 (reference_codes sel h1 h8) raw (List.mem_range.2 hraw)
    obtain ⟨c, hc⟩ := Option.isSome_iff_exists.1 hex
    simp only [codeBits, hc] at h ⊢
    rw [natBits_length]
    exact huffDecode_spelled h1 h8 hc h

/-- A mantissa code that was read stood on the stream. -/
theorem readCode_ok {s t : State} {sel raw : Nat} {mode : CodingMode} (h1 : 1 ≤ sel) (h8 : sel < 8)
    (h : readCode referenceTables sel mode s = .ok raw t) (hle : s.bitpos.toNat ≤ s.bitlen.toNat) :
    codeOk referenceTables sel mode raw = true ∧ onStream s (codeBits referenceTables sel mode raw) = true ∧
      t = s.setBitpos (s.bitpos.toNat + (codeBits referenceTables sel mode raw).length) := by
  cases mode with
  | clc =>
    simp only [readCode] at h
    simp only [codeBits, codeOk, decide_eq_true_eq, natBits_length]
    split_ifs at h with hw
    · cases h
      rw [hw]
      refine ⟨by simp, (onStream_nil _).2 hle, by simp [setBitpos_self]⟩
    · exact readBits_ok h
  | vlc =>
    have hn := (huffDecode_ends referenceTables (I := fun _ => True) (fun _ _ _ _ _ _ => trivial) (s := s) trivial h1 h8)
    have h' : huffDecode referenceTables sel s = .ok raw t := h
    rw [h'] at hn
    obtain ⟨c, hc, a1, a2⟩ := huffDecode_ok h1 h8 h'
    refine ⟨by simpa [codeOk] using hn.2, ?_, ?_⟩
    · simp only [codeBits, hc]; exact a1
    · simp only [codeBits, hc, natBits_length]; exact a2

/-- `dst` writes outputs only, and so may be swapped with a move of the bit pointer. -/
structure Writer (dst : Nat → Int → State → State) : Prop where
  fb : ∀ k v s, (dst k v s).fb = s.fb
  bitpos : ∀ k v s, (dst k v s).bitpos = s.bitpos
  bitlen : ∀ k v s, (dst k v s).bitlen = s.bitlen
  comm : ∀ k v s p, dst k v (s.setBitpos p) = (dst k v s).setBitpos p

theorem writer_mbuf : Writer (fun k v s => s.writeMbuf k v) := ⟨fun _ _ _ => rfl, fun _ _ _ => rfl, fun _ _ _ => rfl, fun _ _ _ _ => rfl⟩
theorem writer_qm (lo : Nat) : Writer (fun k v s => s.writeQm (lo + k) v) :=
  ⟨fun _ _ _ => rfl, fun _ _ _ => rfl, fun _ _ _ => rfl, fun _ _ _ _ => rfl⟩
theorem writer_tc (count : Nat) : Writer (fun m v s => s.writeTc count (.mant m) v) :=
  ⟨fun _ _ _ => rfl, fun _ _ _ => rfl, fun _ _ _ => rfl, fun _ _ _ _ => rfl⟩

section Deliver

variable {dst : Nat → Int → State → State} (hw : Writer dst)
include hw

theorem deliver_fb (k : Nat) (vs : List Int) (s : State) : (deliver dst k vs s).fb = s.fb := by
  induction vs generalizing k s with
  | nil => rfl
  | cons v rest ih => rw [deliver, ih, hw.fb]

theorem deliver_bitpos (k : Nat) (vs : List Int) (s : State) : (deliver dst k vs s).bitpos = s.bitpos := by
  induction vs generalizing k s with
  | nil => rfl
  | cons v rest ih => rw [deliver, ih, hw.bitpos]

theorem deliver_bitlen (k : Nat) (vs : List Int) (s : State) : (deliver dst k vs s).bitlen = s.bitlen := by
  induction vs generalizing k s with
  | nil => rfl
  | cons v rest ih => rw [deliver, ih, hw.bitlen]

theorem deliver_setBitpos (k : Nat) (vs : List Int) (s : State) (p : Nat) :
    deliver dst k vs (s.setBitpos p) = (deliver dst k vs s).setBitpos p := by
  induction vs generalizing k s with
  | nil => rfl
  | cons v rest ih => rw [deliver, hw.comm, ih]; rfl

end Deliver

theorem deliver_append (dst : Nat → Int → State → State) (k : Nat) (a b : List Int) (s : State) :
    deliver dst k (a ++ b) s = deliver dst (k + a.length) b (deliver dst k a s) := by
  induction a generalizing k s with
  | nil => rfl
  | cons v rest ih =>
    simp only [List.cons_append, deliver, ih, List.length_cons]
    rw [show k + 1 + rest.length = k + (rest.length + 1) by omega]

theorem mantValues_length (T : Tables) (sel : Nat) (mode : CodingMode) (codes : List Nat) :
    (mantValues T sel mode codes).length = codes.length * perCode sel := by
  induction codes with
  | nil => simp [mantValues]
  | cons raw rest ih =>
    simp only [mantValues, List.flatMap_cons, List.length_append, List.length_cons] at *
    rw [ih, codeValues_length]; ring

/-- A run of codes that stands on the stream is read, and its mantissas are delivered (41_mantissa.md R120). -/
theorem mantCodes_spelled {sel : Nat} {mode : CodingMode} (h1 : 1 ≤ sel) (h8 : sel < 8) {dst : Nat → Int → State → State}
    (hw : Writer dst) (codes : List Nat) (k : Nat) (s : State) (hc : ∀ raw ∈ codes, codeOk referenceTables sel mode raw = true)
    (h : onStream s (mantBits referenceTables sel mode codes) = true) :
    mantCodes referenceTables sel mode dst codes.length k s =
      .ok () ((deliver dst k (mantValues referenceTables sel mode codes) s).setBitpos
        (s.bitpos.toNat + (mantBits referenceTables sel mode codes).length)) := by
  induction codes generalizing k s with
  | nil =>
    simp only [mantBits, mantValues, List.flatMap_nil, deliver, List.length_nil, Nat.add_zero, mantCodes]
    rw [setBitpos_self]
  | cons raw rest ih =>
    simp only [mantBits, List.flatMap_cons] at h
    rw [onStream_append] at h
    have hp := onStream_bitpos h.1
    simp only [List.length_cons, mantCodes]
    rw [readCode_spelled h1 h8 (hc raw (by simp)) h.1, Res.andThen_ok]
    rw [ih _ _ (fun x hx => hc x (List.mem_cons_of_mem _ hx))]
    · simp only [mantBits, mantValues, List.flatMap_cons, deliver_append, codeValues_length, List.length_append]
      rw [deliver_bitpos hw, hp, deliver_setBitpos hw, deliver_setBitpos hw, setBitpos_setBitpos, Nat.add_assoc]
    · rw [onStream_congr (deliver_fb hw _ _ _) (deliver_bitpos hw _ _ _) (deliver_bitlen hw _ _ _)]
      exact h.2

/-- A run of codes that was read stood on the stream. -/
theorem mantCodes_ok {sel : Nat} {mode : CodingMode} (h1 : 1 ≤ sel) (h8 : sel < 8) {dst : Nat → Int → State → State}
    (hw : Writer dst) (n k : Nat) (s t : State) (hle : s.bitpos.toNat ≤ s.bitlen.toNat)
    (h : mantCodes referenceTables sel mode dst n k s = .ok () t) :
    ∃ codes, codes.length = n ∧ (∀ raw ∈ codes, codeOk referenceTables sel mode raw = true) ∧
      onStream s (mantBits referenceTables sel mode codes) = true := by
  induction n generalizing k s with
  | zero => exact ⟨[], rfl, by simp, by simpa [mantBits, onStream_nil] using hle⟩
  | succ n ih =>
    simp only [mantCodes] at h
    obtain ⟨raw, s1, hr, hk⟩ := Res.andThen_eq_ok.1 h
    obtain ⟨a1, a2, a3⟩ := readCode_ok h1 h8 hr hle
    have hp := onStream_bitpos a2
    subst a3
    obtain ⟨codes, b1, b2, b3⟩ := ih _ _ (by
      rw [deliver_bitpos hw, deliver_bitlen hw, hp]; exact onStream_le a2) hk
    refine ⟨raw :: codes, by simp [b1], ?_, ?_⟩
    · intro x hx
      rcases List.mem_cons.1 hx with hx | hx
      · subst hx; exact a1
      · exact b2 x hx
    · rw [onStream_congr (deliver_fb hw _ _ _) (deliver_bitpos hw _ _ _) (deliver_bitlen hw _ _ _)] at b3
      simp only [mantBits, List.flatMap_cons]
      exact (onStream_append _ _ _).2 ⟨a2, b3⟩

/-- What a buffer holds after mantissas were delivered to it. -/
theorem deliver_read {dst : Nat → Int → State → State} {f : State → Memory Word} {base : Nat}
    (hd : ∀ k v s, f (dst k v s) = (f s).write (base + k) (wordOfInt v)) (vs : List Int) (k : Nat) (s : State) (a : Nat) :
    (f (deliver dst k vs s)).read a =
      if base + k ≤ a ∧ a < base + k + vs.length then some (wordOfInt (vs.getD (a - base - k) 0)) else (f s).read a := by
  induction vs generalizing k s with
  | nil => simp [deliver]
  | cons v rest ih =>
    simp only [deliver, ih, hd, List.length_cons]
    by_cases h1 : base + (k + 1) ≤ a ∧ a < base + (k + 1) + rest.length
    · rw [if_pos h1, if_pos (by omega), show a - base - k = (a - base - (k + 1)) + 1 by omega, List.getD_cons_succ]
    · rw [if_neg h1, Memory.read_write]
      by_cases h2 : a = base + k
      · rw [if_pos h2, if_pos (by omega), show a - base - k = 0 by omega, List.getD_cons_zero]
      · rw [if_neg h2, if_neg (by omega)]

end Sys2Proof.Machine
end

