-- ==== Sys2Proof/Laws/Blocks.lean ====
section
/-! SUPPORT. The parts of a spectral block and of a tonal block: each part that stands on the stream is read, with what it leaves in the
output buffers, and each part that was read stood on the stream. -/

namespace Sys2Proof.Machine

/-! ### States that differ in one output buffer -/

/-- `s` with other contents of SEL. -/
def State.withSel (s : State) (m : Memory Word) : State := { s with sel := m }
/-- `s` with other contents of SFI. -/
def State.withSfi (s : State) (m : Memory Word) : State := { s with sfi := m }
/-- `s` with other contents of QM. -/
def State.withQm (s : State) (m : Memory Word) : State := { s with qm := m }
/-- `s` with other contents of TC. -/
def State.withTc (s : State) (m : Memory Word) : State := { s with tc := m }

@[simp] theorem State.withSel_bitpos (s : State) (m : Memory Word) : (s.withSel m).bitpos = s.bitpos := rfl
@[simp] theorem State.withSfi_bitpos (s : State) (m : Memory Word) : (s.withSfi m).bitpos = s.bitpos := rfl
@[simp] theorem State.withQm_bitpos (s : State) (m : Memory Word) : (s.withQm m).bitpos = s.bitpos := rfl
@[simp] theorem State.withTc_bitpos (s : State) (m : Memory Word) : (s.withTc m).bitpos = s.bitpos := rfl
@[simp] theorem State.withSel_sfi (s : State) (m : Memory Word) : (s.withSel m).sfi = s.sfi := rfl
@[simp] theorem State.withQm_qm (s : State) (m : Memory Word) : (s.withQm m).qm = m := rfl
@[simp] theorem State.withTc_tc (s : State) (m : Memory Word) : (s.withTc m).tc = m := rfl

@[simp] theorem onStream_withSel (s : State) (m : Memory Word) (bits : List Bool) : onStream (s.withSel m) bits = onStream s bits :=
  onStream_congr (t := s.withSel m) (s := s) rfl rfl rfl bits
@[simp] theorem onStream_withSfi (s : State) (m : Memory Word) (bits : List Bool) : onStream (s.withSfi m) bits = onStream s bits :=
  onStream_congr (t := s.withSfi m) (s := s) rfl rfl rfl bits
@[simp] theorem onStream_withQm (s : State) (m : Memory Word) (bits : List Bool) : onStream (s.withQm m) bits = onStream s bits :=
  onStream_congr (t := s.withQm m) (s := s) rfl rfl rfl bits
@[simp] theorem onStream_writeSel (s : State) (i v : Nat) (bits : List Bool) : onStream (s.writeSel i v) bits = onStream s bits :=
  onStream_congr (t := s.writeSel i v) (s := s) rfl rfl rfl bits
@[simp] theorem onStream_writeSfi (s : State) (i v : Nat) (bits : List Bool) : onStream (s.writeSfi i v) bits = onStream s bits :=
  onStream_congr (t := s.writeSfi i v) (s := s) rfl rfl rfl bits
@[simp] theorem onStream_setNsb (s : State) (n : Nat) (bits : List Bool) : onStream (s.setNsb n) bits = onStream s bits :=
  onStream_congr (t := s.setNsb n) (s := s) rfl rfl rfl bits
@[simp] theorem onStream_setSpecMode (s : State) (m : CodingMode) (bits : List Bool) : onStream (s.setSpecMode m) bits = onStream s bits :=
  onStream_congr (t := s.setSpecMode m) (s := s) rfl rfl rfl bits
@[simp] theorem onStream_setTccount (s : State) (n : Nat) (bits : List Bool) : onStream (s.setTccount n) bits = onStream s bits :=
  onStream_congr (t := s.setTccount n) (s := s) rfl rfl rfl bits
@[simp] theorem onStream_writeTc (s : State) (k : Nat) (f : TcField) (v : Int) (bits : List Bool) :
    onStream (s.writeTc k f v) bits = onStream s bits :=
  onStream_congr (t := s.writeTc k f v) (s := s) rfl rfl rfl bits

/-- The bits are on the stream, and BITPOS after them is within BITLEN. -/
theorem onStream_end_le {s : State} {bits : List Bool} (h : onStream s bits = true) :
    (s.setBitpos (s.bitpos.toNat + bits.length)).bitpos.toNat ≤ (s.setBitpos (s.bitpos.toNat + bits.length)).bitlen.toNat := by
  rw [onStream_bitpos h]; exact onStream_le h

/-! ### Side information of a spectral block -/

theorem readSelectors_spelled (sels : List Nat) (i : Nat) (s : State) (h8 : ∀ x ∈ sels, x < 8)
    (h : onStream s (sels.flatMap (natBits 3)) = true) :
    ∃ m, readSelectors sels.length i s =
        .ok sels ((s.setBitpos (s.bitpos.toNat + (sels.flatMap (natBits 3)).length)).withSel m) ∧
      ∀ j, m.read j = if i ≤ j ∧ j < i + sels.length then some (wordOfNat (sels.getD (j - i) 0)) else s.sel.read j := by
  induction sels generalizing i s with
  | nil => exact ⟨s.sel, by simp only [List.flatMap_nil, List.length_nil, Nat.add_zero, readSelectors, setBitpos_self]; rfl, by simp⟩
  | cons v rest ih =>
    simp only [List.flatMap_cons] at h
    rw [onStream_append] at h
    have hp := onStream_bitpos h.1
    obtain ⟨m, hm, hr⟩ := ih (i + 1) ((s.setBitpos (s.bitpos.toNat + 3)).writeSel i v) (fun x hx => h8 x (List.mem_cons_of_mem _ hx))
      (by simpa using h.2)
    refine ⟨m, ?_, ?_⟩
    · have h3 : v < 2 ^ 3 := by simpa using h8 v (by simp)
      rw [natBits_length] at hp
      simp only [List.length_cons, readSelectors]
      rw [readBits_spelled h3 h.1, Res.andThen_ok, hm, Res.andThen_ok]
      simp only [State.writeSel_bitpos, hp, List.flatMap_cons, List.length_append, natBits_length, ← Nat.add_assoc]
      rfl
    · intro j
      rw [hr]
      simp only [State.writeSel_sel, State.setBitpos_sel, List.length_cons]
      by_cases h1 : i + 1 ≤ j ∧ j < i + 1 + rest.length
      · rw [if_pos h1, if_pos (by omega), show j - i = (j - (i + 1)) + 1 by omega, List.getD_cons_succ]
      · rw [if_neg h1, Memory.read_write]
        by_cases h2 : j = i
        · rw [if_pos h2, if_pos (by omega), show j - i = 0 by omega, List.getD_cons_zero]
        · rw [if_neg h2, if_neg (by omega)]

theorem readSelectors_ok (n i : Nat) (s t : State) (sels : List Nat) (hle : s.bitpos.toNat ≤ s.bitlen.toNat)
    (h : readSelectors n i s = .ok sels t) :
    sels.length = n ∧ (∀ x ∈ sels, x < 8) ∧ onStream s (sels.flatMap (natBits 3)) = true := by
  induction n generalizing i s t sels with
  | zero => cases h; exact ⟨rfl, by simp, by simpa [onStream_nil] using hle⟩
  | succ n ih =>
    simp only [readSelectors] at h
    obtain ⟨v, s1, hv, h⟩ := Res.andThen_eq_ok.1 h
    obtain ⟨rest, s2, hr, h⟩ := Res.andThen_eq_ok.1 h
    cases h
    obtain ⟨a1, a2, rfl⟩ := readBits_ok hv
    obtain ⟨b1, b2, b3⟩ := ih _ _ _ _ (by simpa only [natBits_length, State.writeSel_bitpos, State.writeSel_bitlen] using onStream_end_le a2) hr
    refine ⟨by simp [b1], ?_, ?_⟩
    · intro x hx
      rcases List.mem_cons.1 hx with hx | hx
      · subst hx; simpa using a1
      · exact b2 x hx
    · simp only [List.flatMap_cons]
      exact (onStream_append _ _ _).2 ⟨a2, by simpa using b3⟩

/-- The scale-factor bits of subbands given as (selector, index) pairs. -/
def indexBits (l : List (Nat × Nat)) : List Bool := l.flatMap (fun x => if x.1 = 0 then [] else natBits 6 x.2)

theorem indexBits_cons (sel v : Nat) (l : List (Nat × Nat)) :
    indexBits ((sel, v) :: l) = (if sel = 0 then [] else natBits 6 v) ++ indexBits l := rfl

theorem readIndices_spelled (l : List (Nat × Nat)) (i : Nat) (s : State) (h64 : ∀ x ∈ l, x.2 < 64 ∧ (x.1 = 0 → x.2 = 0))
    (h : onStream s (indexBits l) = true) :
    ∃ m, readIndices (l.map Prod.fst) i s = .ok () ((s.setBitpos (s.bitpos.toNat + (indexBits l).length)).withSfi m) ∧
      ∀ j, m.read j = if i ≤ j ∧ j < i + l.length then some (wordOfNat ((l.map Prod.snd).getD (j - i) 0)) else s.sfi.read j := by
  induction l generalizing i s with
  | nil => exact ⟨s.sfi, by simp only [indexBits, List.flatMap_nil, List.map_nil, List.length_nil, Nat.add_zero, readIndices, setBitpos_self]; rfl, by simp⟩
  | cons x rest ih =>
    obtain ⟨sel, v⟩ := x
    have hx := h64 (sel, v) (by simp)
    rw [indexBits_cons, onStream_append] at h
    have hp := onStream_bitpos h.1
    have hstep : readIndex i sel s =
        .ok () ((s.setBitpos (s.bitpos.toNat + (if sel = 0 then [] else natBits 6 v).length)).writeSfi i v) := by
      unfold readIndex
      by_cases h0 : sel = 0
      · have hv0 : v = 0 := hx.2 h0
        subst hv0
        simp only [h0, if_true, List.length_nil, Nat.add_zero, setBitpos_self]
      · simp only [h0, if_false, natBits_length] at h ⊢
        rw [readBits_spelled (by simpa using hx.1) h.1, Res.andThen_ok]
    obtain ⟨m, hm, hr⟩ := ih (i + 1) (State.writeSfi _ i v) (fun y hy => h64 y (List.mem_cons_of_mem _ hy))
      ((onStream_writeSfi _ i v _).trans h.2)
    refine ⟨m, ?_, ?_⟩
    · simp only [List.map_cons, readIndices]
      rw [hstep, Res.andThen_ok, hm]
      rw [indexBits_cons, List.length_append, ← Nat.add_assoc, State.writeSfi_bitpos, hp]
      rfl
    · intro j
      rw [hr]
      simp only [State.writeSfi_sfi, State.setBitpos_sfi, List.length_cons, List.map_cons]
      by_cases h1 : i + 1 ≤ j ∧ j < i + 1 + rest.length
      · rw [if_pos h1, if_pos (by omega), show j - i = (j - (i + 1)) + 1 by omega, List.getD_cons_succ]
      · rw [if_neg h1, Memory.read_write]
        by_cases h2 : j = i
        · rw [if_pos h2, if_pos (by omega), show j - i = 0 by omega, List.getD_cons_zero]
        · rw [if_neg h2, if_neg (by omega)]

theorem readIndices_ok (sels : List Nat) (i : Nat) (s t : State) (hle : s.bitpos.toNat ≤ s.bitlen.toNat)
    (h : readIndices sels i s = .ok () t) :
    ∃ l : List (Nat × Nat), l.map Prod.fst = sels ∧ (∀ x ∈ l, x.2 < 64 ∧ (x.1 = 0 → x.2 = 0)) ∧ onStream s (indexBits l) = true := by
  induction sels generalizing i s t with
  | nil => exact ⟨[], rfl, by simp, by simpa [indexBits, onStream_nil] using hle⟩
  | cons sel rest ih =>
    simp only [readIndices] at h
    obtain ⟨_, s1, hv, h⟩ := Res.andThen_eq_ok.1 h
    unfold readIndex at hv
    split_ifs at hv with h0
    · cases hv
      obtain ⟨l, b1, b2, b3⟩ := ih (i + 1) (s.writeSfi i 0) t hle h
      refine ⟨(sel, 0) :: l, by simp [b1], ?_, ?_⟩
      · intro x hx
        rcases List.mem_cons.1 hx with hx | hx
        · subst hx; exact ⟨by simp, fun _ => rfl⟩
        · exact b2 x hx
      · rw [indexBits_cons, if_pos h0, List.nil_append]
        exact (onStream_writeSfi s i 0 _).symm.trans b3
    · obtain ⟨v, s2, hv2, h'⟩ := Res.andThen_eq_ok.1 hv
      cases h'
      obtain ⟨a1, a2, rfl⟩ := readBits_ok hv2
      obtain ⟨l, b1, b2, b3⟩ := ih (i + 1) _ t (by simpa only [natBits_length, State.writeSfi_bitpos, State.writeSfi_bitlen] using onStream_end_le a2) h
      refine ⟨(sel, v) :: l, by simp [b1], ?_, ?_⟩
      · intro x hx
        rcases List.mem_cons.1 hx with hx | hx
        · subst hx; exact ⟨by simpa using a1, fun h => absurd h h0⟩
        · exact b2 x hx
      · rw [indexBits_cons, if_neg h0]
        exact (onStream_append _ _ _).2 ⟨a2, by simpa using b3⟩

/-! ### Mantissas of a spectral block -/

theorem reference_widthEven : ∀ i, i < 32 → subbandWidth referenceTables i % 2 = 0 := by
  intro i hi
  interval_cases i <;> decide

theorem codeCount_even {sel cnt : Nat} (h : cnt % 2 = 0) : codeCount sel cnt * perCode sel = cnt := by
  unfold codeCount perCode; split_ifs <;> omega

/-- The mantissa bits of the bands of a spectral block. -/
def bandBits (T : Tables) (mode : CodingMode) (l : List Band) : List Bool :=
  l.flatMap (fun x => if x.sel = 0 then [] else mantBits T x.sel mode x.codes)

theorem bandBits_cons (T : Tables) (mode : CodingMode) (b : Band) (l : List Band) :
    bandBits T mode (b :: l) = (if b.sel = 0 then [] else mantBits T b.sel mode b.codes) ++ bandBits T mode l := rfl

theorem readBand_spelled {c : Config} (hc : c.tables = referenceTables) {mode : CodingMode} {i : Nat} (hi : i < 32) {b : Band}
    (hb : b.ok referenceTables mode i = true) {s : State}
    (h : onStream s (if b.sel = 0 then [] else mantBits referenceTables b.sel mode b.codes) = true) :
    ∃ m, readBand c mode i b.sel s =
        .ok () ((s.setBitpos (s.bitpos.toNat + (if b.sel = 0 then [] else mantBits referenceTables b.sel mode b.codes).length)).withQm m) ∧
      ∀ a, m.read a =
        if subbandStart referenceTables i ≤ a ∧ a < subbandStart referenceTables (i + 1) then
          some (wordOfInt ((mantValues referenceTables b.sel mode b.codes).getD (a - subbandStart referenceTables i) 0))
        else s.qm.read a := by
  have hT := reference_subbandsOk i hi
  have hw : subbandStart referenceTables i + subbandWidth referenceTables i = subbandStart referenceTables (i + 1) := by
    unfold subbandWidth; omega
  unfold readBand Band.ok at *
  rw [hc]
  by_cases h0 : b.sel = 0
  · simp only [h0, if_true, Bool.and_eq_true, decide_eq_true_eq] at hb ⊢
    refine ⟨_, by simp only [List.length_nil, Nat.add_zero, setBitpos_self]; rfl, ?_⟩
    intro a
    rw [Memory.read_fill, hw]
    split_ifs
    · simp [hb.2, mantValues, wordOfInt]
    · rfl
  · simp only [h0, if_false, Bool.and_eq_true, decide_eq_true_eq, List.all_eq_true] at hb h ⊢
    obtain ⟨⟨⟨h8, -⟩, hlen⟩, hcodes⟩ := hb
    have key := mantCodes_spelled (mode := mode) (sel := b.sel) (by omega) h8 (writer_qm (subbandStart referenceTables i)) b.codes 0 s
      hcodes h
    refine ⟨(deliver (fun k v s => s.writeQm (subbandStart referenceTables i + k) v) 0 (mantValues referenceTables b.sel mode b.codes) s).qm, ?_, ?_⟩
    · unfold mantExtract
      rw [← hlen, key]
      have hkeep := deliver_keeps (I := fun t => t = { s with qm := t.qm }) (lo := 0)
        (hi := (mantValues referenceTables b.sel mode b.codes).length) (Q := fun _ => True)
        (dst := fun k v s => s.writeQm (subbandStart referenceTables i + k) v)
        (fun k v s1 _ _ _ hs1 => by
          show s1.writeQm _ v = _
          conv_lhs => rw [hs1]
          rfl) (mantValues referenceTables b.sel mode b.codes) 0 s (by omega) (by omega) (fun _ _ => trivial) rfl
      rw [hkeep]; rfl
    · intro a
      rw [deliver_read (base := subbandStart referenceTables i) (f := State.qm) (fun k v s => rfl), mantValues_length, hlen,
        codeCount_even (reference_widthEven i hi), Nat.add_zero, hw, Nat.sub_zero]

theorem subbandStart_mono {i j : Nat} (h : i ≤ j) (hj : j ≤ 32) : subbandStart referenceTables i ≤ subbandStart referenceTables j := by
  induction j with
  | zero => rw [Nat.le_zero.1 h]
  | succ j ih =>
    by_cases he : i = j + 1
    · rw [he]
    · exact le_trans (ih (by omega) (by omega)) (reference_subbandsOk j (by omega)).1

/-- What the bands leave in QM. -/
theorem readBands_spelled {c : Config} (hc : c.tables = referenceTables) {mode : CodingMode} (l : List Band) (i : Nat)
    (hi : i + l.length ≤ 32) (hl : bandsOk referenceTables mode i l = true) (s : State)
    (h : onStream s (bandBits referenceTables mode l) = true) :
    ∃ m, readBands c mode (l.map Band.sel) i s =
        .ok () ((s.setBitpos (s.bitpos.toNat + (bandBits referenceTables mode l).length)).withQm m) ∧
      (∀ j (hj : j < l.length) k, k < subbandWidth referenceTables (i + j) →
        m.read (subbandStart referenceTables (i + j) + k) =
          some (wordOfInt ((mantValues referenceTables l[j].sel mode l[j].codes).getD k 0))) ∧
      (∀ a, a < subbandStart referenceTables i → m.read a = s.qm.read a) ∧
      ∀ a, subbandStart referenceTables (i + l.length) ≤ a → m.read a = s.qm.read a := by
  induction l generalizing i s with
  | nil =>
    exact ⟨s.qm, by simp only [bandBits, List.flatMap_nil, List.map_nil, List.length_nil, Nat.add_zero, readBands, setBitpos_self]; rfl,
      by simp, fun _ _ => rfl, fun _ _ => rfl⟩
  | cons b rest ih =>
    simp only [List.length_cons] at hi
    simp only [bandsOk, Bool.and_eq_true] at hl
    rw [bandBits_cons, onStream_append] at h
    have hp := onStream_bitpos h.1
    obtain ⟨m1, e1, r1⟩ := readBand_spelled hc (by omega) hl.1 h.1
    obtain ⟨m2, e2, r2, r3, r4⟩ := ih (i + 1) (by omega) hl.2
      ((s.setBitpos (s.bitpos.toNat + (if b.sel = 0 then [] else mantBits referenceTables b.sel mode b.codes).length)).withQm m1)
      ((onStream_withQm _ _ _).trans h.2)
    have hT := reference_subbandsOk i (by omega)
    refine ⟨m2, ?_, ?_, ?_, ?_⟩
    · simp only [List.map_cons, readBands]
      rw [e1, Res.andThen_ok, e2]
      rw [bandBits_cons, List.length_append, ← Nat.add_assoc, State.withQm_bitpos, hp]
      rfl
    · intro j hj k hk
      cases j with
      | zero =>
        have hw : subbandWidth referenceTables i = subbandStart referenceTables (i + 1) - subbandStart referenceTables i := rfl
        simp only [Nat.add_zero] at hk ⊢
        rw [r3 _ (by omega), State.withQm_qm, r1, if_pos (by omega), Nat.add_sub_cancel_left]
        rfl
      | succ j =>
        have := r2 j (by simpa using hj) k (by rw [show i + 1 + j = i + (j + 1) by omega]; exact hk)
        rw [show i + 1 + j = i + (j + 1) by omega] at this
        exact this
    · intro a ha
      rw [r3 a (by omega), State.withQm_qm, r1, if_neg (by omega)]
    · intro a ha
      rw [List.length_cons, show i + (rest.length + 1) = i + 1 + rest.length by omega] at ha
      have hm := subbandStart_mono (i := i + 1) (j := i + 1 + rest.length) (by omega) (by omega)
      rw [r4 a ha, State.withQm_qm, r1, if_neg (by omega)]

theorem readBand_ok {c : Config} (hc : c.tables = referenceTables) {mode : CodingMode} {i sel : Nat} (h8 : sel < 8) {s t : State}
    (hle : s.bitpos.toNat ≤ s.bitlen.toNat) (h : readBand c mode i sel s = .ok () t) :
    ∃ codes, (sel = 0 → codes = []) ∧ (sel ≠ 0 → codes.length = codeCount sel (subbandWidth referenceTables i)) ∧
      (∀ raw ∈ codes, codeOk referenceTables sel mode raw = true) ∧ onStream s (mantBits referenceTables sel mode codes) = true := by
  unfold readBand at h
  rw [hc] at h
  split_ifs at h with h0
  · exact ⟨[], fun _ => rfl, fun h' => absurd h0 h', by simp, by simpa [mantBits, onStream_nil] using hle⟩
  · obtain ⟨codes, a1, a2, a3⟩ := mantCodes_ok (by omega) h8 (writer_qm (subbandStart referenceTables i)) _ _ _ _ hle h
    exact ⟨codes, fun h' => absurd h' h0, fun _ => a1, a2, a3⟩

theorem readBands_ok {c : Config} (hc : c.tables = referenceTables) {mode : CodingMode} (l : List (Nat × Nat)) (i : Nat)
    (hi : i + l.length ≤ 32) (hl : ∀ x ∈ l, x.1 < 8 ∧ x.2 < 64 ∧ (x.1 = 0 → x.2 = 0)) (s t : State)
    (hle : s.bitpos.toNat ≤ s.bitlen.toNat) (h : readBands c mode (l.map Prod.fst) i s = .ok () t) :
    ∃ bands : List Band, bands.map (fun b => (b.sel, b.sfi)) = l ∧ bandsOk referenceTables mode i bands = true ∧
      onStream s (bandBits referenceTables mode bands) = true := by
  induction l generalizing i s with
  | nil => exact ⟨[], rfl, rfl, by simpa [bandBits, onStream_nil] using hle⟩
  | cons x rest ih =>
    obtain ⟨sel, v⟩ := x
    simp only [List.length_cons] at hi
    have hx := hl (sel, v) (by simp)
    simp only [List.map_cons, readBands] at h
    obtain ⟨_, s1, hb, h⟩ := Res.andThen_eq_ok.1 h
    obtain ⟨codes, a1, a2, a3, a4⟩ := readBand_ok hc hx.1 hle hb
    have hok : Band.ok referenceTables mode i ⟨sel, v, codes⟩ = true := by
      unfold Band.ok
      by_cases h0 : sel = 0
      · have hv : v = 0 := hx.2.2 h0
        simp [h0, hv, a1 h0]
      · simp only [h0, if_false, Bool.and_eq_true, decide_eq_true_eq, List.all_eq_true]
        exact ⟨⟨⟨hx.1, hx.2.1⟩, a2 h0⟩, a3⟩
    have hbits : onStream s (if sel = 0 then [] else mantBits referenceTables sel mode codes) = true := by
      split_ifs with h0
      · exact (onStream_nil s).2 hle
      · exact a4
    obtain ⟨m, e, -⟩ := readBand_spelled (b := ⟨sel, v, codes⟩) hc (by omega) hok hbits
    simp only at e
    rw [e] at hb
    cases hb
    obtain ⟨bands, b1, b2, b3⟩ := ih (i + 1) (by omega) (fun y hy => hl y (List.mem_cons_of_mem _ hy))
      (State.withQm (s.setBitpos (s.bitpos.toNat + (if sel = 0 then [] else mantBits referenceTables sel mode codes).length)) m)
      (onStream_end_le hbits) h
    refine ⟨⟨sel, v, codes⟩ :: bands, by simp [b1], by simp [bandsOk, hok, b2], ?_⟩
    rw [bandBits_cons]
    exact (onStream_append _ _ _).2 ⟨hbits, (onStream_withQm _ _ _).symm.trans b3⟩

/-! ### A whole spectral block -/

/-- `B` stood on the stream of `s`, and `t` stands right after it. -/
structure StoodOn (s : State) (B : List Bool) (t : State) : Prop where
  on : onStream s B = true
  fb : t.fb = s.fb
  bitlen : t.bitlen = s.bitlen
  bitpos : t.bitpos = (s.setBitpos (s.bitpos.toNat + B.length)).bitpos

theorem StoodOn.le {s t : State} {B : List Bool} (h : StoodOn s B t) : t.bitpos.toNat ≤ t.bitlen.toNat := by
  rw [h.bitpos, h.bitlen]; exact onStream_end_le h.on

theorem StoodOn.refl {s : State} (h : s.bitpos.toNat ≤ s.bitlen.toNat) : StoodOn s [] s :=
  ⟨(onStream_nil s).2 h, rfl, rfl, by rw [List.length_nil, Nat.add_zero, setBitpos_self]⟩

theorem StoodOn.trans {s t u : State} {B B' : List Bool} (h : StoodOn s B t) (h' : StoodOn t B' u) : StoodOn s (B ++ B') u := by
  have hp := onStream_bitpos h.on
  refine ⟨(onStream_append _ _ _).2 ⟨h.on, ?_⟩, h'.fb.trans h.fb, h'.bitlen.trans h.bitlen, ?_⟩
  · rw [← h'.on]
    exact (onStream_congr (t := t) (s := s.setBitpos (s.bitpos.toNat + B.length)) h.fb h.bitpos h.bitlen B').symm
  · rw [h'.bitpos, h.bitpos, List.length_append, ← Nat.add_assoc]
    simp only [State.setBitpos_bitpos] at hp ⊢
    rw [hp]

theorem readBits_stood {n v : Nat} {s t : State} (h : readBits n s = .ok v t) : v < 2 ^ n ∧ StoodOn s (natBits n v) t := by
  obtain ⟨h1, h2, rfl⟩ := readBits_ok h
  exact ⟨h1, h2, rfl, rfl, by rw [natBits_length]⟩

theorem bandsOk_getElem {T : Tables} {mode : CodingMode} {l : List Band} {i : Nat} (h : bandsOk T mode i l = true) :
    ∀ b ∈ l, (b.sel < 8 ∧ b.sfi < 64 ∧ (b.sel = 0 → b.sfi = 0)) := by
  induction l generalizing i with
  | nil => simp
  | cons b rest ih =>
    simp only [bandsOk, Bool.and_eq_true] at h
    intro x hx
    rcases List.mem_cons.1 hx with hx | hx
    · subst hx
      have h1 := h.1
      unfold Band.ok at h1
      split_ifs at h1 with h0
      · simp only [Bool.and_eq_true, decide_eq_true_eq] at h1
        exact ⟨by omega, by omega, fun _ => h1.1⟩
      · simp only [Bool.and_eq_true, decide_eq_true_eq] at h1
        exact ⟨h1.1.1.1, h1.1.1.2, fun h' => absurd h' h0⟩
    · exact ih h.2 x hx

/-- The side information of a block in GROUPED order. -/
theorem readSideInfo_spelled {c : Config} (ho : c.sideInfoOrder = .grouped) (l : List Band)
    (hl : ∀ b ∈ l, b.sel < 8 ∧ b.sfi < 64 ∧ (b.sel = 0 → b.sfi = 0)) {s : State}
    (h : onStream s (l.flatMap (fun x => natBits 3 x.sel) ++ l.flatMap (fun x => if x.sel = 0 then [] else natBits 6 x.sfi)) = true) :
    ∃ m1 m2, readSideInfo c l.length s = .ok (l.map Band.sel)
        (((s.setBitpos (s.bitpos.toNat + (l.flatMap (fun x => natBits 3 x.sel) ++
          l.flatMap (fun x => if x.sel = 0 then [] else natBits 6 x.sfi)).length)).withSel m1).withSfi m2) ∧
      (∀ j, m1.read j = if j < l.length then some (wordOfNat ((l.map Band.sel).getD j 0)) else s.sel.read j) ∧
      ∀ j, m2.read j = if j < l.length then some (wordOfNat ((l.map Band.sfi).getD j 0)) else s.sfi.read j := by
  have e1 : l.flatMap (fun x => natBits 3 x.sel) = (l.map Band.sel).flatMap (natBits 3) := by rw [List.flatMap_map]
  have e2 : l.flatMap (fun x => if x.sel = 0 then [] else natBits 6 x.sfi) = indexBits (l.map fun b => (b.sel, b.sfi)) := by
    unfold indexBits; rw [List.flatMap_map]
  rw [e1, e2] at h ⊢
  rw [onStream_append] at h
  have hp := onStream_bitpos h.1
  unfold readSideInfo
  rw [ho]
  obtain ⟨m1, a1, a2⟩ := readSelectors_spelled (l.map Band.sel) 0 s
    (fun x hx => by obtain ⟨b, hb, rfl⟩ := List.mem_map.1 hx; exact (hl b hb).1) h.1
  obtain ⟨m2, b1, b2⟩ := readIndices_spelled (l.map fun b => (b.sel, b.sfi)) 0
    ((s.setBitpos (s.bitpos.toNat + ((l.map Band.sel).flatMap (natBits 3)).length)).withSel m1)
    (fun x hx => by obtain ⟨b, hb, rfl⟩ := List.mem_map.1 hx; exact (hl b hb).2) ((onStream_withSel _ _ _).trans h.2)
  rw [List.length_map] at a1 a2 b2
  refine ⟨m1, m2, ?_, ?_, ?_⟩
  · simp only [a1, Res.andThen_ok]
    have e3 : (l.map fun b => (b.sel, b.sfi)).map Prod.fst = l.map Band.sel := by simp
    rw [e3] at b1
    rw [b1, Res.andThen_ok, List.length_append, ← Nat.add_assoc, State.withSel_bitpos, hp]
    rfl
  · intro j; simpa using a2 j
  · intro j
    have e4 : (l.map fun b => (b.sel, b.sfi)).map Prod.snd = l.map Band.sfi := by simp
    have := b2 j
    rw [e4] at this
    simpa using this

/-- A spectral block that stands on the stream is parsed (42_spectrum.md R144). -/
theorem spectrumBody_spelled {c : Config} (hc : c.tables = referenceTables) (ho : c.sideInfoOrder = .grouped) {b : SpectralBlock}
    (hb : b.ok referenceTables = true) {s : State} (h : onStream s (b.bits referenceTables) = true) :
    ∃ t, spectrumBody c s = .ok (wordOfNat (b.bands.length - 1)) t ∧ holdsSpectrum referenceTables t b ∧
      t = { s with bitpos := BitVec.ofNat 17 (s.bitpos.toNat + (b.bits referenceTables).length), nsb := BitVec.ofNat 5 (b.bands.length - 1)
                   specMode := b.mode.bit, sel := t.sel, sfi := t.sfi, qm := t.qm } := by
  obtain ⟨mode, bands⟩ := b
  simp only [SpectralBlock.ok, Bool.and_eq_true, decide_eq_true_eq] at hb
  obtain ⟨⟨h1, h32⟩, hok⟩ := hb
  have hbits : SpectralBlock.bits referenceTables ⟨mode, bands⟩ = natBits 5 (bands.length - 1) ++ ([mode.bit] ++
      ((bands.flatMap (fun x => natBits 3 x.sel) ++ bands.flatMap (fun x => if x.sel = 0 then [] else natBits 6 x.sfi)) ++
        bandBits referenceTables mode bands)) := by
    unfold SpectralBlock.bits bandBits; simp only [List.append_assoc]
  rw [hbits] at h ⊢
  simp only at h ⊢
  generalize hside : bands.flatMap (fun x => natBits 3 x.sel) ++ bands.flatMap (fun x => if x.sel = 0 then [] else natBits 6 x.sfi) = side
    at h ⊢
  rw [onStream_append, onStream_append, onStream_append] at h
  obtain ⟨g1, g2, g3, g4⟩ := h
  have p1 := onStream_bitpos g1
  have p2 := onStream_bitpos g2
  have p3 := onStream_bitpos g3
  rw [natBits_length] at p1 g2 g3 g4 p2 p3
  rw [List.length_singleton] at g3 g4 p2 p3
  rw [p1] at g3 g4 p2 p3
  simp only [setBitpos_setBitpos] at g3 g4 p2 p3
  rw [p2] at g4 p3
  have r1 := readBits_spelled (by have : bands.length - 1 < 32 := by omega
                                  simpa using this) g1
  have hbit : [mode.bit] = natBits 1 mode.bit.toNat := by cases mode <;> rfl
  have g2' : onStream ((s.setBitpos (s.bitpos.toNat + 5)).setNsb (bands.length - 1)) (natBits 1 mode.bit.toNat) = true := by
    rw [← hbit, onStream_setNsb]; exact g2
  have r2 := readBits_spelled (by cases mode <;> decide) g2'
  have g3' : onStream (((s.setBitpos (s.bitpos.toNat + 5 + 1)).setNsb (bands.length - 1)).setSpecMode mode) side = true := by
    rw [onStream_setSpecMode, onStream_setNsb]; exact g3
  rw [← hside] at g3'
  obtain ⟨m1, m2, r3, q1, q2⟩ := readSideInfo_spelled ho bands (bandsOk_getElem hok) g3'
  rw [hside] at r3
  have g4' : onStream ((((((s.setBitpos (s.bitpos.toNat + 5 + 1 + side.length)).setNsb (bands.length - 1)).setSpecMode mode).withSel
      m1).withSfi m2)) (bandBits referenceTables mode bands) = true := by
    rw [onStream_withSfi, onStream_withSel, onStream_setSpecMode, onStream_setNsb]; exact g4
  obtain ⟨m3, r4, q3, -⟩ := readBands_spelled hc bands 0 (by omega) hok _ g4'
  have hrun : spectrumBody c s = .ok (wordOfNat (bands.length - 1))
      ((((((((s.setBitpos (s.bitpos.toNat + 5 + 1 + side.length + (bandBits referenceTables mode bands).length)).setNsb
        (bands.length - 1)).setSpecMode mode).withSel m1).withSfi m2).withQm m3).zeroSide bands.length (32 - bands.length)).zeroQm
          (subbandStart referenceTables bands.length) (1024 - subbandStart referenceTables bands.length)) := by
    unfold spectrumBody
    rw [r1, Res.andThen_ok]
    rw [State.setNsb_bitpos, p1] at r2
    rw [r2, Res.andThen_ok]
    have hm : CodingMode.ofField mode.bit.toNat = mode := by cases mode <;> rfl
    rw [hm, show bands.length - 1 + 1 = bands.length by omega]
    have hs1 : (((s.setBitpos (s.bitpos.toNat + 5)).setNsb (bands.length - 1)).setBitpos (s.bitpos.toNat + 5 + 1)).setSpecMode mode =
        ((s.setBitpos (s.bitpos.toNat + 5 + 1)).setNsb (bands.length - 1)).setSpecMode mode := rfl
    rw [hs1, r3, Res.andThen_ok]
    have hs2 : ((((((s.setBitpos (s.bitpos.toNat + 5 + 1)).setNsb (bands.length - 1)).setSpecMode mode).setBitpos
        ((((s.setBitpos (s.bitpos.toNat + 5 + 1)).setNsb (bands.length - 1)).setSpecMode mode).bitpos.toNat + side.length)).withSel
          m1).withSfi m2) =
        (((((s.setBitpos (s.bitpos.toNat + 5 + 1 + side.length)).setNsb (bands.length - 1)).setSpecMode mode).withSel m1).withSfi m2) := by
      rw [State.setSpecMode_bitpos, State.setNsb_bitpos, p2]; rfl
    rw [hs2, r4, Res.andThen_ok, hc, State.withSfi_bitpos, State.withSel_bitpos, State.setSpecMode_bitpos, State.setNsb_bitpos, p3,
      show 31 - (bands.length - 1) = 32 - bands.length by omega]
    rfl
  refine ⟨_, hrun, ⟨?_, ?_, ?_⟩, ?_⟩
  · intro i hi
    refine ⟨?_, ?_, ?_⟩
    · simp only [State.zeroQm, State.zeroSide, State.withQm, State.withSfi, State.withSel]
      rw [Memory.read_fill, if_neg (by simp only at hi; omega), q1, if_pos hi, List.getD_eq_getElem _ _ (by simpa using hi), List.getElem_map]
    · simp only [State.zeroQm, State.zeroSide, State.withQm, State.withSfi, State.withSel]
      rw [Memory.read_fill, if_neg (by simp only at hi; omega), q2, if_pos hi, List.getD_eq_getElem _ _ (by simpa using hi), List.getElem_map]
    · intro k hk
      have hm := subbandStart_mono (i := i + 1) (j := bands.length) (by simp only at hi; omega) h32
      have hi32 : i < 32 := by simp only at hi; omega
      have := q3 i hi k (by rw [Nat.zero_add]; exact hk)
      rw [Nat.zero_add] at this
      simp only [State.zeroQm, State.zeroSide, State.withQm]
      unfold subbandWidth at hk
      rw [Memory.read_fill, if_neg (by omega), this]
  · intro i hi hi32
    simp only at hi
    simp only [State.zeroQm, State.zeroSide]
    rw [Memory.read_fill, Memory.read_fill, if_pos (by omega)]
    exact ⟨rfl, if_pos (by omega)⟩
  · intro j hj hj2
    simp only at hj
    simp only [State.zeroQm]
    rw [Memory.read_fill, if_pos (by omega)]
  · rw [List.length_append, List.length_append, List.length_append, natBits_length, List.length_singleton, ← Nat.add_assoc, ← Nat.add_assoc,
      ← Nat.add_assoc]
    simp only [State.zeroQm, State.zeroSide, State.withQm, State.withSfi, State.withSel, State.setSpecMode, State.setNsb, State.setBitpos]

theorem readSelectors_stood {n i : Nat} {s t : State} {sels : List Nat} (hle : s.bitpos.toNat ≤ s.bitlen.toNat)
    (h : readSelectors n i s = .ok sels t) :
    sels.length = n ∧ (∀ x ∈ sels, x < 8) ∧ StoodOn s (sels.flatMap (natBits 3)) t := by
  obtain ⟨h1, h2, h3⟩ := readSelectors_ok _ _ _ _ _ hle h
  obtain ⟨m, e, -⟩ := readSelectors_spelled sels i s h2 h3
  rw [h1, h] at e
  have ht := (Res.ok.inj e).2
  exact ⟨h1, h2, h3, (congrArg State.fb ht).trans rfl, (congrArg State.bitlen ht).trans rfl, (congrArg State.bitpos ht).trans rfl⟩

theorem readIndices_stood {sels : List Nat} {i : Nat} {s t : State} (hle : s.bitpos.toNat ≤ s.bitlen.toNat)
    (h : readIndices sels i s = .ok () t) :
    ∃ l : List (Nat × Nat), l.map Prod.fst = sels ∧ (∀ x ∈ l, x.2 < 64 ∧ (x.1 = 0 → x.2 = 0)) ∧ StoodOn s (indexBits l) t := by
  obtain ⟨l, h1, h2, h3⟩ := readIndices_ok _ _ _ _ hle h
  obtain ⟨m, e, -⟩ := readIndices_spelled l i s h2 h3
  rw [h1, h] at e
  have ht := (Res.ok.inj e).2
  exact ⟨l, h1, h2, h3, (congrArg State.fb ht).trans rfl, (congrArg State.bitlen ht).trans rfl, (congrArg State.bitpos ht).trans rfl⟩

/-- A spectral block that was read stood on the stream. -/
theorem spectrumBody_ok {c : Config} (hc : c.tables = referenceTables) (ho : c.sideInfoOrder = .grouped) {s t : State} {v : Word}
    (h : spectrumBody c s = .ok v t) :
    ∃ b : SpectralBlock, b.ok referenceTables = true ∧ onStream s (b.bits referenceTables) = true := by
  unfold spectrumBody at h
  obtain ⟨n, s1, h1, h⟩ := Res.andThen_eq_ok.1 h
  obtain ⟨m, s2, h2, h⟩ := Res.andThen_eq_ok.1 h
  obtain ⟨sels, s3, h3, h⟩ := Res.andThen_eq_ok.1 h
  obtain ⟨_, s4, h4, -⟩ := Res.andThen_eq_ok.1 h
  unfold readSideInfo at h3
  rw [ho] at h3
  obtain ⟨sels0, s5, h5, h3⟩ := Res.andThen_eq_ok.1 h3
  obtain ⟨_, s6, h6, h3⟩ := Res.andThen_eq_ok.1 h3
  cases h3
  obtain ⟨a1, a2⟩ := readBits_stood h1
  obtain ⟨b1, b2⟩ := readBits_stood h2
  have b2' : StoodOn s1 (natBits 1 m) s2 := ⟨(onStream_setNsb _ _ _).symm.trans b2.on, b2.fb, b2.bitlen, b2.bitpos⟩
  obtain ⟨c1, c2, c3⟩ := readSelectors_stood (s := s2.setSpecMode (CodingMode.ofField m)) b2.le h5
  have c3' : StoodOn s2 (sels.flatMap (natBits 3)) s5 := ⟨(onStream_setSpecMode _ _ _).symm.trans c3.on, c3.fb, c3.bitlen, c3.bitpos⟩
  obtain ⟨l, d1, d2, d3⟩ := readIndices_stood c3.le h6
  have hn : n < 32 := by simpa using a1
  have hl : ∀ x ∈ l, x.1 < 8 ∧ x.2 < 64 ∧ (x.1 = 0 → x.2 = 0) := fun x hx =>
    ⟨c2 x.1 (by rw [← d1]; exact List.mem_map_of_mem hx), d2 x hx⟩
  have hlen : l.length = n + 1 := by rw [← c1, ← d1, List.length_map]
  rw [← d1] at h4
  obtain ⟨bands, f1, f2, f3⟩ := readBands_ok hc l 0 (by omega) hl _ _ d3.le h4
  have hblen : bands.length = n + 1 := by rw [← hlen, ← f1, List.length_map]
  refine ⟨⟨CodingMode.ofField m, bands⟩, ?_, ?_⟩
  · simp only [SpectralBlock.ok, Bool.and_eq_true, decide_eq_true_eq]
    exact ⟨⟨by omega, by omega⟩, f2⟩
  · have g1 : bands.flatMap (fun x => natBits 3 x.sel) = sels.flatMap (natBits 3) := by
      rw [← d1, ← f1, List.map_map, List.flatMap_map]; rfl
    have g2 : bands.flatMap (fun x => if x.sel = 0 then [] else natBits 6 x.sfi) = indexBits l := by
      rw [← f1]; unfold indexBits; rw [List.flatMap_map]
    have g3 : [(CodingMode.ofField m).bit] = natBits 1 m := by
      have : m < 2 := by simpa using b1
      interval_cases m <;> rfl
    have hbits : SpectralBlock.bits referenceTables ⟨CodingMode.ofField m, bands⟩ = natBits 5 n ++ (natBits 1 m ++
        (sels.flatMap (natBits 3) ++ (indexBits l ++ bandBits referenceTables (CodingMode.ofField m) bands))) := by
      unfold SpectralBlock.bits bandBits
      simp only [List.append_assoc, g1, g2, g3, hblen, Nat.add_sub_cancel]
    rw [hbits]
    have f4 : StoodOn s3 (bandBits referenceTables (CodingMode.ofField m) bands)
        (s3.setBitpos (s3.bitpos.toNat + (bandBits referenceTables (CodingMode.ofField m) bands).length)) := ⟨f3, rfl, rfl, rfl⟩
    exact (a2.trans (b2'.trans (c3'.trans (d3.trans f4)))).on

end Sys2Proof.Machine
end

