-- ==== Sys2Proof/Laws/Costs.lean ====
section
/-! SUPPORT. How many bits a part of a command can consume: with that many bits left in a loaded frame it ends with a value
(70_reset_and_hazards.md R255). -/

namespace Sys2Proof.Machine

variable {α β : Type}

/-- With `n` bits left in a loaded frame, `r` ends with a value of `P`, and consumes no more than `n`. -/
def Costs (n : Nat) (r : State → Res α) (P : α → Prop) : Prop :=
  ∀ s, FrameLoaded s → s.bitpos.toNat + n ≤ s.bitlen.toNat →
    ∃ a t, r s = .ok a t ∧ P a ∧ t.fb = s.fb ∧ t.bitlen = s.bitlen ∧ s.bitpos.toNat ≤ t.bitpos.toNat ∧
      t.bitpos.toNat ≤ s.bitpos.toNat + n

theorem FrameLoaded.congr {s t : State} (h : FrameLoaded s) (hf : t.fb = s.fb) (hl : t.bitlen = s.bitlen) : FrameLoaded t := by
  intro p hp
  rw [hf]; exact h p (by rwa [hl] at hp)

theorem Costs.mono {n m : Nat} {r : State → Res α} {P Q : α → Prop} (h : Costs n r P) (hn : n ≤ m) (hP : ∀ a, P a → Q a) :
    Costs m r Q := by
  intro s hl hs
  obtain ⟨a, t, h1, h2, h3, h4, h5, h6⟩ := h s hl (by omega)
  exact ⟨a, t, h1, hP a h2, h3, h4, h5, by omega⟩

theorem Costs.andThen {n m : Nat} {r : State → Res α} {k : α → State → Res β} {P : α → Prop} {Q : β → Prop} (h : Costs n r P)
    (hk : ∀ a, P a → Costs m (k a) Q) : Costs (n + m) (fun s => (r s).andThen k) Q := by
  intro s hl hs
  obtain ⟨a, t, h1, h2, h3, h4, h5, h6⟩ := h s hl (by omega)
  obtain ⟨b, u, g1, g2, g3, g4, g5, g6⟩ := hk a h2 t (hl.congr h3 h4) (by rw [h4]; omega)
  exact ⟨b, u, by simp only [h1, Res.andThen_ok, g1], g2, g3.trans h3, g4.trans h4, by omega, by omega⟩

/-- Writes that touch neither FB nor the bit pointer cost nothing. -/
theorem Costs.after {n : Nat} {r : State → Res α} {P : α → Prop} (h : Costs n r P) {w : State → State}
    (hw : ∀ s, (w s).fb = s.fb ∧ (w s).bitpos = s.bitpos ∧ (w s).bitlen = s.bitlen) : Costs n (fun s => r (w s)) P := by
  intro s hl hs
  obtain ⟨w1, w2, w3⟩ := hw s
  obtain ⟨a, t, h1, h2, h3, h4, h5, h6⟩ := h (w s) (hl.congr w1 w3) (by rw [w2, w3]; exact hs)
  exact ⟨a, t, h1, h2, h3.trans w1, h4.trans w3, by rw [w2] at h5; exact h5, by rw [w2] at h6; exact h6⟩

theorem Costs.ok {a : α} {P : α → Prop} (ha : P a) : Costs 0 (fun s => .ok a s) P :=
  fun s _ _ => ⟨a, s, rfl, ha, rfl, rfl, le_refl _, le_refl _⟩

theorem costs_readBits (n : Nat) : Costs n (readBits n) (fun v => v < 2 ^ n) := by
  intro s hl hs
  rcases readBits_cases n s with ⟨h, _⟩ | ⟨h, hf, _⟩ | ⟨h, v, hv, _, he⟩
  · omega
  · have := fieldAt_isSome hl h
    simp [hf] at this
  · have hp := setBitpos_toNat s h
    exact ⟨v, _, he, hv, rfl, rfl, by omega, by omega⟩

theorem huffLoop_completes {book : List Code} {s : State} (hl : FrameLoaded s) (more len word : Nat)
    (hc : completeFrom book more len word = true) (hs : s.bitpos.toNat + len + more ≤ s.bitlen.toNat) :
    ∃ sym p, huffLoop book s more len word = .ok sym (s.setBitpos p) ∧ s.bitpos.toNat ≤ p ∧ p ≤ s.bitpos.toNat + len + more := by
  induction more generalizing len word with
  | zero => simp [completeFrom] at hc
  | succ more ih =>
    obtain ⟨b, hb⟩ := Option.isSome_iff_exists.1 (fbBit_isSome hl (p := s.bitpos.toNat + len) (by omega))
    unfold huffLoop
    rw [if_neg (by omega), hb]
    simp only
    simp only [completeFrom, Bool.and_eq_true, Bool.or_eq_true] at hc
    cases hsym : findSymbol book (len + 1) (2 * word + b.toNat) with
    | some sym => exact ⟨sym, _, rfl, by omega, by omega⟩
    | none =>
      have h' : completeFrom book more (len + 1) (2 * word + b.toNat) = true := by
        cases b
        · exact hc.1.resolve_left (by simp at hsym; simp [hsym])
        · exact hc.2.resolve_left (by simp at hsym; simp [hsym])
      obtain ⟨sym, p, h1, h2, h3⟩ := ih _ _ h' (by omega)
      exact ⟨sym, p, h1, h2, by omega⟩

theorem reference_maxLen : ∀ t, 1 ≤ t → t < 8 → huffMaxLen referenceTables t ≤ 8 := by
  intro t h1 h2
  interval_cases t <;> decide +kernel

theorem costs_huffDecode {t : Nat} (h1 : 1 ≤ t) (h8 : t < 8) :
    Costs 8 (huffDecode referenceTables t) (fun v => v < huffNsym referenceTables t) := by
  intro s hl hs
  have hm := reference_maxLen t h1 h8
  obtain ⟨sym, p, e, h2, h3⟩ := huffLoop_completes hl _ _ _ (reference_complete t h1 h8) (by omega)
  have he := huffDecode_ends referenceTables (I := fun _ => True) (fun _ _ _ _ _ _ => trivial) (s := s) trivial h1 h8
  have e' : huffDecode referenceTables t s = .ok sym (s.setBitpos p) := e
  rw [e'] at he
  have hp := setBitpos_toNat s (p := p) (by omega)
  exact ⟨sym, _, e, he.2, rfl, rfl, by omega, by omega⟩

theorem reference_clcWidth : ∀ sel, 1 ≤ sel → sel < 8 → 3 ≤ clcWidth referenceTables sel ∧ clcWidth referenceTables sel ≤ 6 := by
  intro t h1 h2
  interval_cases t <;> decide

theorem costs_readCode {sel : Nat} (h1 : 1 ≤ sel) (h8 : sel < 8) (mode : CodingMode) :
    Costs 8 (readCode referenceTables sel mode) (fun raw => codeOk referenceTables sel mode raw = true) := by
  cases mode with
  | clc =>
    have hw := reference_clcWidth sel h1 h8
    have : readCode referenceTables sel .clc = readBits (clcWidth referenceTables sel) := by
      funext s
      simp only [readCode]
      rw [if_neg (by omega)]
    rw [this]
    exact (costs_readBits _).mono (by omega) fun v hv => by simpa [codeOk] using hv
  | vlc => exact (costs_huffDecode h1 h8).mono (le_refl _) fun v hv => by simpa [codeOk] using hv

theorem costs_mantCodes {sel : Nat} (h1 : 1 ≤ sel) (h8 : sel < 8) (mode : CodingMode) {dst : Nat → Int → State → State}
    (hw : Writer dst) (n k : Nat) : Costs (8 * n) (mantCodes referenceTables sel mode dst n k) (fun _ => True) := by
  induction n generalizing k with
  | zero => exact Costs.ok trivial
  | succ n ih =>
    refine ((costs_readCode h1 h8 mode).andThen (m := 8 * n) fun raw _ => ?_).mono (by omega) (fun _ h => h)
    exact (ih (k + perCode sel)).after (w := fun s1 => deliver dst k (codeValues referenceTables sel mode raw) s1)
      fun s => ⟨deliver_fb hw _ _ _, deliver_bitpos hw _ _ _, deliver_bitlen hw _ _ _⟩

theorem codeCount_le_self (sel cnt : Nat) : codeCount sel cnt ≤ cnt := by unfold codeCount; split_ifs <;> omega

theorem costs_mantExtract {sel : Nat} (h1 : 1 ≤ sel) (h8 : sel < 8) (mode : CodingMode) {dst : Nat → Int → State → State}
    (hw : Writer dst) (cnt : Nat) : Costs (8 * cnt) (mantExtract referenceTables sel mode cnt dst) (fun _ => True) :=
  (costs_mantCodes h1 h8 mode hw _ 0).mono (by have := codeCount_le_self sel cnt; omega) fun _ h => h

theorem costs_readSelectors (n i : Nat) : Costs (3 * n) (readSelectors n i) (fun l => l.length = n ∧ ∀ x ∈ l, x < 8) := by
  induction n generalizing i with
  | zero => exact Costs.ok ⟨rfl, by simp⟩
  | succ n ih =>
    refine ((costs_readBits 3).andThen (m := 3 * n) fun v hv => ?_).mono (by omega) (fun _ h => h)
    refine (((ih (i + 1)).andThen (k := fun rest s2 => Res.ok (v :: rest) s2) (m := 0)
      (Q := fun l => l.length = n + 1 ∧ ∀ x ∈ l, x < 8) fun l hl => ?_).after (w := fun s1 => s1.writeSel i v)
      fun s => ⟨rfl, rfl, rfl⟩)
    refine Costs.ok ⟨by simp [hl.1], fun x hx => ?_⟩
    rcases List.mem_cons.1 hx with hx | hx
    · subst hx; simpa using hv
    · exact hl.2 x hx

theorem costs_readIndex (i sel : Nat) : Costs 6 (readIndex i sel) (fun _ => True) := by
  unfold readIndex
  by_cases h0 : sel = 0
  · simp only [h0, if_true]
    exact ((Costs.ok (a := ()) (P := fun _ => True) trivial).mono (by omega) fun _ h => h).after (w := fun s => s.writeSfi i 0)
      fun s => ⟨rfl, rfl, rfl⟩
  · simp only [h0, if_false]
    refine (costs_readBits 6).andThen (m := 0) fun v _ => ?_
    exact (Costs.ok (a := ()) (P := fun _ => True) trivial).after (w := fun s => s.writeSfi i v) fun s => ⟨rfl, rfl, rfl⟩

theorem costs_readIndices (l : List Nat) (i : Nat) : Costs (6 * l.length) (readIndices l i) (fun _ => True) := by
  induction l generalizing i with
  | nil => exact Costs.ok trivial
  | cons sel rest ih =>
    exact ((costs_readIndex i sel).andThen fun _ _ => ih (i + 1)).mono (by simp only [List.length_cons]; omega) fun _ h => h

theorem costs_readBand {c : Config} (hc : c.tables = referenceTables) (mode : CodingMode) (i : Nat) {sel : Nat} (h8 : sel < 8) :
    Costs (8 * subbandWidth referenceTables i) (readBand c mode i sel) (fun _ => True) := by
  unfold readBand
  rw [hc]
  by_cases h0 : sel = 0
  · simp only [h0, if_true]
    exact ((Costs.ok (a := ()) (P := fun _ => True) trivial).mono (by omega) fun _ h => h).after
      (w := fun s => s.zeroQm (subbandStart referenceTables i) (subbandWidth referenceTables i)) fun s => ⟨rfl, rfl, rfl⟩
  · simp only [h0, if_false]
    exact costs_mantExtract (by omega) h8 mode (writer_qm _) _

theorem costs_readBands {c : Config} (hc : c.tables = referenceTables) (mode : CodingMode) (l : List Nat) (i : Nat)
    (hi : i + l.length ≤ 32) (h8 : ∀ x ∈ l, x < 8) :
    Costs (8 * (subbandStart referenceTables (i + l.length) - subbandStart referenceTables i)) (readBands c mode l i) (fun _ => True) := by
  induction l generalizing i with
  | nil => exact (Costs.ok trivial).mono (by omega) fun _ h => h
  | cons sel rest ih =>
    simp only [List.length_cons] at hi ⊢
    have h1 := subbandStart_mono (i := i) (j := i + 1) (by omega) (by omega)
    have h2 := subbandStart_mono (i := i + 1) (j := i + 1 + rest.length) (by omega) (by omega)
    refine ((costs_readBand hc mode i (h8 sel (by simp))).andThen fun _ _ =>
      ih (i + 1) (by omega) fun x hx => h8 x (List.mem_cons_of_mem _ hx)).mono ?_ fun _ h => h
    rw [show i + (rest.length + 1) = i + 1 + rest.length by omega]
    unfold subbandWidth
    omega

/-- A spectral block has at most 8486 bits (70_reset_and_hazards.md R255). -/
theorem costs_spectrumBody {c : Config} (hc : c.tables = referenceTables) (ho : c.sideInfoOrder = .grouped) :
    Costs 8486 (spectrumBody c) (fun v => v.toNat < 32) := by
  refine ((costs_readBits 5).andThen (m := 8481) fun n hn => ?_)
  have hn : n < 32 := by simpa using hn
  refine Costs.after (w := fun s => s.setNsb n) (r := fun s => (readBits 1 s).andThen _) ?_ fun s => ⟨rfl, rfl, rfl⟩
  refine ((costs_readBits 1).andThen (m := 8480) fun m hm => ?_)
  refine Costs.after (w := fun s => s.setSpecMode (CodingMode.ofField m)) (r := fun s => (readSideInfo c (n + 1) s).andThen _) ?_
    fun s => ⟨rfl, rfl, rfl⟩
  have hside : Costs 288 (readSideInfo c (n + 1)) (fun l => l.length = n + 1 ∧ ∀ x ∈ l, x < 8) := by
    have : readSideInfo c (n + 1) = fun s =>
        (readSelectors (n + 1) 0 s).andThen fun sels s1 => (readIndices sels 0 s1).andThen fun _ s2 => .ok sels s2 := by
      funext s; unfold readSideInfo; rw [ho]
    rw [this]
    refine ((costs_readSelectors (n + 1) 0).andThen (m := 6 * (n + 1)) fun l hl => ?_).mono (by omega) fun _ h => h
    refine ((costs_readIndices l 0).andThen (m := 0) fun _ _ => Costs.ok (P := fun l : List Nat => l.length = n + 1 ∧ ∀ x ∈ l, x < 8) hl).mono
      (by rw [hl.1]; omega) fun _ h => h
  refine (hside.andThen (m := 8192) fun l hl => ?_)
  have hb := costs_readBands hc (CodingMode.ofField m) l 0 (by omega) hl.2
  have h1024 := subbandStart_mono (i := 0 + l.length) (j := 32) (by omega) (by omega)
  have h32 : subbandStart referenceTables 32 = 1024 := rfl
  refine (hb.andThen (m := 0) fun _ _ => ?_).mono (by omega) fun _ h => h
  refine (Costs.ok (a := wordOfNat n) (P := fun v : Word => v.toNat < 32) ?_).after (w := fun s4 =>
    (s4.zeroSide (n + 1) (31 - n)).zeroQm (subbandStart c.tables (n + 1)) (1024 - subbandStart c.tables (n + 1)))
    fun s => ⟨rfl, rfl, rfl⟩
  simp only [wordOfNat, BitVec.toNat_ofNat]
  omega

end Sys2Proof.Machine
end

