-- ==== Sys2Proof/Laws/Encoding.lean ====
section
/-! SUPPORT. The command word as a number: the decoder and the encoder without masks, for claims about encodings (30_encoding.md part 1). -/

namespace Sys2Proof

theorem legalOnly_eq_ok {i j : Instr} : legalOnly i = .ok j ↔ i.wf = true ∧ i = j := by
  unfold legalOnly; split <;> simp_all

theorem legalOnly_eq_error {i : Instr} : (∃ e, legalOnly i = .error e) ↔ i.wf = false := by
  unfold legalOnly; split <;> simp_all

/-- A match of the high bits is a fact about the word as a number. -/
theorem highBits_iff (w p : Word) (lo : Nat) (hp : p.toNat % 2 ^ lo = 0) :
    w &&& (BitVec.allOnes 32 <<< lo) = p ↔ w.toNat / 2 ^ lo = p.toNat / 2 ^ lo := by
  have hw := w.isLt
  have hd : w.toNat / 2 ^ lo * 2 ^ lo < 2 ^ 32 := lt_of_le_of_lt (Nat.div_mul_le_self _ _) hw
  rw [← BitVec.shiftLeft_ushiftRight, ← BitVec.toNat_inj, BitVec.toNat_shiftLeft, BitVec.toNat_ushiftRight, Nat.shiftLeft_eq,
    Nat.shiftRight_eq_div_pow, Nat.mod_eq_of_lt hd]
  have hq := Nat.div_add_mod p.toNat (2 ^ lo)
  rw [hp] at hq
  constructor
  · intro h; rw [← h, Nat.mul_div_cancel _ (Nat.two_pow_pos lo)]
  · intro h; rw [h, Nat.mul_comm]; omega

theorem decode_eq (w : Word) : decode w =
    if w.toNat / 64 = 0x400000 then legalOnly (.rdbits (w.extractLsb' 0 6))
    else if w.toNat / 64 = 0x800000 then legalOnly (.rdsbits (w.extractLsb' 0 6))
    else if w.toNat = 0x30000000 then legalOnly .rdbit
    else if w.toNat / 8 = 0x8000000 then legalOnly (.huff (w.extractLsb' 0 3))
    else if w.toNat / 4096 = 0x50000 then
      legalOnly (.mant (w.extractLsb' 0 3) (CodingMode.ofField (w.extractLsb' 3 1).toNat) (w.extractLsb' 4 8))
    else if w.toNat = 0x60000000 then legalOnly .spectrum
    else if w.toNat / 4 = 0x1C000000 then legalOnly (.tonal (w.extractLsb' 0 2))
    else if 1 ≤ w.toNat / 268435456 ∧ w.toNat / 268435456 ≤ 7 then .error .reservedBits
    else .error .reservedOpcode := by
  have ho : opcodeOf w = w.toNat / 268435456 := by
    have := w.isLt
    simp [opcodeOf, BitVec.extractLsb'_toNat, Nat.shiftRight_eq_div_pow]; omega
  have e1 := highBits_iff w 0x10000000#32 6 (by decide)
  have e2 := highBits_iff w 0x20000000#32 6 (by decide)
  have e3 := highBits_iff w 0x40000000#32 3 (by decide)
  have e4 := highBits_iff w 0x50000000#32 12 (by decide)
  have e5 := highBits_iff w 0x70000000#32 2 (by decide)
  have e6 : w = 0x30000000#32 ↔ w.toNat = 0x30000000 := by rw [← BitVec.toNat_inj]; rfl
  have e7 : w = 0x60000000#32 ↔ w.toNat = 0x60000000 := by rw [← BitVec.toNat_inj]; rfl
  unfold decode
  rw [ho]
  exact if_congr e1 rfl (if_congr e2 rfl (if_congr e6 rfl (if_congr e3 rfl (if_congr e4 rfl (if_congr e7 rfl (if_congr e5 rfl rfl))))))

/-- The word of each command as a number: its row's match and its fields (30_encoding.md R72, R73). -/
theorem encode_rdbits (n : BitVec 6) : (encode (.rdbits n)).toNat = 0x10000000 + n.toNat := by decide +revert
theorem encode_rdsbits (n : BitVec 6) : (encode (.rdsbits n)).toNat = 0x20000000 + n.toNat := by decide +revert
theorem encode_huff (t : BitVec 3) : (encode (.huff t)).toNat = 0x40000000 + t.toNat := by decide +revert
theorem encode_tonal (nb : BitVec 2) : (encode (.tonal nb)).toNat = 0x70000000 + nb.toNat := by decide +revert
theorem encode_mant (sel : BitVec 3) (mode : CodingMode) (cnt : BitVec 8) :
    (encode (.mant sel mode cnt)).toNat = 0x50000000 + sel.toNat + 8 * mode.bit.toNat + 16 * cnt.toNat := by
  cases mode <;> revert sel cnt <;> decide +revert
theorem ofField_bit (v : Nat) : (CodingMode.ofField v).bit.toNat = v % 2 := by
  unfold CodingMode.ofField; split <;> simp [CodingMode.bit] <;> omega

end Sys2Proof
end

