-- ==== Sys2Proof/Laws/Host.lean ====
section
/-! SUPPORT. What draws, a soft reset and the host's accesses change: one lemma for each shared operation. -/

namespace Sys2Proof.Machine

/-! ### Draws of a command's outputs -/

/-- A property that survives the three kinds of draw survives `drawOutputs`. -/
theorem drawOutputs_keeps {I : State → Prop} {s : State} (i : Instr) (hs : I s)
    (hm : ∀ sel mode cnt, i = .mant sel mode cnt → i.wf = true → I (s.drawMbuf cnt.toNat)) (hp : i = .spectrum → I s.drawSpectrum)
    (ht : ∀ nb, i = .tonal nb → I s.drawTonal) : I (s.drawOutputs i) := by
  unfold State.drawOutputs
  split_ifs with hw
  · cases i with
    | mant sel mode cnt => exact hm _ _ _ rfl hw
    | spectrum => exact hp rfl
    | tonal nb => exact ht _ rfl
    | rdbits n => exact hs
    | rdsbits n => exact hs
    | rdbit => exact hs
    | huff t => exact hs
  · exact hs

/-- `t` is `s` but for output buffers, SPECINFO, TCCOUNT and the counter of draws. -/
def SameButOutputs (s t : State) : Prop :=
  t = { s with qm := t.qm, sel := t.sel, sfi := t.sfi, mbuf := t.mbuf, tc := t.tc, nsb := t.nsb, specMode := t.specMode
               tccount := t.tccount, draws := t.draws }

theorem drawOutputs_same (s : State) (i : Instr) : SameButOutputs s (s.drawOutputs i) :=
  drawOutputs_keeps (I := SameButOutputs s) i rfl (fun _ _ _ _ _ => rfl) (fun _ => rfl) (fun _ _ => rfl)

/-- Which outputs a draw for command `i` leaves alone. -/
theorem drawOutputs_outputs (s : State) (i : Instr) :
    (i ≠ .spectrum → (s.drawOutputs i).qm = s.qm ∧ (s.drawOutputs i).sel = s.sel ∧ (s.drawOutputs i).sfi = s.sfi ∧
      (s.drawOutputs i).nsb = s.nsb ∧ (s.drawOutputs i).specMode = s.specMode) ∧
    ((∀ nb, i ≠ .tonal nb) → (s.drawOutputs i).tc = s.tc ∧ (s.drawOutputs i).tccount = s.tccount) ∧
    (∀ k, (∀ sel mode cnt, i = .mant sel mode cnt → cnt.toNat ≤ k) → (s.drawOutputs i).mbuf.read k = s.mbuf.read k) := by
  refine ⟨fun h => ?_, fun h => ?_, fun k h => ?_⟩
  · exact drawOutputs_keeps (I := fun t => t.qm = s.qm ∧ t.sel = s.sel ∧ t.sfi = s.sfi ∧ t.nsb = s.nsb ∧ t.specMode = s.specMode) i
      ⟨rfl, rfl, rfl, rfl, rfl⟩ (fun _ _ _ _ _ => ⟨rfl, rfl, rfl, rfl, rfl⟩) (fun he => absurd he h) (fun _ _ => ⟨rfl, rfl, rfl, rfl, rfl⟩)
  · exact drawOutputs_keeps (I := fun t => t.tc = s.tc ∧ t.tccount = s.tccount) i
      ⟨rfl, rfl⟩ (fun _ _ _ _ _ => ⟨rfl, rfl⟩) (fun _ => ⟨rfl, rfl⟩) (fun nb he => absurd he (h nb))
  · refine drawOutputs_keeps (I := fun t => t.mbuf.read k = s.mbuf.read k) i rfl (fun sel mode cnt he _ => ?_) (fun _ => rfl) (fun _ _ => rfl)
    have := h _ _ _ he
    simp only [State.drawMbuf]
    rw [Memory.read_fill, if_neg (by omega)]

/-- Draws keep the buffers in canonical form and within the block's sizes. -/
theorem BuffersOk.drawOutputs {c : Config} {s : State} (h : BuffersOk c s) (i : Instr) : BuffersOk c (s.drawOutputs i) := by
  refine drawOutputs_keeps (I := BuffersOk c) i h (fun sel mode cnt he hw => ?_) (fun _ => ?_) (fun _ _ => ?_)
  · subst he
    simp only [Instr.wf, Bool.and_eq_true, decide_eq_true_eq] at hw
    exact { h with mbuf := ⟨Memory.wf_fill _ _ _ h.mbuf.1, Memory.below_fill _ h.mbuf.2 (by omega)⟩ }
  · exact { h with
      qm := ⟨Memory.wf_fill _ _ _ h.qm.1, Memory.below_fill _ h.qm.2 (by omega)⟩
      sel := ⟨Memory.wf_fill _ _ _ h.sel.1, Memory.below_fill _ h.sel.2 (by omega)⟩
      sfi := ⟨Memory.wf_fill _ _ _ h.sfi.1, Memory.below_fill _ h.sfi.2 (by omega)⟩ }
  · exact { h with tc := ⟨Memory.wf_fill _ _ _ h.tc.1, Memory.below_fill _ h.tc.2 (by omega)⟩ }

/-! ### Taking an error -/

/-- An error leaves the registers as 60_exceptions.md R214 says, whatever the policy. -/
theorem takeError_same (c : Config) (i : Instr) (e : Err) (p : BitPos) (s : State) :
    SameButOutputs (s.endErr e p) (takeError c i e p s) := by
  unfold takeError State.applyAbortPolicy
  cases c.abortPolicy with
  | leaveMutated => rfl
  | any => exact drawOutputs_same _ _

/-- What an error leaves in the outputs: the command's own writes, or draws for them. -/
theorem takeError_cases (c : Config) (i : Instr) (e : Err) (p : BitPos) (s : State) :
    takeError c i e p s = s.endErr e p ∨ takeError c i e p s = (s.endErr e p).drawOutputs i := by
  unfold takeError State.applyAbortPolicy
  cases c.abortPolicy with
  | leaveMutated => exact .inl rfl
  | any => exact .inr rfl

/-! ### Soft reset -/

theorem abandon_cases (s : State) : s.abandon = s ∨ ∃ i, s.busy = true ∧ decode s.pending = .ok i ∧ s.abandon = s.drawOutputs i := by
  unfold State.abandon
  split_ifs with hb
  · cases hd : decode s.pending with
    | ok i => exact .inr ⟨i, hb, rfl, rfl⟩
    | error e => exact .inl rfl
  · exact .inl rfl

theorem regWord_clearRegisters (s : State) (r : Reg) : regWord s.clearRegisters r = 0#32 := by
  cases r
  · rfl
  · exact (by decide : (0#24 ++ 0#4 ++ BitVec.ofBool false ++ BitVec.ofBool false ++ BitVec.ofBool false ++ BitVec.ofBool false) = 0#32)
  · exact (by decide : (0#31 ++ BitVec.ofBool false) = 0#32)
  · rfl
  · rfl
  · rfl
  · exact (by decide : (0#23 ++ BitVec.ofBool false ++ 0#3 ++ 0#5) = 0#32)
  · rfl
  · rfl

/-! ### Host accesses -/

theorem step_host {s : State} {op : HostOp} {rest : List Turn} (h : s.agenda = .host op :: rest) :
    step s = hostAccess machineConfig op (s.withAgenda rest) := by
  unfold step; rw [h]

theorem step_sequencer {s : State} {rest : List Turn} (h : s.agenda = .sequencer :: rest) :
    step s = sequencerTurn (s.withAgenda rest) := by
  unfold step; rw [h]

theorem step_idle {s : State} (h : s.agenda = []) : step s = sequencerTurn s := by
  unfold step; rw [h]

theorem step_powerOn {s : State} {rest : List Turn} (h : s.agenda = .powerOn :: rest) :
    step s = .next (powerOn (s.withAgenda rest)) := by
  unfold step; rw [h]

/-- The frame buffer has at least 1 and at most 8192 bytes (00_scope.md R8). -/
theorem machine_frameBytes : 1 ≤ machineConfig.maxFrameBytes ∧ machineConfig.maxFrameBytes ≤ 8192 := by
  have := Config.openFrameBytes.isLt
  constructor
  · simp [machineConfig]
  · simp only [machineConfig]; omega

/-- A 32-bit write of a register (10_state.md R24). -/
theorem hostWrite_reg (c : Config) (r : Reg) (v : Word) (s : State) :
    hostAccess c (.write r.offset .w32 v) s = .next (writeReg c r v s) := by
  cases r <;> rfl

/-- A 32-bit read of a register (10_state.md R24). -/
theorem hostRead_reg (c : Config) (r : Reg) (s : State) :
    hostAccess c (.read r.offset .w32) s =
      if s.busy && r.drawnWhileBusy then .next s.drawRdata else .next (s.setRdata (regWord s r)) := by
  cases r <;> rfl

/-- An access to FB: aligned, within the block's bytes. -/
theorem access_fb {c : Config} (hc : c.maxFrameBytes ≤ 8192) {a : Nat} {w : Width} (h : a < c.maxFrameBytes)
    (ha : (0x1000 + a) % w.bytes = 0) : accessFault c (0x1000 + a) w = none ∧ regionOf c (0x1000 + a) = .fb a := by
  have hr : regionOf c (0x1000 + a) = .fb a := by
    unfold regionOf
    rw [if_neg (by omega), if_neg (by omega), if_pos (by omega), Nat.add_sub_cancel_left]
  refine ⟨?_, hr⟩
  unfold accessFault
  rw [if_neg (by omega), if_neg (by omega), hr, if_pos (.inr rfl)]

/-- A host write that goes on is that of its region. -/
theorem hostWrite_next {c : Config} {off : Nat} {w : Width} {v : Word} {s t : State} (h : hostAccess c (.write off w v) s = .next t) :
    accessFault c off w = none ∧ t = writeRegion c (regionOf c off) w v s := by
  simp only [hostAccess] at h
  split at h
  · cases h
  · rename_i hf
    cases h
    exact ⟨hf, rfl⟩

/-- A host read that goes on changes the last value read and the counter of draws only (20_memory.md R61). -/
theorem hostRead_next {c : Config} {off : Nat} {w : Width} {s t : State} (h : hostAccess c (.read off w) s = .next t) :
    t = { s with rdata := t.rdata, draws := t.draws } := by
  simp only [hostAccess] at h
  split at h
  · cases h
  · unfold readRegion readOutput at h
    cases hr : regionOf c off <;> simp only [hr] at h
    all_goals (repeat' split at h) <;> cases h <;> rfl

theorem regionOf_low {c : Config} {off : Nat} {r : Reg} (hr : regionOf c off = .reg r) : off < 0x24 := by
  by_contra h
  unfold regionOf at hr
  rw [if_neg h] at hr
  repeat' (split at hr)
  all_goals cases hr

/-- A region that is a register is reached at the register's offset only. -/
theorem regionOf_reg {c : Config} {off : Nat} {w : Width} {r : Reg} (h : accessFault c off w = none) (hr : regionOf c off = .reg r) :
    off = r.offset ∧ w = .w32 := by
  have hlow := regionOf_low hr
  unfold accessFault at h
  rw [if_neg (by omega), hr] at h
  have hw : w = .w32 := by
    by_contra hne
    have h3 : ¬(w = .w32 ∨ (Region.reg r).anyWidth = true) := by simp [hne, Region.anyWidth]
    rw [if_neg h3] at h
    split at h <;> cases h
  subst hw
  refine ⟨?_, rfl⟩
  have h4 : off % 4 = 0 := by
    by_contra hne
    rw [if_pos (by simpa [Width.bytes] using hne)] at h
    cases h
  unfold regionOf at hr
  rw [if_pos hlow] at hr
  simp only [Region.reg.injEq] at hr
  obtain ⟨q, rfl⟩ : ∃ q, off = 4 * q := ⟨off / 4, by omega⟩
  rw [Nat.mul_div_cancel_left _ (by omega)] at hr
  have : q < 9 := by omega
  interval_cases q <;> subst hr <;> rfl

end Sys2Proof.Machine
end

