-- ==== Sys2Proof/Laws/Endings.lean ====
section
/-! SUPPORT. Everything a command can leave behind, said once (10_state.md R21, R23, 20_memory.md R51, 60_exceptions.md R210 to R217), and
the value of a field read from the stream (20_memory.md R53, 00_scope.md R11). -/

namespace Sys2Proof.Machine

/-- How a command that ends has ended: with an illegal operand, with the value of its pseudocode, or with its error. -/
theorem command_next_cases (c : Config) (i : Instr) (s t : State) (h : commandWith c i s = .next t) :
    (i.wf = false ∧ t = s.endErr .illegalCmd s.bitpos) ∨
    (i.wf = true ∧ ((∃ v u, commandBody c i s = .ok v u ∧ t = u.endOk v) ∨
      ∃ e p u, commandBody c i s = .raise e p u ∧ t = takeError c i e p u)) := by
  rw [commandWith_eq] at h
  by_cases hw : i.wf = true
  · rw [if_pos hw] at h
    right; refine ⟨hw, ?_⟩
    cases hc : commandBody c i s with
    | ok v u => rw [hc] at h; cases h; exact .inl ⟨v, u, rfl, rfl⟩
    | raise e p u => rw [hc] at h; cases h; exact .inr ⟨e, p, u, rfl, rfl⟩
    | fault f => rw [hc] at h; cases h
  · rw [if_neg hw] at h; cases h
    left; exact ⟨by simpa using hw, rfl⟩

theorem exec_next_cases (i : Instr) (s t : State) (h : exec i s = .next t) :
    (i.wf = false ∧ t = s.endErr .illegalCmd s.bitpos) ∨
    (i.wf = true ∧ ((∃ v u, commandBody machineConfig i s = .ok v u ∧ t = u.endOk v) ∨
      ∃ e p u, commandBody machineConfig i s = .raise e p u ∧ t = takeError machineConfig i e p u)) :=
  command_next_cases machineConfig i s t (by rwa [← exec_eq_commandWith])

/-- The state of a command under way: what no command writes before it ends, and where the bit pointer can be. -/
structure Underway (s t : State) : Prop where
  fb : t.fb = s.fb
  bitlen : t.bitlen = s.bitlen
  ie : t.ie = s.ie
  ovr : t.ovr = s.ovr
  pending : t.pending = s.pending
  rdata : t.rdata = s.rdata
  agenda : t.agenda = s.agenda
  result : t.result = s.result
  errcode : t.errcode = s.errcode
  errpos : t.errpos = s.errpos
  lo : s.bitpos.toNat ≤ t.bitpos.toNat
  hi : t.bitpos = s.bitpos ∨ t.bitpos.toNat ≤ s.bitlen.toNat
  read : WrittenBits s s.bitpos.toNat t.bitpos.toNat

theorem underway_moves (s : State) : BitMoves (Underway s) := by
  intro u p h h1 h2 hw
  have := setBitpos_toNat u h2
  refine ⟨h.fb, h.bitlen, h.ie, h.ovr, h.pending, h.rdata, h.agenda, h.result, h.errcode, h.errpos, by rw [this]; have := h.lo; omega,
    .inr (by rw [this, ← h.bitlen]; exact h2), fun q h3 h4 => ?_⟩
  rw [this] at h4
  rcases Nat.lt_or_ge q u.bitpos.toNat with h5 | h5
  · exact h.read q h3 h5
  · rw [← h.fb]; exact hw q h5 h4

theorem underway_writes (s : State) (T : Tables) (i : Instr) : CommandWrites T i (Underway s) := by
  cases i
  case mant => intro u k v _ _ h; exact ⟨h.1, h.2, h.3, h.4, h.5, h.6, h.7, h.8, h.9, h.10, h.11, h.12, h.13⟩
  case spectrum => constructor <;> intros <;> (rename_i h; exact ⟨h.1, h.2, h.3, h.4, h.5, h.6, h.7, h.8, h.9, h.10, h.11, h.12, h.13⟩)
  case tonal => constructor <;> intros <;> (rename_i h; exact ⟨h.1, h.2, h.3, h.4, h.5, h.6, h.7, h.8, h.9, h.10, h.11, h.12, h.13⟩)
  all_goals trivial

theorem underway_body (c : Config) (s : State) {i : Instr} (hw : i.wf = true) :
    Ends (commandErr c.tables i) (Underway s) (commandBody c i s) (fun _ => True) :=
  commandBody_ends c hw
    (.inr ⟨fun _ _ _ h => ⟨h.1, h.2, h.3, h.4, h.5, h.6, h.7, h.8, h.9, h.10, h.11, h.12, h.13⟩,
      fun _ _ _ h => ⟨h.1, h.2, h.3, h.4, h.5, h.6, h.7, h.8, h.9, h.10, h.11, h.12, h.13⟩⟩)
    (underway_moves s) (underway_writes s _ i)
    ⟨rfl, rfl, rfl, rfl, rfl, rfl, rfl, rfl, rfl, rfl, le_refl _, .inl rfl, fun q h1 h2 => by omega⟩

/-- A command of any configuration inverted: the three ways it ends, each with all that is known of the registers. -/
theorem command_next_underway {c : Config} {i : Instr} {s t : State} (h : commandWith c i s = .next t) :
    (i.wf = false ∧ t = s.endErr .illegalCmd s.bitpos) ∨
    (i.wf = true ∧ ((∃ v u, Underway s u ∧ t = u.endOk v) ∨
      ∃ e p u, Underway s u ∧ commandErr c.tables i e ∧ ErrAt e p u ∧ s.bitpos.toNat ≤ p.toNat ∧
        SameButOutputs (u.endErr e p) t)) := by
  rcases command_next_cases c i s t h with h | ⟨hw, ⟨v, u, h1, rfl⟩ | ⟨e, p, u, h1, rfl⟩⟩
  · exact .inl h
  · have := underway_body c s hw
    rw [h1] at this
    exact .inr ⟨hw, .inl ⟨v, u, this.1, rfl⟩⟩
  · have := underway_body c s hw
    rw [h1] at this
    obtain ⟨m, ce, ea, w, mw, rfl⟩ := this
    exact .inr ⟨hw, .inr ⟨e, _, u, m, ce, ea, mw.lo, takeError_same _ _ _ _ _⟩⟩

/-- `exec` inverted. -/
theorem exec_next_underway {i : Instr} {s t : State} (h : exec i s = .next t) :
    (i.wf = false ∧ t = s.endErr .illegalCmd s.bitpos) ∨
    (i.wf = true ∧ ((∃ v u, Underway s u ∧ t = u.endOk v) ∨
      ∃ e p u, Underway s u ∧ commandErr referenceTables i e ∧ ErrAt e p u ∧ s.bitpos.toNat ≤ p.toNat ∧
        SameButOutputs (u.endErr e p) t)) :=
  command_next_underway (c := machineConfig) (by rwa [← exec_eq_commandWith])

/-- A command stops only at a bit never written, from BITPOS on and below BITLEN (60_exceptions.md R224). -/
theorem exec_fault {i : Instr} {s : State} {f : Fault} (h : exec i s = .fault f) : f = .fbUnwritten ∧ UnwrittenAhead s := by
  rw [exec_eq] at h
  by_cases hw : i.wf = true
  · rw [if_pos hw] at h
    have := underway_body machineConfig s hw
    cases hc : commandBody machineConfig i s with
    | ok v u => rw [hc] at h; cases h
    | raise e p u => rw [hc] at h; cases h
    | fault g =>
      rw [hc] at h this
      cases h
      obtain ⟨h1, t, ht, q, q1, q2, q3⟩ := this
      exact ⟨h1, q, le_trans ht.lo q1, by rw [← ht.bitlen]; exact q2, by rw [← ht.fb]; exact q3⟩
  · rw [if_neg hw] at h; cases h

theorem readBands_withPolicy (c : Config) (p : AbortPolicy) (mode : CodingMode) (l : List Nat) (i : Nat) (s : State) :
    readBands { c with abortPolicy := p } mode l i s = readBands c mode l i s := by
  induction l generalizing i s with
  | nil => rfl
  | cons sel rest ih => simp only [readBands, ih]; rfl

/-- The abort policy acts after the pseudocode only (60_exceptions.md R217). -/
theorem commandBody_withPolicy (c : Config) (p : AbortPolicy) (i : Instr) (s : State) :
    commandBody { c with abortPolicy := p } i s = commandBody c i s := by
  cases i
  case spectrum => simp only [commandBody, spectrumBody, readBands_withPolicy]; rfl
  all_goals rfl

/-- The value of a field, bit by bit (20_memory.md R53). -/
theorem fieldAt_sum {s : State} {fb : Nat → Byte} (p n : Nat) (h : ∀ i, i < n → s.fb.read ((p + i) / 8) = some (fb ((p + i) / 8))) :
    fieldAt s p n = some (∑ i ∈ Finset.range n, ((fb ((p + i) / 8)).getLsbD (7 - (p + i) % 8)).toNat * 2 ^ (n - 1 - i)) := by
  induction n with
  | zero => rfl
  | succ n ih =>
    rw [fieldAt, ih (fun i hi => h i (by omega))]
    simp only [fbBit, h n (by omega), Option.map_some, Finset.sum_range_succ, Option.some.injEq]
    simp only [Nat.add_sub_cancel, Nat.sub_self, pow_zero, mul_one]
    congr 1
    rw [Finset.mul_sum]
    refine Finset.sum_congr rfl fun i hi => ?_
    have : i < n := by simpa using hi
    rw [show n - i = (n - 1 - i) + 1 by omega, pow_succ]
    ring

/-- `sext_n` as arithmetic (00_scope.md R11). -/
theorem sext_eq {n v : Nat} (hn : 1 ≤ n) (hv : v < 2 ^ n) : sext n v = if 2 ^ (n - 1) ≤ v then (v : Int) - 2 ^ n else v := by
  unfold sext
  have : v.testBit (n - 1) = decide (2 ^ (n - 1) ≤ v) := by
    obtain ⟨m, rfl⟩ : ∃ m, n = m + 1 := ⟨n - 1, by omega⟩
    simp only [Nat.add_sub_cancel]
    by_cases h : 2 ^ m ≤ v
    · rw [decide_eq_true h]
      have : v / 2 ^ m = 1 := by
        apply Nat.div_eq_of_lt_le <;> rw [pow_succ] at * <;> omega
      rw [Nat.testBit_eq_decide_div_mod_eq, this]; rfl
    · rw [decide_eq_false h, Nat.testBit_lt_two_pow (by omega)]
  rw [this]; by_cases h : 2 ^ (n - 1) ≤ v <;> simp [h]

/-- Every write of a command keeps the buffers in canonical form and within the block's sizes. -/
theorem buffersOk_writes (c : Config) (T : Tables) (i : Instr) (hw : i.wf = true) : CommandWrites T i (BuffersOk c) := by
  cases i
  case mant sel mode cnt =>
    simp [Instr.wf] at hw
    intro u k v hk _ h
    exact ⟨h.1, h.2, h.3, h.4, ⟨Memory.wf_write _ _ h.5.1, Memory.below_write _ h.5.2 (by omega)⟩, h.6⟩
  case spectrum => 
    constructor
    · intro s n _ h; exact ⟨h.1, h.2, h.3, h.4, h.5, h.6⟩
    · intro s n h; exact ⟨h.1, h.2, h.3, h.4, h.5, h.6⟩
    · intro s i v hi _ h; exact ⟨h.1, h.2, ⟨Memory.wf_write _ _ h.3.1, Memory.below_write _ h.3.2 hi⟩, h.4, h.5, h.6⟩
    · intro s i v hi _ h; exact ⟨h.1, h.2, h.3, ⟨Memory.wf_write _ _ h.4.1, Memory.below_write _ h.4.2 hi⟩, h.5, h.6⟩
    · intro s i v hi _ h; exact ⟨h.1, ⟨Memory.wf_write _ _ h.2.1, Memory.below_write _ h.2.2 hi⟩, h.3, h.4, h.5, h.6⟩
    · intro s lo n hi h; exact ⟨h.1, ⟨Memory.wf_fill _ _ _ h.2.1, Memory.below_fill _ h.2.2 hi⟩, h.3, h.4, h.5, h.6⟩
    · intro s lo n hi h
      exact ⟨h.1, h.2, ⟨Memory.wf_fill _ _ _ h.3.1, Memory.below_fill _ h.3.2 hi⟩,
        ⟨Memory.wf_fill _ _ _ h.4.1, Memory.below_fill _ h.4.2 hi⟩, h.5, h.6⟩
  case tonal =>
    constructor
    · intro s n _ h; exact ⟨h.1, h.2, h.3, h.4, h.5, h.6⟩
    · intro s k f v hk hf h
      refine ⟨h.1, h.2, h.3, h.4, h.5, ⟨Memory.wf_write _ _ h.6.1, Memory.below_write _ h.6.2 ?_⟩⟩
      cases f with
      | mant m => have := hf m rfl; simp [tcIndex]; omega
      | _ => simp [tcIndex]; omega
    · intro s k lo n hk hf h
      exact ⟨h.1, h.2, h.3, h.4, h.5, ⟨Memory.wf_fill _ _ _ h.6.1, Memory.below_fill _ h.6.2 (by simp [tcIndex]; omega)⟩⟩
  all_goals trivial

/-- So does every command. -/
theorem exec_buffersOk {i : Instr} {s t : State} (h : exec i s = .next t) (hb : BuffersOk machineConfig s) : BuffersOk machineConfig t := by
  rcases exec_next_cases i s t h with ⟨_, rfl⟩ | ⟨hw, ⟨v, u, h1, rfl⟩ | ⟨e, p, u, h1, rfl⟩⟩
  · exact ⟨hb.1, hb.2, hb.3, hb.4, hb.5, hb.6⟩
  all_goals
    have := commandBody_ends machineConfig hw (I := BuffersOk machineConfig) (.inl reference_subbandsOk)
      (fun s p h _ _ _ => ⟨h.1, h.2, h.3, h.4, h.5, h.6⟩) (buffersOk_writes machineConfig _ i hw) hb
    rw [h1] at this
    have h := this.1
  · exact ⟨h.1, h.2, h.3, h.4, h.5, h.6⟩
  · rcases takeError_cases machineConfig i e p u with h2 | h2 <;> rw [h2]
    · exact ⟨h.1, h.2, h.3, h.4, h.5, h.6⟩
    · exact BuffersOk.drawOutputs (s := u.endErr e p) ⟨h.1, h.2, h.3, h.4, h.5, h.6⟩ i

/-- A command whose pseudocode raises ends with that error, whatever the abort policy. -/
theorem exec_raised {i : Instr} {s u : State} {e : Err} {p : BitPos} (hw : i.wf = true) (h : commandBody machineConfig i s = .raise e p u) :
    ∃ t, exec i s = .next t ∧ t.busy = false ∧ t.done = false ∧ t.err = true ∧ t.errcode = e.code ∧ t.errpos = p ∧ t.bitpos = u.bitpos := by
  refine ⟨_, (exec_of_wf hw s).trans (by rw [h]; rfl), ?_⟩
  rw [takeError_same]
  exact ⟨rfl, rfl, rfl, rfl, rfl, rfl⟩

end Sys2Proof.Machine
end

