-- ==== Sys2Proof/Laws/TonalBlocks.lean ====
section
/-! SUPPORT. The parts of a tonal block: each part that stands on the stream is read, with the entries it leaves in TC or the 65th component
it stops at, and each part that was read stood on the stream. -/

namespace Sys2Proof.Machine

theorem Res.andThen_assoc {α β γ : Type} (r : Res α) (f : α → State → Res β) (g : β → State → Res γ) :
    (r.andThen f).andThen g = r.andThen (fun a s => (f a s).andThen g) := by
  cases r <;> rfl

@[simp] theorem onStream_withTc (s : State) (m : Memory Word) (bits : List Bool) : onStream (s.withTc m) bits = onStream s bits :=
  onStream_congr (t := s.withTc m) (s := s) rfl rfl rfl bits

/-! ### Entries of TC -/

/-- Entry `k` of the list `m` holds `e`. -/
def EntryIn (m : Memory Word) (k : Nat) (e : TcEntry) : Prop :=
  m.read (tcIndex k .pos) = some (wordOfNat e.pos) ∧ m.read (tcIndex k .ncoef) = some (wordOfNat e.ncoef) ∧
    m.read (tcIndex k .sfi) = some (wordOfNat e.sfi) ∧ m.read (tcIndex k .qstep) = some (wordOfNat e.qstep) ∧
    ∀ j, j < 8 → m.read (tcIndex k (.mant j)) = some (wordOfInt (e.mants.getD j 0))

/-- `m` is `m0` with the entries `E` from entry `count` on; all other entries are as before. -/
def Extends (m m0 : Memory Word) (count : Nat) (E : List TcEntry) : Prop :=
  (∀ k (h : k < E.length), EntryIn m (count + k) E[k]) ∧
    ∀ a, (a < 12 * count ∨ 12 * (count + E.length) ≤ a) → m.read a = m0.read a

theorem EntryIn.congr {m m1 : Memory Word} {k : Nat} {e : TcEntry} (h : EntryIn m k e)
    (hr : ∀ a, a < 12 * k + 12 → m1.read a = m.read a) : EntryIn m1 k e := by
  obtain ⟨h1, h2, h3, h4, h5⟩ := h
  refine ⟨?_, ?_, ?_, ?_, fun j hj => ?_⟩
  · rw [hr _ (by simp [tcIndex])]; exact h1
  · rw [hr _ (by simp [tcIndex])]; exact h2
  · rw [hr _ (by simp [tcIndex])]; exact h3
  · rw [hr _ (by simp [tcIndex])]; exact h4
  · rw [hr _ (by simp only [tcIndex]; omega)]; exact h5 j hj

theorem Extends.nil (m : Memory Word) (count : Nat) : Extends m m count [] := ⟨by simp, fun _ _ => rfl⟩

theorem Extends.append {m m1 m2 : Memory Word} {count : Nat} {E F : List TcEntry} (h1 : Extends m1 m count E)
    (h2 : Extends m2 m1 (count + E.length) F) : Extends m2 m count (E ++ F) := by
  constructor
  · intro k hk
    by_cases h : k < E.length
    · rw [List.getElem_append_left h]
      exact (h1.1 k h).congr fun a ha => h2.2 a (.inl (by omega))
    · rw [List.getElem_append_right (by omega)]
      have := h2.1 (k - E.length) (by simp at hk; omega)
      rwa [show count + E.length + (k - E.length) = count + k by omega] at this
  · intro a ha
    rw [List.length_append] at ha
    rw [h2.2 a (by omega), h1.2 a (by omega)]

/-! ### Parts that are read -/

/-- `f` reads the bits `B`, which hold the entries `E`: it returns the new count, or stops at the 65th component. -/
def TonalReads (f : Nat → State → Res Nat) (B : List Bool) (E : List TcEntry) : Prop :=
  ∀ count s, s.tccount = BitVec.ofNat 7 count → count ≤ 64 → onStream s B = true →
    (count + E.length ≤ 64 →
      ∃ m, f count s = .ok (count + E.length)
          (((s.setBitpos (s.bitpos.toNat + B.length)).withTc m).setTccount (count + E.length)) ∧ Extends m s.tc count E) ∧
    (64 < count + E.length →
      ∃ i p m, f count s = .raise .tonalCap i (((s.setBitpos p).withTc m).setTccount 64) ∧ p = i.toNat + 6 ∧
        s.bitpos.toNat ≤ i.toNat ∧ p ≤ s.bitpos.toNat + B.length ∧ Extends m s.tc count (E.take (64 - count)))

theorem setTccount_self {s : State} {count : Nat} (h : s.tccount = BitVec.ofNat 7 count) : s.setTccount count = s := by
  unfold State.setTccount; rw [← h]

theorem withTc_self (s : State) : s.withTc s.tc = s := rfl

theorem TonalReads.nil : TonalReads (fun count s => .ok count s) [] [] := by
  intro count s hc h64 h
  refine ⟨fun _ => ⟨s.tc, ?_, Extends.nil _ _⟩, fun h => by simp at h; omega⟩
  simp only [List.length_nil, Nat.add_zero, setBitpos_self, withTc_self, setTccount_self hc]

theorem TonalReads.congr {f g : Nat → State → Res Nat} {B : List Bool} {E : List TcEntry} (h : TonalReads f B E)
    (hfg : ∀ count s, g count s = f count s) : TonalReads g B E := by
  intro count s hc h64 hs
  rw [hfg]
  exact h count s hc h64 hs

theorem TonalReads.andThen {f g : Nat → State → Res Nat} {B B' : List Bool} {E E' : List TcEntry} (hf : TonalReads f B E)
    (hg : TonalReads g B' E') : TonalReads (fun count s => (f count s).andThen g) (B ++ B') (E ++ E') := by
  intro count s hc h64 h
  rw [onStream_append] at h
  have hp := onStream_bitpos h.1
  obtain ⟨f1, f2⟩ := hf count s hc h64 h.1
  by_cases hle : count + E.length ≤ 64
  · obtain ⟨m, e, x⟩ := f1 hle
    obtain ⟨g1, g2⟩ := hg (count + E.length)
      (((s.setBitpos (s.bitpos.toNat + B.length)).withTc m).setTccount (count + E.length)) rfl hle
      (by simpa using h.2)
    have hb : (((s.setBitpos (s.bitpos.toNat + B.length)).withTc m).setTccount (count + E.length)).bitpos.toNat =
      s.bitpos.toNat + B.length := hp
    rw [hb] at g1 g2
    simp only [e, Res.andThen_ok, List.length_append]
    constructor
    · intro h'
      obtain ⟨m', e', x'⟩ := g1 (by omega)
      refine ⟨m', ?_, x.append x'⟩
      rw [e', Nat.add_assoc, Nat.add_assoc]
      rfl
    · intro h'
      obtain ⟨i, p, m', e', p1, p2, p3, x'⟩ := g2 (by omega)
      refine ⟨i, p, m', ?_, p1, by omega, by omega, ?_⟩
      · rw [e']; rfl
      · rw [List.take_append, List.take_of_length_le (by omega), show 64 - count - E.length = 64 - (count + E.length) by omega]
        exact x.append x'
  · obtain ⟨i, p, m, e, p1, p2, p3, x⟩ := f2 (by omega)
    simp only [e, Res.andThen_raise, List.length_append]
    refine ⟨fun h' => by omega, fun _ => ⟨i, p, m, rfl, p1, p2, by omega, ?_⟩⟩
    rw [List.take_append_of_le_length (by omega)]
    exact x

/-- `r` reads the bits `B`, which stand for `v`. -/
def FieldReads {α : Type} (r : State → Res α) (B : List Bool) (v : α) : Prop :=
  ∀ s, onStream s B = true → r s = .ok v (s.setBitpos (s.bitpos.toNat + B.length))

theorem TonalReads.field {α : Type} {r : State → Res α} {B : List Bool} {v : α} (hr : FieldReads r B v)
    {g : α → Nat → State → Res Nat} {B' : List Bool} {E : List TcEntry} (hg : TonalReads (g v) B' E) :
    TonalReads (fun count s => (r s).andThen fun x s1 => g x count s1) (B ++ B') E := by
  intro count s hc h64 h
  rw [onStream_append] at h
  have hp := onStream_bitpos h.1
  obtain ⟨g1, g2⟩ := hg count (s.setBitpos (s.bitpos.toNat + B.length)) hc h64 h.2
  rw [hp] at g1 g2
  simp only [hr s h.1, Res.andThen_ok, List.length_append]
  constructor
  · intro h'
    obtain ⟨m, e, x⟩ := g1 h'
    exact ⟨m, by rw [e, setBitpos_setBitpos, Nat.add_assoc], x⟩
  · intro h'
    obtain ⟨i, p, m, e, p1, p2, p3, x⟩ := g2 h'
    exact ⟨i, p, m, by rw [e, setBitpos_setBitpos], p1, by omega, by omega, x⟩

theorem fieldReads_readBits {n v : Nat} (hv : v < 2 ^ n) : FieldReads (readBits n) (natBits n v) v := by
  intro s h
  rw [natBits_length]
  exact readBits_spelled hv h

theorem FieldReads.andThen {α β : Type} {r : State → Res α} {B : List Bool} {v : α} (hr : FieldReads r B v) {k : α → State → Res β}
    {B' : List Bool} {w : β} (hk : FieldReads (k v) B' w) : FieldReads (fun s => (r s).andThen k) (B ++ B') w := by
  intro s h
  rw [onStream_append] at h
  have hp := onStream_bitpos h.1
  simp only [hr s h.1, Res.andThen_ok, List.length_append]
  rw [hk _ h.2, hp, setBitpos_setBitpos, Nat.add_assoc]

theorem FieldReads.ok {α : Type} (v : α) : FieldReads (fun s => .ok v s) [] v := by
  intro s _
  simp only [List.length_nil, Nat.add_zero, setBitpos_self]

theorem natBits_one (b : Bool) : natBits 1 b.toNat = [b] := by cases b <;> rfl

theorem fieldReads_bit (b : Bool) : FieldReads (readBits 1) [b] b.toNat := by
  rw [← natBits_one]; exact fieldReads_readBits (by cases b <;> decide)

theorem fieldReads_flags (flags : List Bool) : FieldReads (readFlags flags.length) flags flags := by
  induction flags with
  | nil => exact FieldReads.ok _
  | cons b rest ih =>
    have h1 : FieldReads (fun s => (readFlags rest.length s).andThen fun l s2 => Res.ok (decide (b.toNat = 1) :: l) s2) rest
        (b :: rest) := by
      have := ih.andThen (k := fun l s2 => Res.ok (decide (b.toNat = 1) :: l) s2) (FieldReads.ok _)
      simpa using this
    exact (fieldReads_bit b).andThen (k := fun b s1 => (readFlags rest.length s1).andThen fun l s2 => .ok (decide (b = 1) :: l) s2) h1

theorem ofField_bit (m : CodingMode) : CodingMode.ofField m.bit.toNat = m := by cases m <;> rfl

theorem fieldReads_groupMode {cms : Nat} {mode : CodingMode} (h : cms = 3 ∨ mode = CodingMode.ofField (cms % 2)) :
    FieldReads (readGroupMode cms) (if cms = 3 then [mode.bit] else []) mode := by
  unfold readGroupMode
  by_cases h3 : cms = 3
  · simp only [h3, if_true]
    have := (fieldReads_bit mode.bit).andThen (k := fun m s1 => Res.ok (CodingMode.ofField m) s1) (FieldReads.ok _)
    rwa [ofField_bit] at this
  · simp only [h3, if_false]
    rw [h.resolve_left h3]
    exact FieldReads.ok _

theorem codeCount_of_two_le {qs n : Nat} (h : 2 ≤ qs) : codeCount qs n = n := by unfold codeCount; rw [if_neg (by omega)]
theorem perCode_of_two_le {qs : Nat} (h : 2 ≤ qs) : perCode qs = 1 := by unfold perCode; rw [if_neg (by omega)]

theorem coefCount_le {cv j p : Nat} (h : cv < 8) : coefCount cv j p ≤ 8 := by unfold coefCount; omega

/-- The place and mantissas of a component that stand on the stream are read into entry `count`. -/
theorem readPlaced_spelled {cv qs j count sfi : Nat} {mode : CodingMode} (hcv : cv < 8) (h2 : 2 ≤ qs) (h8 : qs < 8) {x : TonalComp}
    (hx : x.ok referenceTables cv qs mode j = true) {s : State}
    (h : onStream s (natBits 6 x.place ++ mantBits referenceTables qs mode x.codes) = true) :
    ∃ m, readPlaced referenceTables cv qs mode j count sfi s =
        .ok () (((s.setBitpos (s.bitpos.toNat + (natBits 6 x.place ++ mantBits referenceTables qs mode x.codes).length)).withTc m).setTccount
          (count + 1)) ∧
      EntryIn m count
        { pos := 64 * j + x.place, ncoef := coefCount cv j x.place, sfi := sfi, qstep := qs
          mants := mantValues referenceTables qs mode x.codes } ∧
      ∀ a, (a < 12 * count ∨ 12 * count + 12 ≤ a) → m.read a = s.tc.read a := by
  simp only [TonalComp.ok, Bool.and_eq_true, decide_eq_true_eq, List.all_eq_true] at hx
  obtain ⟨⟨⟨-, hp64⟩, hlen⟩, hcodes⟩ := hx
  rw [onStream_append] at h
  have hp := onStream_bitpos h.1
  have hn8 : coefCount cv j x.place ≤ 8 := coefCount_le hcv
  unfold readPlaced
  rw [readBits_spelled (by simpa using hp64) h.1, Res.andThen_ok]
  simp only
  rw [show min (1024 - (64 * j + x.place)) (cv + 1) = coefCount cv j x.place from rfl]
  generalize hs2 : State.writeTc (State.writeTc _ _ _ _) _ TcField.qstep _ = s2
  have hon : onStream s2 (mantBits referenceTables qs mode x.codes) = true := by
    subst hs2
    simpa using h.2
  have key := mantCodes_spelled (mode := mode) (sel := qs) (by omega) h8 (writer_tc count) x.codes 0 s2 hcodes hon
  unfold mantExtract
  rw [codeCount_of_two_le h2, ← hlen, key, Res.andThen_ok]
  have hvl : (mantValues referenceTables qs mode x.codes).length = coefCount cv j x.place := by
    rw [mantValues_length, hlen, perCode_of_two_le h2, Nat.mul_one]
  have hkeep := deliver_keeps (I := fun t => t = { s2 with tc := t.tc }) (lo := 0)
    (hi := (mantValues referenceTables qs mode x.codes).length) (Q := fun _ => True)
    (dst := fun k v s => s.writeTc count (.mant k) v)
    (fun k v s1 _ _ _ hs1 => by
      show s1.writeTc _ _ v = _
      conv_lhs => rw [hs1]
      rfl) (mantValues referenceTables qs mode x.codes) 0 s2 (by omega) (by omega) (fun _ _ => trivial) rfl
  have hread := fun a => deliver_read (dst := fun k v s => State.writeTc s count (.mant k) v) (f := State.tc) (base := 12 * count + 4)
    (fun k v s => rfl) (mantValues referenceTables qs mode x.codes) 0 s2 a
  rw [hvl] at hread
  generalize hd : deliver (fun k v s => State.writeTc s count (.mant k) v) 0 (mantValues referenceTables qs mode x.codes) s2 = s3 at *
  have hbp2 : s2.bitpos.toNat = s.bitpos.toNat + 6 := by
    subst hs2
    rw [natBits_length] at hp
    simpa using hp
  refine ⟨(s3.zeroTcMant count x.codes.length (8 - x.codes.length)).tc, ?_, ?_, ?_⟩
  · have e2 : s2 = (s.setBitpos (s.bitpos.toNat + 6)).withTc s2.tc := by rw [← hs2]; rfl
    have e3 : s3 = (s.setBitpos (s.bitpos.toNat + 6)).withTc s3.tc := by
      refine hkeep.trans ?_
      show s2.withTc s3.tc = _
      rw [e2]; rfl
    rw [hbp2, List.length_append, natBits_length, ← Nat.add_assoc]
    generalize s3.tc = m3 at e3
    subst e3
    rfl
  · have hz : ∀ a, (s3.zeroTcMant count x.codes.length (8 - x.codes.length)).tc.read a =
        if 12 * count + 4 + x.codes.length ≤ a ∧ a < 12 * count + 4 + x.codes.length + (8 - x.codes.length) then some 0#32
        else s3.tc.read a := by
      intro a
      simp only [State.zeroTcMant]
      rw [Memory.read_fill]
      rfl
    have hw : ∀ a, s2.tc.read a = if a = 12 * count + 3 then some (wordOfNat qs) else if a = 12 * count + 2 then some (wordOfNat sfi)
        else if a = 12 * count + 1 then some (wordOfNat (coefCount cv j x.place)) else if a = 12 * count then
          some (wordOfNat (64 * j + x.place)) else s.tc.read a := by
      intro a
      subst hs2
      simp only [State.writeTc, tcIndex, Memory.read_write, State.setBitpos_tc]
      simp only [wordOfInt, wordOfNat, BitVec.ofInt_natCast]
    have hlow : ∀ a, a < 12 * count + 4 → (s3.zeroTcMant count x.codes.length (8 - x.codes.length)).tc.read a = s2.tc.read a := by
      intro a ha
      rw [hz, if_neg (by omega), hread, if_neg (by omega)]
    refine ⟨?_, ?_, ?_, ?_, ?_⟩
    · rw [hlow _ (by simp [tcIndex]), hw]; simp [tcIndex]
    · rw [hlow _ (by simp [tcIndex]), hw]; simp [tcIndex, hlen]
    · rw [hlow _ (by simp [tcIndex]), hw]; simp [tcIndex]
    · rw [hlow _ (by simp [tcIndex]), hw]; simp [tcIndex]
    · intro k hk
      simp only [tcIndex]
      rw [hz]
      by_cases hkn : k < x.codes.length
      · rw [if_neg (by omega), hread, if_pos (by omega)]
        congr 3
        omega
      · rw [if_pos (by omega), List.getD_eq_default _ _ (by omega)]
        rfl
  · intro a ha
    simp only [State.zeroTcMant]
    rw [Memory.read_fill, if_neg (by simp only [tcIndex]; omega), hread, if_neg (by omega), ← hs2]
    simp only [State.writeTc, tcIndex, Memory.read_write, State.setBitpos_tc]
    rw [if_neg (by omega), if_neg (by omega), if_neg (by omega), if_neg (by omega)]

/-- A component that stands on the stream is one more entry, or the 65th (43_tonal.md R166, R167). -/
theorem tonalReads_component {cv qs j : Nat} {mode : CodingMode} (hcv : cv < 8) (h2 : 2 ≤ qs) (h8 : qs < 8) {x : TonalComp}
    (hx : x.ok referenceTables cv qs mode j = true) :
    TonalReads (fun count s => (readComponent referenceTables cv qs mode j count s).andThen fun _ s1 => .ok (count + 1) s1)
      (x.bits referenceTables qs mode) [x.entry referenceTables cv qs mode j] := by
  intro count s hc h64 h
  have hx' := hx
  simp only [TonalComp.ok, Bool.and_eq_true, decide_eq_true_eq, List.all_eq_true] at hx'
  have hsfi := hx'.1.1.1
  unfold TonalComp.bits at h ⊢
  rw [List.append_assoc, onStream_append] at h
  have hp := onStream_bitpos h.1
  have hle := onStream_le h.2
  have hr := readBits_spelled (by simpa using hsfi) h.1
  rw [natBits_length] at hp
  have htc : tcMax = 64 := rfl
  simp only [readComponent, hr, Res.andThen_ok, List.length_singleton]
  constructor
  · intro hlt
    rw [if_neg (by omega)]
    obtain ⟨m, e, x1, x2⟩ := readPlaced_spelled (count := count) (sfi := x.sfi) hcv h2 h8 hx h.2
    rw [natBits_length] at e
    refine ⟨m, ?_, ?_, ?_⟩
    · rw [e, Res.andThen_ok, List.append_assoc, List.length_append (as := natBits 6 x.sfi), natBits_length, hp, ← Nat.add_assoc]
      rfl
    · intro k hk
      obtain rfl : k = 0 := by simpa using hk
      exact x1
    · intro a ha
      exact x2 a (by rw [List.length_singleton] at ha; omega)
  · intro hgt
    have hc' : count = 64 := by omega
    rw [if_pos (hc'.trans htc.symm)]
    refine ⟨s.bitpos, s.bitpos.toNat + 6, s.tc, ?_, rfl, le_refl _, ?_, ?_⟩
    · rw [Res.andThen_raise]
      congr 1
      subst hc'
      have : (s.setBitpos (s.bitpos.toNat + 6)).setTccount 64 = s.setBitpos (s.bitpos.toNat + 6) := setTccount_self hc
      exact this.symm
    · simp
    · subst hc'; exact Extends.nil _ _

/-- The components at one position, however many. -/
theorem tonalReads_components {cv qs j : Nat} {mode : CodingMode} (hcv : cv < 8) (h2 : 2 ≤ qs) (h8 : qs < 8) (xs : List TonalComp)
    (hx : ∀ x ∈ xs, x.ok referenceTables cv qs mode j = true) :
    TonalReads (fun count s => readComponents referenceTables cv qs mode j xs.length count s)
      (xs.flatMap (TonalComp.bits referenceTables qs mode)) (xs.map (TonalComp.entry referenceTables cv qs mode j)) := by
  induction xs with
  | nil => exact TonalReads.nil
  | cons x rest ih =>
    refine ((tonalReads_component hcv h2 h8 (hx x (by simp))).andThen (ih fun y hy => hx y (List.mem_cons_of_mem _ hy))).congr ?_
    intro count s
    simp only [List.length_cons, readComponents, Res.andThen_assoc, Res.andThen_ok]

/-- The bits of the components at the listed positions. -/
def posBits (T : Tables) (qs : Nat) (mode : CodingMode) (jx : List (Nat × List TonalComp)) : List Bool :=
  jx.flatMap (fun p => natBits 3 p.2.length ++ p.2.flatMap (TonalComp.bits T qs mode))

/-- Their entries. -/
def posEntries (T : Tables) (cv qs : Nat) (mode : CodingMode) (jx : List (Nat × List TonalComp)) : List TcEntry :=
  jx.flatMap (fun p => p.2.map (TonalComp.entry T cv qs mode p.1))

theorem tonalReads_positions {cv qs : Nat} {mode : CodingMode} (hcv : cv < 8) (h2 : 2 ≤ qs) (h8 : qs < 8)
    (jx : List (Nat × List TonalComp)) (hx : ∀ p ∈ jx, p.2.length < 8 ∧ ∀ x ∈ p.2, x.ok referenceTables cv qs mode p.1 = true) :
    TonalReads (fun count s => readPositions referenceTables cv qs mode (jx.map Prod.fst) count s)
      (posBits referenceTables qs mode jx) (posEntries referenceTables cv qs mode jx) := by
  induction jx with
  | nil => exact TonalReads.nil
  | cons p rest ih =>
    obtain ⟨j, xs⟩ := p
    have hp := hx (j, xs) (by simp)
    have h1 := tonalReads_components hcv h2 h8 xs hp.2
    have h3 := h1.andThen (ih fun y hy => hx y (List.mem_cons_of_mem _ hy))
    have h4 := TonalReads.field (r := readBits 3) (v := xs.length) (fieldReads_readBits (by simpa using hp.1))
      (g := fun ncc count s => (readComponents referenceTables cv qs mode j ncc count s).andThen fun count1 s2 =>
        readPositions referenceTables cv qs mode (rest.map Prod.fst) count1 s2) h3
    rw [← List.append_assoc] at h4
    exact h4

theorem groupOk_spec {nb cms : Nat} {g : TonalGroup} (h : g.ok referenceTables nb cms = true) :
    g.flags.length = nb + 1 ∧ g.cv < 8 ∧ 2 ≤ g.qs ∧ g.qs < 8 ∧ (cms = 3 ∨ g.mode = CodingMode.ofField (cms % 2)) ∧
      g.comps.length = (activePositions g.flags).length ∧
      ∀ p ∈ (activePositions g.flags).zip g.comps, p.2.length < 8 ∧ ∀ x ∈ p.2, x.ok referenceTables g.cv g.qs g.mode p.1 = true := by
  simp only [TonalGroup.ok, Bool.and_eq_true, Bool.or_eq_true, decide_eq_true_eq, List.all_eq_true] at h
  obtain ⟨⟨⟨⟨⟨⟨⟨h1, h2⟩, h3⟩, h4⟩, h5⟩, h6⟩, h7⟩, h8⟩ := h
  refine ⟨h1, h2, h3, h4, h5, h6, fun p hp => ⟨h7 _ (List.of_mem_zip hp).2, h8 p hp⟩⟩

theorem groupBits_eq {nb cms : Nat} {g : TonalGroup} (h : g.ok referenceTables nb cms = true) :
    g.bits referenceTables cms = g.flags ++ (natBits 3 g.cv ++ (natBits 3 g.qs ++ ((if cms = 3 then [g.mode.bit] else []) ++
      posBits referenceTables g.qs g.mode ((activePositions g.flags).zip g.comps)))) := by
  have h6 := (groupOk_spec h).2.2.2.2.2.1
  have : posBits referenceTables g.qs g.mode ((activePositions g.flags).zip g.comps) =
      (((activePositions g.flags).zip g.comps).map Prod.snd).flatMap
        (fun xs => natBits 3 xs.length ++ xs.flatMap (TonalComp.bits referenceTables g.qs g.mode)) := by
    rw [List.flatMap_map]; rfl
  rw [this, List.map_snd_zip (by omega)]
  simp [TonalGroup.bits]

/-- A declared component that stands on the stream is read. -/
theorem tonalReads_group {nb cms : Nat} {g : TonalGroup} (h : g.ok referenceTables nb cms = true) :
    TonalReads (readGroup referenceTables nb cms) (g.bits referenceTables cms) (g.entries referenceTables) := by
  obtain ⟨h1, h2, h3, h4, h5, h6, h7⟩ := groupOk_spec h
  rw [groupBits_eq h]
  have hpos := tonalReads_positions h2 h3 h4 ((activePositions g.flags).zip g.comps) h7
  rw [List.map_fst_zip (by omega)] at hpos
  have e1 := TonalReads.field (fieldReads_groupMode h5)
    (g := fun mode count s => readPositions referenceTables g.cv g.qs mode (activePositions g.flags) count s) hpos
  have e2 := TonalReads.field (r := readBits 3) (v := g.qs) (fieldReads_readBits (by simpa using h4))
    (g := fun qs count s => if qs ≤ 1 then .raise .tonalQstep
        (BitVec.ofNat 17 (s.bitpos.toNat - 3)) s
      else (readGroupMode cms s).andThen fun mode s4 => readPositions referenceTables g.cv qs mode (activePositions g.flags) count s4)
    (e1.congr fun count s => by rw [if_neg (by omega)])
  have e2' : TonalReads (fun count s2 => (readBits 3 s2).andThen fun qs s3 =>
      if qs ≤ 1 then .raise .tonalQstep s2.bitpos s3
      else (readGroupMode cms s3).andThen fun mode s4 => readPositions referenceTables g.cv qs mode (activePositions g.flags) count s4)
      _ _ := e2.congr fun count s => by
    rcases readBits_cases 3 s with ⟨_, he⟩ | ⟨_, _, he⟩ | ⟨hle, v, _, _, he⟩ <;> rw [he]
    · rfl
    · rfl
    · simp only [Res.andThen_ok]
      split_ifs
      · rw [setBitpos_toNat s hle]
        simp
      · rfl
  have e3 := TonalReads.field (r := readBits 3) (v := g.cv) (fieldReads_readBits (by simpa using h2))
    (g := fun cv count s2 => (readBits 3 s2).andThen fun qs s3 =>
      if qs ≤ 1 then .raise .tonalQstep s2.bitpos s3
      else (readGroupMode cms s3).andThen fun mode s4 => readPositions referenceTables cv qs mode (activePositions g.flags) count s4) e2'
  have e4 := TonalReads.field (r := readFlags g.flags.length) (fieldReads_flags g.flags)
    (g := fun flags count s1 => (readBits 3 s1).andThen fun cv s2 => (readBits 3 s2).andThen fun qs s3 =>
      if qs ≤ 1 then .raise .tonalQstep s2.bitpos s3
      else (readGroupMode cms s3).andThen fun mode s4 => readPositions referenceTables cv qs mode (activePositions flags) count s4) e3
  rw [h1] at e4
  exact e4

theorem tonalReads_groups {nb cms : Nat} (gs : List TonalGroup) (h : ∀ g ∈ gs, g.ok referenceTables nb cms = true) :
    TonalReads (fun count s => readGroups referenceTables nb cms gs.length count s)
      (gs.flatMap (TonalGroup.bits referenceTables cms)) (gs.flatMap (TonalGroup.entries referenceTables)) := by
  induction gs with
  | nil => exact TonalReads.nil
  | cons g rest ih =>
    exact (tonalReads_group (h g (by simp))).andThen (ih fun y hy => h y (List.mem_cons_of_mem _ hy))

theorem blockShape_spec {nb : Nat} {b : TonalBlock} (h : b.shape referenceTables nb = true) :
    b.groups.length ≤ 31 ∧ b.cms < 4 ∧ b.cms ≠ 2 ∧ ∀ g ∈ b.groups, g.ok referenceTables nb b.cms = true := by
  simp only [TonalBlock.shape, Bool.and_eq_true, decide_eq_true_eq, List.all_eq_true] at h
  exact ⟨h.1.1.1, h.1.1.2, h.1.2, h.2⟩

/-- A tonal block that stands on the stream is read (43_tonal.md R166): all of it where it has at most 64 components, else up to the 65th. -/
theorem tonalBody_spelled {c : Config} (hc : c.tables = referenceTables) {nb : Nat} {b : TonalBlock}
    (h : b.shape referenceTables nb = true) {s : State} (hs : onStream s (b.bits referenceTables) = true) :
    ((b.entries referenceTables).length ≤ 64 →
      ∃ m, tonalBody c nb s = .ok (wordOfNat (b.entries referenceTables).length)
          (((s.setBitpos (s.bitpos.toNat + (b.bits referenceTables).length)).withTc m).setTccount (b.entries referenceTables).length) ∧
        Extends m s.tc 0 (b.entries referenceTables)) ∧
    (64 < (b.entries referenceTables).length →
      ∃ i p m, tonalBody c nb s = .raise .tonalCap i (((s.setBitpos p).withTc m).setTccount 64) ∧ p = i.toNat + 6 ∧
        s.bitpos.toNat ≤ i.toNat ∧ p ≤ s.bitpos.toNat + (b.bits referenceTables).length ∧
        Extends m s.tc 0 ((b.entries referenceTables).take 64)) := by
  obtain ⟨h1, h2, h3, h4⟩ := blockShape_spec h
  have hgs := tonalReads_groups b.groups h4
  unfold tonalBody TonalBlock.bits TonalBlock.entries at *
  rw [hc]
  have hs0 : onStream (s.setTccount 0) _ = true := (onStream_setTccount s 0 _).trans hs
  by_cases hnil : b.groups = []
  · rw [hnil] at hs0 ⊢
    simp only [if_true, List.append_nil] at hs0 ⊢
    rw [readBits_spelled (by simp) hs0, Res.andThen_ok]
    simp only [List.length_nil, List.flatMap_nil, if_true, natBits_length]
    refine ⟨fun _ => ⟨s.tc, rfl, Extends.nil _ _⟩, fun h => absurd h (by omega)⟩
  · simp only [if_neg hnil] at hs0 ⊢
    have hpos : 0 < b.groups.length := List.length_pos_of_ne_nil hnil
    have e0 := TonalReads.field (r := readBits 2) (v := b.cms) (fieldReads_readBits (by simpa using h2))
      (g := fun cms count s => if cms = 2 then .raise .tonalMode (BitVec.ofNat 17 (s.bitpos.toNat - 2)) s
        else readGroups referenceTables nb cms b.groups.length count s)
      (hgs.congr fun count s => by rw [if_neg h3])
    have e1 := TonalReads.field (r := readBits 5) (v := b.groups.length)
      (fieldReads_readBits (by have : b.groups.length < 32 := by omega
                               simpa using this))
      (g := fun nc count s => if nc = 0 then Res.ok 0 s else
        (readBits 2 s).andThen fun cms s => if cms = 2 then .raise .tonalMode (BitVec.ofNat 17 (s.bitpos.toNat - 2)) s
        else readGroups referenceTables nb cms nc count s)
      (e0.congr fun count s => by rw [if_neg (by omega)])
    obtain ⟨a1, a2⟩ := e1 0 (s.setTccount 0) rfl (by omega) hs0
    simp only [Nat.zero_add, Nat.sub_zero] at a1 a2
    have hbody : ((readBits 5 (s.setTccount 0)).andThen fun nc s1 =>
        if nc = 0 then Res.ok 0#32 s1
        else (readBits 2 s1).andThen fun cms s2 => if cms = 2 then .raise .tonalMode s1.bitpos s2
          else (readGroups referenceTables nb cms nc 0 s2).andThen fun count s3 => Res.ok (wordOfNat count) s3) =
        (((readBits 5 (s.setTccount 0)).andThen fun nc s => if nc = 0 then Res.ok 0 s else
          (readBits 2 s).andThen fun cms s => if cms = 2 then .raise .tonalMode (BitVec.ofNat 17 (s.bitpos.toNat - 2)) s
          else readGroups referenceTables nb cms nc 0 s)).andThen fun count s3 => Res.ok (wordOfNat count) s3 := by
      rw [Res.andThen_assoc]
      congr 1
      funext nc s1
      split_ifs
      · rfl
      · rw [Res.andThen_assoc]
        rcases readBits_cases 2 s1 with ⟨_, he⟩ | ⟨_, _, he⟩ | ⟨hle, v, _, _, he⟩ <;> rw [he]
        · rfl
        · rfl
        · simp only [Res.andThen_ok]
          split_ifs
          · rw [setBitpos_toNat s1 hle]
            simp
          · rfl
    rw [hbody]
    constructor
    · intro hle
      obtain ⟨m, e, x⟩ := a1 hle
      exact ⟨m, by rw [e]; rfl, x⟩
    · intro hgt
      obtain ⟨i, p, m, e, p1, p2, p3, x⟩ := a2 hgt
      exact ⟨i, p, m, by rw [e]; rfl, p1, p2, p3, x⟩

/-! ### Parts that were read -/

theorem natBits_one_eq {v : Nat} (h : v < 2) : natBits 1 v = [decide (v = 1)] := by
  interval_cases v <;> rfl

theorem readFlags_stood (n : Nat) {s t : State} {l : List Bool} (hle : s.bitpos.toNat ≤ s.bitlen.toNat) (h : readFlags n s = .ok l t) :
    l.length = n ∧ StoodOn s l t := by
  induction n generalizing s t l with
  | zero => cases h; exact ⟨rfl, StoodOn.refl hle⟩
  | succ n ih =>
    simp only [readFlags] at h
    obtain ⟨v, s1, h1, h⟩ := Res.andThen_eq_ok.1 h
    obtain ⟨l', s2, h2, h⟩ := Res.andThen_eq_ok.1 h
    cases h
    obtain ⟨a1, a2⟩ := readBits_stood h1
    obtain ⟨b1, b2⟩ := ih a2.le h2
    rw [natBits_one_eq (by simpa using a1)] at a2
    exact ⟨by simp [b1], a2.trans b2⟩

theorem readGroupMode_stood {cms : Nat} {s t : State} {mode : CodingMode} (hle : s.bitpos.toNat ≤ s.bitlen.toNat)
    (h : readGroupMode cms s = .ok mode t) :
    (cms = 3 ∨ mode = CodingMode.ofField (cms % 2)) ∧ StoodOn s (if cms = 3 then [mode.bit] else []) t := by
  unfold readGroupMode at h
  split_ifs at h ⊢ with h3
  · obtain ⟨v, s1, h1, h⟩ := Res.andThen_eq_ok.1 h
    cases h
    obtain ⟨a1, a2⟩ := readBits_stood h1
    refine ⟨.inl h3, ?_⟩
    have hv : v < 2 := by simpa using a1
    rw [natBits_one_eq hv] at a2
    interval_cases v <;> exact a2
  · cases h; exact ⟨.inr rfl, StoodOn.refl hle⟩

theorem readPlaced_stood {cv qs j count sfi : Nat} {mode : CodingMode} (hcv : cv < 8) (h2 : 2 ≤ qs) (h8 : qs < 8) (hsfi : sfi < 64)
    {s t : State} (h : readPlaced referenceTables cv qs mode j count sfi s = .ok () t) :
    ∃ x : TonalComp, x.sfi = sfi ∧ x.ok referenceTables cv qs mode j = true ∧
      StoodOn s (natBits 6 x.place ++ mantBits referenceTables qs mode x.codes) t := by
  have h0 := h
  unfold readPlaced at h
  obtain ⟨p, s2, hp, h⟩ := Res.andThen_eq_ok.1 h
  simp only at h
  obtain ⟨_, s4, hm, -⟩ := Res.andThen_eq_ok.1 h
  obtain ⟨b1, b2⟩ := readBits_stood hp
  unfold mantExtract at hm
  rw [codeCount_of_two_le h2] at hm
  obtain ⟨codes, c1, c2, c3⟩ := mantCodes_ok (by omega) h8 (writer_tc count) _ _ _ _
    (by simpa only [State.writeTc_bitpos, State.writeTc_bitlen] using b2.le) hm
  have hx : TonalComp.ok referenceTables cv qs mode j ⟨sfi, p, codes⟩ = true := by
    simp only [TonalComp.ok, Bool.and_eq_true, decide_eq_true_eq, List.all_eq_true]
    exact ⟨⟨⟨hsfi, by simpa using b1⟩, by unfold coefCount; exact c1⟩, c2⟩
  simp only [onStream_writeTc] at c3
  refine ⟨⟨sfi, p, codes⟩, rfl, hx, ?_⟩
  have hon : onStream s (natBits 6 p ++ mantBits referenceTables qs mode codes) = true := by
    refine (onStream_append _ _ _).2 ⟨b2.on, ?_⟩
    rw [← c3]
    exact (onStream_congr (t := s2) (s := s.setBitpos (s.bitpos.toNat + (natBits 6 p).length)) b2.fb b2.bitpos b2.bitlen _).symm
  obtain ⟨m, e, -⟩ := readPlaced_spelled (count := count) (sfi := sfi) hcv h2 h8 hx hon
  have ht := h0.symm.trans e
  simp only [Res.ok.injEq, true_and] at ht
  exact ⟨hon, (congrArg State.fb ht).trans rfl, (congrArg State.bitlen ht).trans rfl, (congrArg State.bitpos ht).trans rfl⟩

theorem readComponent_stood {cv qs j count : Nat} {mode : CodingMode} (hcv : cv < 8) (h2 : 2 ≤ qs) (h8 : qs < 8) {s t : State}
    (hc : count ≤ 64) (h : readComponent referenceTables cv qs mode j count s = .ok () t) :
    count < 64 ∧ ∃ x : TonalComp, x.ok referenceTables cv qs mode j = true ∧ StoodOn s (x.bits referenceTables qs mode) t := by
  unfold readComponent at h
  obtain ⟨sfi, s1, h1, h⟩ := Res.andThen_eq_ok.1 h
  split_ifs at h with hcap
  have hlt : count < 64 := by have : tcMax = 64 := rfl; omega
  obtain ⟨a1, a2⟩ := readBits_stood h1
  obtain ⟨x, rfl, hx, hs⟩ := readPlaced_stood hcv h2 h8 (by simpa using a1) h
  refine ⟨hlt, x, hx, ?_⟩
  unfold TonalComp.bits
  rw [List.append_assoc]
  exact a2.trans hs

theorem readComponents_stood {cv qs j : Nat} {mode : CodingMode} (hcv : cv < 8) (h2 : 2 ≤ qs) (h8 : qs < 8) (n count : Nat) {s t : State}
    {m : Nat} (hc : count ≤ 64) (hle : s.bitpos.toNat ≤ s.bitlen.toNat)
    (h : readComponents referenceTables cv qs mode j n count s = .ok m t) :
    m ≤ 64 ∧ ∃ xs : List TonalComp, xs.length = n ∧ m = count + n ∧ (∀ x ∈ xs, x.ok referenceTables cv qs mode j = true) ∧
      StoodOn s (xs.flatMap (TonalComp.bits referenceTables qs mode)) t := by
  induction n generalizing count s with
  | zero => cases h; exact ⟨hc, [], rfl, rfl, by simp, StoodOn.refl hle⟩
  | succ n ih =>
    simp only [readComponents] at h
    obtain ⟨_, s1, h1, h⟩ := Res.andThen_eq_ok.1 h
    obtain ⟨a0, x, a1, a2⟩ := readComponent_stood hcv h2 h8 hc h1
    obtain ⟨b0, xs, b1, b2, b3, b4⟩ := ih (count + 1) (by omega) a2.le h
    refine ⟨b0, x :: xs, by simp [b1], by omega, ?_, a2.trans b4⟩
    intro y hy
    rcases List.mem_cons.1 hy with hy | hy
    · subst hy; exact a1
    · exact b3 y hy

theorem readPositions_stood {cv qs : Nat} {mode : CodingMode} (hcv : cv < 8) (h2 : 2 ≤ qs) (h8 : qs < 8) (js : List Nat) (count : Nat)
    {s t : State} {m : Nat} (hc : count ≤ 64) (hle : s.bitpos.toNat ≤ s.bitlen.toNat)
    (h : readPositions referenceTables cv qs mode js count s = .ok m t) :
    m ≤ 64 ∧ ∃ jx : List (Nat × List TonalComp), jx.map Prod.fst = js ∧
      m = count + (posEntries referenceTables cv qs mode jx).length ∧
      (∀ p ∈ jx, p.2.length < 8 ∧ ∀ x ∈ p.2, x.ok referenceTables cv qs mode p.1 = true) ∧
      StoodOn s (posBits referenceTables qs mode jx) t := by
  induction js generalizing count s with
  | nil => cases h; exact ⟨hc, [], rfl, rfl, by simp, StoodOn.refl hle⟩
  | cons j rest ih =>
    simp only [readPositions] at h
    obtain ⟨ncc, s1, h1, h⟩ := Res.andThen_eq_ok.1 h
    obtain ⟨m1, s2, h2', h⟩ := Res.andThen_eq_ok.1 h
    obtain ⟨a1, a2⟩ := readBits_stood h1
    obtain ⟨b0, xs, b1, b2, b3, b4⟩ := readComponents_stood hcv h2 h8 ncc count hc a2.le h2'
    obtain ⟨c0, jx, c1, c2, c3, c4⟩ := ih m1 b0 b4.le h
    have hncc : ncc < 8 := by simpa using a1
    refine ⟨c0, (j, xs) :: jx, by simp [c1], ?_, ?_, ?_⟩
    · simp only [posEntries, List.flatMap_cons, List.length_append, List.length_map] at c2 ⊢
      omega
    · intro p hp
      rcases List.mem_cons.1 hp with hp | hp
      · subst hp; exact ⟨by simpa [b1] using hncc, b3⟩
      · exact c3 p hp
    · have := (a2.trans b4).trans c4
      rw [← b1] at this
      exact this

theorem readGroup_stood {nb cms count : Nat} {s t : State} {m : Nat} (hc : count ≤ 64) (hle : s.bitpos.toNat ≤ s.bitlen.toNat)
    (h : readGroup referenceTables nb cms count s = .ok m t) :
    m ≤ 64 ∧ ∃ g : TonalGroup, g.ok referenceTables nb cms = true ∧ m = count + (g.entries referenceTables).length ∧
      StoodOn s (g.bits referenceTables cms) t := by
  unfold readGroup at h
  obtain ⟨flags, s1, h1, h⟩ := Res.andThen_eq_ok.1 h
  obtain ⟨cv, s2, h2, h⟩ := Res.andThen_eq_ok.1 h
  obtain ⟨qs, s3, h3, h⟩ := Res.andThen_eq_ok.1 h
  split_ifs at h with hq
  obtain ⟨mode, s4, h4, h⟩ := Res.andThen_eq_ok.1 h
  obtain ⟨a1, a2⟩ := readFlags_stood _ hle h1
  obtain ⟨b1, b2⟩ := readBits_stood h2
  obtain ⟨c1, c2⟩ := readBits_stood h3
  obtain ⟨d1, d2⟩ := readGroupMode_stood c2.le h4
  have hcv : cv < 8 := by simpa using b1
  have hqs : qs < 8 := by simpa using c1
  obtain ⟨e0, jx, e1, e2, e3, e4⟩ := readPositions_stood hcv (by omega) hqs _ _ hc d2.le h
  have hz : (activePositions flags).zip (jx.map Prod.snd) = jx := by
    rw [← e1]; exact (List.zip_of_prod rfl rfl).symm
  have hok : TonalGroup.ok referenceTables nb cms ⟨flags, cv, qs, mode, jx.map Prod.snd⟩ = true := by
    simp only [TonalGroup.ok, Bool.and_eq_true, Bool.or_eq_true, decide_eq_true_eq, List.all_eq_true]
    refine ⟨⟨⟨⟨⟨⟨⟨a1, hcv⟩, by omega⟩, hqs⟩, d1⟩, ?_⟩, ?_⟩, ?_⟩
    · rw [← e1]; simp
    · intro xs hxs
      obtain ⟨p, hp, rfl⟩ := List.mem_map.1 hxs
      exact (e3 p hp).1
    · rw [hz]
      exact fun p hp => (e3 p hp).2
  refine ⟨e0, ⟨flags, cv, qs, mode, jx.map Prod.snd⟩, hok, ?_, ?_⟩
  · unfold TonalGroup.entries
    simp only
    rw [hz]
    exact e2
  · rw [groupBits_eq hok]
    simp only
    rw [hz]
    exact a2.trans (b2.trans (c2.trans (d2.trans e4)))

theorem readGroups_stood {nb cms : Nat} (n count : Nat) {s t : State} {m : Nat} (hc : count ≤ 64) (hle : s.bitpos.toNat ≤ s.bitlen.toNat)
    (h : readGroups referenceTables nb cms n count s = .ok m t) :
    m ≤ 64 ∧ ∃ gs : List TonalGroup, gs.length = n ∧ (∀ g ∈ gs, g.ok referenceTables nb cms = true) ∧
      m = count + (gs.flatMap (TonalGroup.entries referenceTables)).length ∧
      StoodOn s (gs.flatMap (TonalGroup.bits referenceTables cms)) t := by
  induction n generalizing count s with
  | zero => cases h; exact ⟨hc, [], rfl, by simp, rfl, StoodOn.refl hle⟩
  | succ n ih =>
    simp only [readGroups] at h
    obtain ⟨m1, s1, h1, h⟩ := Res.andThen_eq_ok.1 h
    obtain ⟨a0, g, a1, a2, a3⟩ := readGroup_stood hc hle h1
    obtain ⟨b0, gs, b1, b2, b3, b4⟩ := ih m1 a0 a3.le h
    refine ⟨b0, g :: gs, by simp [b1], ?_, ?_, a3.trans b4⟩
    · intro y hy
      rcases List.mem_cons.1 hy with hy | hy
      · subst hy; exact a1
      · exact b2 y hy
    · simp only [List.flatMap_cons, List.length_append]; omega

/-- A tonal block that was read stood on the stream. -/
theorem tonalBody_stood {c : Config} (hc : c.tables = referenceTables) {nb : Nat} {s t : State} {v : Word}
    (h : tonalBody c nb s = .ok v t) :
    ∃ b : TonalBlock, b.ok referenceTables nb = true ∧ onStream s (b.bits referenceTables) = true := by
  unfold tonalBody at h
  rw [hc] at h
  obtain ⟨nc, s1, h1, h⟩ := Res.andThen_eq_ok.1 h
  obtain ⟨a1, a2⟩ := readBits_stood h1
  have hnc : nc < 32 := by simpa using a1
  have a2' : onStream s (natBits 5 nc) = true := (onStream_setTccount s 0 _).symm.trans a2.on
  split_ifs at h with h0
  · refine ⟨⟨0, []⟩, rfl, ?_⟩
    subst h0
    simpa [TonalBlock.bits] using a2'
  · obtain ⟨cms, s2, h2, h⟩ := Res.andThen_eq_ok.1 h
    split_ifs at h with hm
    obtain ⟨m, s3, h3, h⟩ := Res.andThen_eq_ok.1 h
    obtain ⟨b1, b2⟩ := readBits_stood h2
    obtain ⟨c0, gs, c1, c2, c3, c4⟩ := readGroups_stood _ _ (by omega) b2.le h3
    have hcms : cms < 4 := by simpa using b1
    refine ⟨⟨cms, gs⟩, ?_, ?_⟩
    · simp only [TonalBlock.ok, TonalBlock.shape, TonalBlock.entries, Bool.and_eq_true, decide_eq_true_eq, List.all_eq_true]
      have : tcMax = 64 := rfl
      exact ⟨⟨⟨⟨by omega, hcms⟩, hm⟩, c2⟩, decide_eq_true (by omega)⟩
    · unfold TonalBlock.bits
      simp only
      have hnil : gs ≠ [] := by intro h'; rw [h'] at c1; simp at c1; omega
      rw [if_neg hnil, c1]
      exact (onStream_setTccount s 0 _).symm.trans (a2.trans (b2.trans c4)).on

end Sys2Proof.Machine
end

