-- ==== Sys2Proof/Laws/TonalErrors.lean ====
section
/-! SUPPORT. Where a tonal block breaks off at an illegal quantization-step index (43_tonal.md R164, R168). -/

namespace Sys2Proof.Machine

theorem readGroups_add (T : Tables) (nb cms a b count : Nat) (s : State) :
    readGroups T nb cms (a + b) count s = (readGroups T nb cms a count s).andThen fun c1 s1 => readGroups T nb cms b c1 s1 := by
  induction a generalizing count s with
  | zero => simp [readGroups]
  | succ a ih =>
    rw [show a + 1 + b = (a + b) + 1 by omega]
    simp only [readGroups, Res.andThen_assoc, ih]

/-- A declared component whose quantization-step index is 0 or 1 (43_tonal.md R168). -/
theorem readGroup_qstep {T : Tables} {nb cms count cv qs : Nat} {flags : List Bool} {s : State} (hf : flags.length = nb + 1)
    (hcv : cv < 8) (hqs : qs < 2) (h : onStream s (flags ++ (natBits 3 cv ++ natBits 3 qs)) = true) :
    ∃ i, readGroup T nb cms count s = .raise .tonalQstep i (s.setBitpos (s.bitpos.toNat + flags.length + 6)) ∧
      i.toNat = s.bitpos.toNat + flags.length + 3 := by
  have hall := onStream_le h
  rw [onStream_append, onStream_append] at h
  obtain ⟨h1, h2, h3⟩ := h
  have e1 := fieldReads_flags flags s h1
  have p1 := onStream_bitpos h1
  have e2 := fieldReads_readBits (n := 3) (v := cv) (by simpa using hcv) _ h2
  have p2 := onStream_bitpos h2
  have e3 := fieldReads_readBits (n := 3) (v := qs) (by simp; omega) _ h3
  simp only [natBits_length, List.length_append, p1, setBitpos_setBitpos] at e1 e2 e3 p2 hall
  have hb := s.bitlen.isLt
  refine ⟨_, ?_, p2⟩
  unfold readGroup
  rw [← hf, e1, Res.andThen_ok, e2, Res.andThen_ok]
  rw [p2] at e3
  rw [e3, Res.andThen_ok, if_pos (by omega)]

/-- A tonal block that breaks off at a quantization-step index 0 or 1, at bit `p` (43_tonal.md R164, R168): TC holds the components before. -/
theorem tonalBody_qstep {c : Config} (hc : c.tables = referenceTables) {nb nc cms cv qs p : Nat} {gs : List TonalGroup} {flags : List Bool}
    {s : State} (hnc : nc < 32) (hg : gs.length < nc) (h4 : cms < 4) (h2 : cms ≠ 2) (hgs : ∀ g ∈ gs, g.ok referenceTables nb cms = true)
    (h64 : (gs.flatMap (TonalGroup.entries referenceTables)).length ≤ 64) (hf : flags.length = nb + 1) (hcv : cv < 8) (hqs : qs < 2)
    (h : onStream s (natBits 5 nc ++ (natBits 2 cms ++ (gs.flatMap (TonalGroup.bits referenceTables cms) ++
      (flags ++ (natBits 3 cv ++ natBits 3 qs))))) = true)
    (hp : p = s.bitpos.toNat + 7 + (gs.flatMap (TonalGroup.bits referenceTables cms)).length + flags.length + 3) :
    ∃ m, tonalBody c nb s = .raise .tonalQstep (BitVec.ofNat 17 p)
        (((s.setBitpos (p + 3)).withTc m).setTccount (gs.flatMap (TonalGroup.entries referenceTables)).length) ∧
      Extends m s.tc 0 (gs.flatMap (TonalGroup.entries referenceTables)) := by
  have hall := onStream_le h
  have hb := s.bitlen.isLt
  rw [← onStream_setTccount s 0, onStream_append, onStream_append, onStream_append] at h
  obtain ⟨h1, h2', h3, h5⟩ := h
  have p1 := onStream_bitpos h1
  have p2 := onStream_bitpos h2'
  have p3 := onStream_bitpos h3
  have e1 := fieldReads_readBits (n := 5) (v := nc) (by simpa using hnc) _ h1
  have e2 := fieldReads_readBits (n := 2) (v := cms) (by simpa using h4) _ h2'
  obtain ⟨m, e3, x⟩ := (tonalReads_groups gs hgs 0 _ rfl (by omega) h3).1 (by omega)
  unfold tonalBody
  rw [e1, Res.andThen_ok, if_neg (by omega), e2, Res.andThen_ok, if_neg h2]
  rw [show nc = gs.length + ((nc - gs.length - 1) + 1) by omega, hc, readGroups_add]
  simp only [Nat.zero_add] at e3
  have p0 : (s.setTccount 0).bitpos.toNat = s.bitpos.toNat := rfl
  simp only [natBits_length, List.length_append, setBitpos_setBitpos] at hall p1 p2 p3 h5 e3 ⊢
  rw [p1] at p2
  rw [p1] at p3 h5 e3 ⊢
  rw [p2] at p3 h5 e3
  rw [p0] at *
  rw [e3, Res.andThen_ok]
  simp only [readGroups]
  obtain ⟨i, e, hi⟩ := readGroup_qstep (T := referenceTables) (nb := nb) (cms := cms)
    (count := (gs.flatMap (TonalGroup.entries referenceTables)).length) hf hcv hqs
    (s := (((s.setTccount 0).setBitpos (s.bitpos.toNat + 5 + 2 + (gs.flatMap (TonalGroup.bits referenceTables cms)).length)).withTc m).setTccount
      ((gs.flatMap (TonalGroup.entries referenceTables)).length)) (by simpa using h5)
  have p4 : ((((s.setTccount 0).setBitpos (s.bitpos.toNat + 5 + 2 + (gs.flatMap (TonalGroup.bits referenceTables cms)).length)).withTc m).setTccount
      ((gs.flatMap (TonalGroup.entries referenceTables)).length)).bitpos.toNat = s.bitpos.toNat + 5 + 2 + (gs.flatMap (TonalGroup.bits referenceTables cms)).length := p3
  rw [p4] at hi e
  rw [e]
  refine ⟨m, ?_, x⟩
  rw [show i = BitVec.ofNat 17 p by
      apply BitVec.eq_of_toNat_eq
      rw [hi, BitVec.toNat_ofNat, Nat.mod_eq_of_lt (by omega), hp],
    show s.bitpos.toNat + 5 + 2 + (gs.flatMap (TonalGroup.bits referenceTables cms)).length + flags.length + 6 = p + 3 by omega]
  rfl

/-- The coding-mode selector 2 (43_tonal.md R163). -/
theorem tonalBody_mode (c : Config) (nb : Nat) {nc : Nat} (h1 : 1 ≤ nc) (h32 : nc < 32) {s : State}
    (h : onStream s (natBits 5 nc ++ natBits 2 2) = true) :
    tonalBody c nb s = .raise .tonalMode (BitVec.ofNat 17 (s.bitpos.toNat + 5)) ((s.setBitpos (s.bitpos.toNat + 7)).setTccount 0) := by
  rw [← onStream_setTccount s 0, onStream_append] at h
  have hp := onStream_bitpos h.1
  rw [natBits_length] at hp
  unfold tonalBody
  rw [readBits_spelled (v := nc) (by simpa using h32) h.1, Res.andThen_ok, if_neg (by omega),
    readBits_spelled (v := 2) (by decide) (by simpa using h.2), Res.andThen_ok, if_pos rfl, hp]
  rfl

end Sys2Proof.Machine
end

