-- ==== Sys2Proof/Laws/Overruns.lean ====
section
/-! SUPPORT. Where a command breaks off at BITLEN (40_bitread.md R100, R110, R111), at a codeword no table has (R110) or at a bit never
written (60_exceptions.md R224), and what it has written by then (R217). -/

namespace Sys2Proof.Machine

/-! ### Fields, codewords and mantissa codes -/

theorem readBits_short {s : State} {n : Nat} (h : s.bitlen.toNat < s.bitpos.toNat + n) : readBits n s = .raise .overrun s.bitpos s := by
  unfold readBits
  rw [if_pos h]

/-- A field within BITLEN with a bit never written (60_exceptions.md R224). -/
theorem readBits_unwritten {s : State} {n k : Nat} (h : s.bitpos.toNat + n ≤ s.bitlen.toNat) (hk : k < n)
    (hu : s.fb.read ((s.bitpos.toNat + k) / 8) = none) : readBits n s = .fault .fbUnwritten := by
  unfold readBits
  rw [if_neg (by omega), fieldAt_eq_none.2 ⟨s.bitpos.toNat + k, by omega, by omega, hu⟩]

theorem huffLoop_short {book : List Code} {s : State} {c : Code}
    (hnone : ∀ l, 1 ≤ l → l < c.len → findSymbol book l (c.word / 2 ^ (c.len - l)) = none) {k : Nat} (hk : k < c.len)
    (hle : s.bitlen.toNat ≤ s.bitpos.toNat + k) :
    ∀ r len more, len + r = k → r < more → spells s (s.bitpos.toNat + len) ((natBits (c.len - len) c.word).take r) = true →
      huffLoop book s more len (c.word / 2 ^ (c.len - len)) = .raise .overrun s.bitpos s := by
  intro r
  induction r with
  | zero =>
    intro len more h1 h2 _
    obtain ⟨m, rfl⟩ : ∃ m, more = m + 1 := ⟨more - 1, by omega⟩
    unfold huffLoop
    rw [if_pos (by omega)]
  | succ r ih =>
    intro len more h1 h2 h3
    obtain ⟨m, rfl⟩ : ∃ m, more = m + 1 := ⟨more - 1, by omega⟩
    unfold huffLoop
    by_cases hb : s.bitlen.toNat < s.bitpos.toNat + len + 1
    · rw [if_pos hb]
    · rw [if_neg hb]
      obtain ⟨q, hq⟩ : ∃ q, c.len - len = q + 1 := ⟨c.len - len - 1, by omega⟩
      rw [hq] at h3 ⊢
      simp only [natBits, List.take_succ_cons, spells, Bool.and_eq_true, decide_eq_true_eq] at h3
      rw [h3.1]
      simp only []
      rw [div_two_pow_step]
      have hn := hnone (len + 1) (by omega) (by omega)
      rw [show c.len - (len + 1) = q by omega] at hn
      rw [hn]
      have := ih (len + 1) m (by omega) (by omega) (by rw [show c.len - (len + 1) = q by omega]; exact h3.2)
      rwa [show c.len - (len + 1) = q by omega] at this

/-- A codeword of which only a proper beginning stands before BITLEN (40_bitread.md R110). -/
theorem huffDecode_short {s : State} {t : Nat} (h1 : 1 ≤ t) (h8 : t < 8) {c : Code} (hc : c ∈ huffCodes referenceTables t) {k : Nat}
    (hk : k < c.len) (hs : spells s s.bitpos.toNat ((natBits c.len c.word).take k) = true) (hle : s.bitlen.toNat ≤ s.bitpos.toNat + k) :
    huffDecode referenceTables t s = .raise .overrun s.bitpos s := by
  obtain ⟨-, -, b2, b3, -, b5⟩ := bookOk_spec (reference_bookOk t h1 h8) hc
  have := huffLoop_short b5 hk hle k 0 (huffMaxLen referenceTables t) (by omega) (by omega) (by simpa using hs)
  rwa [Nat.sub_zero, Nat.div_eq_of_lt b3] at this

theorem huffLoop_unwritten {book : List Code} {s : State} {c : Code}
    (hnone : ∀ l, 1 ≤ l → l < c.len → findSymbol book l (c.word / 2 ^ (c.len - l)) = none) {k : Nat} (hk : k < c.len)
    (hlt : s.bitpos.toNat + k < s.bitlen.toNat) (hu : s.fb.read ((s.bitpos.toNat + k) / 8) = none) :
    ∀ r len more, len + r = k → r < more → spells s (s.bitpos.toNat + len) ((natBits (c.len - len) c.word).take r) = true →
      huffLoop book s more len (c.word / 2 ^ (c.len - len)) = .fault .fbUnwritten := by
  intro r
  induction r with
  | zero =>
    intro len more h1 h2 _
    obtain ⟨m, rfl⟩ : ∃ m, more = m + 1 := ⟨more - 1, by omega⟩
    unfold huffLoop
    rw [if_neg (by omega), show len = k by omega, fbBit_eq_none.2 hu]
  | succ r ih =>
    intro len more h1 h2 h3
    obtain ⟨m, rfl⟩ : ∃ m, more = m + 1 := ⟨more - 1, by omega⟩
    unfold huffLoop
    rw [if_neg (by omega)]
    obtain ⟨q, hq⟩ : ∃ q, c.len - len = q + 1 := ⟨c.len - len - 1, by omega⟩
    rw [hq] at h3 ⊢
    simp only [natBits, List.take_succ_cons, spells, Bool.and_eq_true, decide_eq_true_eq] at h3
    rw [h3.1]
    simp only []
    rw [div_two_pow_step]
    have hn := hnone (len + 1) (by omega) (by omega)
    rw [show c.len - (len + 1) = q by omega] at hn
    rw [hn]
    have := ih (len + 1) m (by omega) (by omega) (by rw [show c.len - (len + 1) = q by omega]; exact h3.2)
    rwa [show c.len - (len + 1) = q by omega] at this

/-- A codeword of which a beginning stands on the stream and the next bit has never been written (60_exceptions.md R224). -/
theorem huffDecode_unwritten {s : State} {t : Nat} (h1 : 1 ≤ t) (h8 : t < 8) {c : Code} (hc : c ∈ huffCodes referenceTables t) {k : Nat}
    (hk : k < c.len) (hs : spells s s.bitpos.toNat ((natBits c.len c.word).take k) = true) (hlt : s.bitpos.toNat + k < s.bitlen.toNat)
    (hu : s.fb.read ((s.bitpos.toNat + k) / 8) = none) : huffDecode referenceTables t s = .fault .fbUnwritten := by
  obtain ⟨-, -, b2, b3, -, b5⟩ := bookOk_spec (reference_bookOk t h1 h8) hc
  have := huffLoop_unwritten b5 hk hlt hu k 0 (huffMaxLen referenceTables t) (by omega) (by omega) (by simpa using hs)
  rwa [Nat.sub_zero, Nat.div_eq_of_lt b3] at this

theorem huffLoop_badCode {book : List Code} {s : State} {bits : List Bool}
    (hno : ∀ code ∈ book, ∀ k, k ≤ bits.length → bits.take k ≠ natBits code.len code.word)
    (hs : spells s s.bitpos.toNat bits = true) (hle : s.bitpos.toNat + bits.length ≤ s.bitlen.toNat) :
    ∀ more len word, len + more = bits.length → word < 2 ^ len → natBits len word = bits.take len →
      huffLoop book s more len word = .raise .badCode s.bitpos s := by
  intro more
  induction more with
  | zero => intro len word _ _ _; rfl
  | succ more ih =>
    intro len word h1 hlt h2
    have hlen : len < bits.length := by omega
    have hsplit : bits = bits.take len ++ bits[len] :: bits.drop (len + 1) := by simp
    have hbit : fbBit s (s.bitpos.toNat + len) = some bits[len] := by
      rw [hsplit, spells_append, Bool.and_eq_true] at hs
      have := hs.2
      simp only [spells, Bool.and_eq_true, decide_eq_true_eq, List.length_take] at this
      rw [Nat.min_eq_left (by omega)] at this
      exact this.1
    have hnext : natBits (len + 1) (2 * word + bits[len].toNat) = bits.take (len + 1) := by
      have hstep : ∀ n v (b : Bool), natBits (n + 1) (2 * v + b.toNat) = natBits n v ++ [b] := by
        intro n v b
        have ht : ∀ i, (2 * v + b.toNat).testBit (i + 1) = v.testBit i := by
          intro i
          rw [Nat.testBit_succ]
          congr 1
          cases b <;> simp; omega
        induction n with
        | zero =>
          have : (2 * v + b.toNat).testBit 0 = b := by cases b <;> simp [Nat.testBit_zero]
          simp [natBits, this]
        | succ n ihn =>
          rw [natBits, ihn, ht]
          rfl
      rw [hstep, h2, List.take_succ_eq_append_getElem hlen]
    unfold huffLoop
    rw [if_neg (by omega), hbit]
    have hsym : findSymbol book (len + 1) (2 * word + bits[len].toNat) = none := by
      cases hf : findSymbol book (len + 1) (2 * word + bits[len].toNat) with
      | none => rfl
      | some sym =>
        obtain ⟨c, hc, -, e1, e2⟩ := findSymbol_mem hf
        exact absurd (by rw [e1, e2, hnext]) (hno c hc (len + 1) hlen)
    simp only [hsym]
    have hb : bits[len].toNat < 2 := by cases bits[len] <;> simp
    exact ih (len + 1) _ (by omega) (by rw [pow_succ]; omega) hnext

/-- Bits that begin with no codeword of the table (40_bitread.md R110). -/
theorem huffDecode_badCode {T : Tables} {t : Nat} {s : State} {bits : List Bool} (hl : bits.length = huffMaxLen T t)
    (hs : onStream s bits = true) (hno : ∀ code ∈ huffCodes T t, ∀ k, k ≤ bits.length → bits.take k ≠ natBits code.len code.word) :
    huffDecode T t s = .raise .badCode s.bitpos s := by
  obtain ⟨h1, h2⟩ := (onStream_iff _ _).1 hs
  exact huffLoop_badCode hno h1 h2 _ 0 0 (by omega) (by simp) (by simp [natBits])

theorem codeCut_congr {T : Tables} {sel : Nat} {mode : CodingMode} {s t : State} {p : Nat} (hf : t.fb = s.fb) (hl : t.bitlen = s.bitlen)
    (h : codeCut T sel mode s p) : codeCut T sel mode t p := by
  cases mode with
  | clc => simpa only [codeCut, hl] using h
  | vlc => simpa only [codeCut, hl, spells_congr hf] using h

theorem readCode_cut {sel : Nat} {mode : CodingMode} (h1 : 1 ≤ sel) (h8 : sel < 8) {s : State} (hle : s.bitpos.toNat ≤ s.bitlen.toNat)
    (h : codeCut referenceTables sel mode s s.bitpos.toNat) : readCode referenceTables sel mode s = .raise .overrun s.bitpos s := by
  cases mode with
  | clc =>
    simp only [codeCut] at h
    simp only [readCode]
    rw [if_neg (by omega), readBits_short h]
  | vlc =>
    obtain ⟨c, hc, k, hk, hs, hb⟩ := h
    exact huffDecode_short h1 h8 hc hk hs hb

theorem mantCodes_add (T : Tables) (sel : Nat) (mode : CodingMode) (dst : Nat → Int → State → State) (a b k : Nat) (s : State) :
    mantCodes T sel mode dst (a + b) k s =
      (mantCodes T sel mode dst a k s).andThen fun _ s1 => mantCodes T sel mode dst b (k + a * perCode sel) s1 := by
  induction a generalizing k s with
  | zero => simp [mantCodes]
  | succ a ih =>
    rw [show a + 1 + b = (a + b) + 1 by omega]
    simp only [mantCodes, Res.andThen_assoc, ih]
    rw [show k + perCode sel + a * perCode sel = k + (a + 1) * perCode sel by ring]

/-- A run of codes that breaks off after `codes`: their mantissas have been delivered (41_mantissa.md R120). -/
theorem mantCodes_cut {sel : Nat} {mode : CodingMode} (h1 : 1 ≤ sel) (h8 : sel < 8) {dst : Nat → Int → State → State} (hw : Writer dst)
    {codes : List Nat} {n : Nat} (hn : codes.length < n) (s : State)
    (hc : ∀ raw ∈ codes, codeOk referenceTables sel mode raw = true) (h : onStream s (mantBits referenceTables sel mode codes) = true)
    (hcut : codeCut referenceTables sel mode s (s.bitpos.toNat + (mantBits referenceTables sel mode codes).length)) :
    mantCodes referenceTables sel mode dst n 0 s =
      .raise .overrun (BitVec.ofNat 17 (s.bitpos.toNat + (mantBits referenceTables sel mode codes).length))
        ((deliver dst 0 (mantValues referenceTables sel mode codes) s).setBitpos
          (s.bitpos.toNat + (mantBits referenceTables sel mode codes).length)) := by
  have hp := onStream_bitpos h
  have hle := onStream_le h
  rw [show n = codes.length + ((n - codes.length - 1) + 1) by omega, mantCodes_add, mantCodes_spelled h1 h8 hw codes 0 s hc h,
    Res.andThen_ok]
  have hb := deliver_bitlen hw 0 (mantValues referenceTables sel mode codes) s
  have hf := deliver_fb hw 0 (mantValues referenceTables sel mode codes) s
  generalize deliver dst 0 (mantValues referenceTables sel mode codes) s = u at hb hf ⊢
  have hu : (u.setBitpos (s.bitpos.toNat + (mantBits referenceTables sel mode codes).length)).bitpos.toNat =
      s.bitpos.toNat + (mantBits referenceTables sel mode codes).length := setBitpos_toNat u (by rw [hb]; exact hle)
  simp only [mantCodes]
  rw [readCode_cut h1 h8 (by rw [hu, State.setBitpos_bitlen, hb]; exact hle)
    (by rw [hu]; exact codeCut_congr (by rw [State.setBitpos_fb, hf]) (by rw [State.setBitpos_bitlen, hb]) hcut), Res.andThen_raise]
  rfl

/-! ### A spectral block -/

theorem readSelectors_add (a b i : Nat) (s : State) :
    readSelectors (a + b) i s = (readSelectors a i s).andThen fun l s1 =>
      (readSelectors b (i + a) s1).andThen fun l' s2 => .ok (l ++ l') s2 := by
  induction a generalizing i s with
  | zero =>
    simp only [Nat.zero_add, readSelectors, Res.andThen_ok, List.nil_append, Nat.add_zero]
    cases readSelectors b i s <;> rfl
  | succ a ih =>
    rw [show a + 1 + b = (a + b) + 1 by omega]
    simp only [readSelectors, ih, Res.andThen_assoc, Res.andThen_ok, show i + 1 + a = i + (a + 1) by omega, List.cons_append]

theorem readSelectors_cut {sels : List Nat} {n i : Nat} (hn : sels.length < n) {s : State} (h8 : ∀ x ∈ sels, x < 8)
    (h : onStream s (sels.flatMap (natBits 3)) = true)
    (hcut : s.bitlen.toNat < s.bitpos.toNat + (sels.flatMap (natBits 3)).length + 3) :
    ∃ m, readSelectors n i s = .raise .overrun (BitVec.ofNat 17 (s.bitpos.toNat + (sels.flatMap (natBits 3)).length))
        ((s.setBitpos (s.bitpos.toNat + (sels.flatMap (natBits 3)).length)).withSel m) ∧
      ∀ j, m.read j = if i ≤ j ∧ j < i + sels.length then some (wordOfNat (sels.getD (j - i) 0)) else s.sel.read j := by
  have hp := onStream_bitpos h
  obtain ⟨m, e, hm⟩ := readSelectors_spelled sels i s h8 h
  refine ⟨m, ?_, hm⟩
  rw [show n = sels.length + ((n - sels.length - 1) + 1) by omega, readSelectors_add, e, Res.andThen_ok]
  simp only [readSelectors]
  rw [readBits_short (by rw [State.withSel_bitpos, hp]; exact hcut)]
  rfl

theorem readIndices_append (l l' : List Nat) (i : Nat) (s : State) :
    readIndices (l ++ l') i s = (readIndices l i s).andThen fun _ s1 => readIndices l' (i + l.length) s1 := by
  induction l generalizing i s with
  | nil => rfl
  | cons sel rest ih =>
    simp only [List.cons_append, readIndices, ih, Res.andThen_assoc, List.length_cons, show i + 1 + rest.length = i + (rest.length + 1) by omega]

theorem readIndices_cut {l : List (Nat × Nat)} {sel : Nat} {rest : List Nat} {i : Nat} (hsel : sel ≠ 0) {s : State}
    (h64 : ∀ x ∈ l, x.2 < 64 ∧ (x.1 = 0 → x.2 = 0)) (h : onStream s (indexBits l) = true)
    (hcut : s.bitlen.toNat < s.bitpos.toNat + (indexBits l).length + 6) :
    ∃ m, readIndices (l.map Prod.fst ++ sel :: rest) i s = .raise .overrun (BitVec.ofNat 17 (s.bitpos.toNat + (indexBits l).length))
        ((s.setBitpos (s.bitpos.toNat + (indexBits l).length)).withSfi m) ∧
      ∀ j, m.read j = if i ≤ j ∧ j < i + l.length then some (wordOfNat ((l.map Prod.snd).getD (j - i) 0)) else s.sfi.read j := by
  have hp := onStream_bitpos h
  obtain ⟨m, e, hm⟩ := readIndices_spelled l i s h64 h
  refine ⟨m, ?_, hm⟩
  rw [readIndices_append, e, Res.andThen_ok]
  simp only [readIndices, readIndex]
  rw [if_neg hsel, readBits_short (by rw [State.withSfi_bitpos, hp]; exact hcut)]
  rfl

theorem readBands_append (c : Config) (mode : CodingMode) (l l' : List Nat) (i : Nat) (s : State) :
    readBands c mode (l ++ l') i s = (readBands c mode l i s).andThen fun _ s1 => readBands c mode l' (i + l.length) s1 := by
  induction l generalizing i s with
  | nil => rfl
  | cons sel rest ih =>
    simp only [List.cons_append, readBands, ih, Res.andThen_assoc, List.length_cons, show i + 1 + rest.length = i + (rest.length + 1) by omega]

theorem deliver_qm (lo k : Nat) (vs : List Int) (s : State) :
    deliver (fun k v s => s.writeQm (lo + k) v) k vs s = s.withQm (deliver (fun k v s => s.writeQm (lo + k) v) k vs s).qm :=
  deliver_keeps (I := fun t => t = { s with qm := t.qm }) (lo := k) (hi := k + vs.length) (Q := fun _ => True)
    (fun k v s1 _ _ _ hs1 => by
      show s1.writeQm _ v = _
      conv_lhs => rw [hs1]
      rfl) vs k s (le_refl _) (le_refl _) (fun _ _ => trivial) rfl

/-- The mantissas of a subband that break off after `codes`. -/
theorem readBand_cut {c : Config} (hc : c.tables = referenceTables) {mode : CodingMode} {i sel : Nat} (h1 : 1 ≤ sel) (h8 : sel < 8)
    {codes : List Nat} (hn : codes.length < codeCount sel (subbandWidth referenceTables i))
    (hok : ∀ raw ∈ codes, codeOk referenceTables sel mode raw = true) {s : State}
    (h : onStream s (mantBits referenceTables sel mode codes) = true)
    (hcut : codeCut referenceTables sel mode s (s.bitpos.toNat + (mantBits referenceTables sel mode codes).length)) :
    ∃ m, readBand c mode i sel s =
        .raise .overrun (BitVec.ofNat 17 (s.bitpos.toNat + (mantBits referenceTables sel mode codes).length))
          ((s.setBitpos (s.bitpos.toNat + (mantBits referenceTables sel mode codes).length)).withQm m) ∧
      ∀ a, m.read a = if subbandStart referenceTables i ≤ a ∧
          a < subbandStart referenceTables i + (mantValues referenceTables sel mode codes).length then
          some (wordOfInt ((mantValues referenceTables sel mode codes).getD (a - subbandStart referenceTables i) 0))
        else s.qm.read a := by
  unfold readBand mantExtract
  rw [if_neg (by omega), hc, mantCodes_cut h1 h8 (writer_qm (subbandStart referenceTables i)) hn s hok h hcut]
  refine ⟨(deliver (fun k v s => s.writeQm (subbandStart referenceTables i + k) v) 0 (mantValues referenceTables sel mode codes) s).qm,
    by rw [deliver_qm]; rfl, fun a => ?_⟩
  rw [deliver_read (base := subbandStart referenceTables i) (f := State.qm) (fun k v s => rfl)]
  rfl

/-- The subbands of a block that break off in the mantissas of subband `i + l.length`. -/
theorem readBands_cut {c : Config} (hc : c.tables = referenceTables) {mode : CodingMode} {l : List Band} {i sel : Nat} {rest : List Nat}
    (hi : i + l.length < 32) (hl : bandsOk referenceTables mode i l = true) (h1 : 1 ≤ sel) (h8 : sel < 8)
    {codes : List Nat} (hn : codes.length < codeCount sel (subbandWidth referenceTables (i + l.length)))
    (hok : ∀ raw ∈ codes, codeOk referenceTables sel mode raw = true) {s : State}
    (h : onStream s (bandBits referenceTables mode l ++ mantBits referenceTables sel mode codes) = true)
    (hcut : codeCut referenceTables sel mode s
      (s.bitpos.toNat + (bandBits referenceTables mode l ++ mantBits referenceTables sel mode codes).length)) :
    ∃ m, readBands c mode (l.map Band.sel ++ sel :: rest) i s =
        .raise .overrun (BitVec.ofNat 17 (s.bitpos.toNat + (bandBits referenceTables mode l ++ mantBits referenceTables sel mode codes).length))
          ((s.setBitpos (s.bitpos.toNat + (bandBits referenceTables mode l ++ mantBits referenceTables sel mode codes).length)).withQm m) ∧
      (∀ j (hj : j < l.length) k, k < subbandWidth referenceTables (i + j) →
        m.read (subbandStart referenceTables (i + j) + k) =
          some (wordOfInt ((mantValues referenceTables l[j].sel mode l[j].codes).getD k 0))) ∧
      ∀ a, subbandStart referenceTables (i + l.length) ≤ a → m.read a =
        if a < subbandStart referenceTables (i + l.length) + (mantValues referenceTables sel mode codes).length then
          some (wordOfInt ((mantValues referenceTables sel mode codes).getD (a - subbandStart referenceTables (i + l.length)) 0))
        else s.qm.read a := by
  rw [onStream_append] at h
  have hp := onStream_bitpos h.1
  obtain ⟨m1, e1, q1, -, q3⟩ := readBands_spelled hc l i (by omega) hl s h.1
  obtain ⟨m2, e2, r2⟩ := readBand_cut hc (i := i + l.length) h1 h8 hn hok
    (s := (s.setBitpos (s.bitpos.toNat + (bandBits referenceTables mode l).length)).withQm m1) ((onStream_withQm _ _ _).trans h.2)
    (by rw [State.withQm_bitpos, hp, Nat.add_assoc, ← List.length_append]
        exact codeCut_congr (s := s)
          (t := (s.setBitpos (s.bitpos.toNat + (bandBits referenceTables mode l).length)).withQm m1) rfl rfl hcut)
  refine ⟨m2, ?_, ?_, ?_⟩
  · rw [readBands_append, e1, Res.andThen_ok, List.length_map]
    simp only [readBands]
    rw [e2, Res.andThen_raise, State.withQm_bitpos, hp, List.length_append, Nat.add_assoc]
    rfl
  · intro j hj k hk
    have hm := subbandStart_mono (i := i + j + 1) (j := i + l.length) (by omega) (by omega)
    have hw : subbandWidth referenceTables (i + j) = subbandStart referenceTables (i + j + 1) - subbandStart referenceTables (i + j) := rfl
    rw [r2, if_neg (by omega)]
    exact q1 j hj k hk
  · intro a ha
    rw [r2]
    by_cases hlt : a < subbandStart referenceTables (i + l.length) + (mantValues referenceTables sel mode codes).length
    · rw [if_pos ⟨ha, hlt⟩, if_pos hlt]
    · rw [if_neg (fun h => hlt h.2), if_neg hlt]
      exact q3 a ha

/-- The state of SPECTRUM after NSB and the mode bit, `n` bits after its first bit. -/
def State.afterHeader (s : State) (b : SpectralBlock) (n : Nat) : State :=
  ((s.setBitpos (s.bitpos.toNat + n)).setNsb (b.bands.length - 1)).setSpecMode b.mode

@[simp] theorem State.afterHeader_fb (s : State) (b : SpectralBlock) (n : Nat) : (s.afterHeader b n).fb = s.fb := rfl
@[simp] theorem State.afterHeader_bitlen (s : State) (b : SpectralBlock) (n : Nat) : (s.afterHeader b n).bitlen = s.bitlen := rfl
@[simp] theorem State.afterHeader_sel (s : State) (b : SpectralBlock) (n : Nat) : (s.afterHeader b n).sel = s.sel := rfl
@[simp] theorem State.afterHeader_sfi (s : State) (b : SpectralBlock) (n : Nat) : (s.afterHeader b n).sfi = s.sfi := rfl
@[simp] theorem State.afterHeader_qm (s : State) (b : SpectralBlock) (n : Nat) : (s.afterHeader b n).qm = s.qm := rfl

theorem blockOk_spec {b : SpectralBlock} (h : b.ok referenceTables = true) :
    1 ≤ b.bands.length ∧ b.bands.length ≤ 32 ∧ bandsOk referenceTables b.mode 0 b.bands = true := by
  simp only [SpectralBlock.ok, Bool.and_eq_true, decide_eq_true_eq] at h
  exact ⟨h.1.1, h.1.2, h.2⟩

theorem bandsOk_take {T : Tables} {mode : CodingMode} {l : List Band} {i : Nat} (h : bandsOk T mode i l = true) (m : Nat) :
    bandsOk T mode i (l.take m) = true := by
  induction l generalizing i m with
  | nil => simp [bandsOk]
  | cons b rest ih =>
    cases m with
    | zero => rfl
    | succ m =>
      simp only [bandsOk, Bool.and_eq_true, List.take_succ_cons] at h ⊢
      exact ⟨h.1, ih h.2 m⟩

theorem bandsOk_at {T : Tables} {mode : CodingMode} {l : List Band} {i m : Nat} {x : Band} (h : bandsOk T mode i l = true)
    (hx : l[m]? = some x) : x.ok T mode (i + m) = true := by
  induction l generalizing i m with
  | nil => simp at hx
  | cons b rest ih =>
    simp only [bandsOk, Bool.and_eq_true] at h
    cases m with
    | zero => simp only [List.getElem?_cons_zero, Option.some.injEq] at hx; subst hx; exact h.1
    | succ m =>
      rw [List.getElem?_cons_succ] at hx
      have := ih h.2 hx
      rwa [show i + 1 + m = i + (m + 1) by omega] at this

/-- SPECTRUM after NSB and the mode bit, the rest of its block being `rest`. -/
theorem spectrumBody_header {c : Config} {b : SpectralBlock} (hb : b.ok referenceTables = true) {s : State} {rest : List Bool}
    (h : onStream s (natBits 5 (b.bands.length - 1) ++ [b.mode.bit] ++ rest) = true) :
    (onStream (s.afterHeader b 6) rest = true ∧ (s.afterHeader b 6).bitpos.toNat = s.bitpos.toNat + 6) ∧
    spectrumBody c s = (readSideInfo c b.bands.length (s.afterHeader b 6)).andThen fun sels s3 =>
      (readBands c b.mode sels 0 s3).andThen fun _ s4 =>
        .ok (wordOfNat (b.bands.length - 1))
          ((s4.zeroSide (b.bands.length - 1 + 1) (31 - (b.bands.length - 1))).zeroQm (subbandStart c.tables (b.bands.length - 1 + 1))
            (1024 - subbandStart c.tables (b.bands.length - 1 + 1))) := by
  obtain ⟨h1, h32, -⟩ := blockOk_spec hb
  rw [List.append_assoc, onStream_append, onStream_append] at h
  obtain ⟨g1, g2, g3⟩ := h
  have p1 := onStream_bitpos g1
  have p2 := onStream_bitpos g2
  rw [natBits_length] at p1 g2 g3 p2
  rw [List.length_singleton, p1] at g3 p2
  simp only [setBitpos_setBitpos] at g3 p2
  have r1 := readBits_spelled (by have : b.bands.length - 1 < 32 := by omega
                                  simpa using this) g1
  have g2' : onStream ((s.setBitpos (s.bitpos.toNat + 5)).setNsb (b.bands.length - 1)) (natBits 1 b.mode.bit.toNat) = true := by
    rw [natBits_one, onStream_setNsb]; exact g2
  have r2 := readBits_spelled (by cases b.mode <;> decide) g2'
  rw [State.setNsb_bitpos, p1] at r2
  refine ⟨⟨?_, p2⟩, ?_⟩
  · unfold State.afterHeader
    rw [onStream_setSpecMode, onStream_setNsb]; exact g3
  · unfold spectrumBody
    rw [r1, Res.andThen_ok, r2, Res.andThen_ok, ofField_bit, show b.bands.length - 1 + 1 = b.bands.length by omega]
    rfl

/-- SPECTRUM breaks off in NSB. -/
theorem spectrumBody_cut_nsb (c : Config) {s : State} (h : s.bitlen.toNat < s.bitpos.toNat + 5) :
    spectrumBody c s = .raise .overrun s.bitpos s := by
  unfold spectrumBody
  rw [readBits_short h]
  rfl

/-- SPECTRUM breaks off in the mode bit. -/
theorem spectrumBody_cut_mode (c : Config) {s : State} {n : Nat} (hn : n < 32) (h : onStream s (natBits 5 n) = true)
    (hcut : s.bitlen.toNat < s.bitpos.toNat + 6) :
    spectrumBody c s = .raise .overrun (BitVec.ofNat 17 (s.bitpos.toNat + 5)) ((s.setBitpos (s.bitpos.toNat + 5)).setNsb n) := by
  have p1 := onStream_bitpos h
  rw [natBits_length] at p1
  unfold spectrumBody
  rw [readBits_spelled (by simpa using hn) h, Res.andThen_ok, readBits_short (by rw [State.setNsb_bitpos, p1]; exact hcut)]
  rfl

/-- SPECTRUM breaks off in the selector of subband `m`. -/
theorem spectrumBody_cut_sel {c : Config} (ho : c.sideInfoOrder = .grouped) {b : SpectralBlock} (hb : b.ok referenceTables = true) {s : State}
    {m : Nat} (hm : m < b.bands.length) (h : onStream s (b.bitsBeforeSel m) = true)
    (hcut : s.bitlen.toNat < s.bitpos.toNat + (b.bitsBeforeSel m).length + 3) :
    ∃ sel, spectrumBody c s = .raise .overrun (BitVec.ofNat 17 (s.bitpos.toNat + (b.bitsBeforeSel m).length))
        ((s.afterHeader b (b.bitsBeforeSel m).length).withSel sel) ∧
      ∀ i, sel.read i = if i < m then some (wordOfNat ((b.bands.map Band.sel).getD i 0)) else s.sel.read i := by
  obtain ⟨h1, h32, hok⟩ := blockOk_spec hb
  have hsel := bandsOk_getElem hok
  have e1 : (b.bands.take m).flatMap (fun x => natBits 3 x.sel) = (b.bands.map Band.sel |>.take m).flatMap (natBits 3) := by
    rw [← List.map_take, List.flatMap_map]
  unfold SpectralBlock.bitsBeforeSel at h hcut ⊢
  rw [e1] at h hcut ⊢
  obtain ⟨⟨g1, p1⟩, e2⟩ := spectrumBody_header (c := c) hb h
  have hlen : (b.bands.map Band.sel |>.take m).length = m := by simp; omega
  obtain ⟨sel, e3, r⟩ := readSelectors_cut (n := b.bands.length) (i := 0) (sels := b.bands.map Band.sel |>.take m) (by omega)
    (fun x hx => by
      obtain ⟨y, hy, rfl⟩ := List.mem_map.1 (List.mem_of_mem_take hx)
      exact (hsel y hy).1) g1
    (by
      rw [p1]
      simp only [List.length_append, natBits_length, List.length_singleton] at hcut
      show s.bitlen.toNat < _
      omega)
  refine ⟨sel, ?_, ?_⟩
  · rw [e2]
    unfold readSideInfo
    rw [ho]
    simp only [e3, Res.andThen_raise, p1, List.length_append, natBits_length, List.length_singleton]
    rw [show s.bitpos.toNat + (5 + 1 + ((b.bands.map Band.sel |>.take m).flatMap (natBits 3)).length) =
      s.bitpos.toNat + 6 + ((b.bands.map Band.sel |>.take m).flatMap (natBits 3)).length by omega]
    congr 1
    unfold State.afterHeader
    rw [show s.bitpos.toNat + (5 + 1 + ((b.bands.map Band.sel |>.take m).flatMap (natBits 3)).length) =
      s.bitpos.toNat + 6 + ((b.bands.map Band.sel |>.take m).flatMap (natBits 3)).length by omega]
    rfl
  · intro i
    rw [r, hlen, Nat.zero_add, Nat.sub_zero]
    by_cases hi : i < m
    · rw [if_pos ⟨Nat.zero_le _, hi⟩, if_pos hi, List.getD_eq_getElem?_getD, List.getElem?_take_of_lt hi, ← List.getD_eq_getElem?_getD]
    · rw [if_neg (by omega), if_neg hi]
      rfl

/-- The selectors of a whole block. -/
theorem readSelectors_block {b : SpectralBlock} (hb : b.ok referenceTables = true) {s : State} {rest : List Bool}
    (h : onStream s (b.bands.flatMap (fun x => natBits 3 x.sel) ++ rest) = true) :
    ∃ sel, readSelectors b.bands.length 0 s = .ok (b.bands.map Band.sel)
        ((s.setBitpos (s.bitpos.toNat + (b.bands.flatMap (fun x => natBits 3 x.sel)).length)).withSel sel) ∧
      (∀ i, sel.read i = if i < b.bands.length then some (wordOfNat ((b.bands.map Band.sel).getD i 0)) else s.sel.read i) := by
  have hsel := bandsOk_getElem (blockOk_spec hb).2.2
  have e1 : b.bands.flatMap (fun x => natBits 3 x.sel) = (b.bands.map Band.sel).flatMap (natBits 3) := by rw [List.flatMap_map]
  rw [onStream_append] at h
  rw [e1] at h ⊢
  obtain ⟨sel, e, r⟩ := readSelectors_spelled (b.bands.map Band.sel) 0 s
    (fun x hx => by obtain ⟨y, hy, rfl⟩ := List.mem_map.1 hx; exact (hsel y hy).1) h.1
  rw [List.length_map] at e r
  exact ⟨sel, e, fun i => by simpa using r i⟩

/-- SPECTRUM breaks off in the scale-factor index of subband `m`. -/
theorem spectrumBody_cut_sfi {c : Config} (ho : c.sideInfoOrder = .grouped) {b : SpectralBlock} (hb : b.ok referenceTables = true) {s : State}
    {m : Nat} {x : Band} (hx : b.bands[m]? = some x) (hx0 : x.sel ≠ 0) (h : onStream s (b.bitsBeforeSfi m) = true)
    (hcut : s.bitlen.toNat < s.bitpos.toNat + (b.bitsBeforeSfi m).length + 6) :
    ∃ sel sfi, spectrumBody c s = .raise .overrun (BitVec.ofNat 17 (s.bitpos.toNat + (b.bitsBeforeSfi m).length))
        (((s.afterHeader b (b.bitsBeforeSfi m).length).withSel sel).withSfi sfi) ∧
      (∀ i, sel.read i = if i < b.bands.length then some (wordOfNat ((b.bands.map Band.sel).getD i 0)) else s.sel.read i) ∧
      ∀ i, sfi.read i = if i < m then some (wordOfNat ((b.bands.map Band.sfi).getD i 0)) else s.sfi.read i := by
  obtain ⟨h1, h32, hok⟩ := blockOk_spec hb
  have hall := bandsOk_getElem hok
  have hm : m < b.bands.length := (List.getElem?_eq_some_iff.1 hx).1
  have e2 : (b.bands.take m).flatMap (fun x => if x.sel = 0 then [] else natBits 6 x.sfi) =
      indexBits ((b.bands.take m).map fun b => (b.sel, b.sfi)) := by
    unfold indexBits; rw [List.flatMap_map]
  unfold SpectralBlock.bitsBeforeSfi SpectralBlock.bitsBeforeSel at h hcut ⊢
  rw [List.take_length, e2] at h hcut ⊢
  rw [List.append_assoc] at h
  obtain ⟨⟨g1, p1⟩, e3⟩ := spectrumBody_header (c := c) hb h
  obtain ⟨sel, e4, r4⟩ := readSelectors_block hb g1
  rw [onStream_append] at g1
  have p2 := onStream_bitpos g1.1
  rw [p1] at p2 e4
  have hlen : ((b.bands.take m).map fun b => (b.sel, b.sfi)).length = m := by simp; omega
  obtain ⟨sfi, e5, r5⟩ := readIndices_cut (l := (b.bands.take m).map fun b => (b.sel, b.sfi)) (sel := x.sel)
    (rest := (b.bands.drop (m + 1)).map Band.sel) (i := 0) hx0
    (s := (State.setBitpos (s.afterHeader b 6) (s.bitpos.toNat + 6 + (b.bands.flatMap (fun x => natBits 3 x.sel)).length)).withSel sel)
    (fun y hy => by
      obtain ⟨z, hz, rfl⟩ := List.mem_map.1 hy
      exact (hall z (List.mem_of_mem_take hz)).2)
    (by rw [onStream_withSel, ← p1]; exact g1.2)
    (by
      rw [State.withSel_bitpos, p2]
      simp only [List.length_append, natBits_length, List.length_singleton] at hcut
      show s.bitlen.toNat < _
      omega)
  refine ⟨sel, sfi, ?_, fun i => by rw [r4 i, State.afterHeader_sel], ?_⟩
  · have hsplit : b.bands.map Band.sel = ((b.bands.take m).map fun b => (b.sel, b.sfi)).map Prod.fst ++
        x.sel :: (b.bands.drop (m + 1)).map Band.sel := by
      have : b.bands = b.bands.take m ++ x :: b.bands.drop (m + 1) := by
        obtain ⟨_, rfl⟩ := List.getElem?_eq_some_iff.1 hx
        simp
      rw [List.map_map, show (Prod.fst ∘ fun b : Band => (b.sel, b.sfi)) = Band.sel from rfl]
      conv_lhs => rw [this]
      rw [List.map_append, List.map_cons]
    rw [e3]
    unfold readSideInfo
    rw [ho]
    simp only
    rw [e4, Res.andThen_ok, hsplit, e5, Res.andThen_raise, Res.andThen_raise, State.withSel_bitpos, p2]
    simp only [List.length_append, natBits_length, List.length_singleton]
    rw [show s.bitpos.toNat + (5 + 1 + (b.bands.flatMap (fun x => natBits 3 x.sel)).length +
        (indexBits ((b.bands.take m).map fun b => (b.sel, b.sfi))).length) =
      s.bitpos.toNat + 6 + (b.bands.flatMap (fun x => natBits 3 x.sel)).length +
        (indexBits ((b.bands.take m).map fun b => (b.sel, b.sfi))).length by omega]
    congr 1
    unfold State.afterHeader
    rw [show s.bitpos.toNat + (5 + 1 + (b.bands.flatMap (fun x => natBits 3 x.sel)).length +
        (indexBits ((b.bands.take m).map fun b => (b.sel, b.sfi))).length) =
      s.bitpos.toNat + 6 + (b.bands.flatMap (fun x => natBits 3 x.sel)).length +
        (indexBits ((b.bands.take m).map fun b => (b.sel, b.sfi))).length by omega]
    rfl
  · intro i
    rw [r5, hlen, Nat.zero_add, Nat.sub_zero]
    by_cases hi : i < m
    · rw [if_pos ⟨Nat.zero_le _, hi⟩, if_pos hi]
      have : ((b.bands.take m).map fun b => (b.sel, b.sfi)).map Prod.snd = (b.bands.map Band.sfi).take m := by
        rw [List.map_map, ← List.map_take]; rfl
      rw [this, List.getD_eq_getElem?_getD, List.getElem?_take_of_lt hi, ← List.getD_eq_getElem?_getD]
    · rw [if_neg (by omega), if_neg hi, State.withSel_sfi, State.setBitpos_sfi, State.afterHeader_sfi]

/-- SPECTRUM breaks off in the mantissas of subband `m`, after `n` of its codes. -/
theorem spectrumBody_cut_mant {c : Config} (hc : c.tables = referenceTables) (ho : c.sideInfoOrder = .grouped) {b : SpectralBlock}
    (hb : b.ok referenceTables = true) {s : State} {m n : Nat} {x : Band} (hx : b.bands[m]? = some x) (hx0 : x.sel ≠ 0)
    (hn : n < x.codes.length) {B : List Bool}
    (hB : B = b.bitsBeforeMant referenceTables m ++ mantBits referenceTables x.sel b.mode (x.codes.take n)) (h : onStream s B = true)
    (hcut : codeCut referenceTables x.sel b.mode s (s.bitpos.toNat + B.length)) :
    ∃ sel sfi qm, spectrumBody c s = .raise .overrun (BitVec.ofNat 17 (s.bitpos.toNat + B.length))
        ((((s.afterHeader b B.length).withSel sel).withSfi sfi).withQm qm) ∧
      (∀ i, sel.read i = if i < b.bands.length then some (wordOfNat ((b.bands.map Band.sel).getD i 0)) else s.sel.read i) ∧
      (∀ i, sfi.read i = if i < b.bands.length then some (wordOfNat ((b.bands.map Band.sfi).getD i 0)) else s.sfi.read i) ∧
      (∀ i y, i < m → b.bands[i]? = some y → ∀ k, k < subbandWidth referenceTables i →
        qm.read (subbandStart referenceTables i + k) = some (wordOfInt ((mantValues referenceTables y.sel b.mode y.codes).getD k 0))) ∧
      ∀ j, subbandStart referenceTables m ≤ j → qm.read j =
        if j < subbandStart referenceTables m + (mantValues referenceTables x.sel b.mode (x.codes.take n)).length then
          some (wordOfInt ((mantValues referenceTables x.sel b.mode (x.codes.take n)).getD (j - subbandStart referenceTables m) 0))
        else s.qm.read j := by
  obtain ⟨h1, h32, hok⟩ := blockOk_spec hb
  have hm : m < b.bands.length := (List.getElem?_eq_some_iff.1 hx).1
  have hxok := bandsOk_at hok hx
  rw [Nat.zero_add] at hxok
  unfold Band.ok at hxok
  simp only [hx0, if_false, Bool.and_eq_true, decide_eq_true_eq, List.all_eq_true] at hxok
  obtain ⟨⟨⟨h8, -⟩, hlen⟩, hcodes⟩ := hxok
  generalize hside : b.bands.flatMap (fun x => natBits 3 x.sel) ++ b.bands.flatMap (fun x => if x.sel = 0 then [] else natBits 6 x.sfi) = side
  have hB' : B = natBits 5 (b.bands.length - 1) ++ [b.mode.bit] ++ (side ++
      (bandBits referenceTables b.mode (b.bands.take m) ++ mantBits referenceTables x.sel b.mode (x.codes.take n))) := by
    rw [hB, ← hside]
    unfold SpectralBlock.bitsBeforeMant SpectralBlock.bitsBeforeSfi SpectralBlock.bitsBeforeSel bandBits
    simp only [List.take_length, List.append_assoc]
  clear hB
  generalize hM : bandBits referenceTables b.mode (b.bands.take m) ++ mantBits referenceTables x.sel b.mode (x.codes.take n) = M at hB'
  have hL : B.length = 6 + side.length + M.length := by
    rw [hB']; simp only [List.length_append, natBits_length, List.length_singleton]; omega
  rw [hL] at hcut ⊢
  rw [hB'] at h
  obtain ⟨⟨g1, p1⟩, e3⟩ := spectrumBody_header (c := c) hb h
  rw [onStream_append] at g1
  have p2 := onStream_bitpos g1.1
  obtain ⟨sel, sfi, e4, q1, q2⟩ := readSideInfo_spelled ho b.bands (bandsOk_getElem hok) (s := s.afterHeader b 6) (by rw [hside]; exact g1.1)
  rw [hside, p1] at e4
  rw [p1] at p2 g1
  have hbl : (b.bands.take m).length = m := by simp; omega
  have hf : ((((s.afterHeader b 6).setBitpos (s.bitpos.toNat + 6 + side.length)).withSel sel).withSfi sfi).fb = s.fb := by
    simp only [State.withSfi, State.withSel, State.setBitpos_fb, State.afterHeader_fb]
  have hl : ((((s.afterHeader b 6).setBitpos (s.bitpos.toNat + 6 + side.length)).withSel sel).withSfi sfi).bitlen = s.bitlen := by
    simp only [State.withSfi, State.withSel, State.setBitpos_bitlen, State.afterHeader_bitlen]
  have hq : ((((s.afterHeader b 6).setBitpos (s.bitpos.toNat + 6 + side.length)).withSel sel).withSfi sfi).qm = s.qm := by
    simp only [State.withSfi, State.withSel, State.setBitpos_qm, State.afterHeader_qm]
  obtain ⟨qm, e5, q3, q4⟩ := readBands_cut hc (mode := b.mode) (l := b.bands.take m) (i := 0) (sel := x.sel)
    (rest := (b.bands.drop (m + 1)).map Band.sel) (codes := x.codes.take n) (by omega) (bandsOk_take hok m) (by omega) h8
    (by rw [hbl, Nat.zero_add, List.length_take, ← hlen]; omega) (fun raw hr => hcodes raw (List.mem_of_mem_take hr))
    (s := (((s.afterHeader b 6).setBitpos (s.bitpos.toNat + 6 + side.length)).withSel sel).withSfi sfi)
    (by rw [onStream_withSfi, onStream_withSel, hM]; exact g1.2)
    (by
      rw [hM, State.withSfi_bitpos, State.withSel_bitpos, p2, show s.bitpos.toNat + 6 + side.length + M.length =
        s.bitpos.toNat + (6 + side.length + M.length) by omega]
      exact codeCut_congr hf hl hcut)
  rw [hM, State.withSfi_bitpos, State.withSel_bitpos, p2] at e5
  rw [hbl, Nat.zero_add, hq] at q4
  refine ⟨sel, sfi, qm, ?_, fun i => ?_, fun i => ?_, ?_, q4⟩
  · have hsplit : b.bands.map Band.sel = (b.bands.take m).map Band.sel ++ x.sel :: (b.bands.drop (m + 1)).map Band.sel := by
      have : b.bands = b.bands.take m ++ x :: b.bands.drop (m + 1) := by
        obtain ⟨_, rfl⟩ := List.getElem?_eq_some_iff.1 hx
        simp
      conv_lhs => rw [this]
      simp
    rw [e3, e4, Res.andThen_ok, hsplit, e5, Res.andThen_raise]
    unfold State.afterHeader
    rw [show s.bitpos.toNat + (6 + side.length + M.length) = s.bitpos.toNat + 6 + side.length + M.length by omega]
    rfl
  · rw [q1 i, State.afterHeader_sel]
  · rw [q2 i, State.afterHeader_sfi]
  · intro i y hi hy k hk
    have := q3 i (by omega) k (by rw [Nat.zero_add]; exact hk)
    rw [Nat.zero_add] at this
    rw [this]
    obtain ⟨_, rfl⟩ := List.getElem?_eq_some_iff.1 hy
    simp

/-! ### The state an overrun leaves -/

/-- Under LEAVE_MUTATED a command that raises ends with that error and nothing else changed (60_exceptions.md R214, R217). -/
theorem endCommand_raise_leave {c : Config} (hp : c.abortPolicy = .leaveMutated) (i : Instr) (e : Err) (p : BitPos) (u : State) :
    endCommand c i (.raise e p u) = .next (u.endErr e p) := by
  show Host.Outcome.next (State.applyAbortPolicy c i (u.endErr e p)) = _
  unfold State.applyAbortPolicy
  rw [hp]

theorem endErr_overran (s : State) (n : Nat) :
    (s.setBitpos (s.bitpos.toNat + n)).endErr .overrun (BitVec.ofNat 17 (s.bitpos.toNat + n)) = s.overran n := rfl

theorem endErr_overran_nsb (s : State) (n k : Nat) :
    ((s.setBitpos (s.bitpos.toNat + n)).setNsb k).endErr .overrun (BitVec.ofNat 17 (s.bitpos.toNat + n)) =
      { s.overran n with nsb := BitVec.ofNat 5 k } := rfl

theorem endErr_overran_mbuf (s : State) (n : Nat) (m : Memory Word) :
    ({ s with mbuf := m }.setBitpos (s.bitpos.toNat + n)).endErr .overrun (BitVec.ofNat 17 (s.bitpos.toNat + n)) =
      { s.overran n with mbuf := m } := rfl

theorem endErr_overran_sel (s : State) (b : SpectralBlock) (n : Nat) (sel : Memory Word) :
    ((s.afterHeader b n).withSel sel).endErr .overrun (BitVec.ofNat 17 (s.bitpos.toNat + n)) =
      { s.overran n with nsb := BitVec.ofNat 5 (b.bands.length - 1), specMode := b.mode.bit, sel := sel } := rfl

theorem endErr_overran_sfi (s : State) (b : SpectralBlock) (n : Nat) (sel sfi : Memory Word) :
    (((s.afterHeader b n).withSel sel).withSfi sfi).endErr .overrun (BitVec.ofNat 17 (s.bitpos.toNat + n)) =
      { s.overran n with nsb := BitVec.ofNat 5 (b.bands.length - 1), specMode := b.mode.bit, sel := sel, sfi := sfi } := rfl

theorem endErr_overran_qm (s : State) (b : SpectralBlock) (n : Nat) (sel sfi qm : Memory Word) :
    ((((s.afterHeader b n).withSel sel).withSfi sfi).withQm qm).endErr .overrun (BitVec.ofNat 17 (s.bitpos.toNat + n)) =
      { s.overran n with nsb := BitVec.ofNat 5 (b.bands.length - 1), specMode := b.mode.bit, sel := sel, sfi := sfi, qm := qm } := rfl

theorem endErr_tc (s : State) (e : Err) (i p k : Nat) (m : Memory Word) :
    (((s.setBitpos p).withTc m).setTccount k).endErr e (BitVec.ofNat 17 i) = { s with
      busy := false, done := false, err := true, errcode := e.code, tccount := BitVec.ofNat 7 k, tc := m
      errpos := BitVec.ofNat 17 i, bitpos := BitVec.ofNat 17 p } := rfl

theorem endErr_overran_tc (s : State) (n k : Nat) (m : Memory Word) :
    (((s.setBitpos (s.bitpos.toNat + n)).withTc m).setTccount k).endErr .overrun (BitVec.ofNat 17 (s.bitpos.toNat + n)) =
      { s.overran n with tccount := BitVec.ofNat 7 k, tc := m } := rfl

end Sys2Proof.Machine
end

