-- ==== Sys2Proof/Laws/PerInstr.lean ====
section
/-! SUPPORT. Families of statements about every command, one lemma per constructor. -/

/-- The match value of a command's row of the opcode table (30_encoding.md R72). -/
def Sys2Proof.Laws.EncodeMatchesRow.rowMatch : Sys2Proof.Instr → Sys2Proof.Word
  | .rdbits _ => 0x10000000#32
  | .rdsbits _ => 0x20000000#32
  | .rdbit => 0x30000000#32
  | .huff _ => 0x40000000#32
  | .mant _ _ _ => 0x50000000#32
  | .spectrum => 0x60000000#32
  | .tonal _ => 0x70000000#32

/-- The mask of a command's row (30_encoding.md R72). -/
def Sys2Proof.Laws.EncodeMatchesRow.rowMask : Sys2Proof.Instr → Sys2Proof.Word
  | .rdbits _ => 0xFFFFFFC0#32
  | .rdsbits _ => 0xFFFFFFC0#32
  | .rdbit => 0xFFFFFFFF#32
  | .huff _ => 0xFFFFFFF8#32
  | .mant _ _ _ => 0xFFFFF000#32
  | .spectrum => 0xFFFFFFFF#32
  | .tonal _ => 0xFFFFFFFC#32

/-- The word of a command has its row's bits outside the operand fields, whatever the operands (30_encoding.md R72, R73). -/
def Sys2Proof.Laws.EncodeMatchesRow.Statement (i : Sys2Proof.Instr) : Prop :=
  Sys2Proof.encode i &&& Sys2Proof.Laws.EncodeMatchesRow.rowMask i = Sys2Proof.Laws.EncodeMatchesRow.rowMatch i

namespace Sys2Proof.Laws.EncodeMatchesRow

theorem rdbits (n : BitVec 6) : Statement (.rdbits n) := by revert n; unfold Statement; decide

theorem rdsbits (n : BitVec 6) : Statement (.rdsbits n) := by revert n; unfold Statement; decide

theorem rdbit : Statement .rdbit := by unfold Statement; decide

theorem huff (t : BitVec 3) : Statement (.huff t) := by revert t; unfold Statement; decide

theorem mant (sel : BitVec 3) (mode : CodingMode) (cnt : BitVec 8) : Statement (.mant sel mode cnt) := by
  cases mode <;> revert sel cnt <;> unfold Statement <;> decide +kernel

theorem spectrum : Statement .spectrum := by unfold Statement; decide

theorem tonal (nb : BitVec 2) : Statement (.tonal nb) := by revert nb; unfold Statement; decide

end Sys2Proof.Laws.EncodeMatchesRow
end

