-- ==== Sys2Proof/Laws/TonalOverruns.lean ====
section
/-! SUPPORT. Where a tonal block breaks off (43_tonal.md R166): at BITLEN (40_bitread.md R100, R110) or at the 65th component (R167), and what
TC holds by then (60_exceptions.md R217). -/

namespace Sys2Proof.Machine

/-! ### How far a parse gets -/

/-- `f` reads the bits `B`, which hold the entries `E`, and then comes to `g`: where `g` stops with an error, `f` stops with it. -/
def TonalReaches {α β : Type} (f : Nat → State → Res α) (B : List Bool) (E : List TcEntry) (g : Nat → State → Res β) : Prop :=
  ∀ count s, s.tccount = BitVec.ofNat 7 count → count + E.length ≤ 64 → onStream s B = true →
    ∃ m, Extends m s.tc count E ∧ ∀ e i t,
      g (count + E.length) (((s.setBitpos (s.bitpos.toNat + B.length)).withTc m).setTccount (count + E.length)) = .raise e i t →
      f count s = .raise e i t

theorem TonalReaches.refl {α : Type} (f : Nat → State → Res α) : TonalReaches f [] [] f := by
  intro count s hc h64 h
  refine ⟨s.tc, Extends.nil _ _, fun e i t hr => ?_⟩
  simpa only [List.length_nil, Nat.add_zero, setBitpos_self, withTc_self, setTccount_self hc] using hr

/-- `g` comes first to `h`. -/
theorem TonalReaches.enter {α β γ : Type} {f : Nat → State → Res α} {B : List Bool} {E : List TcEntry} {g : Nat → State → Res β}
    {h : Nat → State → Res γ} (hf : TonalReaches f B E g) (hg : ∀ c s e i t, h c s = .raise e i t → g c s = .raise e i t) :
    TonalReaches f B E h := by
  intro count s hc h64 hs
  obtain ⟨m, x, hr⟩ := hf count s hc h64 hs
  exact ⟨m, x, fun e i t he => hr e i t (hg _ _ e i t he)⟩

/-- What `f` is the first part of reaches what `f` reaches. -/
theorem TonalReaches.within {α β γ : Type} {f : Nat → State → Res α} {B : List Bool} {E : List TcEntry} {g : Nat → State → Res β}
    {h : Nat → State → Res γ} (hf : TonalReaches f B E g) (hh : ∀ c s e i t, f c s = .raise e i t → h c s = .raise e i t) :
    TonalReaches h B E g := by
  intro count s hc h64 hs
  obtain ⟨m, x, hr⟩ := hf count s hc h64 hs
  exact ⟨m, x, fun e i t he => hh _ _ e i t (hr e i t he)⟩

theorem TonalReaches.andThen {α β : Type} {f : Nat → State → Res Nat} {B B' : List Bool} {E E' : List TcEntry} (hf : TonalReads f B E)
    {k : Nat → State → Res α} {g : Nat → State → Res β} (hk : TonalReaches k B' E' g) :
    TonalReaches (fun count s => (f count s).andThen k) (B ++ B') (E ++ E') g := by
  intro count s hc h64 h
  rw [onStream_append] at h
  rw [List.length_append] at h64
  have hp := onStream_bitpos h.1
  obtain ⟨m, e1, x⟩ := (hf count s hc (by omega) h.1).1 (by omega)
  obtain ⟨m', x', hr⟩ := hk (count + E.length) (((s.setBitpos (s.bitpos.toNat + B.length)).withTc m).setTccount (count + E.length)) rfl
    (by omega) (by simpa using h.2)
  have hb : (((s.setBitpos (s.bitpos.toNat + B.length)).withTc m).setTccount (count + E.length)).bitpos.toNat =
    s.bitpos.toNat + B.length := hp
  rw [hb] at hr
  refine ⟨m', x.append x', fun e i t he => ?_⟩
  simp only [e1, Res.andThen_ok]
  refine hr e i t ?_
  rw [List.length_append, List.length_append, ← Nat.add_assoc, ← Nat.add_assoc] at he
  exact he

theorem TonalReaches.field {α β γ : Type} {r : State → Res α} {B : List Bool} {v : α} (hr : FieldReads r B v)
    {k : α → Nat → State → Res β} {B' : List Bool} {E : List TcEntry} {g : Nat → State → Res γ} (hk : TonalReaches (k v) B' E g) :
    TonalReaches (fun count s => (r s).andThen fun x s1 => k x count s1) (B ++ B') E g := by
  intro count s hc h64 h
  rw [onStream_append] at h
  have hp := onStream_bitpos h.1
  obtain ⟨m, x, hq⟩ := hk count (s.setBitpos (s.bitpos.toNat + B.length)) hc h64 h.2
  rw [hp] at hq
  refine ⟨m, x, fun e i t he => ?_⟩
  simp only [hr s h.1, Res.andThen_ok]
  refine hq e i t ?_
  rw [List.length_append, ← Nat.add_assoc] at he
  rw [setBitpos_setBitpos]
  exact he

/-- The field in front. -/
theorem TonalReaches.first {α β : Type} (r : State → Res α) (k : α → Nat → State → Res β) :
    TonalReaches (fun count s => (r s).andThen fun x s1 => k x count s1) [] [] (fun _ s => r s) :=
  (TonalReaches.refl _).enter fun c s e i t he => by rw [he, Res.andThen_raise]

/-! ### The parts of a declared component -/

theorem readFlags_reaches (flags : List Bool) (b : Nat) (h : b < flags.length) :
    TonalReaches (fun _ s => readFlags flags.length s) (flags.take b) [] (fun _ s => readBits 1 s) := by
  induction flags generalizing b with
  | nil => simp at h
  | cons x rest ih =>
    cases b with
    | zero => exact TonalReaches.first (readBits 1) fun b _ s1 => (readFlags rest.length s1).andThen fun l s2 => .ok (decide (b = 1) :: l) s2
    | succ b =>
      have h1 := ih b (by simpa using h)
      have h2 := h1.within (h := fun _ s1 => (readFlags rest.length s1).andThen fun l s2 => Res.ok (decide (x.toNat = 1) :: l) s2)
        fun c s e i t he => by rw [he, Res.andThen_raise]
      exact TonalReaches.field (fieldReads_bit x)
        (k := fun b _ s1 => (readFlags rest.length s1).andThen fun l s2 => Res.ok (decide (b = 1) :: l) s2) h2

theorem readComponents_reaches {cv qs j : Nat} {mode : CodingMode} (hcv : cv < 8) (h2 : 2 ≤ qs) (h8 : qs < 8) {xs : List TonalComp}
    (hx : ∀ x ∈ xs, x.ok referenceTables cv qs mode j = true) {r : Nat} (hr : r < xs.length) :
    TonalReaches (fun count s => readComponents referenceTables cv qs mode j xs.length count s)
      ((xs.take r).flatMap (TonalComp.bits referenceTables qs mode)) ((xs.take r).map (TonalComp.entry referenceTables cv qs mode j))
      (readComponent referenceTables cv qs mode j) := by
  induction xs generalizing r with
  | nil => simp at hr
  | cons x rest ih =>
    cases r with
    | zero =>
      refine (TonalReaches.refl _).enter fun c s e i t he => ?_
      simp only [List.length_cons, readComponents, he, Res.andThen_raise]
    | succ r =>
      refine (TonalReaches.andThen (tonalReads_component hcv h2 h8 (hx x (by simp)))
        (ih (fun y hy => hx y (List.mem_cons_of_mem _ hy)) (by simpa using hr))).within fun c s e i t he => ?_
      simpa only [List.length_cons, readComponents, Res.andThen_assoc, Res.andThen_ok] using he

theorem readPositions_reaches {cv qs : Nat} {mode : CodingMode} (hcv : cv < 8) (h2 : 2 ≤ qs) (h8 : qs < 8)
    {jx : List (Nat × List TonalComp)} (hx : ∀ p ∈ jx, p.2.length < 8 ∧ ∀ x ∈ p.2, x.ok referenceTables cv qs mode p.1 = true)
    {p : Nat} (hp : p < jx.length) :
    TonalReaches (fun count s => readPositions referenceTables cv qs mode (jx.map Prod.fst) count s)
      (posBits referenceTables qs mode (jx.take p)) (posEntries referenceTables cv qs mode (jx.take p)) (fun _ s => readBits 3 s) := by
  induction jx generalizing p with
  | nil => simp at hp
  | cons y rest ih =>
    obtain ⟨j, xs⟩ := y
    cases p with
    | zero =>
      exact TonalReaches.first (readBits 3) fun ncc count s1 => (readComponents referenceTables cv qs mode j ncc count s1).andThen
        fun count1 s2 => readPositions referenceTables cv qs mode (rest.map Prod.fst) count1 s2
    | succ p =>
      have hy := hx (j, xs) (by simp)
      have h3 := TonalReaches.andThen (tonalReads_components hcv h2 h8 xs hy.2)
        (ih (fun y hy => hx y (List.mem_cons_of_mem _ hy)) (by simpa using hp))
      have h4 := TonalReaches.field (r := readBits 3) (v := xs.length) (fieldReads_readBits (by simpa using hy.1))
        (k := fun ncc count s => (readComponents referenceTables cv qs mode j ncc count s).andThen fun count1 s2 =>
          readPositions referenceTables cv qs mode (rest.map Prod.fst) count1 s2) h3
      rw [← List.append_assoc] at h4
      exact h4

theorem readPositions_reaches_component {cv qs : Nat} {mode : CodingMode} (hcv : cv < 8) (h2 : 2 ≤ qs) (h8 : qs < 8)
    {jx : List (Nat × List TonalComp)} (hx : ∀ p ∈ jx, p.2.length < 8 ∧ ∀ x ∈ p.2, x.ok referenceTables cv qs mode p.1 = true)
    {p j r : Nat} {xs : List TonalComp} (hp : jx[p]? = some (j, xs)) (hr : r < xs.length) :
    TonalReaches (fun count s => readPositions referenceTables cv qs mode (jx.map Prod.fst) count s)
      (posBits referenceTables qs mode (jx.take p) ++ (natBits 3 xs.length ++ (xs.take r).flatMap (TonalComp.bits referenceTables qs mode)))
      (posEntries referenceTables cv qs mode (jx.take p) ++ (xs.take r).map (TonalComp.entry referenceTables cv qs mode j))
      (readComponent referenceTables cv qs mode j) := by
  induction jx generalizing p with
  | nil => simp at hp
  | cons y rest ih =>
    have hy := hx y (by simp)
    cases p with
    | zero =>
      obtain rfl : y = (j, xs) := by simpa using hp
      have h3 := (readComponents_reaches hcv h2 h8 hy.2 hr).within
        (h := fun count s => (readComponents referenceTables cv qs mode j xs.length count s).andThen fun count1 s2 =>
          readPositions referenceTables cv qs mode (rest.map Prod.fst) count1 s2) fun c s e i t he => by rw [he, Res.andThen_raise]
      exact TonalReaches.field (r := readBits 3) (v := xs.length) (fieldReads_readBits (by simpa using hy.1))
        (k := fun ncc count s => (readComponents referenceTables cv qs mode j ncc count s).andThen fun count1 s2 =>
          readPositions referenceTables cv qs mode (rest.map Prod.fst) count1 s2) h3
    | succ p =>
      obtain ⟨j', ys⟩ := y
      have h3 := TonalReaches.andThen (tonalReads_components hcv h2 h8 ys hy.2)
        (ih (fun y hy => hx y (List.mem_cons_of_mem _ hy)) (by simpa using hp))
      have h4 := TonalReaches.field (r := readBits 3) (v := ys.length) (fieldReads_readBits (by simpa using hy.1))
        (k := fun ncc count s => (readComponents referenceTables cv qs mode j' ncc count s).andThen fun count1 s2 =>
          readPositions referenceTables cv qs mode (rest.map Prod.fst) count1 s2) h3
      simp only [posBits, posEntries, List.take_succ_cons, List.flatMap_cons, List.append_assoc] at h4 ⊢
      exact h4

/-- What is reached in a declared component after its quantization-step index. -/
theorem readGroup_reaches {β : Type} {nb cms : Nat} {g : TonalGroup} (h : g.ok referenceTables nb cms = true) {B : List Bool}
    {E : List TcEntry} {q : Nat → State → Res β}
    (hq : TonalReaches (fun count s => (readGroupMode cms s).andThen fun mode s4 =>
      readPositions referenceTables g.cv g.qs mode (activePositions g.flags) count s4) B E q) :
    TonalReaches (readGroup referenceTables nb cms) (g.flags ++ (natBits 3 g.cv ++ (natBits 3 g.qs ++ B))) E q := by
  obtain ⟨h1, h2, h3, h4, -, -, -⟩ := groupOk_spec h
  have e2 := TonalReaches.field (r := readBits 3) (v := g.qs) (fieldReads_readBits (by simpa using h4))
    (k := fun qs count s => if qs ≤ 1 then .raise .tonalQstep (BitVec.ofNat 17 (s.bitpos.toNat - 3)) s
      else (readGroupMode cms s).andThen fun mode s4 => readPositions referenceTables g.cv qs mode (activePositions g.flags) count s4)
    (hq.within fun c s e i t he => by rw [if_neg (by omega)]; exact he)
  have e2' := e2.within (h := fun count s2 => (readBits 3 s2).andThen fun qs s3 =>
      if qs ≤ 1 then .raise .tonalQstep s2.bitpos s3
      else (readGroupMode cms s3).andThen fun mode s4 => readPositions referenceTables g.cv qs mode (activePositions g.flags) count s4)
    fun c s e i t he => by
    rw [← he]
    rcases readBits_cases 3 s with ⟨_, he⟩ | ⟨_, _, he⟩ | ⟨hle, v, _, _, he⟩ <;> rw [he]
    · rfl
    · rfl
    · simp only [Res.andThen_ok]
      split_ifs
      · rw [setBitpos_toNat s hle]
        simp
      · rfl
  have e3 := TonalReaches.field (r := readBits 3) (v := g.cv) (fieldReads_readBits (by simpa using h2))
    (k := fun cv count s2 => (readBits 3 s2).andThen fun qs s3 =>
      if qs ≤ 1 then .raise .tonalQstep s2.bitpos s3
      else (readGroupMode cms s3).andThen fun mode s4 => readPositions referenceTables cv qs mode (activePositions g.flags) count s4) e2'
  have e4 := TonalReaches.field (r := readFlags g.flags.length) (fieldReads_flags g.flags)
    (k := fun flags count s1 => (readBits 3 s1).andThen fun cv s2 => (readBits 3 s2).andThen fun qs s3 =>
      if qs ≤ 1 then .raise .tonalQstep s2.bitpos s3
      else (readGroupMode cms s3).andThen fun mode s4 => readPositions referenceTables cv qs mode (activePositions flags) count s4) e3
  rw [h1] at e4
  exact e4

/-- What is reached at the positions of a declared component. -/
theorem readGroup_reaches_position {β : Type} {nb cms : Nat} {g : TonalGroup} (h : g.ok referenceTables nb cms = true) {B : List Bool}
    {E : List TcEntry} {q : Nat → State → Res β}
    (hq : TonalReaches (fun count s => readPositions referenceTables g.cv g.qs g.mode (activePositions g.flags) count s) B E q) :
    TonalReaches (readGroup referenceTables nb cms)
      (g.flags ++ (natBits 3 g.cv ++ (natBits 3 g.qs ++ ((if cms = 3 then [g.mode.bit] else []) ++ B)))) E q :=
  readGroup_reaches h (TonalReaches.field (fieldReads_groupMode (groupOk_spec h).2.2.2.2.1)
    (k := fun mode count s => readPositions referenceTables g.cv g.qs mode (activePositions g.flags) count s) hq)

theorem bitsBefore_eq {cms p : Nat} {g : TonalGroup} (hp : g.comps.length ≤ (activePositions g.flags).length) :
    g.bitsBefore referenceTables cms p = g.flags ++ (natBits 3 g.cv ++ (natBits 3 g.qs ++ ((if cms = 3 then [g.mode.bit] else []) ++
      posBits referenceTables g.qs g.mode (((activePositions g.flags).zip g.comps).take p)))) := by
  have : posBits referenceTables g.qs g.mode (((activePositions g.flags).zip g.comps).take p) =
      (g.comps.take p).flatMap (fun xs => natBits 3 xs.length ++ xs.flatMap (TonalComp.bits referenceTables g.qs g.mode)) := by
    rw [show g.comps.take p = (((activePositions g.flags).zip g.comps).take p).map Prod.snd by rw [List.map_take, List.map_snd_zip hp],
      List.flatMap_map]
    rfl
  rw [this]
  simp [TonalGroup.bitsBefore, TonalGroup.bits]

theorem entriesBefore_eq {p r j : Nat} {g : TonalGroup} {xs : List TonalComp} (hj : (activePositions g.flags)[p]? = some j)
    (hx : g.comps[p]? = some xs) :
    g.entriesBefore referenceTables p r = posEntries referenceTables g.cv g.qs g.mode (((activePositions g.flags).zip g.comps).take p) ++
      (xs.take r).map (TonalComp.entry referenceTables g.cv g.qs g.mode j) := by
  obtain ⟨hp, rfl⟩ := List.getElem?_eq_some_iff.1 hj
  obtain ⟨hp', rfl⟩ := List.getElem?_eq_some_iff.1 hx
  unfold TonalGroup.entriesBefore TonalGroup.entries posEntries
  simp only
  have h1 : (activePositions g.flags) = (activePositions g.flags).take p ++
      (activePositions g.flags)[p] :: (activePositions g.flags).drop (p + 1) := by simp
  conv_lhs => rw [h1]
  rw [List.zip_append (by simp; omega), List.flatMap_append, List.zip_eq_zipWith (l₁ := activePositions g.flags), List.take_zipWith, ← List.zip_eq_zipWith]
  simp only [List.getD_eq_getElem _ _ hp', List.zip_cons_cons, List.zip_nil_right, List.flatMap_cons, List.flatMap_nil, List.append_nil]

theorem position_of_comp {nb cms p : Nat} {g : TonalGroup} (h : g.ok referenceTables nb cms = true) (hp : p < g.comps.length) :
    ∃ j, (activePositions g.flags)[p]? = some j := by
  have h6 := (groupOk_spec h).2.2.2.2.2.1
  exact ⟨_, List.getElem?_eq_getElem (by omega)⟩

/-- A declared component comes to each of its tonal components. -/
theorem readGroup_reaches_component {nb cms p j r : Nat} {g : TonalGroup} {xs : List TonalComp} (h : g.ok referenceTables nb cms = true)
    (hj : (activePositions g.flags)[p]? = some j) (hx : g.comps[p]? = some xs) (hr : r < xs.length) :
    TonalReaches (readGroup referenceTables nb cms) (g.bitsBeforeComp referenceTables cms p xs r) (g.entriesBefore referenceTables p r)
      (readComponent referenceTables g.cv g.qs g.mode j) := by
  obtain ⟨-, h2, h3, h4, -, h6, h7⟩ := groupOk_spec h
  have hz : ((activePositions g.flags).zip g.comps)[p]? = some (j, xs) := by
    rw [List.getElem?_zip_eq_some]; exact ⟨hj, hx⟩
  have hq := readPositions_reaches_component h2 h3 h4 h7 hz hr
  rw [List.map_fst_zip (by omega)] at hq
  rw [entriesBefore_eq hj hx, TonalGroup.bitsBeforeComp, bitsBefore_eq (by omega)]
  have := readGroup_reaches_position h hq
  simpa only [List.append_assoc] using this

/-- A declared component comes to each of its fields at which no tonal component is half read. -/
theorem readGroup_reaches_boundary {nb cms w : Nat} {g : TonalGroup} {B : List Bool} {E : List TcEntry}
    (h : g.ok referenceTables nb cms = true) (hb : TonalBoundary referenceTables cms g B E w) :
    TonalReaches (readGroup referenceTables nb cms) B E (fun _ s => readBits w s) := by
  obtain ⟨h1, h2, h3, h4, h5, h6, h7⟩ := groupOk_spec h
  cases hb with
  | flag b hlt =>
    have := (readFlags_reaches g.flags b hlt).within (h := readGroup referenceTables nb cms) fun c s e i t he => by
      rw [h1] at he
      unfold readGroup
      rw [he, Res.andThen_raise]
    exact this
  | codedValues =>
    have := TonalReaches.field (r := readFlags g.flags.length) (fieldReads_flags g.flags)
      (k := fun flags count s1 => (readBits 3 s1).andThen fun cv s2 => (readBits 3 s2).andThen fun qs s3 =>
        if qs ≤ 1 then .raise .tonalQstep s2.bitpos s3
        else (readGroupMode cms s3).andThen fun mode s4 => readPositions referenceTables cv qs mode (activePositions flags) count s4)
      (TonalReaches.first (readBits 3) _)
    rw [h1, List.append_nil] at this
    exact this
  | qstep =>
    have e2 := TonalReaches.first (readBits 3) fun qs count s3 => if qs ≤ 1 then Res.raise .tonalQstep (BitVec.ofNat 17 (s3.bitpos.toNat - 3)) s3
        else (readGroupMode cms s3).andThen fun mode s4 => readPositions referenceTables g.cv qs mode (activePositions g.flags) count s4
    have e3 := TonalReaches.field (r := readBits 3) (v := g.cv) (fieldReads_readBits (by simpa using h2))
      (k := fun cv count s2 => (readBits 3 s2).andThen fun qs s3 =>
        if qs ≤ 1 then .raise .tonalQstep s2.bitpos s3
        else (readGroupMode cms s3).andThen fun mode s4 => readPositions referenceTables cv qs mode (activePositions g.flags) count s4)
      ((TonalReaches.refl _).enter (h := fun _ s => readBits 3 s) fun c s e i t he => by rw [he, Res.andThen_raise])
    have e4 := TonalReaches.field (r := readFlags g.flags.length) (fieldReads_flags g.flags)
      (k := fun flags count s1 => (readBits 3 s1).andThen fun cv s2 => (readBits 3 s2).andThen fun qs s3 =>
        if qs ≤ 1 then .raise .tonalQstep s2.bitpos s3
        else (readGroupMode cms s3).andThen fun mode s4 => readPositions referenceTables cv qs mode (activePositions flags) count s4) e3
    rw [h1, List.append_nil] at e4
    exact e4
  | mode hm =>
    have := readGroup_reaches h (B := []) (E := []) (q := fun _ s => readBits 1 s) ((TonalReaches.refl _).enter fun c s e i t he => by
      unfold readGroupMode
      rw [if_pos hm, he, Res.andThen_raise, Res.andThen_raise])
    simpa only [List.append_nil, List.append_assoc] using this
  | compCount p hp =>
    obtain ⟨j, hj⟩ := position_of_comp h hp
    have hq := readPositions_reaches h2 h3 h4 h7 (p := p) (by rw [List.length_zip]; omega)
    rw [List.map_fst_zip (by omega)] at hq
    rw [entriesBefore_eq hj (List.getElem?_eq_getElem hp), bitsBefore_eq (by omega), List.take_zero, List.map_nil, List.append_nil]
    exact readGroup_reaches_position h hq
  | sfIndex p r xs hx hr =>
    obtain ⟨j, hj⟩ := position_of_comp h (List.getElem?_eq_some_iff.1 hx).1
    exact (readGroup_reaches_component h hj hx hr).enter fun c s e i t he => by
      unfold readComponent
      rw [he, Res.andThen_raise]

/-! ### The block -/

theorem readGroups_reaches {β : Type} {nb cms : Nat} {gs : List TonalGroup} (h : ∀ g ∈ gs, g.ok referenceTables nb cms = true) {n : Nat}
    {g : TonalGroup} (hn : gs[n]? = some g) {B : List Bool} {E : List TcEntry} {q : Nat → State → Res β}
    (hq : TonalReaches (readGroup referenceTables nb cms) B E q) :
    TonalReaches (fun count s => readGroups referenceTables nb cms gs.length count s)
      ((gs.take n).flatMap (TonalGroup.bits referenceTables cms) ++ B) ((gs.take n).flatMap (TonalGroup.entries referenceTables) ++ E) q := by
  induction gs generalizing n with
  | nil => simp at hn
  | cons y rest ih =>
    cases n with
    | zero =>
      obtain rfl : y = g := by simpa using hn
      refine hq.within fun c s e i t he => ?_
      simp only [List.length_cons, readGroups, he, Res.andThen_raise]
    | succ n =>
      have := TonalReaches.andThen (tonalReads_group (h y (by simp))) (ih (fun z hz => h z (List.mem_cons_of_mem _ hz)) (by simpa using hn))
      simp only [List.take_succ_cons, List.flatMap_cons, List.append_assoc] at this ⊢
      exact this

/-- What a declared component of a block reaches, TONAL reaches, with the bits and entries of the components before it. -/
theorem tonalBody_reaches {β : Type} {c : Config} (hc : c.tables = referenceTables) {nb n : Nat} {b : TonalBlock} {g : TonalGroup}
    (h : b.shape referenceTables nb = true) (hn : b.groups[n]? = some g) {B : List Bool} {E : List TcEntry} {q : Nat → State → Res β}
    (hq : g.ok referenceTables nb b.cms = true → TonalReaches (readGroup referenceTables nb b.cms) B E q) {s : State}
    (h64 : (b.entriesBefore referenceTables n ++ E).length ≤ 64) (hs : onStream s (b.bitsBefore referenceTables n ++ B) = true) :
    ∃ m, Extends m s.tc 0 (b.entriesBefore referenceTables n ++ E) ∧ ∀ e i t,
      q (b.entriesBefore referenceTables n ++ E).length (((s.setBitpos (s.bitpos.toNat + (b.bitsBefore referenceTables n ++ B).length)).withTc
        m).setTccount (b.entriesBefore referenceTables n ++ E).length) = .raise e i t → tonalBody c nb s = .raise e i t := by
  obtain ⟨h1, h2, h3, h4⟩ := blockShape_spec h
  have hlt : n < b.groups.length := (List.getElem?_eq_some_iff.1 hn).1
  have e0 := TonalReaches.field (r := readBits 2) (v := b.cms) (fieldReads_readBits (by simpa using h2))
    (k := fun cms count s => if cms = 2 then .raise .tonalMode (BitVec.ofNat 17 (s.bitpos.toNat - 2)) s
      else readGroups referenceTables nb cms b.groups.length count s)
    ((readGroups_reaches h4 hn (hq (h4 g (List.mem_of_getElem? hn)))).within fun c s e i t he => by rw [if_neg h3]; exact he)
  have e1 := TonalReaches.field (r := readBits 5) (v := b.groups.length)
    (fieldReads_readBits (by have : b.groups.length < 32 := by omega
                             simpa using this))
    (k := fun nc count s => if nc = 0 then Res.ok 0 s else
      (readBits 2 s).andThen fun cms s => if cms = 2 then .raise .tonalMode (BitVec.ofNat 17 (s.bitpos.toNat - 2)) s
      else readGroups referenceTables nb cms nc count s)
    (e0.within fun c s e i t he => by rw [if_neg (by omega)]; exact he)
  have hs' : onStream (s.setTccount 0) (natBits 5 b.groups.length ++ (natBits 2 b.cms ++
      ((b.groups.take n).flatMap (TonalGroup.bits referenceTables b.cms) ++ B))) = true := by
    rw [onStream_setTccount]
    simpa only [TonalBlock.bitsBefore, List.append_assoc] using hs
  obtain ⟨m, x, hr⟩ := e1 0 (s.setTccount 0) rfl (by rw [Nat.zero_add]; exact h64) hs'
  refine ⟨m, x, fun e i t he => ?_⟩
  have := hr e i t (by
    rw [Nat.zero_add]
    simp only [TonalBlock.bitsBefore, List.append_assoc] at he
    exact he)
  unfold tonalBody
  rw [hc]
  simp only [] at this
  rcases readBits_cases 5 (s.setTccount 0) with ⟨_, e5⟩ | ⟨_, _, e5⟩ | ⟨_, nc, _, _, e5⟩ <;> rw [e5] at this ⊢
  · simpa using this
  · simp at this
  · simp only [Res.andThen_ok] at this ⊢
    split_ifs at this ⊢
    generalize (s.setTccount 0).setBitpos _ = s1 at this ⊢
    rcases readBits_cases 2 s1 with ⟨_, e2⟩ | ⟨_, _, e2⟩ | ⟨hle, v, _, _, e2⟩ <;> rw [e2] at this ⊢
    · simpa using this
    · simp at this
    · simp only [Res.andThen_ok] at this ⊢
      split_ifs at this ⊢
      · rw [setBitpos_toNat s1 hle] at this
        simpa using this
      · rw [this, Res.andThen_raise]

/-! ### A component that breaks off -/

/-- TC after a component at position `j` has broken off: its four fields and the mantissas it delivered; `m0` is TC before. -/
def HalfRead (m m0 : Memory Word) (count pos ncoef sfi qs : Nat) (vs : List Int) : Prop :=
  m.read (tcIndex count .pos) = some (wordOfNat pos) ∧ m.read (tcIndex count .ncoef) = some (wordOfNat ncoef) ∧
    m.read (tcIndex count .sfi) = some (wordOfNat sfi) ∧ m.read (tcIndex count .qstep) = some (wordOfNat qs) ∧
    (∀ k, k < 8 → m.read (tcIndex count (.mant k)) = if k < vs.length then some (wordOfInt (vs.getD k 0)) else m0.read (tcIndex count (.mant k))) ∧
    ∀ a, (a < 12 * count ∨ 12 * count + 12 ≤ a) → m.read a = m0.read a

/-- The mantissas of a component break off after `codes`. -/
theorem readPlaced_cut {cv qs j count sfi place : Nat} {mode : CodingMode} (hcv : cv < 8) (h2 : 2 ≤ qs) (h8 : qs < 8) (hp64 : place < 64)
    {codes : List Nat} (hcodes : ∀ raw ∈ codes, codeOk referenceTables qs mode raw = true) (hlen : codes.length < coefCount cv j place)
    {s : State} (h : onStream s (natBits 6 place ++ mantBits referenceTables qs mode codes) = true)
    (hcut : codeCut referenceTables qs mode s (s.bitpos.toNat + (natBits 6 place ++ mantBits referenceTables qs mode codes).length)) :
    ∃ m, readPlaced referenceTables cv qs mode j count sfi s =
        .raise .overrun (BitVec.ofNat 17 (s.bitpos.toNat + (natBits 6 place ++ mantBits referenceTables qs mode codes).length))
          ((s.setBitpos (s.bitpos.toNat + (natBits 6 place ++ mantBits referenceTables qs mode codes).length)).withTc m) ∧
      HalfRead m s.tc count (64 * j + place) (coefCount cv j place) sfi qs (mantValues referenceTables qs mode codes) := by
  rw [onStream_append] at h
  have hp := onStream_bitpos h.1
  have hn8 : coefCount cv j place ≤ 8 := coefCount_le hcv
  unfold readPlaced
  rw [readBits_spelled (by simpa using hp64) h.1, Res.andThen_ok]
  simp only
  rw [show min (1024 - (64 * j + place)) (cv + 1) = coefCount cv j place from rfl]
  generalize hs2 : State.writeTc (State.writeTc _ _ _ _) _ TcField.qstep _ = s2
  have hon : onStream s2 (mantBits referenceTables qs mode codes) = true := by
    subst hs2
    simpa using h.2
  have hbp2 : s2.bitpos.toNat = s.bitpos.toNat + 6 := by
    subst hs2
    rw [natBits_length] at hp
    simpa using hp
  rw [List.length_append, natBits_length] at hcut ⊢
  have e2 : s2 = (s.setBitpos (s.bitpos.toNat + 6)).withTc s2.tc := by rw [← hs2]; rfl
  have key := mantCodes_cut (mode := mode) (sel := qs) (by omega) h8 (writer_tc count) hlen s2 hcodes hon
    (by
      rw [hbp2, Nat.add_assoc]
      exact codeCut_congr (by rw [e2]; rfl) (by rw [e2]; rfl) hcut)
  unfold mantExtract
  rw [codeCount_of_two_le h2, key, Res.andThen_raise, hbp2, Nat.add_assoc]
  have hvl : (mantValues referenceTables qs mode codes).length = codes.length := by
    rw [mantValues_length, perCode_of_two_le h2, Nat.mul_one]
  have hkeep := deliver_keeps (I := fun t => t = { s2 with tc := t.tc }) (lo := 0)
    (hi := (mantValues referenceTables qs mode codes).length) (Q := fun _ => True)
    (dst := fun k v s => s.writeTc count (.mant k) v)
    (fun k v s1 _ _ _ hs1 => by
      show s1.writeTc _ _ v = _
      conv_lhs => rw [hs1]
      rfl) (mantValues referenceTables qs mode codes) 0 s2 (by omega) (by omega) (fun _ _ => trivial) rfl
  have hread := fun a => deliver_read (dst := fun k v s => State.writeTc s count (.mant k) v) (f := State.tc) (base := 12 * count + 4)
    (fun k v s => rfl) (mantValues referenceTables qs mode codes) 0 s2 a
  generalize hd : deliver (fun k v s => State.writeTc s count (.mant k) v) 0 (mantValues referenceTables qs mode codes) s2 = s3 at *
  have hw : ∀ a, s2.tc.read a = if a = 12 * count + 3 then some (wordOfNat qs) else if a = 12 * count + 2 then some (wordOfNat sfi)
      else if a = 12 * count + 1 then some (wordOfNat (coefCount cv j place)) else if a = 12 * count then
        some (wordOfNat (64 * j + place)) else s.tc.read a := by
    intro a
    rw [← hs2]
    simp only [State.writeTc, tcIndex, Memory.read_write, State.setBitpos_tc]
    simp only [wordOfInt, wordOfNat, BitVec.ofInt_natCast]
  have hlow : ∀ a, a < 12 * count + 4 ∨ 12 * count + 12 ≤ a → s3.tc.read a = s2.tc.read a := by
    intro a ha
    rw [hread, if_neg (by omega)]
  refine ⟨s3.tc, ?_, ?_, ?_, ?_, ?_, fun k hk => ?_, fun a ha => ?_⟩
  · congr 1
    have e3 : s3 = (s.setBitpos (s.bitpos.toNat + 6)).withTc s3.tc := by
      refine hkeep.trans ?_
      show s2.withTc s3.tc = _
      rw [e2]; rfl
    generalize s3.tc = m3 at e3
    subst e3
    rfl
  · rw [hlow _ (by simp [tcIndex]), hw]; simp [tcIndex]
  · rw [hlow _ (by simp [tcIndex]), hw]; simp [tcIndex]
  · rw [hlow _ (by simp [tcIndex]), hw]; simp [tcIndex]
  · rw [hlow _ (by simp [tcIndex]), hw]; simp [tcIndex]
  · simp only [tcIndex]
    rw [hread]
    by_cases hkn : k < (mantValues referenceTables qs mode codes).length
    · rw [if_pos (by omega), if_pos hkn]
      congr 3
      omega
    · rw [if_neg (by omega), if_neg hkn, hw, if_neg (by omega), if_neg (by omega), if_neg (by omega), if_neg (by omega)]
  · rw [hlow a (by omega), hw, if_neg (by omega), if_neg (by omega), if_neg (by omega), if_neg (by omega)]

/-! ### A block that breaks off -/

/-- The fields of a tonal component of a block. -/
theorem comp_ok {nb n p j r : Nat} {b : TonalBlock} {g : TonalGroup} {xs : List TonalComp} {x : TonalComp}
    (h : b.shape referenceTables nb = true) (hn : b.groups[n]? = some g) (hj : (activePositions g.flags)[p]? = some j)
    (hx : g.comps[p]? = some xs) (hr : xs[r]? = some x) :
    x.sfi < 64 ∧ x.place < 64 ∧ x.codes.length = coefCount g.cv j x.place ∧
      ∀ raw ∈ x.codes, codeOk referenceTables g.qs g.mode raw = true := by
  have hg := (blockShape_spec h).2.2.2 g (List.mem_of_getElem? hn)
  have hmem : (j, xs) ∈ (activePositions g.flags).zip g.comps := by
    refine List.mem_of_getElem? (i := p) ?_
    rw [List.getElem?_zip_eq_some]; exact ⟨hj, hx⟩
  have := ((groupOk_spec hg).2.2.2.2.2.2 _ hmem).2 x (List.mem_of_getElem? hr)
  simp only [TonalComp.ok, Bool.and_eq_true, decide_eq_true_eq, List.all_eq_true] at this
  exact ⟨this.1.1.1, this.1.1.2, this.1.2, this.2⟩

/-- TONAL breaks off in NC. -/
theorem tonalBody_cut_nc (c : Config) (nb : Nat) {s : State} (h : s.bitlen.toNat < s.bitpos.toNat + 5) :
    tonalBody c nb s = .raise .overrun s.bitpos (s.setTccount 0) := by
  unfold tonalBody
  rw [readBits_short (s := s.setTccount 0) h]
  rfl

/-- TONAL breaks off in CMS. -/
theorem tonalBody_cut_cms (c : Config) (nb : Nat) {s : State} {n : Nat} (h0 : n ≠ 0) (h32 : n < 32) (h : onStream s (natBits 5 n) = true)
    (hcut : s.bitlen.toNat < s.bitpos.toNat + 7) :
    tonalBody c nb s = .raise .overrun (BitVec.ofNat 17 (s.bitpos.toNat + 5)) ((s.setBitpos (s.bitpos.toNat + 5)).setTccount 0) := by
  have h' := (onStream_setTccount s 0 _).trans h
  have hp := onStream_bitpos h
  rw [natBits_length] at hp
  unfold tonalBody
  rw [readBits_spelled (s := s.setTccount 0) (by simpa using h32) h', Res.andThen_ok, if_neg h0, readBits_short (by
    show _ < (s.setBitpos (s.bitpos.toNat + 5)).bitpos.toNat + 2
    rw [hp]; exact hcut)]
  rfl

/-- TONAL breaks off in a field at which no tonal component is half read. -/
theorem tonalBody_cut_boundary {c : Config} (hc : c.tables = referenceTables) {nb n w : Nat} {b : TonalBlock} {g : TonalGroup}
    (h : b.shape referenceTables nb = true) (hn : b.groups[n]? = some g) {B : List Bool} {E : List TcEntry}
    (hb : TonalBoundary referenceTables b.cms g B E w) {s : State} (h64 : (b.entriesBefore referenceTables n ++ E).length ≤ 64)
    (hs : onStream s (b.bitsBefore referenceTables n ++ B) = true)
    (hcut : s.bitlen.toNat < s.bitpos.toNat + (b.bitsBefore referenceTables n ++ B).length + w) :
    ∃ m, tonalBody c nb s = .raise .overrun (BitVec.ofNat 17 (s.bitpos.toNat + (b.bitsBefore referenceTables n ++ B).length))
        (((s.setBitpos (s.bitpos.toNat + (b.bitsBefore referenceTables n ++ B).length)).withTc m).setTccount
          (b.entriesBefore referenceTables n ++ E).length) ∧
      Extends m s.tc 0 (b.entriesBefore referenceTables n ++ E) := by
  obtain ⟨m, x, hr⟩ := tonalBody_reaches hc h hn (fun hg => readGroup_reaches_boundary hg hb) h64 hs
  exact ⟨m, hr _ _ _ (readBits_short (by
    show s.bitlen.toNat < (s.setBitpos _).bitpos.toNat + w
    rw [onStream_bitpos hs]; exact hcut)), x⟩

/-- TONAL stops at the 65th component, its scale-factor index read (43_tonal.md R167). -/
theorem tonalBody_cap {c : Config} (hc : c.tables = referenceTables) {nb n p r : Nat} {b : TonalBlock} {g : TonalGroup}
    (h : b.shape referenceTables nb = true) (hn : b.groups[n]? = some g) {xs : List TonalComp} {x : TonalComp}
    (hx : g.comps[p]? = some xs) (hr : xs[r]? = some x) {s : State}
    (h64 : (b.entriesBefore referenceTables n ++ g.entriesBefore referenceTables p r).length = 64) {B : List Bool}
    (hB : B = b.bitsBefore referenceTables n ++ g.bitsBeforeComp referenceTables b.cms p xs r)
    (hs : onStream s (B ++ natBits 6 x.sfi) = true) :
    ∃ m, tonalBody c nb s = .raise .tonalCap (BitVec.ofNat 17 (s.bitpos.toNat + B.length))
        (((s.setBitpos (s.bitpos.toNat + B.length + 6)).withTc m).setTccount 64) ∧
      Extends m s.tc 0 (b.entriesBefore referenceTables n ++ g.entriesBefore referenceTables p r) := by
  obtain ⟨j, hj⟩ := position_of_comp ((blockShape_spec h).2.2.2 g (List.mem_of_getElem? hn)) (List.getElem?_eq_some_iff.1 hx).1
  obtain ⟨h1, -⟩ := comp_ok h hn hj hx hr
  rw [onStream_append] at hs
  have hp := onStream_bitpos hs.1
  obtain ⟨m, e, hq⟩ := tonalBody_reaches hc h hn
    (fun hg => readGroup_reaches_component hg hj hx (List.getElem?_eq_some_iff.1 hr).1) (by omega) (by rw [← hB]; exact hs.1)
  rw [← hB, h64] at hq
  refine ⟨m, hq _ _ _ ?_, e⟩
  unfold readComponent
  rw [readBits_spelled (v := x.sfi) (by simpa using h1) (by simpa using hs.2), Res.andThen_ok, if_pos (show (64 : Nat) = tcMax from rfl)]
  rw [show (((s.setBitpos (s.bitpos.toNat + B.length)).withTc m).setTccount 64).bitpos.toNat = s.bitpos.toNat + B.length from hp]
  rfl

/-- TONAL breaks off in the place of a tonal component. -/
theorem tonalBody_cut_place {c : Config} (hc : c.tables = referenceTables) {nb n p r : Nat} {b : TonalBlock} {g : TonalGroup}
    (h : b.shape referenceTables nb = true) (hn : b.groups[n]? = some g) {xs : List TonalComp} {x : TonalComp}
    (hx : g.comps[p]? = some xs) (hr : xs[r]? = some x) {s : State}
    (h64 : (b.entriesBefore referenceTables n ++ g.entriesBefore referenceTables p r).length < 64) {B : List Bool}
    (hB : B = b.bitsBefore referenceTables n ++ g.bitsBeforeComp referenceTables b.cms p xs r)
    (hs : onStream s (B ++ natBits 6 x.sfi) = true) (hcut : s.bitlen.toNat < s.bitpos.toNat + (B ++ natBits 6 x.sfi).length + 6) :
    ∃ m, tonalBody c nb s = .raise .overrun (BitVec.ofNat 17 (s.bitpos.toNat + (B ++ natBits 6 x.sfi).length))
        (((s.setBitpos (s.bitpos.toNat + (B ++ natBits 6 x.sfi).length)).withTc m).setTccount
          (b.entriesBefore referenceTables n ++ g.entriesBefore referenceTables p r).length) ∧
      Extends m s.tc 0 (b.entriesBefore referenceTables n ++ g.entriesBefore referenceTables p r) := by
  obtain ⟨j, hj⟩ := position_of_comp ((blockShape_spec h).2.2.2 g (List.mem_of_getElem? hn)) (List.getElem?_eq_some_iff.1 hx).1
  obtain ⟨h1, -⟩ := comp_ok h hn hj hx hr
  have hpall := onStream_bitpos hs
  rw [onStream_append] at hs
  have hp := onStream_bitpos hs.1
  obtain ⟨m, e, hq⟩ := tonalBody_reaches hc h hn
    (fun hg => readGroup_reaches_component hg hj hx (List.getElem?_eq_some_iff.1 hr).1) (by omega) (by rw [← hB]; exact hs.1)
  rw [← hB] at hq
  refine ⟨m, hq _ _ _ ?_, e⟩
  generalize (b.entriesBefore referenceTables n ++ g.entriesBefore referenceTables p r).length = k at h64
  rw [List.length_append, natBits_length, ← Nat.add_assoc] at hpall hcut ⊢
  unfold readComponent
  rw [readBits_spelled (v := x.sfi) (by simpa using h1) (by simpa using hs.2), Res.andThen_ok,
    if_neg (by have : tcMax = 64 := rfl; omega)]
  unfold readPlaced
  rw [show (((s.setBitpos (s.bitpos.toNat + B.length)).withTc m).setTccount k).bitpos.toNat = s.bitpos.toNat + B.length from hp]
  rw [readBits_short (by
    show s.bitlen.toNat < (s.setBitpos (s.bitpos.toNat + B.length + 6)).bitpos.toNat + 6
    rw [hpall]; exact hcut)]
  rfl

/-- TONAL breaks off in the mantissas of a tonal component, after `n'` of its codes. -/
theorem tonalBody_cut_mant {c : Config} (hc : c.tables = referenceTables) {nb n p j r n' : Nat} {b : TonalBlock} {g : TonalGroup}
    (h : b.shape referenceTables nb = true) (hn : b.groups[n]? = some g) {xs : List TonalComp} {x : TonalComp}
    (hj : (activePositions g.flags)[p]? = some j) (hx : g.comps[p]? = some xs) (hr : xs[r]? = some x) (hn' : n' < x.codes.length)
    {s : State} {k : Nat} (hk : (b.entriesBefore referenceTables n ++ g.entriesBefore referenceTables p r).length = k) (h64 : k < 64)
    {B M : List Bool} (hB : B = b.bitsBefore referenceTables n ++ g.bitsBeforeComp referenceTables b.cms p xs r)
    (hM : M = natBits 6 x.place ++ mantBits referenceTables g.qs g.mode (x.codes.take n'))
    (hs : onStream s (B ++ (natBits 6 x.sfi ++ M)) = true)
    (hcut : codeCut referenceTables g.qs g.mode s (s.bitpos.toNat + (B ++ (natBits 6 x.sfi ++ M)).length)) :
    ∃ m0 m, tonalBody c nb s = .raise .overrun (BitVec.ofNat 17 (s.bitpos.toNat + (B ++ (natBits 6 x.sfi ++ M)).length))
        (((s.setBitpos (s.bitpos.toNat + (B ++ (natBits 6 x.sfi ++ M)).length)).withTc m).setTccount k) ∧
      Extends m0 s.tc 0 (b.entriesBefore referenceTables n ++ g.entriesBefore referenceTables p r) ∧
      HalfRead m m0 k (64 * j + x.place) (coefCount g.cv j x.place) x.sfi g.qs (mantValues referenceTables g.qs g.mode (x.codes.take n')) := by
  have hg := (blockShape_spec h).2.2.2 g (List.mem_of_getElem? hn)
  obtain ⟨-, g2, g3, g4, -⟩ := groupOk_spec hg
  obtain ⟨h1, h2, h3, h4⟩ := comp_ok h hn hj hx hr
  rw [onStream_append] at hs
  obtain ⟨hs1, hs2⟩ := hs
  have hp := onStream_bitpos hs1
  obtain ⟨m0, e, hq⟩ := tonalBody_reaches hc h hn
    (fun hg => readGroup_reaches_component hg hj hx (List.getElem?_eq_some_iff.1 hr).1) (by omega) (by rw [← hB]; exact hs1)
  rw [← hB, hk] at hq
  have hu : ∀ t, t = ((s.setBitpos (s.bitpos.toNat + B.length)).withTc m0).setTccount k → onStream t (natBits 6 x.sfi ++ M) = true := by
    rintro t rfl
    simpa using hs2
  rw [List.length_append, List.length_append, natBits_length, ← Nat.add_assoc, ← Nat.add_assoc] at hcut ⊢
  have key : ∀ t, t = ((s.setBitpos (s.bitpos.toNat + B.length)).withTc m0).setTccount k →
      ∃ m, readComponent referenceTables g.cv g.qs g.mode j k t = .raise .overrun (BitVec.ofNat 17 (t.bitpos.toNat + 6 + M.length))
          ((t.setBitpos (t.bitpos.toNat + 6 + M.length)).withTc m) ∧
        HalfRead m t.tc k (64 * j + x.place) (coefCount g.cv j x.place) x.sfi g.qs (mantValues referenceTables g.qs g.mode (x.codes.take n')) := by
    intro t ht
    have hut := hu t ht
    rw [onStream_append] at hut
    have hpt := onStream_bitpos hut.1
    have hpb : t.bitpos.toNat = s.bitpos.toNat + B.length := by rw [ht]; exact hp
    have hfb : t.fb = s.fb := by rw [ht]; rfl
    have hbl : t.bitlen = s.bitlen := by rw [ht]; rfl
    rw [natBits_length] at hpt hut
    unfold readComponent
    rw [readBits_spelled (v := x.sfi) (by simpa using h1) hut.1, Res.andThen_ok, if_neg (by have : tcMax = 64 := rfl; omega)]
    obtain ⟨m, e', x'⟩ := readPlaced_cut (count := k) (sfi := x.sfi) g2 g3 g4 h2 (codes := x.codes.take n')
      (fun raw hraw => h4 raw (List.mem_of_mem_take hraw)) (j := j) (mode := g.mode) (by rw [← h3, List.length_take]; omega)
      (s := t.setBitpos (t.bitpos.toNat + 6)) (by rw [← hM]; exact hut.2)
      (by
        rw [← hM, hpt, hpb]
        exact codeCut_congr (by rw [State.setBitpos_fb, hfb]) (by rw [State.setBitpos_bitlen, hbl])
          hcut)
    rw [← hM, hpt, setBitpos_setBitpos] at e'
    exact ⟨m, e', x'⟩
  obtain ⟨m, e', x'⟩ := key _ rfl
  rw [show (((s.setBitpos (s.bitpos.toNat + B.length)).withTc m0).setTccount k).bitpos.toNat = s.bitpos.toNat + B.length from hp] at e'
  exact ⟨m0, m, hq _ _ _ e', e, x'⟩

end Sys2Proof.Machine
end

