-- ==== Sys2Proof/Laws/Twins.lean ====
section
/-! SUPPORT. Two runs of one command from states with the same frame buffer, BITPOS and BITLEN: they go the same way, and any relation that
survives equal writes on both sides survives the command (00_scope.md R7). -/

namespace Sys2Proof.Machine

variable {α β : Type}

/-- The two parts of a command come out alike, in related states. -/
def Res.Twin (R : State → State → Prop) (r r' : Res α) : Prop :=
  match r, r' with
  | .ok a s, .ok a' s' => a = a' ∧ R s s'
  | .raise e i s, .raise e' i' s' => e = e' ∧ i = i' ∧ R s s'
  | .fault f, .fault f' => f = f'
  | _, _ => False

/-- `R` relates states with the same stream, and survives every write of a command made on both sides. -/
structure TwinWrites (R : State → State → Prop) : Prop where
  fb : ∀ {s s'}, R s s' → s'.fb = s.fb
  bitpos : ∀ {s s'}, R s s' → s'.bitpos = s.bitpos
  bitlen : ∀ {s s'}, R s s' → s'.bitlen = s.bitlen
  setBitpos : ∀ {s s'} p, R s s' → R (s.setBitpos p) (s'.setBitpos p)
  setNsb : ∀ {s s'} n, R s s' → R (s.setNsb n) (s'.setNsb n)
  setSpecMode : ∀ {s s'} m, R s s' → R (s.setSpecMode m) (s'.setSpecMode m)
  setTccount : ∀ {s s'} n, R s s' → R (s.setTccount n) (s'.setTccount n)
  writeQm : ∀ {s s'} i v, R s s' → R (s.writeQm i v) (s'.writeQm i v)
  zeroQm : ∀ {s s'} i n, R s s' → R (s.zeroQm i n) (s'.zeroQm i n)
  writeSel : ∀ {s s'} i v, R s s' → R (s.writeSel i v) (s'.writeSel i v)
  writeSfi : ∀ {s s'} i v, R s s' → R (s.writeSfi i v) (s'.writeSfi i v)
  zeroSide : ∀ {s s'} i n, R s s' → R (s.zeroSide i n) (s'.zeroSide i n)
  writeMbuf : ∀ {s s'} i v, R s s' → R (s.writeMbuf i v) (s'.writeMbuf i v)
  writeTc : ∀ {s s'} k f v, R s s' → R (s.writeTc k f v) (s'.writeTc k f v)
  zeroTcMant : ∀ {s s'} k lo n, R s s' → R (s.zeroTcMant k lo n) (s'.zeroTcMant k lo n)

variable {R : State → State → Prop}

theorem Res.Twin.andThen {r r' : Res α} {k k' : α → State → Res β} (h : r.Twin R r')
    (hk : ∀ a s s', R s s' → (k a s).Twin R (k' a s')) : (r.andThen k).Twin R (r'.andThen k') := by
  cases r <;> cases r' <;> try exact h.elim
  · obtain ⟨rfl, h⟩ := h; exact hk _ _ _ h
  · exact h
  · exact h

variable (hR : TwinWrites R)
include hR

theorem twin_fbBit {s s' : State} (h : R s s') (p : Nat) : fbBit s' p = fbBit s p := fbBit_congr (hR.fb h) p

theorem twin_fieldAt {s s' : State} (h : R s s') (p n : Nat) : fieldAt s' p n = fieldAt s p n := by
  induction n with
  | zero => rfl
  | succ n ih => simp only [fieldAt, ih, twin_fbBit hR h]

theorem twin_readBits {s s' : State} (h : R s s') (n : Nat) : (readBits n s).Twin R (readBits n s') := by
  unfold readBits
  rw [hR.bitlen h, hR.bitpos h, twin_fieldAt hR h]
  split_ifs
  · exact ⟨rfl, rfl, h⟩
  · cases fieldAt s s.bitpos.toNat n with
    | none => rfl
    | some v => exact ⟨rfl, hR.setBitpos _ h⟩

theorem twin_huffLoop {s s' : State} (h : R s s') (book : List Code) (more len word : Nat) :
    (huffLoop book s more len word).Twin R (huffLoop book s' more len word) := by
  induction more generalizing len word with
  | zero => exact ⟨rfl, (hR.bitpos h).symm, h⟩
  | succ more ih =>
    unfold huffLoop
    rw [hR.bitlen h, hR.bitpos h, twin_fbBit hR h]
    split_ifs
    · exact ⟨rfl, rfl, h⟩
    · cases fbBit s (s.bitpos.toNat + len) with
      | none => rfl
      | some b =>
        show Res.Twin R (match findSymbol book (len + 1) (2 * word + b.toNat) with
          | some sym => .ok sym (s.setBitpos (s.bitpos.toNat + len + 1))
          | none => huffLoop book s more (len + 1) (2 * word + b.toNat)) (match findSymbol book (len + 1) (2 * word + b.toNat) with
          | some sym => .ok sym (s'.setBitpos (s.bitpos.toNat + len + 1))
          | none => huffLoop book s' more (len + 1) (2 * word + b.toNat))
        cases findSymbol book (len + 1) (2 * word + b.toNat) with
        | some sym => exact ⟨rfl, hR.setBitpos _ h⟩
        | none => exact ih _ _

theorem twin_readCode {s s' : State} (h : R s s') (T : Tables) (sel : Nat) (mode : CodingMode) :
    (readCode T sel mode s).Twin R (readCode T sel mode s') := by
  cases mode with
  | clc =>
    simp only [readCode]
    split_ifs
    · exact ⟨rfl, h⟩
    · exact twin_readBits hR h _
  | vlc => exact twin_huffLoop hR h _ _ _ _

omit hR in
theorem twin_deliver {dst : Nat → Int → State → State} (hd : ∀ k v s s', R s s' → R (dst k v s) (dst k v s')) (k : Nat)
    (vs : List Int) {s s' : State} (h : R s s') : R (deliver dst k vs s) (deliver dst k vs s') := by
  induction vs generalizing k s s' with
  | nil => exact h
  | cons v rest ih => exact ih _ (hd k v _ _ h)

theorem twin_mantCodes (T : Tables) (sel : Nat) (mode : CodingMode) {dst : Nat → Int → State → State}
    (hd : ∀ k v s s', R s s' → R (dst k v s) (dst k v s')) (n k : Nat) {s s' : State} (h : R s s') :
    (mantCodes T sel mode dst n k s).Twin R (mantCodes T sel mode dst n k s') := by
  induction n generalizing k s s' with
  | zero => exact ⟨rfl, h⟩
  | succ n ih => exact (twin_readCode hR h T sel mode).andThen fun raw s1 s1' h1 => ih _ (twin_deliver hd _ _ h1)

theorem twin_mantExtract (T : Tables) (sel : Nat) (mode : CodingMode) (cnt : Nat) {dst : Nat → Int → State → State}
    (hd : ∀ k v s s', R s s' → R (dst k v s) (dst k v s')) {s s' : State} (h : R s s') :
    (mantExtract T sel mode cnt dst s).Twin R (mantExtract T sel mode cnt dst s') := twin_mantCodes hR T sel mode hd _ _ h

theorem twin_readSelectors (n i : Nat) {s s' : State} (h : R s s') : (readSelectors n i s).Twin R (readSelectors n i s') := by
  induction n generalizing i s s' with
  | zero => exact ⟨rfl, h⟩
  | succ n ih =>
    exact (twin_readBits hR h 3).andThen fun v s1 s1' h1 => (ih _ (hR.writeSel _ _ h1)).andThen fun rest s2 s2' h2 => ⟨rfl, h2⟩

theorem twin_readIndex (i sel : Nat) {s s' : State} (h : R s s') : (readIndex i sel s).Twin R (readIndex i sel s') := by
  unfold readIndex
  split_ifs
  · exact ⟨rfl, hR.writeSfi _ _ h⟩
  · exact (twin_readBits hR h 6).andThen fun v s1 s1' h1 => ⟨rfl, hR.writeSfi _ _ h1⟩

theorem twin_readIndices (l : List Nat) (i : Nat) {s s' : State} (h : R s s') : (readIndices l i s).Twin R (readIndices l i s') := by
  induction l generalizing i s s' with
  | nil => exact ⟨rfl, h⟩
  | cons sel rest ih => exact (twin_readIndex hR i sel h).andThen fun _ s1 s1' h1 => ih _ h1

theorem twin_readInterleaved (n i : Nat) {s s' : State} (h : R s s') : (readInterleaved n i s).Twin R (readInterleaved n i s') := by
  induction n generalizing i s s' with
  | zero => exact ⟨rfl, h⟩
  | succ n ih =>
    exact (twin_readBits hR h 3).andThen fun v s1 s1' h1 => (twin_readIndex hR _ _ (hR.writeSel _ _ h1)).andThen fun _ s2 s2' h2 =>
      (ih _ h2).andThen fun rest s3 s3' h3 => ⟨rfl, h3⟩

theorem twin_readSideInfo (c : Config) (n : Nat) {s s' : State} (h : R s s') : (readSideInfo c n s).Twin R (readSideInfo c n s') := by
  unfold readSideInfo
  cases c.sideInfoOrder with
  | grouped =>
    exact (twin_readSelectors hR _ _ h).andThen fun l s1 s1' h1 => (twin_readIndices hR _ _ h1).andThen fun _ s2 s2' h2 => ⟨rfl, h2⟩
  | interleaved => exact twin_readInterleaved hR _ _ h

theorem twin_readBand (c : Config) (mode : CodingMode) (i sel : Nat) {s s' : State} (h : R s s') :
    (readBand c mode i sel s).Twin R (readBand c mode i sel s') := by
  unfold readBand
  split_ifs
  · exact ⟨rfl, hR.zeroQm _ _ h⟩
  · exact twin_mantExtract hR _ _ _ _ (dst := fun k v s1 => s1.writeQm (subbandStart c.tables i + k) v)
      (fun _ _ _ _ h => hR.writeQm _ _ h) h

theorem twin_readBands (c : Config) (mode : CodingMode) (l : List Nat) (i : Nat) {s s' : State} (h : R s s') :
    (readBands c mode l i s).Twin R (readBands c mode l i s') := by
  induction l generalizing i s s' with
  | nil => exact ⟨rfl, h⟩
  | cons sel rest ih => exact (twin_readBand hR c mode i sel h).andThen fun _ s1 s1' h1 => ih _ h1

theorem twin_spectrumBody (c : Config) {s s' : State} (h : R s s') : (spectrumBody c s).Twin R (spectrumBody c s') :=
  (twin_readBits hR h 5).andThen fun n s1 s1' h1 => (twin_readBits hR (hR.setNsb _ h1) 1).andThen fun m s2 s2' h2 =>
    (twin_readSideInfo hR c _ (hR.setSpecMode _ h2)).andThen fun l s3 s3' h3 => (twin_readBands hR c _ l 0 h3).andThen fun _ s4 s4' h4 =>
      ⟨rfl, hR.zeroQm _ _ (hR.zeroSide _ _ h4)⟩

theorem twin_readFlags (n : Nat) {s s' : State} (h : R s s') : (readFlags n s).Twin R (readFlags n s') := by
  induction n generalizing s s' with
  | zero => exact ⟨rfl, h⟩
  | succ n ih => exact (twin_readBits hR h 1).andThen fun b s1 s1' h1 => (ih h1).andThen fun l s2 s2' h2 => ⟨rfl, h2⟩

theorem twin_readComponent (T : Tables) (cv qs : Nat) (mode : CodingMode) (j count : Nat) {s s' : State} (h : R s s') :
    (readComponent T cv qs mode j count s).Twin R (readComponent T cv qs mode j count s') := by
  unfold readComponent
  rw [hR.bitpos h]
  refine (twin_readBits hR h 6).andThen fun sfi s1 s1' h1 => ?_
  split_ifs
  · exact ⟨rfl, rfl, h1⟩
  · exact (twin_readBits hR h1 6).andThen fun p s2 s2' h2 =>
      (twin_mantExtract hR _ _ _ _ (dst := fun m v s3 => s3.writeTc count (.mant m) v) (fun _ _ _ _ h => hR.writeTc _ _ _ h)
        (hR.writeTc _ _ _ (hR.writeTc _ _ _ (hR.writeTc _ _ _ (hR.writeTc _ _ _ h2))))).andThen fun _ s3 s3' h3 =>
          ⟨rfl, hR.setTccount _ (hR.zeroTcMant _ _ _ h3)⟩

theorem twin_readComponents (T : Tables) (cv qs : Nat) (mode : CodingMode) (j n count : Nat) {s s' : State} (h : R s s') :
    (readComponents T cv qs mode j n count s).Twin R (readComponents T cv qs mode j n count s') := by
  induction n generalizing count s s' with
  | zero => exact ⟨rfl, h⟩
  | succ n ih => exact (twin_readComponent hR T cv qs mode j count h).andThen fun _ s1 s1' h1 => ih _ h1

theorem twin_readPositions (T : Tables) (cv qs : Nat) (mode : CodingMode) (js : List Nat) (count : Nat) {s s' : State} (h : R s s') :
    (readPositions T cv qs mode js count s).Twin R (readPositions T cv qs mode js count s') := by
  induction js generalizing count s s' with
  | nil => exact ⟨rfl, h⟩
  | cons j rest ih =>
    exact (twin_readBits hR h 3).andThen fun ncc s1 s1' h1 =>
      (twin_readComponents hR T cv qs mode j ncc count h1).andThen fun m s2 s2' h2 => ih _ h2

theorem twin_readGroup (T : Tables) (nb cms count : Nat) {s s' : State} (h : R s s') :
    (readGroup T nb cms count s).Twin R (readGroup T nb cms count s') := by
  unfold readGroup
  refine (twin_readFlags hR _ h).andThen fun flags s1 s1' h1 => (twin_readBits hR h1 3).andThen fun cv s2 s2' h2 => ?_
  rw [hR.bitpos h2]
  refine (twin_readBits hR h2 3).andThen fun qs s3 s3' h3 => ?_
  split_ifs
  · exact ⟨rfl, rfl, h3⟩
  · refine Res.Twin.andThen ?_ fun mode s4 s4' h4 => twin_readPositions hR _ _ _ _ _ _ h4
    unfold readGroupMode
    split_ifs
    · exact (twin_readBits hR h3 1).andThen fun m s4 s4' h4 => ⟨rfl, h4⟩
    · exact ⟨rfl, h3⟩

theorem twin_readGroups (T : Tables) (nb cms n count : Nat) {s s' : State} (h : R s s') :
    (readGroups T nb cms n count s).Twin R (readGroups T nb cms n count s') := by
  induction n generalizing count s s' with
  | zero => exact ⟨rfl, h⟩
  | succ n ih => exact (twin_readGroup hR T nb cms count h).andThen fun _ s1 s1' h1 => ih _ h1

theorem twin_tonalBody (c : Config) (nb : Nat) {s s' : State} (h : R s s') : (tonalBody c nb s).Twin R (tonalBody c nb s') := by
  unfold tonalBody
  refine (twin_readBits hR (hR.setTccount 0 h) 5).andThen fun nc s1 s1' h1 => ?_
  split_ifs
  · exact ⟨rfl, h1⟩
  · rw [hR.bitpos h1]
    refine (twin_readBits hR h1 2).andThen fun cms s2 s2' h2 => ?_
    split_ifs
    · exact ⟨rfl, rfl, h2⟩
    · exact (twin_readGroups hR _ _ _ _ _ h2).andThen fun m s3 s3' h3 => ⟨rfl, h3⟩

/-- Two runs of a command over the same stream come out alike. -/
theorem twin_commandBody (c : Config) (i : Instr) {s s' : State} (h : R s s') : (commandBody c i s).Twin R (commandBody c i s') := by
  cases i with
  | rdbits n => exact (twin_readBits hR h _).andThen fun v s1 s1' h1 => ⟨rfl, h1⟩
  | rdsbits n =>
    exact Res.Twin.andThen ((twin_readBits hR h _).andThen fun v s1 s1' h1 => ⟨rfl, h1⟩) fun v s1 s1' h1 => ⟨rfl, h1⟩
  | rdbit => exact (twin_readBits hR h _).andThen fun v s1 s1' h1 => ⟨rfl, h1⟩
  | huff t => exact (twin_huffLoop hR h _ _ _ _).andThen fun v s1 s1' h1 => ⟨rfl, h1⟩
  | mant sel mode cnt =>
    exact (twin_mantExtract hR _ _ _ _ (dst := fun k v s1 => s1.writeMbuf k v) (fun _ _ _ _ h => hR.writeMbuf _ _ h) h).andThen
      fun _ _ _ h1 => ⟨rfl, h1⟩
  | spectrum => exact twin_spectrumBody hR c h
  | tonal nb => exact twin_tonalBody hR c _ h

end Sys2Proof.Machine
end

