-- ==== Sys2Proof/Laws/Window.lean ====
section
/-! SUPPORT. The host window: which offsets are registers, outputs and reserved, which accesses are violations, and the bytes of FB
accesses (20_memory.md R55 to R59). -/

namespace Sys2Proof.Machine

/-- The bytes of FB after a store (20_memory.md R55, R58). -/
theorem fbStore_read (c : Config) (n a v : Nat) (m : Memory Byte) (b : Nat) :
    (fbStore c a n v m).read b = if a ≤ b ∧ b < a + n ∧ b < c.maxFrameBytes then some (BitVec.ofNat 8 (v / 256 ^ (b - a))) else m.read b := by
  induction n generalizing a v m with
  | zero => rw [fbStore, if_neg (by omega)]
  | succ n ih =>
    simp only [fbStore]
    rw [ih]
    by_cases h : a + 1 ≤ b ∧ b < a + 1 + n ∧ b < c.maxFrameBytes
    · rw [if_pos h, if_pos (by omega), show b - a = (b - (a + 1)) + 1 by omega, pow_succ', Nat.div_div_eq_div_mul]
    · rw [if_neg h]
      by_cases hm : a < c.maxFrameBytes
      · rw [if_pos hm, Memory.read_write]
        by_cases hb : b = a
        · subst hb
          rw [if_pos rfl, if_pos (by omega)]; simp
        · rw [if_neg hb, if_neg (by omega)]
      · rw [if_neg hm, if_neg (by omega)]

/-- The bytes of a load from FB, or none where one is unwritten (20_memory.md R55, R58). -/
theorem fbLoad_bytes (c : Config) (s : State) (n a : Nat) :
    ((∀ b, a ≤ b → b < a + n → b < c.maxFrameBytes → (s.fb.read b).isSome = true) →
      ∃ v, fbLoad c s a n = some v ∧ v < 256 ^ n ∧ ∀ k, k < n → v / 256 ^ k % 256 = if a + k < c.maxFrameBytes then ((s.fb.read (a + k)).getD 0#8).toNat else 0) ∧
    ((∃ b, a ≤ b ∧ b < a + n ∧ b < c.maxFrameBytes ∧ s.fb.read b = none) → fbLoad c s a n = none) := by
  induction n generalizing a with
  | zero => exact ⟨fun _ => ⟨0, rfl, by simp, by simp⟩, fun ⟨b, h⟩ => by omega⟩
  | succ n ih =>
    obtain ⟨i1, i2⟩ := ih (a + 1)
    constructor
    · intro h
      obtain ⟨v, e, hv, hk⟩ := i1 (fun b h1 h2 h3 => h b (by omega) (by omega) h3)
      by_cases hm : a < c.maxFrameBytes
      · obtain ⟨x, hx⟩ := Option.isSome_iff_exists.1 (h a (le_refl _) (by omega) hm)
        refine ⟨x.toNat + 256 * v, by simp only [fbLoad, if_pos hm, hx, e], ?_, ?_⟩
        · have := x.isLt; rw [pow_succ]; omega
        · intro k hk'
          have hx' := x.isLt
          cases k with
          | zero => simp [hm, hx]; omega
          | succ k =>
            rw [pow_succ', ← Nat.div_div_eq_div_mul, show (x.toNat + 256 * v) / 256 = v by omega, hk k (by omega)]
            rw [show a + 1 + k = a + (k + 1) by omega]
      · refine ⟨256 * v, by simp only [fbLoad, if_neg hm, e]; simp, ?_, ?_⟩
        · rw [pow_succ]; omega
        · intro k hk'
          cases k with
          | zero => simp [hm]
          | succ k =>
            rw [pow_succ', ← Nat.div_div_eq_div_mul, show (256 * v) / 256 = v by omega, hk k (by omega)]
            rw [show a + 1 + k = a + (k + 1) by omega]
    · rintro ⟨b, h1, h2, h3, h4⟩
      by_cases hb : b = a
      · subst hb; simp only [fbLoad, if_pos h3, h4]
      · have := i2 ⟨b, by omega, by omega, h3, h4⟩
        simp only [fbLoad, this]
        cases (if a < c.maxFrameBytes then s.fb.read a else some 0#8) <;> rfl

theorem accessFault_w32 {c : Config} {off : Nat} (h : off < 0x8000) (h4 : off % 4 = 0) : accessFault c off .w32 = none := by
  unfold accessFault
  rw [if_neg (by omega), if_neg (by simp only [Width.bytes]; omega), if_pos (.inl rfl)]

/-- The window from the output buffers on (20_memory.md R56). -/
theorem regionOf_outputs {c : Config} (hc : c.maxFrameBytes ≤ 8192) {off : Nat} (h : 0x4000 ≤ off) : regionOf c off =
    if off < 0x5000 then .qm ((off - 0x4000) / 4)
    else if off < 0x5080 then .sel ((off - 0x5000) / 4)
    else if off < 0x5100 then .sfi ((off - 0x5080) / 4)
    else if off < 0x5300 then .mbuf ((off - 0x5100) / 4)
    else if off < 0x6000 then .reserved
    else if off < 0x7000 then
      if (off - 0x6000) % 64 / 4 < 12 then .tc ((off - 0x6000) / 64) (tcFieldAt ((off - 0x6000) % 64 / 4)) else .tcReserved
    else .reserved := by
  unfold regionOf
  rw [if_neg (by omega), if_neg (by omega), if_neg (by omega), if_neg (by omega), if_neg (by omega)]

/-- The window below the output buffers (20_memory.md R56). -/
theorem regionOf_inputs {c : Config} {off : Nat} (h : off < 0x4000) : regionOf c off =
    if off < 0x24 then .reg (regAt (off / 4))
    else if off < 0x1000 then .reserved
    else if off < 0x1000 + c.maxFrameBytes then .fb (off - 0x1000)
    else if off < 0x3000 then .aboveFb
    else .reserved := by
  unfold regionOf
  simp only [if_pos h]

/-- Word `q` of TC entry `k`. -/
theorem regionOf_tc {c : Config} (hc : c.maxFrameBytes ≤ 8192) {k q : Nat} (hk : k < 64) (hq : q < 12) :
    regionOf c (0x6000 + 64 * k + 4 * q) = .tc k (tcFieldAt q) := by
  rw [regionOf_outputs hc (by omega), if_neg (by omega), if_neg (by omega), if_neg (by omega), if_neg (by omega), if_neg (by omega),
    if_pos (by omega), show (0x6000 + 64 * k + 4 * q - 0x6000) % 64 / 4 = q by omega,
    show (0x6000 + 64 * k + 4 * q - 0x6000) / 64 = k by omega, if_pos hq]

/-- The reserved offsets that R192 names (20_memory.md R56, 44_control.md R192; log 18). -/
theorem regionOf_aboveFb {c : Config} {off : Nat} (h : 0x1000 + c.maxFrameBytes ≤ off) (h3 : off < 0x3000) : regionOf c off = .aboveFb := by
  rw [regionOf_inputs (by omega), if_neg (by omega), if_neg (by omega), if_neg (by omega), if_pos h3]

/-- The reserved offsets (20_memory.md R56, R57). -/
theorem regionOf_reserved {c : Config} (hc : c.maxFrameBytes ≤ 8192) {off : Nat}
    (h : (0x24 ≤ off ∧ off < 0x1000) ∨ (0x1000 + c.maxFrameBytes ≤ off ∧ off < 0x4000) ∨ (0x5300 ≤ off ∧ off < 0x6000) ∨
      (0x6000 ≤ off ∧ off < 0x7000 ∧ 0x30 ≤ off % 64) ∨ (0x7000 ≤ off ∧ off < 0x8000)) :
    regionOf c off = .reserved ∨ regionOf c off = .tcReserved ∨ (regionOf c off = .aboveFb ∧ 0x1000 + c.maxFrameBytes ≤ off ∧ off < 0x3000) := by
  by_cases h4 : off < 0x4000
  · rw [regionOf_inputs h4, if_neg (by omega)]
    by_cases h1 : off < 0x1000
    · rw [if_pos h1]; exact .inl rfl
    · rw [if_neg h1, if_neg (by omega)]
      split_ifs with h3
      · exact .inr (.inr ⟨rfl, by omega, h3⟩)
      · exact .inl rfl
  · rw [regionOf_outputs hc (by omega), if_neg (by omega), if_neg (by omega), if_neg (by omega), if_neg (by omega)]
    by_cases h6 : off < 0x6000
    · rw [if_pos h6]; exact .inl rfl
    · rw [if_neg h6]
      by_cases h7 : off < 0x7000
      · rw [if_pos h7, if_neg (by omega)]; exact .inr (.inl rfl)
      · rw [if_neg h7]; exact .inl rfl

/-- The offsets that take 32-bit accesses only (20_memory.md R58; log 17). -/
theorem regionOf_narrow {c : Config} (hc : c.maxFrameBytes ≤ 8192) (off : Nat) :
    (regionOf c off).anyWidth = false ↔ (off < 0x24 ∨ (0x4000 ≤ off ∧ off < 0x5300) ∨ (0x6000 ≤ off ∧ off < 0x7000)) := by
  by_cases h4 : off < 0x4000
  · rw [regionOf_inputs h4]
    by_cases h0 : off < 0x24
    · rw [if_pos h0]; exact ⟨fun _ => .inl h0, fun _ => rfl⟩
    · rw [if_neg h0]
      refine ⟨fun h => ?_, fun h => by omega⟩
      split_ifs at h <;> cases h
  · rw [regionOf_outputs hc (by omega)]
    by_cases h5 : off < 0x5300
    · refine ⟨fun _ => .inr (.inl ⟨by omega, h5⟩), fun _ => ?_⟩
      split_ifs <;> rfl
    · rw [if_neg (by omega), if_neg (by omega), if_neg (by omega), if_neg h5]
      by_cases h6 : off < 0x6000
      · rw [if_pos h6]; exact ⟨fun h => (by cases h), fun h => by omega⟩
      · rw [if_neg h6]
        by_cases h7 : off < 0x7000
        · rw [if_pos h7]
          refine ⟨fun _ => .inr (.inr ⟨by omega, h7⟩), fun _ => ?_⟩
          split_ifs <;> rfl
        · rw [if_neg h7]; exact ⟨fun h => (by cases h), fun h => by omega⟩

/-- The accesses that are violations (20_memory.md R58, R59; log 17). -/
theorem accessFault_iff {c : Config} (hc : c.maxFrameBytes ≤ 8192) (off : Nat) (w : Width) :
    (∃ f, accessFault c off w = some f) ↔ (0x8000 ≤ off ∨ off % w.bytes ≠ 0 ∨
      (w ≠ .w32 ∧ (off < 0x24 ∨ (0x4000 ≤ off ∧ off < 0x5300) ∨ (0x6000 ≤ off ∧ off < 0x7000)))) := by
  unfold accessFault
  rw [← regionOf_narrow hc]
  split_ifs with h1 h2 h3
  · simp [h1]
  · simp [h2]
  · simp only [exists_false, false_iff, not_or, not_and]
    exact ⟨h1, h2, fun hw => by simpa [hw] using h3⟩
  · simp only [not_or] at h3; simp [h3]

/-- A host read of an output word is a read of what `OutputAt` gives (20_memory.md R56, 44_control.md R198). -/
theorem outputAt_read {s : State} {off : Nat} {v : Option Word} (h : OutputAt s off v) :
    off % 4 = 0 ∧ 0x4000 ≤ off ∧ off < 0x8000 ∧ ∀ t : State, t.qm = s.qm → t.sel = s.sel → t.sfi = s.sfi → t.mbuf = s.mbuf → t.tc = s.tc →
      readRegion machineConfig (regionOf machineConfig off) .w32 t = readOutput t v := by
  have hc : machineConfig.maxFrameBytes ≤ 8192 := machine_frameBytes.2
  rcases h with ⟨i, hi, rfl, rfl⟩ | ⟨i, hi, rfl, rfl⟩ | ⟨i, hi, rfl, rfl⟩ | ⟨i, hi, rfl, rfl⟩ | ⟨k, hk, h⟩
  · refine ⟨by omega, by omega, by omega, fun t h1 h2 h3 h4 h5 => ?_⟩
    rw [regionOf_outputs hc (by omega), if_pos (by omega), show (0x4000 + 4 * i - 0x4000) / 4 = i by omega, ← h1]; rfl
  · refine ⟨by omega, by omega, by omega, fun t h1 h2 h3 h4 h5 => ?_⟩
    rw [regionOf_outputs hc (by omega), if_neg (by omega), if_pos (by omega), show (0x5000 + 4 * i - 0x5000) / 4 = i by omega, ← h2]; rfl
  · refine ⟨by omega, by omega, by omega, fun t h1 h2 h3 h4 h5 => ?_⟩
    rw [regionOf_outputs hc (by omega), if_neg (by omega), if_neg (by omega), if_pos (by omega), show (0x5080 + 4 * i - 0x5080) / 4 = i by omega, ← h3]; rfl
  · refine ⟨by omega, by omega, by omega, fun t h1 h2 h3 h4 h5 => ?_⟩
    rw [regionOf_outputs hc (by omega), if_neg (by omega), if_neg (by omega), if_neg (by omega), if_pos (by omega), show (0x5100 + 4 * i - 0x5100) / 4 = i by omega, ← h4]; rfl
  · rcases h with ⟨rfl, rfl⟩ | ⟨rfl, rfl⟩ | ⟨rfl, rfl⟩ | ⟨rfl, rfl⟩ | ⟨m, hm, rfl, rfl⟩
    · refine ⟨by omega, by omega, by omega, fun t h1 h2 h3 h4 h5 => ?_⟩
      rw [show 0x6000 + 64 * k = 0x6000 + 64 * k + 4 * 0 by omega, regionOf_tc hc hk (by omega), ← h5]; rfl
    · refine ⟨by omega, by omega, by omega, fun t h1 h2 h3 h4 h5 => ?_⟩
      rw [show 0x6004 + 64 * k = 0x6000 + 64 * k + 4 * 1 by omega, regionOf_tc hc hk (by omega), ← h5]; rfl
    · refine ⟨by omega, by omega, by omega, fun t h1 h2 h3 h4 h5 => ?_⟩
      rw [show 0x6008 + 64 * k = 0x6000 + 64 * k + 4 * 2 by omega, regionOf_tc hc hk (by omega), ← h5]; rfl
    · refine ⟨by omega, by omega, by omega, fun t h1 h2 h3 h4 h5 => ?_⟩
      rw [show 0x600C + 64 * k = 0x6000 + 64 * k + 4 * 3 by omega, regionOf_tc hc hk (by omega), ← h5]; rfl
    · refine ⟨by omega, by omega, by omega, fun t h1 h2 h3 h4 h5 => ?_⟩
      rw [show 0x6010 + 64 * k + 4 * m = 0x6000 + 64 * k + 4 * (m + 4) by omega, regionOf_tc hc hk (by omega), ← h5]
      interval_cases m <;> rfl

end Sys2Proof.Machine
end

