-- ==== Sys2Proof/Tests/Slice0.lean ====
section
/-! SUPPORT. The row's own tests: ill-formed terms, words written out from the spec's patterns, the codewords of 30_encoding.md R81, single
steps from the vectors of 95_test_vectors.md, and for each obligation with hypotheses a witness that they can be met. -/

namespace Sys2Proof.Tests

set_option Elab.async false -- one theorem after another: hundreds at once would each hold a thread

open Sys2Proof Sys2Proof.Machine

/-! ### Helpers -/

/-- The bytes of a bit list, the last one padded with 0; the first argument bounds their number (95_test_vectors.md conventions). -/
def packBits : Nat → List Bool → List Byte
  | 0, _ => []
  | n + 1, bits =>
    BitVec.ofNat 8 ((List.range 8).foldl (fun v k => 2 * v + (bits.getD k false).toNat) 0) :: packBits n (bits.drop 8)

/-- FB with the listed bytes from address `a` on. -/
def fbOf : Nat → List Byte → Memory Byte
  | _, [] => []
  | a, b :: rest => (a, b) :: fbOf (a + 1) rest

/-- A fresh block with these bytes in FB. -/
def onBytes (bytes : List Byte) (pos len : Nat) : State :=
  { State.reset with fb := fbOf 0 bytes, bitpos := BitVec.ofNat 17 pos, bitlen := BitVec.ofNat 17 len }

/-- A fresh block with these bits in FB, all of them valid, from position 0. -/
def onBits (bits : List Bool) : State := onBytes (packBits ((bits.length + 7) / 8) bits) 0 bits.length

/-- A fresh block whose FB holds `n` zero bytes, all valid. -/
def onZeros (n : Nat) : State :=
  { State.reset with fb := Memory.block (fun _ => 0#8) 0 n, bitlen := BitVec.ofNat 17 (8 * n) }

/-- The bits of a number written with a 1 in front: `bin 0b1100 = [true, false, false]`. -/
def bin (v : Nat) : List Bool := natBits v.log2 v

/-- The configuration of the vectors of 95_test_vectors.md. -/
def vectorConfig : Config :=
  { maxFrameBytes := 8192, tables := referenceTables, abortPolicy := .leaveMutated, sideInfoOrder := .grouped }

/-- The configuration of vector HX11, whose table 2 is not complete. -/
def incompleteConfig : Config := { vectorConfig with tables := { referenceTables with huffLen := [[], [1, 3, 3, 3]] } }

/-- The bits `B` stand on a stream that ends after them, so that a field of `w` bits after them runs past BITLEN. -/
def cutAfter (B : List Bool) (w : Nat) : Bool :=
  onStream (onBits B) B && decide ((onBits B).bitlen.toNat < (onBits B).bitpos.toNat + B.length + w)

/-- The outcome is a next state of which `p` holds. -/
def ends (o : Host.Outcome State Fault Refusal) (p : State → Bool) : Bool :=
  match o with
  | .next t => p t
  | .fault _ => false
  | .refused _ => false

theorem ends_next {o : Host.Outcome State Fault Refusal} {p : State → Bool} (h : ends o p = true) : ∃ t, o = .next t ∧ p t = true := by
  cases o with
  | next t => exact ⟨t, rfl, h⟩
  | fault f => cases h
  | refused r => cases h

/-- The part of a command raises `e`. -/
def raises {α : Type} (r : Res α) (e : Err) : Bool :=
  match r with
  | .ok _ _ => false
  | .raise e' _ _ => decide (e' = e)
  | .fault _ => false

theorem raises_next {i : Instr} {s : State} {e : Err} (hw : i.wf = true) (h : raises (commandBody machineConfig i s) e = true) :
    ∃ t, exec i s = .next t ∧ t.err = true ∧ t.errcode = e.code := by
  cases hc : commandBody machineConfig i s with
  | ok v u => rw [hc] at h; cases h
  | raise e' p u =>
    rw [hc] at h
    obtain ⟨t, h1, -, -, h2, h3, -⟩ := exec_raised hw hc
    exact ⟨t, h1, h2, by rw [h3, of_decide_eq_true h]⟩
  | fault f => rw [hc] at h; cases h

theorem onZeros_loaded {n : Nat} (h : 8 * n < 2 ^ 17) : FrameLoaded (onZeros n) := by
  intro p hp
  have hl : (onZeros n).bitlen.toNat = 8 * n := Nat.mod_eq_of_lt h
  rw [hl] at hp
  show ((Memory.block (fun _ => 0#8) 0 n).read (p / 8)).isSome = true
  rw [Memory.read_block, if_pos (by omega)]
  rfl

/-! ### Well-formedness (30_encoding.md R90): one ill-formed term for each check -/

theorem test_rdbits_over_32_refused : (Instr.rdbits 33#6).wf = false := by decide

theorem test_rdsbits_0_refused : (Instr.rdsbits 0#6).wf = false := by decide

theorem test_rdsbits_over_32_refused : (Instr.rdsbits 33#6).wf = false := by decide

theorem test_huff_0_refused : (Instr.huff 0#3).wf = false := by decide

theorem test_mant_selector_0_refused : (Instr.mant 0#3 .vlc 4#8).wf = false := by decide

theorem test_mant_count_0_refused : (Instr.mant 2#3 .vlc 0#8).wf = false := by decide

theorem test_mant_count_over_128_refused : (Instr.mant 2#3 .vlc 129#8).wf = false := by decide

theorem test_mant_odd_pairs_refused : (Instr.mant 1#3 .vlc 3#8).wf = false := by decide

/-! ### Words written out from the patterns of 30_encoding.md R72 -/

theorem test_word_rdbits : decode 0b00010000000000000000000000100000#32 = .ok (.rdbits 32#6) := by decide

theorem test_word_rdsbits : decode 0b00100000000000000000000000000001#32 = .ok (.rdsbits 1#6) := by decide

theorem test_word_rdbit : decode 0b00110000000000000000000000000000#32 = .ok .rdbit := by decide

theorem test_word_huff : decode 0b01000000000000000000000000000101#32 = .ok (.huff 5#3) := by decide

theorem test_word_mant : decode 0b01010000000000000000100000000010#32 = .ok (.mant 2#3 .vlc 128#8) := by decide

theorem test_word_mant_clc : decode 0b01010000000000000000000001001001#32 = .ok (.mant 1#3 .clc 4#8) := by decide

theorem test_word_spectrum : decode 0b01100000000000000000000000000000#32 = .ok .spectrum := by decide

theorem test_word_tonal : decode 0b01110000000000000000000000000010#32 = .ok (.tonal 2#2) := by decide

/-- The illegal words of the vectors BR7, BR8, BR14, BR18 to BR21, HX9, HX10, MT18 to MT22, SP9 and TN9. -/
theorem test_illegal_words :
    ([0x10000021#32, 0x10000040#32, 0x20000000#32, 0x30000001#32, 0x00000000#32, 0x80000000#32, 0xF0000000#32, 0x40000000#32] ++
      [0x40000009#32, 0x50000031#32, 0x50000002#32, 0x50000812#32, 0x50000040#32, 0x50001042#32, 0x60000001#32, 0x70000004#32]).all
      (fun w => (decode w).toOption.isNone) = true := by decide

/-! ### The codewords of 30_encoding.md R81, each with a 1 in front, by symbol -/

/-- The codewords of table `t` by symbol, each with a 1 in front of its first bit. -/
def codewords (t : Nat) : List Nat :=
  (List.range (huffNsym referenceTables t)).map fun s =>
    match findCode (huffCodes referenceTables t) s with
    | some c => 2 ^ c.len + c.word
    | none => 0

theorem test_table1_codewords : codewords 1 =
    [0b10, 0b1100, 0b1101, 0b11100, 0b11101, 0b111100, 0b111101, 0b111110, 0b111111] := by
  decide +kernel

theorem test_table2_codewords : codewords 2 =
    [0b10, 0b1100, 0b1101, 0b1110, 0b1111] := by
  decide +kernel

theorem test_table3_codewords : codewords 3 =
    [0b10, 0b1100, 0b1101, 0b11100, 0b11101, 0b11110, 0b11111] := by
  decide +kernel

theorem test_table4_codewords : codewords 4 =
    [0b10, 0b1100, 0b1101, 0b11100, 0b11101, 0b111100, 0b111101, 0b111110, 0b111111] := by
  decide +kernel

theorem test_table5_codewords : codewords 5 =
    [0b100, 0b1010, 0b1011, 0b11000, 0b11001, 0b11010, 0b11011, 0b111100, 0b111101, 0b1111100] ++
    [0b1111101, 0b1111110, 0b1111111, 0b11100, 0b11101] := by
  decide +kernel

theorem test_table6_codewords : codewords 6 =
    [0b1000, 0b10010, 0b10011, 0b10100, 0b10101, 0b10110, 0b10111, 0b110100, 0b110101, 0b110110] ++
    [0b110111, 0b111000, 0b111001, 0b1110100, 0b1110101, 0b1110110, 0b1110111, 0b1111000, 0b1111001, 0b1111010] ++
    [0b1111011, 0b11111000, 0b11111001, 0b11111010, 0b11111011, 0b11111100, 0b11111101, 0b11111110, 0b11111111, 0b11000] ++
    [0b11001] := by
  decide +kernel

theorem test_table7_codewords : codewords 7 =
    [0b1000, 0b101000, 0b101001, 0b101010, 0b101011, 0b101100, 0b101101, 0b101110, 0b101111, 0b110000] ++
    [0b110001, 0b1100100, 0b1100101, 0b1100110, 0b1100111, 0b1101000, 0b1101001, 0b1101010, 0b1101011, 0b1101100] ++
    [0b1101101, 0b1101110, 0b1101111, 0b1110000, 0b1110001, 0b1110010, 0b1110011, 0b11101000, 0b11101001, 0b11101010] ++
    [0b11101011, 0b11101100, 0b11101101, 0b11101110, 0b11101111, 0b11110000, 0b11110001, 0b11110010, 0b11110011, 0b11110100] ++
    [0b11110101, 0b111101100, 0b111101101, 0b111101110, 0b111101111, 0b111110000, 0b111110001, 0b111110010, 0b111110011, 0b111110100] ++
    [0b111110101, 0b111110110, 0b111110111, 0b111111000, 0b111111001, 0b111111010, 0b111111011, 0b111111100, 0b111111101, 0b111111110] ++
    [0b111111111, 0b10010, 0b10011] := by
  decide +kernel

/-! ### Single steps (95_test_vectors.md L2, the vector in the docstring) -/

/-- BR4. -/
theorem test_rdbits_32_across_five_bytes :
    ends (exec (.rdbits 32#6) (onBytes [0x0F#8, 0xFF#8, 0x00#8, 0xAA#8, 0x5C#8] 4 40))
      (fun t => decide (t.result = 0xFFF00AA5#32) && decide (t.bitpos = 36#17) && decide (statusWord t = 0x02#32)) = true := by decide +kernel

/-- BR23. -/
theorem test_rdbits_overrun :
    ends (rdbitsWith vectorConfig 3#6 (onBytes [0xB4#8] 6 8))
      (fun t => decide (t.errpos = 6#17) && decide (t.bitpos = 6#17) && decide (statusWord t = 0x24#32)) = true := by decide +kernel

/-- BR9. -/
theorem test_rdsbits_3 :
    ends (exec (.rdsbits 3#6) (onBytes [0xB4#8] 0 8)) (fun t => decide (t.result = 0xFFFFFFFD#32) && decide (t.bitpos = 3#17)) = true := by
  decide +kernel

/-- BR12. -/
theorem test_rdsbits_32 :
    ends (exec (.rdsbits 32#6) (onBytes [0x80#8, 0#8, 0#8, 0#8] 0 32)) (fun t => decide (t.result = 0x80000000#32)) = true := by
  decide +kernel

/-- BR15. -/
theorem test_rdbit :
    ends (exec .rdbit (onBytes [0xB4#8] 5 8)) (fun t => decide (t.result = 1#32) && decide (t.bitpos = 6#17)) = true := by decide +kernel

/-- BR17. -/
theorem test_rdbit_at_bitlen :
    ends (rdbitWith vectorConfig (onBytes [0xB4#8] 8 8))
      (fun t => decide (t.errpos = 8#17) && decide (t.bitpos = 8#17) && decide (statusWord t = 0x24#32)) = true := by decide +kernel

/-- HX1. -/
theorem test_huff_5 :
    ends (exec (.huff 5#3) (onBytes [0xC0#8] 0 8)) (fun t => decide (t.result = 13#32) && decide (t.bitpos = 4#17)) = true := by
  decide +kernel

/-- HX11, with a table that is not complete. -/
theorem test_huff_badcode :
    ends (huffWith incompleteConfig 2#3 (onBytes [0xE0#8] 0 8))
      (fun t => decide (t.errpos = 0#17) && decide (statusWord t = 0x64#32)) = true := by decide +kernel

/-- MT1. -/
theorem test_mant_pairs :
    ends (exec (.mant 1#3 .vlc 8#8) (onBits (bin 0b1111110100101)))
      (fun t => decide (((List.range 8).map (fun k => (t.mbuf.read k).map BitVec.toInt)) =
        [some (-1), some (-1), some 0, some 0, some 0, some 1, some 0, some (-1)]) && decide (t.result = 8#32)) = true := by decide +kernel

/-- MT16. -/
theorem test_mant_overrun :
    ends (mantWith vectorConfig 2#3 .clc 3#8 (onBits (bin 0b10111001)))
      (fun t => decide (((List.range 3).map (fun k => (t.mbuf.read k).map BitVec.toInt)) = [some 3, some (-4), none]) &&
        decide (t.errpos = 6#17) && decide (statusWord t = 0x24#32)) = true := by decide +kernel

/-- SP6. -/
theorem test_spectrum_subband_8 :
    ends (exec .spectrum (onBits (bin 0b1010000 ++ List.replicate 24 false ++ bin 0b1010000110100 ++ List.replicate 15 false)))
      (fun t => decide (t.qm.read 64 = some 1#32) && decide (t.qm.read 65 = some 0#32) && decide (t.sel.read 8 = some 2#32) &&
        decide (t.sfi.read 8 = some 6#32) && decide (t.qm.length = 1024) && decide (t.nsb = 8#5) && decide (t.bitpos = 57#17)) = true := by
  decide +kernel

/-- SP8. -/
theorem test_spectrum_overrun :
    ends (spectrumWith vectorConfig (onBits (bin 0b1000000010000001100101)))
      (fun t => decide (t.qm.map (fun x => (x.1, x.2.toInt)) = [(0, 1), (1, -1)]) && decide (t.sfi.read 0 = some 1#32) &&
        decide (t.errpos = 21#17) && decide (statusWord t = 0x24#32)) = true := by decide +kernel

/-- TN5. -/
theorem test_tonal_mode_per_component :
    ends (exec (.tonal 0#2) (onBits (bin 0b10001011 ++ bin 0b110000111 ++ bin 0b1001000000000000111 ++ bin 0b1000000000 ++
        bin 0b110011010 ++ bin 0b1000001000010000001 ++ bin 0b111001101 ++ bin 0b1000000)))
      (fun t => decide (t.tccount = 2#7) && decide (t.tc.read (tcIndex 0 (.mant 0)) = some 0xFFFFFFFF#32) &&
        decide (t.tc.read (tcIndex 1 .pos) = some 65#32) && decide (t.tc.read (tcIndex 1 (.mant 1)) = some 0xFFFFFFF9#32) &&
        decide (t.tc.read (tcIndex 1 (.mant 2)) = some 0#32) && decide (t.bitpos = 82#17)) = true := by decide +kernel

/-- TN6. -/
theorem test_tonal_count_clamped :
    ends (exec (.tonal 3#2) (onBits (bin 0b10000101 ++ bin 0b10001111111 ++ List.replicate 9 false ++ bin 0b1001101101111111100000)))
      (fun t => decide (t.tc.read (tcIndex 0 .pos) = some 1023#32) && decide (t.tc.read (tcIndex 0 .ncoef) = some 1#32) &&
        decide (t.tc.read (tcIndex 0 (.mant 0)) = some 0xFFFFFFE0#32) && decide (t.bitpos = 47#17)) = true := by decide +kernel

/-- CT6. -/
theorem test_bitlen_clamped :
    ends (hostAccess { vectorConfig with maxFrameBytes := 384 } (.write 0x010 .w32 0x1FFFF#32) State.reset)
      (fun t => decide (t.bitlen = 3072#17)) = true := by decide +kernel

/-- CT3, its FB write. -/
theorem test_fb_write_while_busy :
    ends (hostAccess vectorConfig (.write 0x1000 .w8 0#32) (onBytes [0xB4#8] 2 8 |>.issue 0x10000003#32))
      (fun t => decide (t.fb.read 0 = some 0xB4#8) && decide (statusWord t = 0x09#32)) = true := by decide +kernel

/-- 44_control.md R192: an offset above a smaller FB, below 0x3000, while BUSY = 1 (log 18). -/
theorem test_write_above_fb_while_busy :
    ends (hostAccess { vectorConfig with maxFrameBytes := 384 } (.write 0x2FFC .w32 1#32) (State.reset.issue 0x30000000#32))
      (fun t => decide (t = (State.reset.issue 0x30000000#32).setOvr)) = true := by decide +kernel

/-- 20_memory.md R57: the same offset while BUSY = 0. -/
theorem test_write_above_fb_while_idle :
    ends (hostAccess { vectorConfig with maxFrameBytes := 384 } (.write 0x1180 .w32 1#32) State.reset)
      (fun t => decide (t = State.reset)) = true := by decide +kernel

/-- 60_exceptions.md R224: an output entry that has never been written. -/
theorem test_unwritten_output_read_while_busy :
    hostAccess vectorConfig (.read 0x4000 .w32) (State.reset.issue 0x60000000#32) = .fault .hostReadUnwritten := rfl

/-- 10_state.md R30: RESULT is read-only (log 19). -/
theorem test_result_is_read_only :
    ends (hostAccess vectorConfig (.write 0x014 .w32 7#32) State.reset) (fun t => decide (t = State.reset)) = true := by decide +kernel

/-- 10_state.md R26: STATUS of a busy block. -/
theorem test_status_read_while_busy :
    ends (hostAccess vectorConfig (.read 0x004 .w32) (State.reset.issue 0x60000000#32)) (fun t => decide (t.rdata = 1#32)) = true := by
  decide +kernel

/-- TN3. -/
theorem test_tonal_mode_two :
    ends (tonalWith vectorConfig 0#2 (onBits (bin 0b100001101001010)))
      (fun t => decide (t.tccount = 0#7) && decide (t.tc = []) && decide (t.errpos = 5#17) && decide (t.bitpos = 7#17) &&
        decide (statusWord t = 0x34#32)) = true := by decide +kernel

/-- TN4. -/
theorem test_tonal_qstep_one :
    ends (tonalWith vectorConfig 0#2 (onBits (bin 0b100001001001001 ++ List.replicate 9 false)))
      (fun t => decide (t.tccount = 0#7) && decide (t.tc = []) && decide (t.errpos = 11#17) && decide (t.bitpos = 14#17) &&
        decide (statusWord t = 0x44#32)) = true := by decide +kernel

/-- CT7, its soft reset. -/
theorem test_soft_reset :
    ends (hostAccess vectorConfig (.write 0x008 .w32 0x2#32) (onBytes [0x08#8, 0#8] 5 16 |>.issue 0x60000000#32))
      (fun t => decide (statusWord t = 0#32) && decide (t.fb.read 0 = some 8#8) && decide (t.bitlen = 0#17)) = true := by decide +kernel

/-- 20_memory.md R55: the worked word of the rule, bytes low to high. -/
theorem test_fb_word_is_little_endian :
    ends (hostAccess vectorConfig (.write 0x1000 .w32 0x00000080#32) State.reset)
      (fun t => decide (t.fb = [(0, 0x80#8), (1, 0#8), (2, 0#8), (3, 0#8)]) && decide (fbBit t 0 = some true)) = true := by decide +kernel

/-- 30_encoding.md R92: the vectors' words from their assembler lines. -/
theorem test_assembler_words :
    (assemble "MANT" [1, 0, 8]).map encode = some 0x50000081#32 ∧ (assemble "TONAL" [2]).map encode = some 0x70000002#32 ∧
      (assemble "RDSBITS" [32]).map encode = some 0x20000020#32 ∧ assemble "HUFF" [8] = none := by decide

/-! ### Witnesses: for each obligation with hypotheses, states and operands that meet them -/

theorem witness_DecodeUndoesEncode :
    (Instr.rdbits 32#6).wf = true ∧ (Instr.rdsbits 32#6).wf = true ∧ (Instr.huff 7#3).wf = true ∧ (Instr.mant 1#3 .clc 128#8).wf = true ∧
      (Instr.tonal 3#2).wf = true := by decide

theorem witness_EncodeUndoesDecode : decode 0x50000809#32 = .ok (.mant 1#3 .clc 128#8) := by decide

theorem witness_IllegalWordsRaiseIllegalCmd :
    ∃ s : State, decode s.pending = .error .reservedBits :=
  ⟨State.reset.issue 0x70000004#32, by decide⟩

theorem witness_StepRunsThePendingCommand :
    (∃ s : State, s.busy = true ∧ decode s.pending = .ok .rdbit ∧ s.agenda = .sequencer :: []) ∧
    (∃ s : State, s.busy = true ∧ decode s.pending = .ok .rdbit ∧ s.agenda = []) ∧
    (∃ s : State, s.busy = true ∧ decode s.pending = .error .reservedBits ∧ s.agenda = .sequencer :: []) ∧
    (∃ s : State, s.busy = true ∧ decode s.pending = .error .reservedBits ∧ s.agenda = []) ∧
    decode (BitVec.ofNat 32 0x70000003) = .ok (.tonal 3#2) ∧ decode (BitVec.ofNat 32 0x80000000) = .error .reservedOpcode :=
  ⟨⟨(State.reset.issue 0x30000000#32).withAgenda [.sequencer], by decide⟩, ⟨State.reset.issue 0x30000000#32, by decide⟩,
    ⟨(State.reset.issue 0x70000004#32).withAgenda [.sequencer], by decide⟩, ⟨State.reset.issue 0x70000004#32, by decide⟩, by decide,
    by decide⟩

theorem witness_OnlyACmdWriteStartsWork :
    (∃ s : State, s.busy = false ∧ s.agenda = .sequencer :: []) ∧ (∃ s : State, s.busy = false ∧ s.agenda = []) ∧
    ∃ s t : State, s.busy = false ∧ step s = .next t ∧ t.busy = true :=
  ⟨⟨State.reset.withAgenda [.sequencer], by decide⟩, ⟨State.reset, by decide⟩,
    ⟨State.reset.withAgenda [.host (.write 0x000 .w32 0#32)], State.reset.issue 0#32, rfl, rfl, rfl⟩⟩

theorem witness_PowerOnResetLeavesTheResetValues : ∃ s : State, s.agenda = .powerOn :: [] := ⟨State.reset.withAgenda [.powerOn], rfl⟩

theorem witness_RdbitsReadsAnUnsignedField :
    (0x10000020#32).extractLsb' 28 4 = 1#4 ∧ ((0x10000020#32).extractLsb' 6 22 = 0#22 ∧ ((0x10000020#32).extractLsb' 0 6).toNat ≤ 32) ∧
    ((0x10000021#32).extractLsb' 28 4 = 1#4 ∧ 32 < ((0x10000021#32).extractLsb' 0 6).toNat) ∧
    ((0x18000000#32).extractLsb' 28 4 = 1#4 ∧ (0x18000000#32).extractLsb' 6 22 ≠ 0#22) ∧
    decode (State.reset.issue 0x10000021#32).pending = .error .illegalField ∧ 32 < (33#6).toNat ∧
    ((32#6).toNat ≤ 32 ∧ (onBytes [1#8] 0 31).bitlen.toNat < (onBytes [1#8] 0 31).bitpos.toNat + (32#6).toNat) ∧
    ((0#6).toNat ≤ 32 ∧ (onBytes [] 8 8).bitpos.toNat + (0#6).toNat ≤ (onBytes [] 8 8).bitlen.toNat) ∧
    ((32#6).toNat ≤ 32 ∧ (onBytes [0#8, 1#8, 2#8, 3#8, 4#8] 8 40).bitpos.toNat + (32#6).toNat ≤ (onBytes [0#8, 1#8, 2#8, 3#8, 4#8] 8 40).bitlen.toNat ∧
      ∀ i, i < (32#6).toNat → (onBytes [0#8, 1#8, 2#8, 3#8, 4#8] 8 40).fb.read ((8 + i) / 8) = some (BitVec.ofNat 8 ((8 + i) / 8))) := by
  decide +kernel

theorem witness_RdsbitsReadsASignedField :
    ((0x20000020#32).extractLsb' 28 4 = 2#4 ∧ (0x20000020#32).extractLsb' 6 22 = 0#22 ∧ 1 ≤ ((0x20000020#32).extractLsb' 0 6).toNat ∧
      ((0x20000020#32).extractLsb' 0 6).toNat ≤ 32) ∧
    ((0x20000000#32).extractLsb' 28 4 = 2#4 ∧ ((0x20000000#32).extractLsb' 0 6).toNat = 0) ∧
    ((0x20000021#32).extractLsb' 28 4 = 2#4 ∧ 32 < ((0x20000021#32).extractLsb' 0 6).toNat) ∧
    ((0x20000041#32).extractLsb' 28 4 = 2#4 ∧ (0x20000041#32).extractLsb' 6 22 ≠ 0#22) ∧
    decode (State.reset.issue 0x20000000#32).pending = .error .illegalField ∧ (0#6).toNat = 0 ∧ 32 < (33#6).toNat ∧
    (1 ≤ (1#6).toNat ∧ (onBytes [1#8] 8 8).bitlen.toNat < (onBytes [1#8] 8 8).bitpos.toNat + (1#6).toNat) ∧
    (1 ≤ (8#6).toNat ∧ (onBytes [0x80#8] 0 8).bitpos.toNat + (8#6).toNat ≤ (onBytes [0x80#8] 0 8).bitlen.toNat ∧
      (∀ i, i < (8#6).toNat → (onBytes [0x80#8] 0 8).fb.read ((0 + i) / 8) = some 0x80#8) ∧
      128 = ∑ i ∈ Finset.range (8#6).toNat, ((0x80#8).getLsbD (7 - (0 + i) % 8)).toNat * 2 ^ ((8#6).toNat - 1 - i)) := by decide +kernel

theorem witness_RdbitReadsOneBit :
    ((0x30000000#32).extractLsb' 28 4 = 3#4 ∧ (0x30000000#32).extractLsb' 0 28 = 0#28) ∧
    ((0x30000001#32).extractLsb' 28 4 = 3#4 ∧ (0x30000001#32).extractLsb' 0 28 ≠ 0#28) ∧
    decode (State.reset.issue 0x30000001#32).pending = .error .reservedBits ∧
    (onBytes [1#8] 8 8).bitlen.toNat < (onBytes [1#8] 8 8).bitpos.toNat + 1 ∧
    ((onBytes [1#8] 7 8).bitpos.toNat + 1 ≤ (onBytes [1#8] 7 8).bitlen.toNat ∧ (onBytes [1#8] 7 8).fb.read (7 / 8) = some 1#8) := by
  decide +kernel

theorem witness_HuffDecodesACodeword :
    (1 ≤ (7#3).toNat ∧ (⟨60, 8, 255⟩ : Code) ∈ huffCodes referenceTables (7#3).toNat ∧ onStream (onBytes [0xFF#8] 0 8) (natBits 8 255) = true) ∧
    (1 ≤ (7#3).toNat ∧ 7 < 8 ∧ spells (onBytes [0xFF#8] 0 7) 0 ((natBits 8 255).take 7) = true ∧ (onBytes [0xFF#8] 0 7).bitlen.toNat ≤ 0 + 7) := by
  decide +kernel

theorem witness_HuffCompletesWithinEightBits :
    1 ≤ (7#3).toNat ∧ FrameLoaded (onZeros 1) ∧ (onZeros 1).bitpos.toNat + 8 ≤ (onZeros 1).bitlen.toNat :=
  ⟨by decide, onZeros_loaded (by omega), by decide⟩

/-- HX11. -/
theorem witness_HuffRaisesBadCodeWhereNoCodewordMatches :
    1 ≤ (2#3).toNat ∧ [true, true, true].length = huffMaxLen incompleteConfig.tables (2#3).toNat ∧
      onStream (onBytes [0xE0#8] 0 8) [true, true, true] = true ∧
      ∀ code ∈ huffCodes incompleteConfig.tables (2#3).toNat, ∀ k, k ≤ [true, true, true].length →
        [true, true, true].take k ≠ natBits code.len code.word := by decide +kernel

theorem witness_ReferenceTablesAreCompleteAndPrefixFree :
    (1 ≤ 7 ∧ 7 < 8) ∧ 62 < huffNsym referenceTables 7 ∧ 255 < 2 ^ huffMaxLen referenceTables 7 := by decide +kernel

theorem witness_EveryCommandEndsDoneOrWithAnError :
    (∃ t, exec .rdbit (onZeros 1) = .next t ∧ t.done = true) ∧ ∃ t, exec .rdbit State.reset = .next t ∧ t.err = true := by
  refine ⟨?_, ?_⟩
  · obtain ⟨t, h, hp⟩ := ends_next (o := exec .rdbit (onZeros 1)) (p := fun t => t.done) (by decide +kernel)
    exact ⟨t, h, hp⟩
  · obtain ⟨t, h, he, -⟩ := raises_next (i := .rdbit) (s := State.reset) (e := .overrun) (by decide) (by decide +kernel)
    exact ⟨t, h, he⟩

theorem witness_LoadedFrameNeverStopsACommand : FrameLoaded (onZeros 8192) := onZeros_loaded (by omega)

/-- A frame of one byte whose second byte has never been written: fields and codewords that begin in it or run into it; and a run that goes on. -/
theorem witness_UnwrittenBitsStopACommand :
    exec .rdbit (onBytes [0xFF#8] 8 16) = .fault .fbUnwritten ∧
    (∃ t, exec (.rdbits 8#6) (onBytes [0xFF#8] 0 16) = .next t ∧ t.bitpos = 8#17) ∧
    ((32#6).toNat ≤ 32 ∧ (onBytes [0xFF#8] 7 39).bitpos.toNat + (32#6).toNat ≤ (onBytes [0xFF#8] 7 39).bitlen.toNat ∧ 31 < (32#6).toNat ∧
      (onBytes [0xFF#8] 7 39).fb.read ((7 + 31) / 8) = none) ∧
    ((onBytes [0xFF#8] 8 9).bitpos.toNat + 1 ≤ (onBytes [0xFF#8] 8 9).bitlen.toNat ∧ (onBytes [0xFF#8] 8 9).fb.read (8 / 8) = none) ∧
    (1 ≤ (7#3).toNat ∧ (⟨60, 8, 255⟩ : Code) ∈ huffCodes referenceTables (7#3).toNat ∧ 3 < 8 ∧
      spells (onBytes [0xFF#8] 5 9) 5 ((natBits 8 255).take 3) = true ∧ 5 + 3 < (onBytes [0xFF#8] 5 9).bitlen.toNat ∧
      (onBytes [0xFF#8] 5 9).fb.read ((5 + 3) / 8) = none ∧ (Instr.mant 7#3 .vlc 1#8).wf = true) ∧
    ((Instr.mant 7#3 .clc 1#8).wf = true ∧ (onBytes [0xFF#8] 7 13).bitpos.toNat + clcWidth referenceTables 7 ≤ (onBytes [0xFF#8] 7 13).bitlen.toNat ∧
      5 < clcWidth referenceTables 7 ∧ (onBytes [0xFF#8] 7 13).fb.read ((7 + 5) / 8) = none) ∧
    ((onBytes [0xFF#8] 4 9).bitpos.toNat + 5 ≤ (onBytes [0xFF#8] 4 9).bitlen.toNat ∧ 4 < 5 ∧ (onBytes [0xFF#8] 4 9).fb.read ((4 + 4) / 8) = none) := by
  refine ⟨rfl, ?_, by decide +kernel⟩
  obtain ⟨t, h, hp⟩ := ends_next (o := exec (.rdbits 8#6) (onBytes [0xFF#8] 0 16)) (p := fun t => decide (t.bitpos = 8#17)) (by decide +kernel)
  exact ⟨t, h, of_decide_eq_true hp⟩

theorem witness_ErrorsAreThoseOfTheCommand :
    (∃ t, exec (.huff 0#3) State.reset = .next t ∧ t.err = true) ∧ ∃ t, exec .spectrum State.reset = .next t ∧ t.err = true := by
  refine ⟨⟨_, rfl, rfl⟩, ?_⟩
  obtain ⟨t, h, he, -⟩ := raises_next (i := .spectrum) (s := State.reset) (e := .overrun) (by decide) (by decide +kernel)
  exact ⟨t, h, he⟩

/-- A block of `n` declared components with 22 tonal components each, one mantissa bit `0` a component. -/
def manyComponents (n : Nat) : TonalBlock :=
  { cms := 0
    groups := List.replicate n
      { flags := [true], cv := 0, qs := 2, mode := .vlc
        comps := [7, 7, 7, 1].map (fun k => List.replicate k { sfi := 0, place := 0, codes := [0] }) } }

/-- Each error code; E_BADCODE in the configuration of vector HX11. -/
theorem witness_ErrorsLeaveBitposByTheirCode :
    (∃ t, commandWith machineConfig (.rdbits 33#6) State.reset = .next t ∧ t.err = true ∧ t.errcode = 1#4) ∧
    (∃ t, commandWith machineConfig (.mant 2#3 .vlc 1#8) State.reset = .next t ∧ t.err = true ∧ t.errcode = 2#4) ∧
    (∃ t, commandWith machineConfig (.tonal 0#2) (onBits (bin 0b10000110)) = .next t ∧ t.err = true ∧ t.errcode = 3#4) ∧
    (∃ t, commandWith machineConfig (.tonal 0#2) (onBits (bin 0b100001001001001)) = .next t ∧ t.err = true ∧ t.errcode = 4#4) ∧
    (∃ t, commandWith machineConfig (.tonal 0#2) (onBits ((manyComponents 3).bits referenceTables)) = .next t ∧ t.err = true ∧
      t.errcode = 5#4) ∧
    ∃ t, commandWith incompleteConfig (.huff 2#3) (onBytes [0xE0#8] 0 8) = .next t ∧ t.err = true ∧ t.errcode = 6#4 := by
  simp only [← exec_eq_commandWith]
  refine ⟨⟨_, rfl, rfl, rfl⟩, raises_next (e := .overrun) (by decide) (by decide +kernel),
    raises_next (e := .tonalMode) (by decide) (by decide +kernel), raises_next (e := .tonalQstep) (by decide) (by decide +kernel),
    raises_next (e := .tonalCap) (by decide) (by decide +kernel), ?_⟩
  obtain ⟨t, h, hp⟩ := ends_next (o := commandWith incompleteConfig (.huff 2#3) (onBytes [0xE0#8] 0 8))
    (p := fun t => t.err && decide (t.errcode = 6#4)) (by decide +kernel)
  rw [Bool.and_eq_true, decide_eq_true_eq] at hp
  exact ⟨t, h, hp⟩

theorem witness_BitposOnlyAdvancesWithinBitlen : ∃ t, exec .rdbit (onZeros 1) = .next t ∧ t.bitpos = 1#17 := by
  obtain ⟨t, h, hp⟩ := ends_next (o := exec .rdbit (onZeros 1)) (p := fun t => decide (t.bitpos = 1#17)) (by decide +kernel)
  exact ⟨t, h, of_decide_eq_true hp⟩

theorem witness_NoCommandWritesItsInputs : ∃ t, exec .spectrum (onZeros 2) = .next t ∧ t.done = true := by
  obtain ⟨t, h, hp⟩ := ends_next (o := exec .spectrum (onZeros 2)) (p := fun t => t.done) (by decide +kernel)
  exact ⟨t, h, hp⟩

/-- One command for each of the three clauses on what it does not write, and MANT for the fourth. -/
theorem witness_CommandsWriteOnlyTheirOwnOutputs :
    (∃ t, exec .spectrum (onZeros 2) = .next t) ∧ (∃ t, exec (.tonal 3#2) (onZeros 2) = .next t) ∧
    (∃ t, exec .rdbit (onZeros 2) = .next t) ∧ ∃ t, exec (.mant 2#3 .vlc 1#8) (onZeros 2) = .next t := by
  have h : ∀ i, (∃ t, exec i (onZeros 2) = .next t) ↔ ends (exec i (onZeros 2)) (fun _ => true) = true := by
    intro i
    cases exec i (onZeros 2) <;> simp [ends]
  simp only [h]
  decide +kernel

theorem witness_AbortPolicyChangesOnlyOutputsOfAbortedCommands :
    ∃ t u, commandWith { vectorConfig with abortPolicy := .leaveMutated } .spectrum (onBits (bin 0b1000000010000001100101)) = .next t ∧
      commandWith { vectorConfig with abortPolicy := .any } .spectrum (onBits (bin 0b1000000010000001100101)) = .next u ∧ t.err = true := by
  obtain ⟨t, h, ht⟩ := ends_next (o := commandWith { vectorConfig with abortPolicy := .leaveMutated } .spectrum
    (onBits (bin 0b1000000010000001100101))) (p := fun t => t.err) (by decide +kernel)
  obtain ⟨u, h', -⟩ := ends_next (o := commandWith { vectorConfig with abortPolicy := .any } .spectrum
    (onBits (bin 0b1000000010000001100101))) (p := fun _ => true) (by decide +kernel)
  exact ⟨t, u, h, h', ht⟩

/-- Two states that differ in everything but the stream. -/
theorem witness_ResultsDependOnlyOnTheStream :
    ∃ s s' t : State, s'.fb = s.fb ∧ s'.bitpos = s.bitpos ∧ s'.bitlen = s.bitlen ∧ s'.draws = s.draws ∧ s' ≠ s ∧
      exec .spectrum s = .next t := by
  obtain ⟨t, h, -⟩ := ends_next (o := exec .spectrum (onZeros 2)) (p := fun _ => true) (by decide +kernel)
  exact ⟨onZeros 2, { onZeros 2 with result := 5#32, qm := [(3, 7#32)], tccount := 9#7, ie := true }, t, rfl, rfl, rfl, rfl, by decide, h⟩

theorem witness_MantissaCodesStandForTheSpecValues : 2 ≤ 7 ∧ 7 < 8 ∧ 63 < 2 ^ clcWidth referenceTables 7 := by decide

theorem witness_MantDecodesTheCodesOnTheStream :
    ((0#3).toNat = 0 ∧ (0#8).toNat = 0 ∧ 128 < (129#8).toNat ∧ (1#3).toNat = 1 ∧ (127#8).toNat % 2 = 1) ∧
    ((Instr.mant 1#3 .clc 4#8).wf = true ∧ [11, 6].length = codeCount (1#3).toNat (4#8).toNat ∧
      (∀ raw ∈ [11, 6], codeOk referenceTables (1#3).toNat .clc raw = true) ∧
      onStream (onBytes [0xB6#8] 0 8) (mantBits referenceTables (1#3).toNat .clc [11, 6]) = true) ∧
    ((Instr.mant 2#3 .clc 128#8).wf = true ∧ (List.replicate 128 0).length = codeCount (2#3).toNat (128#8).toNat ∧
      (∀ raw ∈ List.replicate 128 0, codeOk referenceTables (2#3).toNat .clc raw = true) ∧
      onStream (onZeros 48) (mantBits referenceTables (2#3).toNat .clc (List.replicate 128 0)) = true) := by decide +kernel

theorem witness_MantCompletesWithMantissasInRange :
    (Instr.mant 7#3 .vlc 128#8).wf = true ∧ FrameLoaded (onZeros 128) ∧
      (onZeros 128).bitpos.toNat + 8 * (128#8).toNat ≤ (onZeros 128).bitlen.toNat :=
  ⟨by decide, onZeros_loaded (by omega), by decide⟩

/-- MT16, and MT17, where one bit of the third codeword is left. -/
theorem witness_MantKeepsEarlierMantissasOnOverrun :
    (vectorConfig.tables = referenceTables ∧ vectorConfig.abortPolicy = .leaveMutated) ∧
    ((Instr.mant 2#3 .clc 3#8).wf = true ∧ [3, 4].length < codeCount (2#3).toNat (3#8).toNat ∧
      (∀ raw ∈ [3, 4], codeOk referenceTables (2#3).toNat .clc raw = true) ∧
      onStream (onBits (bin 0b10111001)) (mantBits referenceTables (2#3).toNat .clc [3, 4]) = true ∧
      codeCut referenceTables (2#3).toNat .clc (onBits (bin 0b10111001)) (0 + (mantBits referenceTables (2#3).toNat .clc [3, 4]).length)) ∧
    ((Instr.mant 2#3 .vlc 3#8).wf = true ∧ [0, 1].length < codeCount (2#3).toNat (3#8).toNat ∧
      (∀ raw ∈ [0, 1], codeOk referenceTables (2#3).toNat .vlc raw = true) ∧
      onStream (onBits (bin 0b101001)) (mantBits referenceTables (2#3).toNat .vlc [0, 1]) = true ∧
      codeCut referenceTables (2#3).toNat .vlc (onBits (bin 0b101001)) (0 + (mantBits referenceTables (2#3).toNat .vlc [0, 1]).length)) := by
  refine ⟨by decide, ⟨by decide, by decide, by decide, by decide +kernel, ?_⟩, by decide, by decide, by decide, by decide +kernel,
    ⟨1, 3, 4⟩, by decide +kernel, 1, by decide +kernel⟩
  simp only [codeCut]
  decide +kernel

/-- SP3 as a block. -/
def spectralBlockSp3 : SpectralBlock :=
  { mode := .vlc, bands := [{ sel := 2, sfi := 42, codes := [1, 2, 3, 4, 0, 0, 0, 0] }, { sel := 0, sfi := 0, codes := [] }] }

/-- SP3, and the all-zero block with all 32 subbands (SP2). -/
theorem witness_SpectrumParsesTheSpectralBlock :
    (spectralBlockSp3.ok referenceTables = true ∧
      spectralBlockSp3.bits referenceTables = bin 0b1000010010000101010 ++ bin 0b11001011101110000 ∧
      onStream (onBits (spectralBlockSp3.bits referenceTables)) (spectralBlockSp3.bits referenceTables) = true) ∧
    ((⟨.clc, List.replicate 32 ⟨0, 0, []⟩⟩ : SpectralBlock).ok referenceTables = true ∧
      onStream (onBits ((⟨.clc, List.replicate 32 ⟨0, 0, []⟩⟩ : SpectralBlock).bits referenceTables))
        ((⟨.clc, List.replicate 32 ⟨0, 0, []⟩⟩ : SpectralBlock).bits referenceTables) = true) ∧
    ends (exec .spectrum (onZeros 2)) (fun t => !t.err) = true := by decide +kernel

theorem witness_SpectrumCompletesWithin8486Bits :
    FrameLoaded (onZeros 1061) ∧ (onZeros 1061).bitpos.toNat + 8486 ≤ (onZeros 1061).bitlen.toNat :=
  ⟨onZeros_loaded (by omega), by decide⟩

theorem witness_AllZeroSelectorsZeroTheSpectrum :
    (0 < 32 ∧ onStream (onZeros 2) (natBits 5 0 ++ [false] ++ List.replicate (3 * (0 + 1)) false) = true) ∧
    (31 < 32 ∧ onStream (onBits (bin 0b1111111 ++ List.replicate 96 false)) (natBits 5 31 ++ [true] ++ List.replicate (3 * (31 + 1)) false) = true) := by
  decide +kernel

theorem witness_SpectrumOutputsAreWrittenAndInRange : ∃ t, exec .spectrum (onZeros 2) = .next t ∧ t.done = true :=
  witness_NoCommandWritesItsInputs

/-- The blocks that SP7 and SP8 begin. -/
def spectralBlockSp7 : SpectralBlock :=
  { mode := .vlc
    bands := [{ sel := 1, sfi := 9, codes := [0, 0, 0, 0] }, { sel := 5, sfi := 63, codes := [0, 0, 0, 0, 0, 0, 0, 0] }, ⟨0, 0, []⟩] }

def spectralBlockSp8 : SpectralBlock := { mode := .vlc, bands := [{ sel := 2, sfi := 1, codes := [1, 2, 0, 0, 0, 0, 0, 0] }] }

/-- The five clauses: NSB, the mode bit, the third selector (SP7), the second index, the third code of the first subband (SP8, no bit of it
left) and the first one of the second. -/
theorem witness_SpectrumKeepsEarlierFieldsOnOverrun :
    (vectorConfig.tables = referenceTables ∧ vectorConfig.sideInfoOrder = .grouped ∧ vectorConfig.abortPolicy = .leaveMutated ∧
      spectralBlockSp7.ok referenceTables = true ∧ spectralBlockSp8.ok referenceTables = true) ∧
    State.reset.bitlen.toNat < State.reset.bitpos.toNat + 5 ∧
    cutAfter (natBits 5 (spectralBlockSp7.bands.length - 1)) 1 = true ∧
    (2 < spectralBlockSp7.bands.length ∧ spectralBlockSp7.bitsBeforeSel 2 = bin 0b1000100001101 ∧
      cutAfter (spectralBlockSp7.bitsBeforeSel 2) 3 = true) ∧
    (∃ x, spectralBlockSp7.bands[1]? = some x ∧ x.sel ≠ 0 ∧ cutAfter (spectralBlockSp7.bitsBeforeSfi 1) 6 = true) ∧
    (∃ x B, spectralBlockSp8.bands[0]? = some x ∧ x.sel ≠ 0 ∧ 2 < x.codes.length ∧
      B = spectralBlockSp8.bitsBeforeMant referenceTables 0 ++ mantBits referenceTables x.sel .vlc (x.codes.take 2) ∧
      B = bin 0b1000000010000001100101 ∧ onStream (onBits B) B = true ∧ codeCut referenceTables x.sel .vlc (onBits B) (0 + B.length)) ∧
    ∃ x B, spectralBlockSp7.bands[1]? = some x ∧ x.sel ≠ 0 ∧ 0 < x.codes.length ∧
      B = spectralBlockSp7.bitsBeforeMant referenceTables 1 ++ mantBits referenceTables x.sel .vlc (x.codes.take 0) ∧
      onStream (onBits B) B = true ∧ codeCut referenceTables x.sel .vlc (onBits B) (0 + B.length) :=
  ⟨by decide +kernel, by decide, by decide +kernel, by decide +kernel, ⟨_, rfl, by decide, by decide +kernel⟩,
    ⟨_, _, rfl, by decide, by decide, rfl, by decide +kernel, by decide +kernel, ⟨0, 1, 0⟩, by decide +kernel, 0, by decide +kernel⟩,
    _, _, rfl, by decide, by decide, rfl, by decide +kernel, ⟨0, 2, 0⟩, by decide +kernel, 0, by decide +kernel⟩

/-- TN5 as a block. -/
def tonalBlockTn5 : TonalBlock :=
  { cms := 3
    groups := [{ flags := [true], cv := 0, qs := 3, mode := .clc, comps := [[{ sfi := 0, place := 0, codes := [7] }], [], [], []] },
      { flags := [true], cv := 1, qs := 5, mode := .vlc, comps := [[], [{ sfi := 2, place := 1, codes := [13, 14] }], [], []] }] }

theorem witness_TonalParsesTheTonalBlock :
    (tonalBlockTn5.ok referenceTables (0#2).toNat = true ∧
      onStream (onBits (tonalBlockTn5.bits referenceTables)) (tonalBlockTn5.bits referenceTables) = true ∧
      tonalBlockTn5.bits referenceTables = bin 0b10001011 ++ bin 0b110000111 ++ bin 0b1001000000000000111 ++ bin 0b1000000000 ++
        bin 0b110011010 ++ bin 0b1000001000010000001 ++ bin 0b111001101 ++ bin 0b1000000) ∧
    ends (exec (.tonal 3#2) (onZeros 1)) (fun t => !t.err) = true := by decide +kernel

theorem witness_TonalWithoutComponentsReadsFiveBits :
    onStream (onBits [false, false, false, false, false]) [false, false, false, false, false] = true := by decide +kernel

/-- TN3, with the smallest and the largest NC. -/
theorem witness_TonalModeTwoRaisesTonalMode :
    vectorConfig.abortPolicy = .leaveMutated ∧
    (1 ≤ 1 ∧ 1 < 32 ∧ onStream (onBits (bin 0b10000110)) (natBits 5 1 ++ [true, false]) = true) ∧
    (1 ≤ 31 ∧ 31 < 32 ∧ onStream (onBits (bin 0b11111110)) (natBits 5 31 ++ [true, false]) = true) := by decide +kernel

/-- TN4; and a second declared component after 44 tonal components. -/
theorem witness_TonalQstepBelowTwoRaisesTonalQstep :
    (vectorConfig.tables = referenceTables ∧ vectorConfig.abortPolicy = .leaveMutated) ∧
    (1 < 32 ∧ ([] : List TonalGroup).length < 1 ∧ [true].length = (0#2).toNat + 1 ∧
      onStream (onBits (bin 0b100001001001001)) (natBits 5 1 ++ natBits 2 0 ++ ([] : List TonalGroup).flatMap (TonalGroup.bits referenceTables 0) ++
        [true] ++ natBits 3 1 ++ natBits 3 1) = true) ∧
    ((manyComponents 2).groups.length < 31 ∧ (∀ g ∈ (manyComponents 2).groups, g.ok referenceTables (0#2).toNat 0 = true) ∧
      ((manyComponents 2).groups.flatMap (TonalGroup.entries referenceTables)).length ≤ 64 ∧ [false].length = (0#2).toNat + 1 ∧
      onStream (onBits (natBits 5 31 ++ natBits 2 0 ++ (manyComponents 2).groups.flatMap (TonalGroup.bits referenceTables 0) ++ [false] ++
          natBits 3 7 ++ natBits 3 0))
        (natBits 5 31 ++ natBits 2 0 ++ (manyComponents 2).groups.flatMap (TonalGroup.bits referenceTables 0) ++ [false] ++
          natBits 3 7 ++ natBits 3 0) = true) := by decide +kernel

/-- The 65th component is number 6 at the third active position of the third declared component. -/
theorem witness_TonalCapStopsAtTheSixtyFifth :
    ((manyComponents 3).shape referenceTables (0#2).toNat = true ∧ 64 < ((manyComponents 3).entries referenceTables).length ∧
      onStream (onBits ((manyComponents 3).bits referenceTables)) ((manyComponents 3).bits referenceTables) = true ∧
      vectorConfig.tables = referenceTables ∧ vectorConfig.abortPolicy = .leaveMutated) ∧
    ∃ g xs x B, (manyComponents 3).groups[2]? = some g ∧ g.comps[2]? = some xs ∧ xs[6]? = some x ∧
      ((manyComponents 3).entriesBefore referenceTables 2 ++ g.entriesBefore referenceTables 2 6).length = 64 ∧
      B = (manyComponents 3).bitsBefore referenceTables 2 ++ g.bitsBeforeComp referenceTables 0 2 xs 6 ++ natBits 6 x.sfi ∧
      onStream (onBits B) B = true :=
  ⟨by decide +kernel, _, _, _, _, rfl, rfl, rfl, by decide +kernel, rfl, by decide +kernel⟩

/-- The block that TN8 begins. -/
def tonalBlockTn8 : TonalBlock :=
  { cms := 1
    groups := [{ flags := [true], cv := 7, qs := 3, mode := .clc
                 comps := [[{ sfi := 7, place := 4, codes := [3, 5, 0, 0, 0, 0, 0, 0] }], [], [], []] }] }

/-- The clauses on NC, CMS, and every kind of field at which no component is half read, in the second declared component of TN5. -/
theorem witness_TonalKeepsEarlierComponentsOnOverrun :
    (vectorConfig.tables = referenceTables ∧ vectorConfig.abortPolicy = .leaveMutated ∧
      tonalBlockTn5.shape referenceTables (0#2).toNat = true ∧ tonalBlockTn8.shape referenceTables (0#2).toNat = true) ∧
    State.reset.bitlen.toNat < State.reset.bitpos.toNat + 5 ∧
    (tonalBlockTn5.groups ≠ [] ∧ cutAfter (natBits 5 tonalBlockTn5.groups.length) 2 = true) ∧
    ∃ g, tonalBlockTn5.groups[1]? = some g ∧
      (TonalBoundary referenceTables 3 g (g.flags.take 0) [] 1 ∧ cutAfter (tonalBlockTn5.bitsBefore referenceTables 1 ++ g.flags.take 0) 1 = true) ∧
      (TonalBoundary referenceTables 3 g g.flags [] 3 ∧ cutAfter (tonalBlockTn5.bitsBefore referenceTables 1 ++ g.flags) 3 = true) ∧
      (TonalBoundary referenceTables 3 g (g.flags ++ natBits 3 g.cv) [] 3 ∧
        cutAfter (tonalBlockTn5.bitsBefore referenceTables 1 ++ (g.flags ++ natBits 3 g.cv)) 3 = true) ∧
      (TonalBoundary referenceTables 3 g (g.flags ++ natBits 3 g.cv ++ natBits 3 g.qs) [] 1 ∧
        cutAfter (tonalBlockTn5.bitsBefore referenceTables 1 ++ (g.flags ++ natBits 3 g.cv ++ natBits 3 g.qs)) 1 = true) ∧
      (TonalBoundary referenceTables 3 g (g.bitsBefore referenceTables 3 2) (g.entriesBefore referenceTables 2 0) 3 ∧
        (tonalBlockTn5.entriesBefore referenceTables 1 ++ g.entriesBefore referenceTables 2 0).length = 2 ∧
        cutAfter (tonalBlockTn5.bitsBefore referenceTables 1 ++ g.bitsBefore referenceTables 3 2) 3 = true) ∧
      ∃ xs, g.comps[1]? = some xs ∧
        TonalBoundary referenceTables 3 g (g.bitsBeforeComp referenceTables 3 1 xs 0) (g.entriesBefore referenceTables 1 0) 6 ∧
        (tonalBlockTn5.entriesBefore referenceTables 1 ++ g.entriesBefore referenceTables 1 0).length = 1 ∧
        cutAfter (tonalBlockTn5.bitsBefore referenceTables 1 ++ g.bitsBeforeComp referenceTables 3 1 xs 0) 6 = true :=
  ⟨by decide +kernel, by decide, by decide +kernel, _, rfl, ⟨.flag 0 (by decide), by decide +kernel⟩, ⟨.codedValues, by decide +kernel⟩,
    ⟨.qstep, by decide +kernel⟩, ⟨.mode rfl, by decide +kernel⟩, ⟨.compCount 2 (by decide), by decide +kernel, by decide +kernel⟩,
    _, rfl, .sfIndex 1 0 _ rfl (by decide), by decide +kernel, by decide +kernel⟩

/-- The clauses on a component half read: its place, after one component is complete (TN5); its third code (TN8); its second codeword, of
which three bits are left (TN5). -/
theorem witness_TonalKeepsEarlierComponentsOnOverrun_halfRead :
    (∃ g xs x B, tonalBlockTn5.groups[1]? = some g ∧ g.comps[1]? = some xs ∧ xs[0]? = some x ∧
      B = tonalBlockTn5.bitsBefore referenceTables 1 ++ g.bitsBeforeComp referenceTables 3 1 xs 0 ++ natBits 6 x.sfi ∧
      (tonalBlockTn5.entriesBefore referenceTables 1 ++ g.entriesBefore referenceTables 1 0).length < 64 ∧ cutAfter B 6 = true) ∧
    (∃ g xs x B, tonalBlockTn8.groups[0]? = some g ∧ (activePositions g.flags)[0]? = some 0 ∧ g.comps[0]? = some xs ∧ xs[0]? = some x ∧
      2 < x.codes.length ∧
      B = tonalBlockTn8.bitsBefore referenceTables 0 ++ g.bitsBeforeComp referenceTables 1 0 xs 0 ++ natBits 6 x.sfi ++ natBits 6 x.place ++
        mantBits referenceTables g.qs g.mode (x.codes.take 2) ∧
      B = bin 0b100001011 ++ bin 0b1111011001 ++ bin 0b1000111000100011101 ∧
      (tonalBlockTn8.entriesBefore referenceTables 0 ++ g.entriesBefore referenceTables 0 0).length < 64 ∧ onStream (onBits B) B = true ∧
      codeCut referenceTables g.qs g.mode (onBits B) (0 + B.length)) ∧
    ∃ g xs x B, tonalBlockTn5.groups[1]? = some g ∧ (activePositions g.flags)[1]? = some 1 ∧ g.comps[1]? = some xs ∧ xs[0]? = some x ∧
      1 < x.codes.length ∧
      B = tonalBlockTn5.bitsBefore referenceTables 1 ++ g.bitsBeforeComp referenceTables 3 1 xs 0 ++ natBits 6 x.sfi ++ natBits 6 x.place ++
        mantBits referenceTables g.qs g.mode (x.codes.take 1) ∧
      (tonalBlockTn5.entriesBefore referenceTables 1 ++ g.entriesBefore referenceTables 1 0).length < 64 ∧
      onStream (onBits (B ++ [true, true, false])) B = true ∧
      codeCut referenceTables g.qs g.mode (onBits (B ++ [true, true, false])) (0 + B.length) := by
  refine ⟨⟨_, _, _, _, rfl, rfl, rfl, rfl, by decide +kernel, by decide +kernel⟩,
    ⟨_, _, _, _, rfl, by decide +kernel, rfl, rfl, by decide, rfl, by decide +kernel, by decide +kernel, by decide +kernel, ?_⟩,
    _, _, _, _, rfl, by decide +kernel, rfl, rfl, by decide, rfl, by decide +kernel, by decide +kernel, ⟨14, 4, 13⟩, by decide +kernel, 3,
    by decide +kernel⟩
  simp only [codeCut]
  decide +kernel

theorem witness_TonalEntriesAreInRange :
    ∃ t, exec (.tonal 0#2) (onBits (tonalBlockTn5.bits referenceTables)) = .next t ∧ t.done = true ∧ 1 < t.tccount.toNat := by
  obtain ⟨t, h, hp⟩ := ends_next (o := exec (.tonal 0#2) (onBits (tonalBlockTn5.bits referenceTables)))
    (p := fun t => t.done && decide (1 < t.tccount.toNat)) (by decide +kernel)
  rw [Bool.and_eq_true, decide_eq_true_eq] at hp
  exact ⟨t, h, hp.1, hp.2⟩

/-- A host access is next; the block is idle or busy. -/
def beforeAccess (busy : Bool) (op : HostOp) : State := { State.reset with busy := busy, agenda := [.host op] }

theorem witness_CmdWriteIssuesOrSetsOvr :
    ∀ b, (beforeAccess b (.write 0x000 .w32 0#32)).agenda = .host (.write 0x000 .w32 0#32) :: [] ∧
      (beforeAccess b (.write 0x000 .w32 0#32)).busy = b := by decide

/-- The lowest and the highest offset, and the first above FB, whatever its size; BITPOS; BITLEN. -/
theorem witness_InputWritesWhileBusySetOvr :
    (∀ op, (beforeAccess true op).busy = true ∧ (beforeAccess true op).agenda = .host op :: []) ∧
    ∀ x ∈ [(0x1000, Width.w32), (0x1000 + machineConfig.maxFrameBytes - 1, .w8), (0x2FFF, .w8), (0x00C, .w32), (0x010, .w32)],
      (0x1000 ≤ x.1 ∧ x.1 < 0x3000 ∧ x.1 % x.2.bytes = 0) ∨ ((x.1 = 0x00C ∨ x.1 = 0x010) ∧ x.2 = .w32) := by
  have hm := machine_frameBytes
  refine ⟨fun _ => ⟨rfl, rfl⟩, ?_⟩
  simp [Width.bytes, Nat.mod_one]
  omega

theorem witness_StatusWriteClearsTheMarkedBits : ∃ s : State, s.agenda = .host (.write 0x004 .w32 0x0E#32) :: [] :=
  ⟨beforeAccess false (.write 0x004 .w32 0x0E#32), rfl⟩

theorem witness_PositionWritesStoreAndClamp :
    (∃ s : State, s.busy = false ∧ s.agenda = .host (.write 0x00C .w32 0x1FFFF#32) :: []) ∧
    ∃ s : State, s.busy = false ∧ s.agenda = .host (.write 0x010 .w32 0x1FFFF#32) :: [] :=
  ⟨⟨beforeAccess false (.write 0x00C .w32 0x1FFFF#32), rfl, rfl⟩, ⟨beforeAccess false (.write 0x010 .w32 0x1FFFF#32), rfl, rfl⟩⟩

/-- Idle; and a pending command that may write none of SPECTRUM's and TONAL's outputs, nor MBUF from entry 4 on. -/
theorem witness_SoftResetClearsTheRegisters :
    (2#32).getLsbD 1 = true ∧ (∃ s : State, s.agenda = .host (.write 0x008 .w32 2#32) :: [] ∧ s.busy = false) ∧
    ∃ s : State, s.agenda = .host (.write 0x008 .w32 2#32) :: [] ∧ s.busy = true ∧ decode s.pending = .ok (.mant 2#3 .vlc 4#8) ∧
      decode s.pending ≠ .ok .spectrum ∧ decode s.pending ≠ .ok (.tonal 0#2) ∧ (4#8).toNat ≤ 4 :=
  ⟨by decide, ⟨beforeAccess false (.write 0x008 .w32 2#32), rfl, rfl⟩,
    ⟨{ beforeAccess true (.write 0x008 .w32 2#32) with pending := 0x50000042#32 }, rfl, rfl, by decide, by decide, by decide, by decide⟩⟩

theorem witness_CtrlWriteSetsInterruptEnable :
    (1#32).getLsbD 1 = false ∧ ∃ s : State, s.agenda = .host (.write 0x008 .w32 1#32) :: [] :=
  ⟨by decide, ⟨beforeAccess true (.write 0x008 .w32 1#32), rfl⟩⟩

theorem witness_IrqFollowsDoneAndErr : ∃ t, exec .rdbit { onZeros 1 with ie := true } = .next t ∧ irq t = true := by
  obtain ⟨t, h, hp⟩ := ends_next (o := exec .rdbit { onZeros 1 with ie := true }) (p := fun t => irq t) (by decide +kernel)
  exact ⟨t, h, hp⟩

theorem witness_RegisterReadsReturnTheFields :
    ∀ k, k ≤ 8 → (beforeAccess false (.read (4 * k) .w32)).busy = false ∧
      (beforeAccess false (.read (4 * k) .w32)).agenda = .host (.read (4 * k) .w32) :: [] ∧ 4 * k % 4 = 0 ∧ 4 * k ≤ 0x020 := by
  intro k hk
  exact ⟨rfl, rfl, by omega, by omega⟩

/-- Both ends of each range of registers; the last word of QM and of TC, written; and the four offsets of the other clauses. -/
theorem witness_BusyReadsReturnADraw :
    (∀ off ∈ [0x00C, 0x014, 0x020, 0x000, 0x004, 0x008, 0x010], (beforeAccess true (.read off .w32)).busy = true ∧
      (beforeAccess true (.read off .w32)).agenda = .host (.read off .w32) :: [] ∧ off % 4 = 0) ∧
    (∃ s : State, s.busy = true ∧ s.agenda = .host (.read 0x4FFC .w32) :: [] ∧ OutputAt s 0x4FFC (some 7#32)) ∧
    ∃ s : State, s.busy = true ∧ s.agenda = .host (.read 0x6FEC .w32) :: [] ∧ OutputAt s 0x6FEC (some 7#32) :=
  ⟨by decide, ⟨{ beforeAccess true (.read 0x4FFC .w32) with qm := [(1023, 7#32)] }, rfl, rfl, .inl ⟨1023, by decide, by decide, rfl⟩⟩,
    ⟨{ beforeAccess true (.read 0x6FEC .w32) with tc := [(767, 7#32)] }, rfl, rfl,
      .inr (.inr (.inr (.inr ⟨63, by decide, .inr (.inr (.inr (.inr ⟨7, by decide, by decide, rfl⟩)))⟩)))⟩⟩

theorem witness_FrameBufferWriteStoresLittleEndian :
    (beforeAccess false (.write (0x1000 + 0) .w32 1#32)).busy = false ∧ 0 < machineConfig.maxFrameBytes ∧ (0x1000 + 0) % Width.w32.bytes = 0 ∧
    (beforeAccess false (.write (0x1000 + 0) .w32 1#32)).agenda = .host (.write (0x1000 + 0) .w32 1#32) :: [] :=
  ⟨rfl, machine_frameBytes.1, by decide, rfl⟩

/-- A byte that has been written, and one that has not. -/
theorem witness_FrameBufferReadReturnsLittleEndian :
    (0 < machineConfig.maxFrameBytes ∧ (0x1000 + 0) % Width.w8.bytes = 0) ∧
    (∃ s : State, s.agenda = .host (.read (0x1000 + 0) .w8) :: [] ∧
      ∀ b, 0 ≤ b → b < 0 + Width.w8.bytes → b < machineConfig.maxFrameBytes → (s.fb.read b).isSome = true) ∧
    ∃ s : State, s.agenda = .host (.read (0x1000 + 0) .w8) :: [] ∧
      ∃ b, 0 ≤ b ∧ b < 0 + Width.w8.bytes ∧ b < machineConfig.maxFrameBytes ∧ s.fb.read b = none := by
  refine ⟨⟨machine_frameBytes.1, by decide⟩, ⟨{ beforeAccess false (.read (0x1000 + 0) .w8) with fb := [(0, 1#8)] }, rfl, ?_⟩,
    ⟨beforeAccess false (.read (0x1000 + 0) .w8), rfl, 0, by decide, by decide, machine_frameBytes.1, rfl⟩⟩
  intro b _ hb _
  have : b = 0 := by simp only [Width.bytes] at hb; omega
  subst this; rfl

/-- The last words of QM and SFI and the first of TC: written and idle; and not written, idle and busy. -/
theorem witness_OutputReadsReturnTheStoredWord :
    (∃ s : State, s.agenda = .host (.read 0x4FFC .w32) :: [] ∧ OutputAt s 0x4FFC (some 7#32) ∧ s.busy = false) ∧
    (∃ s : State, s.agenda = .host (.read 0x6000 .w32) :: [] ∧ OutputAt s 0x6000 (some 7#32) ∧ s.busy = false) ∧
    ∀ b, ∃ s : State, s.agenda = .host (.read 0x50FC .w32) :: [] ∧ OutputAt s 0x50FC none ∧ s.busy = b :=
  ⟨⟨{ beforeAccess false (.read 0x4FFC .w32) with qm := [(1023, 7#32)] }, rfl, .inl ⟨1023, by decide, by decide, rfl⟩, rfl⟩,
    ⟨{ beforeAccess false (.read 0x6000 .w32) with tc := [(0, 7#32)] }, rfl,
      .inr (.inr (.inr (.inr ⟨0, by decide, .inl ⟨by decide, rfl⟩⟩))), rfl⟩,
    fun b => ⟨beforeAccess b (.read 0x50FC .w32), rfl, .inr (.inr (.inl ⟨31, by decide, by decide, rfl⟩)), rfl⟩⟩

/-- An access of each kind of violation, and one that is none. -/
theorem witness_ProtocolViolationsStopTheRun :
    (∀ op, (beforeAccess false op).agenda = .host op :: []) ∧ 0x8000 ≤ 0x8000 ∧ 0x1002 % Width.w32.bytes ≠ 0 ∧
    (Width.w8 ≠ .w32 ∧ 0x20 < 0x24) ∧ ¬(0x8000 ≤ 0x1001 ∨ 0x1001 % Width.w8.bytes ≠ 0 ∨
      (Width.w8 ≠ .w32 ∧ (0x1001 < 0x24 ∨ (0x4000 ≤ 0x1001 ∧ 0x1001 < 0x5300) ∨ (0x6000 ≤ 0x1001 ∧ 0x1001 < 0x7000)))) :=
  ⟨fun _ => rfl, by decide⟩

/-- Both ends of each range of offsets; the first byte above FB, whatever its size, where R192 is not in force; narrow accesses; idle and busy. -/
theorem witness_ReservedOffsetsReadZeroAndIgnoreWrites :
    (∀ b op, (beforeAccess b op).agenda = .host op :: [] ∧ (beforeAccess b op).busy = b) ∧
    (∀ x ∈ [(0x24, Width.w32), (0xFFF, .w8), (0x1000 + machineConfig.maxFrameBytes, .w8), (0x3FFC, .w32), (0x5300, .w16), (0x5FFC, .w32)] ++
        [(0x6030, .w32), (0x6FFC, .w32), (0x7000, .w32), (0x7FFE, .w16)],
      x.1 % x.2.bytes = 0 ∧ ((0x24 ≤ x.1 ∧ x.1 < 0x1000) ∨ (0x1000 + machineConfig.maxFrameBytes ≤ x.1 ∧ x.1 < 0x4000) ∨
        (0x5300 ≤ x.1 ∧ x.1 < 0x6000) ∨ (0x6000 ≤ x.1 ∧ x.1 < 0x7000 ∧ 0x30 ≤ x.1 % 64 ∧ x.2 = .w32) ∨ (0x7000 ≤ x.1 ∧ x.1 < 0x8000))) ∧
    (∀ b, ∀ x ∈ [(0x24, Width.w32), (0xFFF, .w8), (bif b then 0x3000 else 0x1000 + machineConfig.maxFrameBytes, .w8), (0x3FFC, .w32), (0x5300, .w16), (0x5FFC, .w32)] ++
        [(0x4000, .w32), (0x52FC, .w32), (0x6FFC, .w32), (0x7FFF, .w8), (0x014, .w32), (0x020, .w32)],
      x.1 % x.2.bytes = 0 ∧ ((0x24 ≤ x.1 ∧ x.1 < 0x1000) ∨ (0x1000 + machineConfig.maxFrameBytes ≤ x.1 ∧ x.1 < 0x4000 ∧ (0x3000 ≤ x.1 ∨ b = false)) ∨
        (0x5300 ≤ x.1 ∧ x.1 < 0x6000) ∨ (0x7000 ≤ x.1 ∧ x.1 < 0x8000) ∨ (0x4000 ≤ x.1 ∧ x.1 < 0x8000 ∧ x.2 = .w32) ∨
        (0x014 ≤ x.1 ∧ x.1 < 0x024 ∧ x.2 = .w32))) := by
  have hm := machine_frameBytes
  refine ⟨fun _ _ => ⟨rfl, rfl⟩, ?_, fun b => ?_⟩
  · simp [Width.bytes, Nat.mod_one]
    omega
  · cases b <;> simp [Width.bytes, Nat.mod_one] <;> omega

theorem witness_HostReadsHaveNoSideEffect :
    ∃ s t : State, s.agenda = .host (.read 0x004 .w32) :: [] ∧ step s = .next t :=
  ⟨beforeAccess true (.read 0x004 .w32), { beforeAccess true (.read 0x004 .w32) with rdata := 1#32, agenda := [] }, rfl, rfl⟩

theorem witness_InputsAreFrozenWhileBusy :
    ∃ s t : State, s.busy = true ∧ s.agenda = .host (.write 0x00C .w32 5#32) :: [] ∧ step s = .next t :=
  ⟨beforeAccess true (.write 0x00C .w32 5#32), { beforeAccess true (.write 0x00C .w32 5#32) with ovr := true, agenda := [] }, rfl, rfl, rfl⟩

/-- An empty frame and a frame that fills FB. -/
theorem witness_LoadFrameLoadsTheBytes :
    State.reset.busy = false ∧ ([] : List Byte).length ≤ machineConfig.maxFrameBytes ∧
      (List.replicate machineConfig.maxFrameBytes 0xA5#8).length ≤ machineConfig.maxFrameBytes :=
  ⟨rfl, by simp, by simp⟩

theorem witness_EveryStepKeepsTheInvariant :
    ∃ s t : State, Inv machineConfig s ∧ s.busy = true ∧ step s = .next t ∧ t.done = true := by
  have hm := machine_frameBytes
  obtain ⟨t, h, hp⟩ := ends_next (o := step ((onZeros 1).issue 0x30000000#32)) (p := fun t => t.done) (by decide +kernel)
  refine ⟨_, t, ⟨⟨⟨rfl, ?_⟩, ⟨rfl, rfl⟩, ⟨rfl, rfl⟩, ⟨rfl, rfl⟩, ⟨rfl, rfl⟩, ⟨rfl, rfl⟩⟩, ⟨?_, ?_, ?_, ?_, ?_⟩, ?_⟩, rfl, h, hp⟩
  · show Memory.below machineConfig.maxFrameBytes [(0, 0#8)] = true
    simp only [Memory.below, List.all_cons, List.all_nil, Bool.and_true, decide_eq_true_eq]
    omega
  all_goals simp [onZeros, State.issue]
  omega

end Sys2Proof.Tests
end

section
/-! SUPPORT. What a command does depends on FB, BITPOS and BITLEN alone (00_scope.md R7): the relation that two runs over one stream keep,
as an instance of `TwinWrites`, and how the two runs end. -/

namespace Sys2Proof.Machine

/-- Two runs that began with `x₀` and `x₀'` and hold `x` and `x'`: the same value in both, or untouched in both. -/
def SameOrUntouched {α : Type} (x₀ x₀' x x' : α) : Prop := x' = x ∨ x = x₀ ∧ x' = x₀'

/-- Every entry of a buffer is the same in both runs or untouched in both. -/
def Memory.SameOrUntouched {α : Type} (m₀ m₀' m m' : Memory α) : Prop :=
  ∀ a, Machine.SameOrUntouched (m₀.read a) (m₀'.read a) (m.read a) (m'.read a)

namespace Memory.SameOrUntouched

variable {α : Type} {m₀ m₀' m m' : Memory α}

theorem refl : Memory.SameOrUntouched m₀ m₀' m₀ m₀' := fun _ => .inr ⟨rfl, rfl⟩

theorem write (h : Memory.SameOrUntouched m₀ m₀' m m') (i : Nat) (v : α) :
    Memory.SameOrUntouched m₀ m₀' (m.write i v) (m'.write i v) := by
  intro a
  rw [Memory.read_write, Memory.read_write]
  split_ifs
  · exact .inl rfl
  · exact h a

theorem fill (h : Memory.SameOrUntouched m₀ m₀' m m') (lo n : Nat) {f f' : Nat → α} (hf : f' = f) :
    Memory.SameOrUntouched m₀ m₀' (m.fill lo n f) (m'.fill lo n f') := by
  intro a
  rw [Memory.read_fill, Memory.read_fill, hf]
  split_ifs
  · exact .inl rfl
  · exact h a

end Memory.SameOrUntouched

/-- `u` and `u'` are reached from `s` and `s'` over one stream: they agree on what a command reads, and every output is the same in both or
untouched in both. -/
structure SameStream (s s' u u' : State) : Prop where
  fb : u'.fb = u.fb
  bitpos : u'.bitpos = u.bitpos
  bitlen : u'.bitlen = u.bitlen
  draws : u'.draws = u.draws
  qm : Memory.SameOrUntouched s.qm s'.qm u.qm u'.qm
  sel : Memory.SameOrUntouched s.sel s'.sel u.sel u'.sel
  sfi : Memory.SameOrUntouched s.sfi s'.sfi u.sfi u'.sfi
  mbuf : Memory.SameOrUntouched s.mbuf s'.mbuf u.mbuf u'.mbuf
  tc : Memory.SameOrUntouched s.tc s'.tc u.tc u'.tc
  nsb : SameOrUntouched s.nsb s'.nsb u.nsb u'.nsb
  specMode : SameOrUntouched s.specMode s'.specMode u.specMode u'.specMode
  tccount : SameOrUntouched s.tccount s'.tccount u.tccount u'.tccount

namespace SameStream

variable {s s' u u' : State}

theorem refl (hfb : s'.fb = s.fb) (hpos : s'.bitpos = s.bitpos) (hlen : s'.bitlen = s.bitlen) (hdraws : s'.draws = s.draws) :
    SameStream s s' s s' :=
  ⟨hfb, hpos, hlen, hdraws, .refl, .refl, .refl, .refl, .refl, .inr ⟨rfl, rfl⟩, .inr ⟨rfl, rfl⟩, .inr ⟨rfl, rfl⟩⟩

/-- A write made in both runs makes the outputs it writes the same and leaves the others alone. -/
theorem twinWrites (s s' : State) : TwinWrites (SameStream s s') where
  fb h := h.fb
  bitpos h := h.bitpos
  bitlen h := h.bitlen
  setBitpos _ h := { h with bitpos := rfl }
  setNsb _ h := { h with nsb := .inl rfl }
  setSpecMode _ h := { h with specMode := .inl rfl }
  setTccount _ h := { h with tccount := .inl rfl }
  writeQm _ _ h := { h with qm := h.qm.write _ _ }
  zeroQm _ _ h := { h with qm := h.qm.fill _ _ rfl }
  writeSel _ _ h := { h with sel := h.sel.write _ _ }
  writeSfi _ _ h := { h with sfi := h.sfi.write _ _ }
  zeroSide _ _ h := { h with sel := h.sel.fill _ _ rfl, sfi := h.sfi.fill _ _ rfl }
  writeMbuf _ _ h := { h with mbuf := h.mbuf.write _ _ }
  writeTc _ _ _ h := { h with tc := h.tc.write _ _ }
  zeroTcMant _ _ _ h := { h with tc := h.tc.fill _ _ rfl }

theorem endOk (h : SameStream s s' u u') (v v' : Word) : SameStream s s' (u.endOk v) (u'.endOk v') := { h with }

theorem endErr (h : SameStream s s' u u') (e e' : Err) (p p' : BitPos) : SameStream s s' (u.endErr e p) (u'.endErr e' p') := { h with }

theorem drawMbuf (h : SameStream s s' u u') (n : Nat) : SameStream s s' (u.drawMbuf n) (u'.drawMbuf n) :=
  { h with
    mbuf := h.mbuf.fill _ _ (by rw [h.draws])
    draws := by simp [h.draws] }

theorem drawSpectrum (h : SameStream s s' u u') : SameStream s s' u.drawSpectrum u'.drawSpectrum :=
  { h with
    qm := h.qm.fill _ _ (by rw [h.draws])
    sel := h.sel.fill _ _ (by rw [h.draws])
    sfi := h.sfi.fill _ _ (by rw [h.draws])
    nsb := .inl (by simp [h.draws])
    specMode := .inl (by simp [h.draws])
    draws := by simp [h.draws] }

theorem drawTonal (h : SameStream s s' u u') : SameStream s s' u.drawTonal u'.drawTonal :=
  { h with
    tc := h.tc.fill _ _ (by rw [h.draws])
    tccount := .inl (by simp [h.draws])
    draws := by simp [h.draws] }

/-- The draws for an aborted command are the same in both runs, because the counters of draws are. -/
theorem drawOutputs (h : SameStream s s' u u') (i : Instr) : SameStream s s' (u.drawOutputs i) (u'.drawOutputs i) := by
  unfold State.drawOutputs
  split_ifs
  · cases i with
    | mant _ _ cnt => exact h.drawMbuf _
    | spectrum => exact h.drawSpectrum
    | tonal _ => exact h.drawTonal
    | _ => exact h
  · exact h

theorem takeError (h : SameStream s s' u u') (c : Config) (i : Instr) (e : Err) (p : BitPos) :
    SameStream s s' (takeError c i e p u) (takeError c i e p u') := by
  unfold Machine.takeError State.applyAbortPolicy
  cases c.abortPolicy with
  | leaveMutated => exact h.endErr _ _ _ _
  | any => exact (h.endErr _ _ _ _).drawOutputs i

end SameStream

/-- `t` and `t'` report the same ending: STATUS, with RESULT on success and ERRCODE and ERRPOS on an error (60_exceptions.md R214, R216). -/
structure SameEnding (t t' : State) : Prop where
  busy : t'.busy = t.busy
  done : t'.done = t.done
  err : t'.err = t.err
  result : t.done = true → t'.result = t.result
  error : t.err = true → t'.errcode = t.errcode ∧ t'.errpos = t.errpos

theorem sameEnding_endOk (u u' : State) (v : Word) : SameEnding (u.endOk v) (u'.endOk v) :=
  ⟨rfl, rfl, rfl, fun _ => rfl, fun h => (nomatch h)⟩

theorem sameEnding_endErr (u u' : State) (e : Err) (p : BitPos) : SameEnding (u.endErr e p) (u'.endErr e p) :=
  ⟨rfl, rfl, rfl, fun h => (nomatch h), fun _ => ⟨rfl, rfl⟩⟩

/-- The abort policy touches none of the registers an ending reports (60_exceptions.md R217). -/
theorem sameEnding_takeError (c : Config) (i : Instr) (u u' : State) (e : Err) (p : BitPos) :
    SameEnding (takeError c i e p u) (takeError c i e p u') := by
  rw [takeError_same c i e p u, takeError_same c i e p u']
  exact ⟨rfl, rfl, rfl, fun h => (nomatch h), fun _ => ⟨rfl, rfl⟩⟩

/-- Two runs that began in `s` and `s'` stop with the same fault, or end alike with every output the same or untouched. -/
def SameOutcome (s s' : State) (o o' : Host.Outcome State Fault Refusal) : Prop :=
  (∃ f, o = .fault f ∧ o' = .fault f) ∨ ∃ t t', o = .next t ∧ o' = .next t' ∧ SameEnding t t' ∧ SameStream s s' t t'

theorem sameOutcome_endCommand {s s' : State} (c : Config) (i : Instr) {r r' : Res Word} (h : r.Twin (SameStream s s') r') :
    SameOutcome s s' (endCommand c i r) (endCommand c i r') := by
  cases r with
  | ok v u =>
    cases r' with
    | ok _ u' =>
      obtain ⟨rfl, hu⟩ := h
      exact .inr ⟨_, _, rfl, rfl, sameEnding_endOk u u' v, hu.endOk v v⟩
    | _ => exact h.elim
  | raise e p u =>
    cases r' with
    | raise _ _ u' =>
      obtain ⟨rfl, rfl, hu⟩ := h
      exact .inr ⟨_, _, rfl, rfl, sameEnding_takeError c i u u' e p, hu.takeError c i e p⟩
    | _ => exact h.elim
  | fault f =>
    cases r' with
    | fault _ => exact .inl ⟨f, rfl, congrArg _ h.symm⟩
    | _ => exact h.elim

theorem sameOutcome_exec (i : Instr) {s s' : State} (h : SameStream s s' s s') : SameOutcome s s' (exec i s) (exec i s') := by
  by_cases hw : i.wf = true
  · rw [exec_of_wf hw, exec_of_wf hw]
    exact sameOutcome_endCommand _ _ (twin_commandBody (SameStream.twinWrites s s') machineConfig i h)
  · rw [exec_of_not_wf hw, exec_of_not_wf hw, h.bitpos]
    exact .inr ⟨_, _, rfl, rfl, sameEnding_endErr _ _ _ _, h.endErr _ _ _ _⟩

/-- Settles O25: the pseudocode of both runs goes the same way and keeps `SameStream`, which says of every output what is claimed, and the
endings write the same to the registers. -/
theorem resultsDependOnlyOnTheStream : Obligations.ResultsDependOnlyOnTheStream := by
  intro i s s' hfb hpos hlen hdraws
  rcases sameOutcome_exec i (.refl hfb hpos hlen hdraws) with ⟨f, e, e'⟩ | ⟨t, t', e, e', hend, hout⟩
  · simp [e, e']
  · refine ⟨by simp [e, e'], fun u hu => ?_⟩
    obtain rfl : t = u := by simpa [e] using hu
    exact ⟨t', e', hend.busy, hend.done, hend.err, hout.bitpos, hend.result, hend.error,
      fun a => ⟨hout.qm a, hout.sel a, hout.sfi a, hout.mbuf a, hout.tc a⟩, hout.nsb, hout.specMode, hout.tccount⟩

end Sys2Proof.Machine
end

section
/-! SUPPORT. The state a command leaves (10_state.md R21, R23, R35): how every command that ends has ended, the invariant of the machine
under each move (10_state.md R26, R29, 44_control.md R190 to R198), and the ranges of what a successful SPECTRUM leaves (R37, R38). -/

namespace Sys2Proof.Machine

/-! ### How a command has ended -/

theorem Underway.refl (s : State) : Underway s s :=
  ⟨rfl, rfl, rfl, rfl, rfl, rfl, rfl, rfl, rfl, rfl, le_refl _, .inl rfl, fun q h1 h2 => by omega⟩

theorem SameButOutputs.refl (s : State) : SameButOutputs s s := rfl

/-- A command that ends does so from a state `u` of its own run, with success or with an error: an illegal operand is an error in the
state the command began in. -/
theorem exec_next_ended {i : Instr} {s t : State} (h : exec i s = .next t) :
    ∃ u, Underway s u ∧ ((∃ v, t = u.endOk v) ∨ ∃ e p, SameButOutputs (u.endErr e p) t) := by
  rcases exec_next_underway h with ⟨-, rfl⟩ | ⟨-, ⟨v, u, hu, rfl⟩ | ⟨e, p, u, hu, -, -, -, ht⟩⟩
  · exact ⟨s, .refl s, .inr ⟨_, _, .refl _⟩⟩
  · exact ⟨u, hu, .inl ⟨v, rfl⟩⟩
  · exact ⟨u, hu, .inr ⟨e, p, ht⟩⟩

/-- The registers that the draws for an aborted command leave alone. -/
theorem SameButOutputs.registers {s t : State} (h : SameButOutputs s t) :
    t.busy = s.busy ∧ t.done = s.done ∧ t.err = s.err ∧ t.errcode = s.errcode ∧ t.result = s.result ∧ t.bitpos = s.bitpos ∧
      t.bitlen = s.bitlen ∧ t.ie = s.ie := by
  rw [h]
  exact ⟨rfl, rfl, rfl, rfl, rfl, rfl, rfl, rfl⟩

theorem Err.code_bounds (e : Err) : 1 ≤ e.code.toNat ∧ e.code.toNat ≤ 6 := by cases e <;> decide

/-- Settles O16: success and error each write their own side of STATUS, and what they do not write is as it was when the command began. -/
theorem everyCommandEndsDoneOrWithAnError : Obligations.EveryCommandEndsDoneOrWithAnError := by
  intro i s t h
  obtain ⟨u, hu, ⟨v, rfl⟩ | ⟨e, p, ht⟩⟩ := exec_next_ended h
  · exact ⟨rfl, .inl ⟨rfl, rfl, hu.errcode, hu.errpos⟩⟩
  · obtain ⟨hbusy, hdone, herr, hcode, hresult, -, -, -⟩ := ht.registers
    have hbounds := e.code_bounds
    rw [← State.endErr_errcode (s := u) e p, ← hcode] at hbounds
    exact ⟨hbusy, .inr ⟨herr, hdone, hbounds.1, hbounds.2, hresult.trans hu.result⟩⟩

/-- The bit pointer, BITLEN and IE after a command are those of its run. -/
theorem exec_next_inputs {i : Instr} {s t : State} (h : exec i s = .next t) :
    ∃ u, Underway s u ∧ t.bitpos = u.bitpos ∧ t.bitlen = s.bitlen ∧ t.ie = s.ie := by
  obtain ⟨u, hu, ⟨v, rfl⟩ | ⟨e, p, ht⟩⟩ := exec_next_ended h
  · exact ⟨u, hu, rfl, hu.bitlen, hu.ie⟩
  · obtain ⟨-, -, -, -, -, hpos, hlen, hie⟩ := ht.registers
    exact ⟨u, hu, hpos, hlen.trans hu.bitlen, hie.trans hu.ie⟩

/-- Settles O21: no part of a command moves the bit pointer back or past BITLEN, and no ending moves it. -/
theorem bitposOnlyAdvancesWithinBitlen : Obligations.BitposOnlyAdvancesWithinBitlen := by
  intro i s t h
  obtain ⟨u, hu, hpos, -, -⟩ := exec_next_inputs h
  rw [hpos]
  exact ⟨hu.lo, hu.hi⟩

theorem irq_iff (s : State) : irq s = true ↔ s.ie = true ∧ (s.done = true ∨ s.err = true) := by simp [irq]

/-- Settles O48: a command ends with one of DONE and ERR, and an issue clears both. -/
theorem irqFollowsDoneAndErr : Obligations.IrqFollowsDoneAndErr := by
  refine ⟨irq_iff, fun i s t h => ?_, fun s w => by simp [irq]⟩
  obtain ⟨-, -, -, -, hie⟩ := exec_next_inputs h
  rw [← hie]
  rcases everyCommandEndsDoneOrWithAnError i s t h with ⟨-, ⟨hdone, -⟩ | ⟨herr, -⟩⟩
  · simp [irq, hdone]
  · simp [irq, herr]

/-! ### The sequencer's step -/

theorem sequencerTurn_of_busy {s : State} (h : s.busy = true) : sequencerTurn s = runPending s := if_pos h

theorem sequencerTurn_of_idle {s : State} (h : s.busy = false) : sequencerTurn s = .next s := if_neg (by simp [h])

theorem runPending_of_ok {s : State} {i : Instr} (h : decode s.pending = .ok i) : runPending s = exec i s := by
  unfold runPending; rw [h]

theorem runPending_of_error {s : State} {e : IllegalWord} (h : decode s.pending = .error e) :
    runPending s = .next (s.endErr .illegalCmd s.bitpos) := by
  unfold runPending; rw [h]; rfl

/-- The step after `withFetchWord` runs PENDING on the issued state. -/
theorem step_withFetchWord (s : State) (w : Nat) :
    step (s.withFetchWord 32 w) = runPending ((s.issue (BitVec.ofNat 32 w)).withAgenda s.agenda) := by
  have hw : BitVec.ofNat 32 (w % 2 ^ 32) = BitVec.ofNat 32 w := by apply BitVec.eq_of_toNat_eq; simp
  unfold State.withFetchWord
  rw [step_sequencer rfl, sequencerTurn_of_busy rfl, hw]
  rfl

/-- Settles O5: the sequencer's move and an empty agenda both run PENDING, which is `exec` of the decoded command or E_ILLEGAL_CMD. -/
theorem stepRunsThePendingCommand : Obligations.StepRunsThePendingCommand := by
  refine ⟨fun s i rest hb hd ha => ?_, fun s i hb hd ha => ?_, fun s e rest hb hd ha => ?_, fun s e hb hd ha => ?_, fun s w i hd => ?_,
    fun s w e hd => ?_⟩
  · rw [step_sequencer ha, sequencerTurn_of_busy (by exact hb)]
    exact runPending_of_ok hd
  · rw [step_idle ha, sequencerTurn_of_busy hb]
    exact runPending_of_ok hd
  · rw [step_sequencer ha, sequencerTurn_of_busy (by exact hb)]
    exact runPending_of_error hd
  · rw [step_idle ha, sequencerTurn_of_busy hb]
    exact runPending_of_error hd
  · rw [step_withFetchWord]
    exact runPending_of_ok hd
  · rw [step_withFetchWord]
    exact runPending_of_error hd

/-! ### The invariant under a command -/

/-- A command begins with ERRCODE 0 (44_control.md R190), so it ends with a STATUS the rules allow. -/
theorem exec_statusOk {i : Instr} {s t : State} (h : exec i s = .next t) (hcode : s.errcode = 0#4) : StatusOk t := by
  rcases everyCommandEndsDoneOrWithAnError i s t h with ⟨hbusy, ⟨hdone, herr, hkept, -⟩ | ⟨herr, hdone, hlo, hhi, -⟩⟩
  · rw [hcode] at hkept
    constructor <;> simp [hbusy, herr, hkept]
  · have hne : t.errcode ≠ 0#4 := fun h0 => by simp [h0] at hlo
    exact ⟨by simp [hdone], by simp [hbusy], by simp [hdone], fun _ => hne, hhi⟩

theorem Inv.exec {i : Instr} {s t : State} (hs : Inv machineConfig s) (hb : s.busy = true) (h : exec i s = .next t) :
    Inv machineConfig t := by
  obtain ⟨-, -, hcode⟩ := hs.status.busy hb
  obtain ⟨-, -, -, hlen, -⟩ := exec_next_inputs h
  exact ⟨exec_buffersOk h hs.buffers, exec_statusOk h hcode, hlen ▸ hs.bitlen⟩

section Moves

variable {c : Config} {s : State} (hs : Inv c s)
include hs

theorem Inv.endErr (e : Err) (p : BitPos) : Inv c (s.endErr e p) := by
  have hcode := e.code_bounds
  have hne : e.code ≠ 0#4 := fun h0 => by simp [h0] at hcode
  exact ⟨{ hs.buffers with }, ⟨by simp, by simp, by simp, fun _ => hne, hcode.2⟩, hs.bitlen⟩

theorem Inv.withAgenda (rest : List Turn) : Inv c (s.withAgenda rest) := ⟨{ hs.buffers with }, { hs.status with }, hs.bitlen⟩

/-! ### The invariant under a host access -/

theorem Inv.setOvr : Inv c s.setOvr := ⟨{ hs.buffers with }, { hs.status with }, hs.bitlen⟩

theorem Inv.setIe (b : Bool) : Inv c (s.setIe b) := ⟨{ hs.buffers with }, { hs.status with }, hs.bitlen⟩

theorem Inv.setBitpos (p : Nat) : Inv c (s.setBitpos p) := ⟨{ hs.buffers with }, { hs.status with }, hs.bitlen⟩

theorem Inv.issue (w : Word) : Inv c (s.issue w) :=
  ⟨{ hs.buffers with }, by constructor <;> simp, hs.bitlen⟩

/-- Clearing flags keeps every rule on STATUS: each speaks of flags that are set. -/
theorem Inv.ackStatus (v : Word) : Inv c (s.ackStatus v) := by
  obtain ⟨hboth, hbusy, hdone, herr, hcode⟩ := hs.status
  refine ⟨{ hs.buffers with }, ⟨?_, fun hb => ?_, fun hd => hdone ?_, fun he => herr ?_, hcode⟩, hs.bitlen⟩
  · simp only [State.ackStatus_done, State.ackStatus_err, Bool.and_eq_true]
    exact fun h => hboth ⟨h.1.1, h.2.1⟩
  · obtain ⟨hd, he, h0⟩ := hbusy hb
    simp [hd, he, h0]
  · exact (Bool.and_eq_true_iff.1 hd).1
  · exact (Bool.and_eq_true_iff.1 he).1

theorem Inv.setBitlen (v : Word) : Inv c (s.setBitlen c v) := by
  refine ⟨{ hs.buffers with }, { hs.status with }, ?_⟩
  rw [State.setBitlen_bitlen, BitVec.toNat_ofNat]
  exact le_trans (Nat.mod_le _ _) (Nat.min_le_right _ _)

theorem Inv.storeFb (a n v : Nat) : Inv c (s.storeFb c a n v) := by
  obtain ⟨hwf, hbelow⟩ := hs.buffers.fb
  exact ⟨{ hs.buffers with fb := ⟨Memory.wf_fbStore c hwf a n v, Memory.below_fbStore c hbelow a n v⟩ }, { hs.status with }, hs.bitlen⟩

theorem Inv.softReset : Inv c s.softReset := by
  have hbuffers : BuffersOk c s.abandon := by
    rcases abandon_cases s with h | ⟨i, -, -, h⟩ <;> rw [h]
    · exact hs.buffers
    · exact hs.buffers.drawOutputs i
  exact ⟨{ hbuffers with }, by constructor <;> simp [State.softReset], Nat.zero_le _⟩

theorem Inv.writeReg (g : Reg) (v : Word) : Inv c (writeReg c g v s) := by
  cases g <;> simp only [Machine.writeReg]
  case cmd => split_ifs; exacts [hs.setOvr, hs.issue v]
  case status => exact hs.ackStatus v
  case ctrl => split_ifs; exacts [hs.softReset, hs.setIe _]
  case bitpos => split_ifs; exacts [hs.setOvr, hs.setBitpos _]
  case bitlen => split_ifs; exacts [hs.setOvr, hs.setBitlen v]
  all_goals exact hs

theorem Inv.writeRegion (r : Region) (w : Width) (v : Word) : Inv c (writeRegion c r w v s) := by
  cases r <;> simp only [Machine.writeRegion]
  case reg g => exact hs.writeReg g v
  case fb a => split_ifs; exacts [hs.setOvr, hs.storeFb _ _ _]
  case aboveFb => split_ifs; exacts [hs.setOvr, hs]
  all_goals exact hs

theorem Inv.hostAccess {t : State} {op : HostOp} (h : hostAccess c op s = .next t) : Inv c t := by
  cases op with
  | read off w =>
    rw [hostRead_next h]
    exact ⟨{ hs.buffers with }, { hs.status with }, hs.bitlen⟩
  | write off w v =>
    obtain ⟨-, rfl⟩ := hostWrite_next h
    exact hs.writeRegion _ w v

end Moves

/-! ### The invariant under every step -/

theorem inv_powerOn (c : Config) (s : State) : Inv c (powerOn s) :=
  ⟨⟨⟨rfl, rfl⟩, ⟨rfl, rfl⟩, ⟨rfl, rfl⟩, ⟨rfl, rfl⟩, ⟨rfl, rfl⟩, ⟨rfl, rfl⟩⟩, by constructor <;> simp [powerOn, State.reset], Nat.zero_le _⟩

theorem Inv.sequencerTurn {s t : State} (hs : Inv machineConfig s) (h : sequencerTurn s = .next t) : Inv machineConfig t := by
  by_cases hb : s.busy = true
  · rw [sequencerTurn_of_busy hb] at h
    cases hd : decode s.pending with
    | ok i => exact hs.exec hb (runPending_of_ok hd ▸ h)
    | error e =>
      rw [runPending_of_error hd] at h
      cases h
      exact hs.endErr _ _
  · rw [sequencerTurn_of_idle (by simpa using hb)] at h
    cases h
    exact hs

/-- Settles O60: the case split follows the agenda, one lemma for each kind of move. -/
theorem everyStepKeepsTheInvariant : Obligations.EveryStepKeepsTheInvariant := by
  intro s t hs h
  cases ha : s.agenda with
  | nil => exact hs.sequencerTurn (step_idle ha ▸ h)
  | cons turn rest =>
    cases turn with
    | sequencer => exact (hs.withAgenda rest).sequencerTurn (step_sequencer ha ▸ h)
    | host op => exact (hs.withAgenda rest).hostAccess (step_host ha ▸ h)
    | powerOn =>
      rw [step_powerOn ha] at h
      cases h
      exact inv_powerOn _ _

/-! ### The range of a mantissa -/

theorem reference_huffNsym : ∀ t, 1 ≤ t → t < 8 → huffNsym referenceTables t ≤ 63 := by
  intro t h1 h8
  interval_cases t <;> decide

/-- A field of at most 6 bits as two's complement. -/
theorem sext_range {n v : Nat} (h1 : 1 ≤ n) (h6 : n ≤ 6) (hv : v < 2 ^ n) : -32 ≤ sext n v ∧ sext n v ≤ 31 := by
  rw [sext_eq h1 hv]
  interval_cases n <;> split_ifs <;> omega

theorem vlcValue_range {sym : Nat} (h : sym < 63) : -32 ≤ vlcValue sym ∧ vlcValue sym ≤ 31 := by
  unfold vlcValue
  split_ifs <;> omega

/-- The pairs of selector 1, whose field has 4 bits and whose table has 9 symbols. -/
theorem pairValues_range (mode : CodingMode) (raw : Nat) (h : codeOk referenceTables 1 mode raw = true) :
    ∀ v ∈ codeValues referenceTables 1 mode raw, -32 ≤ v ∧ v ≤ 31 := by
  cases mode with
  | clc =>
    have hraw : raw < 16 := of_decide_eq_true h
    interval_cases raw <;> decide
  | vlc =>
    have hraw : raw < 9 := of_decide_eq_true h
    interval_cases raw <;> decide

/-- Every mantissa of the reference tables lies in -32..31 (41_mantissa.md R125). -/
theorem ValueOk.range {sel : Nat} {mode : CodingMode} {v : Int} (h : ValueOk referenceTables sel mode v) (h1 : 1 ≤ sel) (h8 : sel < 8) :
    -32 ≤ v ∧ v ≤ 31 := by
  obtain ⟨raw, hraw, hv⟩ := h
  by_cases hpair : sel = 1
  · subst hpair
    exact pairValues_range mode raw hraw v hv
  cases mode with
  | clc =>
    have hwidth := reference_clcWidth sel h1 h8
    have hfield : raw < 2 ^ clcWidth referenceTables sel := of_decide_eq_true hraw
    obtain rfl : v = sext (clcWidth referenceTables sel) raw := by simpa [codeValues, hpair] using hv
    exact sext_range (by omega) hwidth.2 hfield
  | vlc =>
    have hnsym := reference_huffNsym sel h1 h8
    have hsym : raw < huffNsym referenceTables sel := of_decide_eq_true hraw
    obtain rfl : v = vlcValue raw := by simpa [codeValues, hpair] using hv
    exact vlcValue_range (by omega)

/-- The mantissas of a run of codes, and the 0 read past its end. -/
theorem mantValues_getD_range {sel : Nat} {mode : CodingMode} {codes : List Nat} (h1 : 1 ≤ sel) (h8 : sel < 8)
    (hc : ∀ raw ∈ codes, codeOk referenceTables sel mode raw = true) (k : Nat) :
    -32 ≤ (mantValues referenceTables sel mode codes).getD k 0 ∧ (mantValues referenceTables sel mode codes).getD k 0 ≤ 31 := by
  rw [List.getD_eq_getElem?_getD]
  cases hk : (mantValues referenceTables sel mode codes)[k]? with
  | none => decide
  | some v =>
    obtain ⟨raw, hraw, hv⟩ := List.mem_flatMap.1 (List.mem_of_getElem? hk)
    exact ValueOk.range ⟨raw, hc raw hraw, hv⟩ h1 h8

/-! ### What a successful SPECTRUM leaves -/

/-- A command that ends with DONE had a value of its pseudocode. -/
theorem exec_next_done {i : Instr} {s t : State} (h : exec i s = .next t) (hd : t.done = true) :
    ∃ v u, commandBody machineConfig i s = .ok v u ∧ t = u.endOk v := by
  rcases exec_next_cases i s t h with ⟨-, rfl⟩ | ⟨-, hok | ⟨e, p, u, -, rfl⟩⟩
  · cases hd
  · exact hok
  · obtain ⟨-, hdone, -⟩ := (takeError_same machineConfig i e p u).registers
    rw [hdone] at hd
    cases hd

/-- A SPECTRUM that ends with DONE leaves a spectral block in QM, SEL and SFI, and its NSB in SPECINFO and RESULT. -/
theorem spectrum_done_holds {s t : State} (h : exec .spectrum s = .next t) (hd : t.done = true) :
    ∃ b : SpectralBlock, b.ok referenceTables = true ∧ holdsSpectrum referenceTables t b ∧
      t.nsb = BitVec.ofNat 5 (b.bands.length - 1) ∧ t.result = BitVec.ofNat 32 (b.bands.length - 1) := by
  obtain ⟨v, u, hbody, rfl⟩ := exec_next_done h hd
  have hbody : spectrumBody machineConfig s = .ok v u := hbody
  obtain ⟨b, hb, hon⟩ := spectrumBody_ok rfl rfl hbody
  obtain ⟨u', hspelled, hholds, hu'⟩ := spectrumBody_spelled (c := machineConfig) rfl rfl hb hon
  rw [hbody] at hspelled
  obtain ⟨rfl, rfl⟩ := Res.ok.inj hspelled
  exact ⟨b, hb, hholds, by rw [State.endOk_nsb, hu'], rfl⟩

/-- The subbands tile the lines below the start of subband `n`. -/
theorem exists_subband {n j : Nat} (hj : j < subbandStart referenceTables n) :
    ∃ i, i < n ∧ subbandStart referenceTables i ≤ j ∧ j < subbandStart referenceTables (i + 1) := by
  induction n with
  | zero => exact absurd hj (Nat.not_lt_zero j)
  | succ n ih =>
    by_cases hn : j < subbandStart referenceTables n
    · obtain ⟨i, hi, hlo, hhi⟩ := ih hn
      exact ⟨i, by omega, hlo, hhi⟩
    · exact ⟨n, by omega, by omega, hj⟩

/-- A present subband that is not coded has index 0 and no mantissas; one that is coded has mantissas of its selector. -/
theorem Band.ok_cases {T : Tables} {mode : CodingMode} {i : Nat} {b : Band} (h : b.ok T mode i = true) :
    (b.sel = 0 ∧ b.sfi = 0 ∧ b.codes = []) ∨
    (1 ≤ b.sel ∧ b.sel < 8 ∧ b.sfi < 64 ∧ ∀ raw ∈ b.codes, codeOk T b.sel mode raw = true) := by
  unfold Band.ok at h
  split_ifs at h with h0 <;> simp only [Bool.and_eq_true, decide_eq_true_eq, List.all_eq_true] at h
  · exact .inl ⟨h0, h⟩
  · obtain ⟨⟨⟨h8, h64⟩, -⟩, hcodes⟩ := h
    exact .inr ⟨by omega, h8, h64, hcodes⟩

/-- The mantissas of a subband, coded or not, as QM holds them. -/
theorem Band.mantissa_range {mode : CodingMode} {i : Nat} {b : Band} (h : b.ok referenceTables mode i = true) (k : Nat) :
    -32 ≤ (mantValues referenceTables b.sel mode b.codes).getD k 0 ∧ (mantValues referenceTables b.sel mode b.codes).getD k 0 ≤ 31 := by
  rcases Band.ok_cases h with ⟨-, -, hnone⟩ | ⟨h1, h8, -, hcodes⟩
  · simp [hnone, mantValues]
  · exact mantValues_getD_range h1 h8 hcodes k

/-- The band of subband `i` in a well-formed block. -/
theorem blockOk_band {b : SpectralBlock} (hb : b.ok referenceTables = true) {i : Nat} (hi : i < b.bands.length) :
    b.bands[i].ok referenceTables b.mode i = true := by
  obtain ⟨-, -, hok⟩ := blockOk_spec hb
  simpa using bandsOk_at hok (List.getElem?_eq_getElem hi)

/-- The lines of a present subband hold its mantissas. -/
theorem holdsSpectrum_line {t : State} {b : SpectralBlock} (ht : holdsSpectrum referenceTables t b) {i j : Nat} (hi : i < b.bands.length)
    (hlo : subbandStart referenceTables i ≤ j) (hhi : j < subbandStart referenceTables (i + 1)) : t.qm.read j =
      some (wordOfInt ((mantValues referenceTables b.bands[i].sel b.mode b.bands[i].codes).getD (j - subbandStart referenceTables i) 0)) := by
  obtain ⟨hbands, -, -⟩ := ht
  obtain ⟨-, -, hlines⟩ := hbands i hi
  have hline := hlines (j - subbandStart referenceTables i) (by unfold subbandWidth; omega)
  rwa [Nat.add_sub_cancel' hlo] at hline

section Held

variable {t : State} {b : SpectralBlock} (hb : b.ok referenceTables = true) (ht : holdsSpectrum referenceTables t b)
include hb ht

/-- Every line is written with a mantissa: of the subband it lies in, or the 0 of the lines above the block. -/
theorem holdsSpectrum_qm_range {j : Nat} (hj : j < 1024) : ∃ v : Int, -32 ≤ v ∧ v ≤ 31 ∧ t.qm.read j = some (BitVec.ofInt 32 v) := by
  by_cases hend : j < subbandStart referenceTables b.bands.length
  · obtain ⟨i, hi, hlo, hhi⟩ := exists_subband hend
    obtain ⟨hmin, hmax⟩ := Band.mantissa_range (blockOk_band hb hi) (j - subbandStart referenceTables i)
    exact ⟨_, hmin, hmax, holdsSpectrum_line ht hi hlo hhi⟩
  · obtain ⟨-, -, habove⟩ := ht
    exact ⟨0, by decide, by decide, habove j (by omega) hj⟩

/-- SEL and SFI of subband `i`: those of its band, whose lines are 0 where it is not coded, or 0 above the block. -/
theorem holdsSpectrum_side {i : Nat} (hi : i < 32) : ∃ sel sfi : Nat, sel < 8 ∧ sfi < 64 ∧
    t.sel.read i = some (BitVec.ofNat 32 sel) ∧ t.sfi.read i = some (BitVec.ofNat 32 sfi) ∧
    (sel = 0 → sfi = 0 ∧ ∀ j, subbandStart referenceTables i ≤ j → j < subbandStart referenceTables (i + 1) → t.qm.read j = some 0#32) ∧
    (b.bands.length ≤ i → sel = 0) := by
  by_cases hpresent : i < b.bands.length
  · obtain ⟨hsel, hsfi, -⟩ := ht.1 i hpresent
    rcases Band.ok_cases (blockOk_band hb hpresent) with ⟨h0, hsfi0, hnone⟩ | ⟨h1, h8, h64, -⟩
    · refine ⟨_, _, by omega, by omega, hsel, hsfi, fun _ => ⟨hsfi0, fun j hlo hhi => ?_⟩, fun h => by omega⟩
      rw [holdsSpectrum_line ht hpresent hlo hhi, hnone]
      rfl
    · exact ⟨_, _, h8, h64, hsel, hsfi, fun h0 => by omega, fun h => by omega⟩
  · obtain ⟨-, hside, habove⟩ := ht
    obtain ⟨hsel, hsfi⟩ := hside i (by omega) hi
    have hstart := subbandStart_mono (i := b.bands.length) (j := i) (by omega) (by omega)
    have hstop := (reference_subbandsOk i hi).2
    exact ⟨0, 0, by decide, by decide, hsel, hsfi, fun _ => ⟨rfl, fun j hlo hhi => habove j (by omega) (by omega)⟩, fun _ => rfl⟩

end Held

/-- Settles O33: a successful SPECTRUM leaves a well-formed block, whose fields are in their ranges. -/
theorem spectrumOutputsAreWrittenAndInRange : Obligations.SpectrumOutputsAreWrittenAndInRange := by
  intro s t h hd
  obtain ⟨b, hb, hholds, hnsb, hresult⟩ := spectrum_done_holds h hd
  obtain ⟨h1, h32, -⟩ := blockOk_spec hb
  have hcount : t.nsb.toNat = b.bands.length - 1 := by rw [hnsb, BitVec.toNat_ofNat]; omega
  refine ⟨by rw [hcount, hresult, BitVec.toNat_ofNat]; omega, fun j hj => holdsSpectrum_qm_range hb hholds hj, fun i hi => ?_⟩
  obtain ⟨sel, sfi, h8, h64, hsel, hsfi, hzero, habove⟩ := holdsSpectrum_side hb hholds hi
  exact ⟨sel, sfi, h8, h64, hsel, hsfi, hzero, fun hlt => habove (by omega)⟩

end Sys2Proof.Machine
end

section
/-! SUPPORT. The host window as the host sees it (20_memory.md R51 to R68): what an access that breaks no rule does, what no command and no
access while BUSY = 1 changes, and the bytes and bits a read returns. -/

namespace Sys2Proof.Machine

/-! ### What no command writes -/

/-- What the draws for an aborted command leave alone beside the registers (20_memory.md R51). -/
theorem SameButOutputs.inputs {s t : State} (h : SameButOutputs s t) :
    t.fb = s.fb ∧ t.pending = s.pending ∧ t.ovr = s.ovr ∧ t.rdata = s.rdata ∧ t.agenda = s.agenda := by
  rw [h]
  exact ⟨rfl, rfl, rfl, rfl, rfl⟩

/-- Settles O22: no part of a command writes them, and neither ending does. -/
theorem noCommandWritesItsInputs : Obligations.NoCommandWritesItsInputs := by
  intro i s t h
  obtain ⟨u, hu, ⟨v, rfl⟩ | ⟨e, p, ht⟩⟩ := exec_next_ended h
  · exact ⟨hu.fb, hu.bitlen, hu.ie, hu.pending, hu.ovr, hu.rdata, hu.agenda⟩
  · obtain ⟨hfb, hpending, hovr, hrdata, hagenda⟩ := ht.inputs
    obtain ⟨-, -, -, -, -, -, hlen, hie⟩ := ht.registers
    exact ⟨hfb.trans hu.fb, hlen.trans hu.bitlen, hie.trans hu.ie, hpending.trans hu.pending, hovr.trans hu.ovr, hrdata.trans hu.rdata,
      hagenda.trans hu.agenda⟩

/-! ### Accesses that break no rule, and those that do -/

/-- A read that breaks no rule is that of its region. -/
theorem step_read {s : State} {off : Nat} {w : Width} {rest : List Turn} (h : s.agenda = .host (.read off w) :: rest)
    (hf : accessFault machineConfig off w = none) :
    step s = readRegion machineConfig (regionOf machineConfig off) w (s.withAgenda rest) := by
  rw [step_host h, hostAccess, hf]

/-- A write that breaks no rule is that of its region. -/
theorem step_write {s : State} {off : Nat} {w : Width} {v : Word} {rest : List Turn} (h : s.agenda = .host (.write off w v) :: rest)
    (hf : accessFault machineConfig off w = none) :
    step s = .next (writeRegion machineConfig (regionOf machineConfig off) w v (s.withAgenda rest)) := by
  rw [step_host h, hostAccess, hf]

/-- An access that breaks a rule stops the run. -/
theorem step_violation {s : State} {op : HostOp} {rest : List Turn} {off : Nat} {w : Width} {f : Fault} (h : s.agenda = .host op :: rest)
    (hop : op = .read off w ∨ ∃ v, op = .write off w v) (hf : accessFault machineConfig off w = some f) : step s = .fault f := by
  rcases hop with rfl | ⟨v, rfl⟩ <;> rw [step_host h, hostAccess, hf]

/-- The accesses that break no rule (20_memory.md R58, R59; log 17). -/
theorem accessFault_eq_none {off : Nat} {w : Width} (h8 : off < 0x8000) (ha : off % w.bytes = 0)
    (hw : w = .w32 ∨ ¬(off < 0x24 ∨ (0x4000 ≤ off ∧ off < 0x5300) ∨ (0x6000 ≤ off ∧ off < 0x7000))) :
    accessFault machineConfig off w = none := by
  rw [Option.eq_none_iff_forall_ne_some]
  intro f hf
  rcases (accessFault_iff machine_frameBytes.2 off w).1 ⟨f, hf⟩ with h | h | ⟨h32, hn⟩
  · omega
  · exact h ha
  · exact hw.elim h32 fun h => h hn

/-- A violation of the protocol is not the fault of a read of an entry never written (60_exceptions.md R224 lists them apart). -/
theorem accessFault_ne_unwritten (c : Config) (off : Nat) (w : Width) : accessFault c off w ≠ some .hostReadUnwritten := by
  unfold accessFault
  split_ifs <;> simp

theorem readOutput_fault {s : State} {v : Option Word} {f : Fault} (h : readOutput s v = .fault f) : f = .hostReadUnwritten := by
  cases v with
  | none => cases h; rfl
  | some x =>
    simp only [readOutput] at h
    split_ifs at h

/-- A read that breaks no rule stops the run only at an entry never written (60_exceptions.md R224). -/
theorem readRegion_fault {c : Config} {r : Region} {w : Width} {s : State} {f : Fault} (h : readRegion c r w s = .fault f) :
    f = .hostReadUnwritten := by
  cases r <;> simp only [readRegion] at h
  case reg g => split_ifs at h
  case fb a =>
    split at h
    · cases h
    · cases h; rfl
  case qm | sel | sfi | mbuf | tc => exact readOutput_fault h
  all_goals cases h

/-- Settles O54: the violations are `accessFault`'s; what breaks no rule is a write that goes on, or a read with no other fault than that of
an entry never written. -/
theorem protocolViolationsStopTheRun : Obligations.ProtocolViolationsStopTheRun := by
  refine ⟨fun s off w v rest ha => ?_, fun s off w rest ha => ?_⟩ <;> rw [← accessFault_iff machine_frameBytes.2]
  · cases hf : accessFault machineConfig off w with
    | none => simp [step_write ha hf]
    | some f => simp [step_violation ha (.inr ⟨v, rfl⟩) hf]
  · cases hf : accessFault machineConfig off w with
    | none =>
      rw [step_read ha hf]
      exact ⟨fun ⟨f, hne, h⟩ => absurd (readRegion_fault h) hne, fun ⟨f, h⟩ => nomatch h⟩
    | some f =>
      rw [step_violation ha (.inl rfl) hf]
      exact ⟨fun _ => ⟨f, rfl⟩, fun _ => ⟨f, fun h => accessFault_ne_unwritten _ _ _ (h ▸ hf), rfl⟩⟩

/-! ### The bytes of an access to FB -/

theorem Width.bytes_le (w : Width) : w.bytes ≤ 4 := by cases w <;> decide

/-- Byte `k` of a word (20_memory.md R55). -/
theorem extractLsb'_byte (v : Word) (k : Nat) : v.extractLsb' (8 * k) 8 = BitVec.ofNat 8 (v.toNat / 256 ^ k) := by
  rw [BitVec.extractLsb', Nat.shiftRight_eq_div_pow, pow_mul, show 2 ^ 8 = 256 from rfl]

/-- Settles O51: the store is `fbStore`'s, byte by byte. -/
theorem frameBufferWriteStoresLittleEndian : Obligations.FrameBufferWriteStoresLittleEndian := by
  intro s a w v rest hb ha hal hag
  obtain ⟨hf, hr⟩ := access_fb machine_frameBytes.2 ha hal
  refine ⟨fbStore machineConfig a w.bytes v.toNat s.fb, ?_, fun b => ?_⟩
  · rw [step_write hag hf, hr, writeRegion, if_neg (by simp [hb])]
    rfl
  · rw [fbStore_read, extractLsb'_byte]

/-- Settles O52: the load is `fbLoad`'s, byte by byte; it has no bit above the width. -/
theorem frameBufferReadReturnsLittleEndian : Obligations.FrameBufferReadReturnsLittleEndian := by
  intro s a w rest ha hal hag
  obtain ⟨hf, hr⟩ := access_fb machine_frameBytes.2 ha hal
  obtain ⟨hwritten, hunwritten⟩ := fbLoad_bytes machineConfig (s.withAgenda rest) w.bytes a
  rw [step_read hag hf, hr]
  simp only [readRegion]
  refine ⟨fun h => ?_, fun h => by rw [hunwritten h]⟩
  obtain ⟨v, hload, hlt, hbytes⟩ := hwritten h
  refine ⟨wordOfNat v, by rw [hload]; rfl, fun k hk => ?_⟩
  have hle : 256 ^ w.bytes ≤ 256 ^ 4 := Nat.pow_le_pow_right (by decide) w.bytes_le
  rw [extractLsb'_byte, wordOfNat, BitVec.toNat_ofNat, Nat.mod_eq_of_lt (by omega)]
  apply BitVec.eq_of_toNat_eq
  by_cases hkw : k < w.bytes
  · rw [BitVec.toNat_ofNat, hbytes k hkw]
    simp only [hkw, true_and]
    split_ifs <;> rfl
  · have hpow : 256 ^ w.bytes ≤ 256 ^ k := Nat.pow_le_pow_right (by decide) (by omega)
    rw [if_neg (fun h => hkw h.1), Nat.div_eq_of_lt (by omega)]

/-! ### Output words -/

/-- A read of an output word, whether it has been written or not. -/
theorem step_read_output {s : State} {off : Nat} {rest : List Turn} {v : Option Word} (h : s.agenda = .host (.read off .w32) :: rest)
    (ho : OutputAt s off v) : step s = readOutput (s.withAgenda rest) v := by
  obtain ⟨h4, -, h8, hread⟩ := outputAt_read ho
  rw [step_read h (accessFault_w32 h8 h4), hread (s.withAgenda rest) rfl rfl rfl rfl rfl]

/-- Settles O53: `readOutput` of what the buffers hold. -/
theorem outputReadsReturnTheStoredWord : Obligations.OutputReadsReturnTheStoredWord := by
  intro s off rest v hag ho
  rw [step_read_output hag ho]
  refine ⟨fun x hx hb => ?_, fun hv => by rw [hv]; rfl⟩
  rw [hx, readOutput, if_neg (by simp [hb])]
  rfl

/-! ### Reserved offsets -/

/-- A write from the output buffers on changes nothing (20_memory.md R56, R57, 44_control.md R198). -/
theorem writeRegion_outputs {c : Config} (hc : c.maxFrameBytes ≤ 8192) {off : Nat} (h : 0x4000 ≤ off) (w : Width) (v : Word) (s : State) :
    writeRegion c (regionOf c off) w v s = s := by
  rw [regionOf_outputs hc h]
  split_ifs <;> rfl

/-- So does a write to a reserved offset below them, but where R192 names the offset and is in force (log 18). -/
theorem writeRegion_reserved {c : Config} (hc : c.maxFrameBytes ≤ 8192) {off : Nat} {s : State}
    (h : (0x24 ≤ off ∧ off < 0x1000) ∨ (0x1000 + c.maxFrameBytes ≤ off ∧ off < 0x4000 ∧ (0x3000 ≤ off ∨ s.busy = false)))
    (w : Width) (v : Word) : writeRegion c (regionOf c off) w v s = s := by
  rcases regionOf_reserved hc (off := off) (by omega) with hr | hr | ⟨hr, hlo, h3⟩ <;> rw [hr, writeRegion]
  have hb : s.busy = false := by
    rcases h with h | ⟨-, -, h | h⟩
    · omega
    · omega
    · exact h
  rw [if_neg (by simp [hb])]

/-- A read of a reserved offset returns 0. -/
theorem readRegion_reserved {c : Config} (hc : c.maxFrameBytes ≤ 8192) {off : Nat}
    (h : (0x24 ≤ off ∧ off < 0x1000) ∨ (0x1000 + c.maxFrameBytes ≤ off ∧ off < 0x4000) ∨ (0x5300 ≤ off ∧ off < 0x6000) ∨
      (0x6000 ≤ off ∧ off < 0x7000 ∧ 0x30 ≤ off % 64) ∨ (0x7000 ≤ off ∧ off < 0x8000))
    (w : Width) (s : State) : readRegion c (regionOf c off) w s = .next (s.setRdata 0#32) := by
  rcases regionOf_reserved hc h with hr | hr | ⟨hr, -, -⟩ <;> rw [hr, readRegion]

/-- A write that breaks no rule and whose region ignores it takes its move off the agenda and does nothing else. -/
theorem step_write_ignored {s : State} {off : Nat} {w : Width} {v : Word} {rest : List Turn} (h : s.agenda = .host (.write off w v) :: rest)
    (hf : accessFault machineConfig off w = none)
    (hw : writeRegion machineConfig (regionOf machineConfig off) w v (s.withAgenda rest) = s.withAgenda rest) :
    step s = .next (s.withAgenda rest) := by
  rw [step_write h hf, hw]

/-- The read-only registers RESULT, SPECINFO, TCCOUNT and ERRPOS (10_state.md R24, R30 to R33): commands write them, so that their reads
while BUSY = 1 are draws, and host writes do not (log 19). -/
theorem readOnly_offset {off : Nat} (h4 : off % 4 = 0) (hlo : 0x014 ≤ off) (hhi : off < 0x024) :
    ∃ r : Reg, off = r.offset ∧ r.drawnWhileBusy = true ∧ ∀ c v s, writeReg c r v s = s := by
  obtain rfl | rfl | rfl | rfl : off = 0x014 ∨ off = 0x018 ∨ off = 0x01C ∨ off = 0x020 := by omega
  · exact ⟨.result, rfl, rfl, fun _ _ _ => rfl⟩
  · exact ⟨.specinfo, rfl, rfl, fun _ _ _ => rfl⟩
  · exact ⟨.tccount, rfl, rfl, fun _ _ _ => rfl⟩
  · exact ⟨.errpos, rfl, rfl, fun _ _ _ => rfl⟩

/-- A write of a read-only register changes nothing (log 19). -/
theorem step_write_readOnly {s : State} {off : Nat} {v : Word} {rest : List Turn} (h : s.agenda = .host (.write off .w32 v) :: rest)
    (h4 : off % 4 = 0) (hlo : 0x014 ≤ off) (hhi : off < 0x024) : step s = .next (s.withAgenda rest) := by
  obtain ⟨r, rfl, -, hignored⟩ := readOnly_offset h4 hlo hhi
  rw [step_host h, hostWrite_reg, hignored]

/-- Settles O55: by region; the ranges that take every width are outside those that take 32 bits only. -/
theorem reservedOffsetsReadZeroAndIgnoreWrites : Obligations.ReservedOffsetsReadZeroAndIgnoreWrites := by
  have hc := machine_frameBytes.2
  refine ⟨fun s off w rest hag hal h => ?_, fun s off w v rest hag hal h => ?_⟩
  · have hf : accessFault machineConfig off w = none := by
      rcases h with h | h | h | ⟨hlo, hhi, -, hw⟩ | h
      case inr.inr.inr.inl => exact accessFault_eq_none (by omega) hal (.inl hw)
      all_goals exact accessFault_eq_none (by omega) hal (.inr (by omega))
    rw [step_read hag hf, readRegion_reserved hc (by tauto)]
    rfl
  · rcases h with h | h | h | h | ⟨hlo, hhi, hw⟩ | ⟨hlo, hhi, rfl⟩
    · exact step_write_ignored hag (accessFault_eq_none (by omega) hal (.inr (by omega))) (writeRegion_reserved hc (.inl h) _ _)
    · exact step_write_ignored hag (accessFault_eq_none (by omega) hal (.inr (by omega)))
        (writeRegion_reserved hc (s := s.withAgenda rest) (.inr h) _ _)
    · exact step_write_ignored hag (accessFault_eq_none (by omega) hal (.inr (by omega))) (writeRegion_outputs hc (by omega) _ _ _)
    · exact step_write_ignored hag (accessFault_eq_none (by omega) hal (.inr (by omega))) (writeRegion_outputs hc (by omega) _ _ _)
    · exact step_write_ignored hag (accessFault_eq_none hhi hal (.inl hw)) (writeRegion_outputs hc hlo _ _ _)
    · exact step_write_readOnly hag hal hlo hhi

/-! ### What reads and accesses while BUSY = 1 leave alone -/

/-- Settles O56: a read that goes on writes what the host has read and the counter of draws, whatever its region. -/
theorem hostReadsHaveNoSideEffect : Obligations.HostReadsHaveNoSideEffect := by
  intro s t off w rest hag h
  rw [step_host hag] at h
  exact hostRead_next h

/-- `t` has the inputs of the pending command as `s` has them (20_memory.md R64), and is as busy. -/
def InputsKept (s t : State) : Prop :=
  t.fb = s.fb ∧ t.pending = s.pending ∧ t.bitpos = s.bitpos ∧ t.bitlen = s.bitlen ∧ t.busy = s.busy

theorem InputsKept.refl (s : State) : InputsKept s s := ⟨rfl, rfl, rfl, rfl, rfl⟩

theorem inputsKept_setOvr (s : State) : InputsKept s s.setOvr := ⟨rfl, rfl, rfl, rfl, rfl⟩

theorem softReset_fb_pending (s : State) : s.softReset.fb = s.fb ∧ s.softReset.pending = s.pending := by
  rw [State.softReset, State.clearRegisters_fb, State.clearRegisters_pending]
  rcases abandon_cases s with h | ⟨i, -, -, h⟩ <;> rw [h]
  · exact ⟨rfl, rfl⟩
  · obtain ⟨hfb, hpending, -⟩ := (drawOutputs_same s i).inputs
    exact ⟨hfb, hpending⟩

/-- A write of a register while BUSY = 1 keeps the inputs, but for a soft reset (44_control.md R191 to R197). -/
theorem writeReg_busy (c : Config) (g : Reg) (v : Word) {s : State} (hb : s.busy = true) :
    InputsKept s (writeReg c g v s) ∨ (g = .ctrl ∧ v.getLsbD 1 = true ∧ writeReg c g v s = s.softReset) := by
  cases g <;> simp only [writeReg]
  case cmd | bitpos | bitlen => rw [if_pos hb]; exact .inl (inputsKept_setOvr s)
  case status => exact .inl ⟨rfl, rfl, rfl, rfl, rfl⟩
  case ctrl =>
    split_ifs with hv
    · exact .inr ⟨trivial, hv, rfl⟩
    · exact .inl ⟨rfl, rfl, rfl, rfl, rfl⟩
  all_goals exact .inl (.refl s)

/-- So does a write anywhere in the window. -/
theorem writeRegion_busy (c : Config) (r : Region) (w : Width) (v : Word) {s : State} (hb : s.busy = true) :
    InputsKept s (writeRegion c r w v s) ∨ (r = .reg .ctrl ∧ v.getLsbD 1 = true ∧ writeRegion c r w v s = s.softReset) := by
  cases r <;> simp only [writeRegion]
  case reg g => simpa only [Region.reg.injEq] using writeReg_busy c g v hb
  case fb | aboveFb => rw [if_pos hb]; exact .inl (inputsKept_setOvr s)
  all_goals exact .inl (.refl s)

/-- Settles O57: a read changes no input, a write keeps them but for a soft reset, and CTRL is written at its own offset only. -/
theorem inputsAreFrozenWhileBusy : Obligations.InputsAreFrozenWhileBusy := by
  intro s t op rest hb hag h
  rw [step_host hag] at h
  cases op with
  | read off w =>
    rw [hostRead_next h]
    exact ⟨rfl, rfl, .inl ⟨rfl, rfl, hb⟩⟩
  | write off w v =>
    obtain ⟨hf, rfl⟩ := hostWrite_next h
    rcases writeRegion_busy machineConfig (regionOf machineConfig off) w v (s := s.withAgenda rest) hb with
      ⟨hfb, hpending, hpos, hlen, hbusy⟩ | ⟨hr, hv, hreset⟩
    · exact ⟨hfb, hpending, .inl ⟨hpos, hlen, hbusy.trans hb⟩⟩
    · obtain ⟨rfl, rfl⟩ := regionOf_reg hf hr
      obtain ⟨hfb, hpending⟩ := softReset_fb_pending (s.withAgenda rest)
      rw [hreset]
      exact ⟨hfb, hpending, .inr ⟨v, hv, rfl⟩⟩

/-! ### The bits of the registers -/

/-- STATUS bit by bit (10_state.md R26). -/
theorem statusWord_getLsbD (s : State) (i : Nat) : (statusWord s).getLsbD i =
    if i = 0 then s.busy else if i = 1 then s.done else if i = 2 then s.err else if i = 3 then s.ovr else s.errcode.getLsbD (i - 4) := by
  have h : (statusWord s).getLsbD i = (((((0#24 ++ s.errcode).concat s.ovr).concat s.err).concat s.done).concat s.busy).getLsbD i := rfl
  rw [h, BitVec.getLsbD_concat, BitVec.getLsbD_concat, BitVec.getLsbD_concat, BitVec.getLsbD_concat, BitVec.getLsbD_append]
  obtain _ | _ | _ | _ | i := i
  · rfl
  · rfl
  · rfl
  · rfl
  · simpa using BitVec.lt_of_getLsbD

/-- The fields of STATUS at their bits. -/
theorem statusWord_bits (s : State) : (statusWord s).getLsbD 0 = s.busy ∧ (statusWord s).getLsbD 1 = s.done ∧ (statusWord s).getLsbD 2 = s.err ∧
    (statusWord s).getLsbD 3 = s.ovr ∧ (statusWord s).extractLsb' 4 4 = s.errcode ∧ (statusWord s).extractLsb' 8 24 = 0#24 := by
  have high (i : Nat) : (statusWord s).getLsbD (4 + i) = s.errcode.getLsbD i := by
    rw [statusWord_getLsbD, if_neg (by omega), if_neg (by omega), if_neg (by omega), if_neg (by omega), Nat.add_sub_cancel_left]
  refine ⟨statusWord_getLsbD s 0, statusWord_getLsbD s 1, statusWord_getLsbD s 2, statusWord_getLsbD s 3,
    BitVec.eq_of_getLsbD_eq fun i hi => ?_, BitVec.eq_of_getLsbD_eq fun i hi => ?_⟩
  · simp [high, hi]
  · rw [BitVec.getLsbD_extractLsb', show 8 + i = 4 + (4 + i) by omega, high, BitVec.getLsbD_of_ge _ _ (by omega)]
    simp

/-- The field of CTRL at its bit (10_state.md R27). -/
theorem ctrlWord_bits (s : State) : (ctrlWord s).getLsbD 0 = s.ie ∧ (ctrlWord s).extractLsb' 1 31 = 0#31 := by
  have h (i : Nat) : (ctrlWord s).getLsbD i = ((0#31).concat s.ie).getLsbD i := rfl
  refine ⟨by rw [h, BitVec.getLsbD_concat, if_pos rfl], BitVec.eq_of_getLsbD_eq fun i hi => ?_⟩
  rw [BitVec.getLsbD_extractLsb', h, BitVec.getLsbD_concat, if_neg (by omega)]
  simp

/-- A position in the low 17 bits of its register. -/
theorem setWidth_bits (p : BitPos) : (p.setWidth 32).extractLsb' 0 17 = p ∧ (p.setWidth 32).extractLsb' 17 15 = 0#15 := by
  refine ⟨BitVec.eq_of_getLsbD_eq fun i hi => ?_, BitVec.eq_of_getLsbD_eq fun i hi => ?_⟩
  · rw [BitVec.getLsbD_extractLsb', BitVec.getLsbD_setWidth, Nat.zero_add]
    simp [hi, show i < 32 by omega]
  · rw [BitVec.getLsbD_extractLsb', BitVec.getLsbD_setWidth, BitVec.getLsbD_of_ge _ _ (by omega)]
    simp

/-- A 32-bit read of a register while BUSY = 1 (44_control.md R196; log 13). -/
theorem step_read_reg_busy {s : State} (r : Reg) {rest : List Turn} (hb : s.busy = true) (h : s.agenda = .host (.read r.offset .w32) :: rest) :
    step s = if r.drawnWhileBusy then .next (s.withAgenda rest).drawRdata
      else .next ((s.withAgenda rest).setRdata (regWord (s.withAgenda rest) r)) := by
  rw [step_host h, hostRead_reg, show (s.withAgenda rest).busy = true from hb, Bool.true_and]

/-- Settles O50: a read while BUSY = 1 is a draw for the registers a command writes and for the written output words, and the register's
value for the others. -/
theorem busyReadsReturnADraw : Obligations.BusyReadsReturnADraw := by
  intro s off rest hb hag h4
  refine ⟨fun h => ?_, fun h => ?_, fun h => ?_, fun h => ?_, fun h => ?_⟩
  · rcases h with h | ⟨hlo, hhi⟩ | ⟨x, ho⟩
    · subst h; exact step_read_reg_busy .bitpos hb hag
    · obtain ⟨r, rfl, hdrawn, -⟩ := readOnly_offset h4 hlo (by omega)
      exact (step_read_reg_busy r hb hag).trans (if_pos hdrawn)
    · rw [step_read_output hag ho, readOutput, if_pos (by exact hb)]
      rfl
  · subst h; exact step_read_reg_busy .cmd hb hag
  · subst h
    obtain ⟨hbusy, hbits⟩ := statusWord_bits s
    exact ⟨_, step_read_reg_busy .status hb hag, hbusy.trans hb, hbits⟩
  · subst h; exact ⟨_, step_read_reg_busy .ctrl hb hag, ctrlWord_bits s⟩
  · subst h; exact ⟨_, step_read_reg_busy .bitlen hb hag, setWidth_bits s.bitlen⟩

end Sys2Proof.Machine
end

section
/-! SUPPORT. The command word: the decoder and the encoder as inverses (30_encoding.md R70 to R73), and the illegal words (R90). -/

namespace Sys2Proof

/-! ### The word of a command -/

/-- The field of `n` bits from bit `lo` on (30_encoding.md R73) as a number. -/
theorem extractLsb'_eq_iff (w : Word) (lo n : Nat) (b : BitVec n) : w.extractLsb' lo n = b ↔ w.toNat / 2 ^ lo % 2 ^ n = b.toNat := by
  rw [← BitVec.toNat_inj, BitVec.extractLsb'_toNat, Nat.shiftRight_eq_div_pow]

/-- The word of each command by its row's match and its fields (30_encoding.md R72, R73). -/
theorem eq_encode_rdbits (w : Word) (n : BitVec 6) : w = encode (.rdbits n) ↔ w.toNat / 64 = 0x400000 ∧ w.extractLsb' 0 6 = n := by
  rw [← BitVec.toNat_inj, encode_rdbits, extractLsb'_eq_iff]
  have := n.isLt
  omega

theorem eq_encode_rdsbits (w : Word) (n : BitVec 6) : w = encode (.rdsbits n) ↔ w.toNat / 64 = 0x800000 ∧ w.extractLsb' 0 6 = n := by
  rw [← BitVec.toNat_inj, encode_rdsbits, extractLsb'_eq_iff]
  have := n.isLt
  omega

theorem eq_encode_rdbit (w : Word) : w = encode .rdbit ↔ w.toNat = 0x30000000 := BitVec.toNat_inj.symm

theorem eq_encode_huff (w : Word) (t : BitVec 3) : w = encode (.huff t) ↔ w.toNat / 8 = 0x8000000 ∧ w.extractLsb' 0 3 = t := by
  rw [← BitVec.toNat_inj, encode_huff, extractLsb'_eq_iff]
  have := t.isLt
  omega

theorem ofField_eq_iff (v : Nat) (mode : CodingMode) : CodingMode.ofField v = mode ↔ v % 2 = mode.bit.toNat := by
  refine ⟨fun h => h ▸ (ofField_bit v).symm, fun h => ?_⟩
  cases mode <;> simp [CodingMode.ofField, h, CodingMode.bit]

theorem eq_encode_mant (w : Word) (sel : BitVec 3) (mode : CodingMode) (cnt : BitVec 8) :
    w = encode (.mant sel mode cnt) ↔ w.toNat / 4096 = 0x50000 ∧ w.extractLsb' 0 3 = sel ∧
      CodingMode.ofField (w.extractLsb' 3 1).toNat = mode ∧ w.extractLsb' 4 8 = cnt := by
  rw [← BitVec.toNat_inj, encode_mant, extractLsb'_eq_iff, extractLsb'_eq_iff, ofField_eq_iff, BitVec.extractLsb'_toNat,
    Nat.shiftRight_eq_div_pow]
  have hsel := sel.isLt
  have hcnt := cnt.isLt
  have hmode := mode.bit.toNat_lt
  omega

theorem eq_encode_spectrum (w : Word) : w = encode .spectrum ↔ w.toNat = 0x60000000 := BitVec.toNat_inj.symm

theorem eq_encode_tonal (w : Word) (nb : BitVec 2) : w = encode (.tonal nb) ↔ w.toNat / 4 = 0x1C000000 ∧ w.extractLsb' 0 2 = nb := by
  rw [← BitVec.toNat_inj, encode_tonal, extractLsb'_eq_iff]
  have := nb.isLt
  omega

/-- The word of a command meets its row and no earlier one, so it is illegal only where the operands are. -/
theorem decode_encode (i : Instr) : decode (encode i) = legalOnly i := by
  rw [decode_eq]
  cases i with
  | rdbits n =>
    obtain ⟨h, hn⟩ := (eq_encode_rdbits _ n).1 rfl
    rw [if_pos h, hn]
  | rdsbits n =>
    obtain ⟨h, hn⟩ := (eq_encode_rdsbits _ n).1 rfl
    rw [if_neg (by omega), if_pos h, hn]
  | rdbit => rfl
  | huff t =>
    obtain ⟨h, ht⟩ := (eq_encode_huff _ t).1 rfl
    rw [if_neg (by omega), if_neg (by omega), if_neg (by omega), if_pos h, ht]
  | mant sel mode cnt =>
    obtain ⟨h, hsel, hmode, hcnt⟩ := (eq_encode_mant _ sel mode cnt).1 rfl
    rw [if_neg (by omega), if_neg (by omega), if_neg (by omega), if_neg (by omega), if_pos h, hsel, hmode, hcnt]
  | spectrum => rfl
  | tonal nb =>
    obtain ⟨h, hnb⟩ := (eq_encode_tonal _ nb).1 rfl
    rw [if_neg (by omega), if_neg (by omega), if_neg (by omega), if_neg (by omega), if_neg (by omega), if_neg (by omega), if_pos h, hnb]

/-- A word that meets a row is the word of that row's command with the fields it holds. -/
theorem eq_encode_of_decode {w : Word} {i : Instr} (h : decode w = .ok i) : w = encode i := by
  rw [decode_eq] at h
  split_ifs at h with hrdbits hrdsbits hrdbit hhuff hmant hspectrum htonal
  all_goals obtain ⟨-, rfl⟩ := legalOnly_eq_ok.1 h
  · exact (eq_encode_rdbits w _).2 ⟨hrdbits, rfl⟩
  · exact (eq_encode_rdsbits w _).2 ⟨hrdsbits, rfl⟩
  · exact (eq_encode_rdbit w).2 hrdbit
  · exact (eq_encode_huff w _).2 ⟨hhuff, rfl⟩
  · exact (eq_encode_mant w _ _ _).2 ⟨hmant, rfl, rfl, rfl⟩
  · exact (eq_encode_spectrum w).2 hspectrum
  · exact (eq_encode_tonal w _).2 ⟨htonal, rfl⟩

/-- The words that decode to a command: its own word, where its operands are legal, and no other. -/
theorem decode_eq_ok_iff {w : Word} {i : Instr} : decode w = .ok i ↔ i.wf = true ∧ w = encode i := by
  refine ⟨fun h => ?_, fun ⟨hwf, hw⟩ => ?_⟩
  · obtain rfl := eq_encode_of_decode h
    rw [decode_encode] at h
    exact ⟨(legalOnly_eq_ok.1 h).1, rfl⟩
  · rw [hw, decode_encode, legalOnly_eq_ok]
    exact ⟨hwf, rfl⟩

/-- Settles O2, with every operand at every legal value. -/
theorem decodeUndoesEncode : Obligations.DecodeUndoesEncode := fun _ hwf => decode_eq_ok_iff.2 ⟨hwf, rfl⟩

/-- Settles O3, by the other direction of the same equivalence. -/
theorem encodeUndoesDecode : Obligations.EncodeUndoesDecode := by
  intro w i h
  obtain ⟨hwf, hw⟩ := decode_eq_ok_iff.1 h
  exact ⟨hw.symm, hwf⟩

/-- Settles O1: each legal word is its command's, and the two illegal ones meet no row. -/
theorem specWordsDecodeToTheirCommands : Obligations.SpecWordsDecodeToTheirCommands :=
  ⟨decode_eq_ok_iff.2 ⟨rfl, rfl⟩, decode_eq_ok_iff.2 ⟨rfl, rfl⟩, decode_eq_ok_iff.2 ⟨rfl, rfl⟩, decode_eq_ok_iff.2 ⟨rfl, rfl⟩,
    decode_eq_ok_iff.2 ⟨rfl, rfl⟩, decode_eq_ok_iff.2 ⟨rfl, rfl⟩, decode_eq_ok_iff.2 ⟨rfl, rfl⟩, decode_eq_ok_iff.2 ⟨rfl, rfl⟩, rfl, rfl⟩

/-! ### The illegal words -/

/-- A match of a row says that the word has the row's opcode and that its reserved bits, down to bit `lo`, are 0 (30_encoding.md R72). -/
theorem row_iff (w : Word) {op lo n : Nat} (hop : op < 16) (hlo : lo + n = 28) :
    w.toNat / 2 ^ lo = op * 2 ^ n ↔ w.extractLsb' 28 4 = BitVec.ofNat 4 op ∧ w.extractLsb' lo n = 0#n := by
  have hdiv : w.toNat / 2 ^ 28 = w.toNat / 2 ^ lo / 2 ^ n := by rw [Nat.div_div_eq_div_mul, ← pow_add, hlo]
  have hquot : w.toNat / 2 ^ lo / 2 ^ n < 16 := by
    have := w.isLt
    omega
  rw [extractLsb'_eq_iff, extractLsb'_eq_iff, hdiv, BitVec.toNat_ofNat, BitVec.toNat_ofNat, Nat.zero_mod,
    Nat.mod_eq_of_lt (by simpa using hquot), Nat.mod_eq_of_lt (by simpa using hop)]
  refine ⟨fun h => ?_, fun ⟨hdiv, hmod⟩ => ?_⟩
  · rw [h]
    exact ⟨Nat.mul_div_cancel _ (Nat.two_pow_pos n), Nat.mul_mod_left _ _⟩
  · rw [← hdiv, Nat.div_mul_cancel (Nat.dvd_of_mod_eq_zero hmod)]

/-- A command is one of the seven rows. -/
theorem exists_instr_iff {P : Instr → Prop} : (∃ i, P i) ↔ (∃ n, P (.rdbits n)) ∨ (∃ n, P (.rdsbits n)) ∨ P .rdbit ∨ (∃ t, P (.huff t)) ∨
    (∃ sel mode cnt, P (.mant sel mode cnt)) ∨ P .spectrum ∨ ∃ nb, P (.tonal nb) := by
  constructor
  · rintro ⟨i, h⟩
    cases i with
    | rdbits n => exact .inl ⟨n, h⟩
    | rdsbits n => exact .inr (.inl ⟨n, h⟩)
    | rdbit => exact .inr (.inr (.inl h))
    | huff t => exact .inr (.inr (.inr (.inl ⟨t, h⟩)))
    | mant sel mode cnt => exact .inr (.inr (.inr (.inr (.inl ⟨sel, mode, cnt, h⟩))))
    | spectrum => exact .inr (.inr (.inr (.inr (.inr (.inl h)))))
    | tonal nb => exact .inr (.inr (.inr (.inr (.inr (.inr ⟨nb, h⟩)))))
  · rintro (⟨n, h⟩ | ⟨n, h⟩ | h | ⟨t, h⟩ | ⟨sel, mode, cnt, h⟩ | h | ⟨nb, h⟩) <;> exact ⟨_, h⟩

/-- The legal operand values (30_encoding.md R72). -/
theorem wf_rdbits (n : BitVec 6) : (Instr.rdbits n).wf = true ↔ n.toNat ≤ 32 := decide_eq_true_iff
theorem wf_rdsbits (n : BitVec 6) : (Instr.rdsbits n).wf = true ↔ 1 ≤ n.toNat ∧ n.toNat ≤ 32 := by simp [Instr.wf]
theorem wf_huff (t : BitVec 3) : (Instr.huff t).wf = true ↔ t ≠ 0#3 := by decide +revert
theorem wf_mant (sel : BitVec 3) (mode : CodingMode) (cnt : BitVec 8) : (Instr.mant sel mode cnt).wf = true ↔
    sel ≠ 0#3 ∧ cnt ≠ 0#8 ∧ cnt.toNat ≤ 128 ∧ (sel = 1#3 → cnt.toNat % 2 = 0) := by
  simp [Instr.wf, and_assoc, imp_iff_not_or, ← BitVec.toNat_inj, Nat.one_le_iff_ne_zero]

/-- The legal words, row by row: the opcode, the reserved bits 0, the operands legal (30_encoding.md R72). -/
theorem decodes_iff (w : Word) : (∃ i, decode w = .ok i) ↔
    ((w.extractLsb' 28 4 = 1#4 ∧ w.extractLsb' 6 22 = 0#22) ∧ (w.extractLsb' 0 6).toNat ≤ 32) ∨
    ((w.extractLsb' 28 4 = 2#4 ∧ w.extractLsb' 6 22 = 0#22) ∧ 1 ≤ (w.extractLsb' 0 6).toNat ∧ (w.extractLsb' 0 6).toNat ≤ 32) ∨
    (w.extractLsb' 28 4 = 3#4 ∧ w.extractLsb' 0 28 = 0#28) ∨
    ((w.extractLsb' 28 4 = 4#4 ∧ w.extractLsb' 3 25 = 0#25) ∧ w.extractLsb' 0 3 ≠ 0#3) ∨
    ((w.extractLsb' 28 4 = 5#4 ∧ w.extractLsb' 12 16 = 0#16) ∧ w.extractLsb' 0 3 ≠ 0#3 ∧ w.extractLsb' 4 8 ≠ 0#8 ∧
      (w.extractLsb' 4 8).toNat ≤ 128 ∧ (w.extractLsb' 0 3 = 1#3 → (w.extractLsb' 4 8).toNat % 2 = 0)) ∨
    (w.extractLsb' 28 4 = 6#4 ∧ w.extractLsb' 0 28 = 0#28) ∨
    (w.extractLsb' 28 4 = 7#4 ∧ w.extractLsb' 2 26 = 0#26) := by
  have rowRdbits := row_iff w (op := 1) (lo := 6) (n := 22) (by decide) rfl
  have rowRdsbits := row_iff w (op := 2) (lo := 6) (n := 22) (by decide) rfl
  have rowRdbit := row_iff w (op := 3) (lo := 0) (n := 28) (by decide) rfl
  have rowHuff := row_iff w (op := 4) (lo := 3) (n := 25) (by decide) rfl
  have rowMant := row_iff w (op := 5) (lo := 12) (n := 16) (by decide) rfl
  have rowSpectrum := row_iff w (op := 6) (lo := 0) (n := 28) (by decide) rfl
  have rowTonal := row_iff w (op := 7) (lo := 2) (n := 26) (by decide) rfl
  simp only [Nat.reducePow, Nat.reduceMul, Nat.div_one] at rowRdbits rowRdsbits rowRdbit rowHuff rowMant rowSpectrum rowTonal
  simp only [decode_eq_ok_iff, exists_instr_iff, eq_encode_rdbits, eq_encode_rdsbits, eq_encode_rdbit, eq_encode_huff, eq_encode_mant,
    eq_encode_spectrum, eq_encode_tonal, rowRdbits, rowRdsbits, rowRdbit, rowHuff, rowMant, rowSpectrum, rowTonal, wf_rdbits, wf_rdsbits, wf_huff, wf_mant]
  simp [Instr.wf, and_comm, and_assoc]

/-- An opcode is that of a row or reserved (30_encoding.md R71). -/
theorem opcode_cases (op : BitVec 4) : op = 1#4 ∨ op = 2#4 ∨ op = 3#4 ∨ op = 4#4 ∨ op = 5#4 ∨ op = 6#4 ∨ op = 7#4 ∨
    (op = 0#4 ∨ 8#4 ≤ op) ∧ op ≠ 1#4 ∧ op ≠ 2#4 ∧ op ≠ 3#4 ∧ op ≠ 4#4 ∧ op ≠ 5#4 ∧ op ≠ 6#4 ∧ op ≠ 7#4 := by
  decide +revert

/-- A word is refused or decodes to a command. -/
theorem refused_iff (w : Word) : (∃ e, decode w = .error e) ↔ ¬∃ i, decode w = .ok i := by cases decode w <;> simp

/-- Settles O4: opcode by opcode, the illegal words are those not in the row. -/
theorem illegalWordsRaiseIllegalCmd : Obligations.IllegalWordsRaiseIllegalCmd := by
  refine ⟨fun w => ?_, fun _ _ h => Machine.runPending_of_error h⟩
  rw [refused_iff, decodes_iff]
  generalize w.extractLsb' 28 4 = op
  rcases opcode_cases op with rfl | rfl | rfl | rfl | rfl | rfl | rfl | ⟨hop, h1, h2, h3, h4, h5, h6, h7⟩
  · simp [imp_iff_not_or]
  · simp [imp_iff_not_or]
  · simp
  · simp [imp_iff_not_or]
  · simp [imp_iff_not_or]
  · simp
  · simp
  · simp [hop, h1, h2, h3, h4, h5, h6, h7]

end Sys2Proof
end

section
/-! SUPPORT. The contents of the tables: the values of the mantissa codes (30_encoding.md R84, R85, 41_mantissa.md R121 to R123), and the
Huffman tables as complete codes of which no codeword begins another (30_encoding.md R80, R86). -/

namespace Sys2Proof.Machine

/-! ### Mantissa codes -/

/-- The values of the VLC symbols alternate 0, +1, -1, +2, -2, ... (41_mantissa.md R121). -/
theorem vlcValue_eq (sym : Nat) : vlcValue sym = if sym % 2 = 1 then ((sym + 1) / 2 : Int) else -((sym : Int) / 2) := by
  unfold vlcValue
  rcases Nat.mod_two_eq_zero_or_one sym with heven | hodd
  · rw [if_neg (by omega), if_neg (by omega)]
    omega
  · rw [if_pos (by omega), if_pos hodd]
    omega

/-- Settles O26: by the value maps for selectors above 1; those of selector 1 are tables of 16 and of 9 entries. -/
theorem mantissaCodesStandForTheSpecValues : Obligations.MantissaCodesStandForTheSpecValues := by
  refine ⟨fun sel sym h2 => ?_, fun sel v h2 h8 hv => ?_, by decide, by decide⟩
  · rw [codeValues, if_neg (by omega), vlcValue_eq]
  · obtain ⟨hwidth, -⟩ := reference_clcWidth sel (by omega) h8
    rw [codeValues, if_neg (by omega), sext_eq (by omega) hv]

/-! ### Huffman tables -/

theorem mem_insertByLength_of {p q : Nat × Nat} {l : List (Nat × Nat)} (h : q = p ∨ q ∈ l) : q ∈ insertByLength p l := by
  induction l with
  | nil => simpa [insertByLength] using h
  | cons r rest ih =>
    rw [insertByLength]
    split_ifs
    · exact List.mem_cons.2 h
    · rw [List.mem_cons] at h ⊢
      exact (or_left_comm.1 h).imp_right ih

/-- The canonical order lists every symbol with its length (30_encoding.md R80). -/
theorem mem_canonicalOrder_of_lt {lens : List Nat} (s : Nat) {k : Nat} (hk : k < lens.length) :
    (lens[k], s + k) ∈ canonicalOrder s lens := by
  induction lens generalizing s k with
  | nil => cases hk
  | cons len rest ih =>
    rw [canonicalOrder]
    apply mem_insertByLength_of
    cases k with
    | zero => exact .inl rfl
    | succ k => exact .inr (by simpa [Nat.add_right_comm, Nat.add_assoc] using ih (s + 1) (Nat.lt_of_succ_lt_succ hk))

theorem exists_mem_assignAfter {l : List (Nat × Nat)} {q : Nat × Nat} (h : q ∈ l) (prevLen prev : Nat) :
    ∃ c ∈ assignAfter prevLen prev l, c.len = q.1 ∧ c.sym = q.2 := by
  induction l generalizing prevLen prev with
  | nil => cases h
  | cons r rest ih =>
    rw [assignAfter]
    rcases List.mem_cons.1 h with rfl | h
    · exact ⟨_, List.mem_cons_self, rfl, rfl⟩
    · obtain ⟨c, hc, hq⟩ := ih h _ _
      exact ⟨c, List.mem_cons_of_mem _ hc, hq⟩

theorem exists_mem_assignCodes {l : List (Nat × Nat)} {q : Nat × Nat} (h : q ∈ l) : ∃ c ∈ assignCodes l, c.len = q.1 ∧ c.sym = q.2 := by
  cases l with
  | nil => cases h
  | cons r rest =>
    rw [assignCodes]
    rcases List.mem_cons.1 h with rfl | h
    · exact ⟨_, List.mem_cons_self, rfl, rfl⟩
    · obtain ⟨c, hc, hq⟩ := exists_mem_assignAfter h _ _
      exact ⟨c, List.mem_cons_of_mem _ hc, hq⟩

/-- Every symbol of a table has a codeword of its listed length (30_encoding.md R80). -/
theorem canonicalCodes_has_symbol (lens : List Nat) {s : Nat} (hs : s < lens.length) :
    ∃ c ∈ canonicalCodes lens, c.sym = s ∧ c.len = lens.getD s 0 := by
  obtain ⟨c, hc, hlen, hsym⟩ := exists_mem_assignCodes (mem_canonicalOrder_of_lt 0 hs)
  exact ⟨c, hc, by simpa using hsym, by simp [hlen, hs]⟩

/-- A complete book has a codeword at the front of every word of `more` further bits. -/
theorem completeFrom_covers {book : List Code} {more len word : Nat} (h : completeFrom book more len word = true) {v : Nat} (hv : v / 2 ^ more = word) :
    ∃ c ∈ book, c.len ≤ len + more ∧ v / 2 ^ (len + more - c.len) = c.word := by
  induction more generalizing len word with
  | zero => cases h
  | succ more ih =>
    have hbit : v / 2 ^ more = 2 * word ∨ v / 2 ^ more = 2 * word + 1 := by
      rw [← hv, pow_succ, ← Nat.div_div_eq_div_mul]
      omega
    simp only [completeFrom, Bool.and_eq_true, Bool.or_eq_true] at h
    have hnext : (findSymbol book (len + 1) (v / 2 ^ more)).isSome = true ∨ completeFrom book more (len + 1) (v / 2 ^ more) = true := by
      rcases hbit with hbit | hbit <;> rw [hbit]
      · exact h.1
      · exact h.2
    rcases hnext with hsome | hrest
    · obtain ⟨sym, hsym⟩ := Option.isSome_iff_exists.1 hsome
      obtain ⟨c, hc, -, hlen, hword⟩ := findSymbol_mem hsym
      exact ⟨c, hc, by omega, by rw [hword, hlen, show len + (more + 1) - (len + 1) = more by omega]⟩
    · obtain ⟨c, hc, hle, hword⟩ := ih hrest rfl
      exact ⟨c, hc, by omega, by rw [← hword, show len + (more + 1) = len + 1 + more by omega]⟩

/-- No beginning of a codeword is a codeword, so two codewords at the front of one word are the same. -/
theorem bookOk_unique {book : List Code} {m : Nat} (h : bookOk book m = true) {v : Nat} {c d : Code} (hc : c ∈ book) (hd : d ∈ book)
    (hcv : v / 2 ^ (m - c.len) = c.word) (hdv : v / 2 ^ (m - d.len) = d.word) : d = c := by
  wlog hle : d.len ≤ c.len generalizing c d
  · exact (this hd hc hdv hcv (by omega)).symm
  obtain ⟨hfindc, -, hcm, -, hsymc, hbegin⟩ := bookOk_spec h hc
  obtain ⟨hfindd, hd1, -, -, hsymd, -⟩ := bookOk_spec h hd
  have hbegins : c.word / 2 ^ (c.len - d.len) = d.word := by
    rw [← hcv, Nat.div_div_eq_div_mul, ← pow_add, show m - c.len + (c.len - d.len) = m - d.len by omega, hdv]
  rcases hle.lt_or_eq with hlt | heq
  · have hnone := hbegin d.len hd1 hlt
    rw [hbegins, hsymd] at hnone
    cases hnone
  · rw [heq, Nat.sub_self, pow_zero, Nat.div_one] at hbegins
    rw [heq, ← hbegins, hsymc, Option.some_inj] at hsymd
    rw [hsymd, hfindd, Option.some_inj] at hfindc
    exact hfindc

/-- Kraft's equality for the reference tables (30_encoding.md R86). -/
theorem reference_kraft : ∀ t, 1 ≤ t → t < 8 →
    (∑ s ∈ Finset.range (huffNsym referenceTables t), 2 ^ (huffMaxLen referenceTables t - (huffLens referenceTables t).getD s 0)) =
      2 ^ huffMaxLen referenceTables t := by
  intro t h1 h8
  interval_cases t <;> decide +kernel

/-- Settles O15: the codeword of each symbol from the canonical assignment, the one at the front of a word from completeness, and that there
is no other from `bookOk`. -/
theorem referenceTablesAreCompleteAndPrefixFree : Obligations.ReferenceTablesAreCompleteAndPrefixFree := by
  intro t h1 h8
  refine ⟨fun s hs => canonicalCodes_has_symbol _ hs, reference_kraft t h1 h8, fun v hv => ?_⟩
  obtain ⟨c, hc, -, hcv⟩ := completeFrom_covers (reference_complete t h1 h8) (Nat.div_eq_of_lt hv)
  rw [Nat.zero_add] at hcv
  exact ⟨c, hc, hcv, fun d hd hdv => bookOk_unique (reference_bookOk t h1 h8) hc hd hcv hdv⟩

end Sys2Proof.Machine
end

section
/-! SUPPORT. LOADFRAME (30_encoding.md R93): the runs of its host accesses on an idle block. -/

namespace Sys2Proof.Machine

/-- FB after the bytes are written from address `a` on, one after another. -/
def storeBytes : Nat → List Byte → Memory Byte → Memory Byte
  | _, [], m => m
  | a, b :: rest, m => storeBytes (a + 1) rest (m.write a b)

theorem storeBytes_read (bytes : List Byte) (a : Nat) (m : Memory Byte) (x : Nat) :
    (storeBytes a bytes m).read x = if h : a ≤ x ∧ x - a < bytes.length then some bytes[x - a] else m.read x := by
  induction bytes generalizing a m with
  | nil => simp [storeBytes]
  | cons b rest ih =>
    rw [storeBytes, ih, Memory.read_write]
    rcases Nat.lt_trichotomy x a with hx | rfl | hx
    · simp [show ¬a + 1 ≤ x by omega, show ¬a ≤ x by omega, show x ≠ a by omega]
    · simp
    · obtain ⟨k, rfl⟩ : ∃ k, x = a + 1 + k := ⟨x - (a + 1), by omega⟩
      simp [show a + 1 + k - a = k + 1 by omega, show a ≤ a + 1 + k by omega, show a + 1 + k ≠ a by omega]

/-- A run whose first step goes on is the run from the next state. -/
theorem core_run_succ {M : Host.Core} {s t : M.State} (k : Nat) (h : M.step s = .next t) : M.run (k + 1) s = M.run k t := by
  rw [Host.Core.run, h]

theorem run_succ {s t : State} (k : Nat) (h : step s = .next t) : Sys2Proof.core.run (k + 1) s = Sys2Proof.core.run k t :=
  core_run_succ (M := Sys2Proof.core) k h

section Idle

variable {s : State} (hb : s.busy = false)
include hb

/-- A byte of `LDFB` (30_encoding.md R92, 44_control.md R198). -/
theorem step_write_byte {a : Nat} (b : Byte) (rest : List Turn) (ha : a < machineConfig.maxFrameBytes) :
    step { s with agenda := .host (.write (0x1000 + a) .w8 (b.setWidth 32)) :: rest } =
      .next { s with agenda := rest, fb := s.fb.write a b } := by
  obtain ⟨hf, hr⟩ := access_fb (w := .w8) machine_frameBytes.2 ha (Nat.mod_one _)
  have hbyte : BitVec.ofNat 8 (b.setWidth 32).toNat = b := by
    rw [BitVec.toNat_setWidth_of_le (by decide), BitVec.ofNat_toNat, BitVec.setWidth_eq]
  rw [step_write rfl hf, hr, writeRegion, if_neg (by simp [State.withAgenda, hb]), State.storeFb, Width.bytes, fbStore, fbStore, if_pos ha,
    hbyte]
  rfl

/-- `WR BITLEN` with a length within FB (44_control.md R194). -/
theorem step_wr_bitlen {n : Nat} (rest : List Turn) (hn : n ≤ 8 * machineConfig.maxFrameBytes) :
    step { s with agenda := .host (wr .bitlen (BitVec.ofNat 32 n)) :: rest } = .next { s with agenda := rest, bitlen := BitVec.ofNat 17 n } := by
  have hmax := machine_frameBytes.2
  have hfield : ((BitVec.ofNat 32 n).extractLsb' 0 17).toNat = n := by
    rw [BitVec.extractLsb'_toNat, BitVec.toNat_ofNat, Nat.shiftRight_zero]
    omega
  rw [step_host rfl, wr, hostWrite_reg, writeReg, if_neg (by simp [State.withAgenda, hb]), State.setBitlen, hfield, Nat.min_eq_left hn]
  rfl

/-- `SEEK 0` (30_encoding.md R93). -/
theorem step_seek_zero (rest : List Turn) :
    step { s with agenda := .host (pseudoSeek 0#32) :: rest } = .next { s with agenda := rest, bitpos := 0#17 } := by
  rw [step_host rfl, pseudoSeek, wr, hostWrite_reg, writeReg, if_neg (by simp [State.withAgenda, hb])]
  rfl

/-- `LDFB` (30_encoding.md R92), whatever the host does after it. -/
theorem run_ldfb (bytes : List Byte) (a k : Nat) (rest : List Turn) (ha : a + bytes.length ≤ machineConfig.maxFrameBytes) :
    Sys2Proof.core.run (bytes.length + k) { s with agenda := (ldfb a bytes).map Turn.host ++ rest } =
      Sys2Proof.core.run k { s with agenda := rest, fb := storeBytes a bytes s.fb } := by
  induction bytes generalizing a s with
  | nil => exact congrArg (Sys2Proof.core.run · _) (Nat.zero_add k)
  | cons b bytes ih =>
    rw [List.length_cons] at ha ⊢
    rw [Nat.add_right_comm]
    exact (run_succ _ (step_write_byte hb b _ (by omega))).trans (ih (s := { s with fb := s.fb.write a b }) hb (a + 1) (by omega))

end Idle

/-- Settles O58: the three accesses of LOADFRAME one after another, LDFB byte by byte. -/
theorem loadFrameLoadsTheBytes : Obligations.LoadFrameLoadsTheBytes := by
  intro s bytes hb hlen
  refine ⟨storeBytes 0 bytes s.fb, ?_, fun a => ?_⟩
  · rw [pseudoLoadFrame, List.map_append]
    calc
      _ = Sys2Proof.core.run 2 _ := run_ldfb hb bytes 0 2 _ (by omega)
      _ = Sys2Proof.core.run 1 _ :=
        run_succ 1 (step_wr_bitlen (s := { s with fb := storeBytes 0 bytes s.fb }) hb _ (Nat.mul_le_mul_left 8 hlen))
      _ = .next _ :=
        run_succ 0 (step_seek_zero (s := { s with fb := storeBytes 0 bytes s.fb, bitlen := BitVec.ofNat 17 (8 * bytes.length) }) hb [])
  · rw [storeBytes_read]
    simp

end Sys2Proof.Machine
end

section
/-! SUPPORT. The bit-reader commands RDBITS, RDSBITS, RDBIT and HUFF (40_bitread.md section 2): each reads one field or one codeword, has no
output but RESULT, and so ends the same way under either ABORT_POLICY. -/

namespace Sys2Proof.Machine

/-! ### The words of the rows -/

/-- A word of opcode 1 with no reserved bit set (30_encoding.md R72). -/
theorem eq_encode_rdbits_of_row {w : Word} (hop : w.extractLsb' 28 4 = 1#4) (hres : w.extractLsb' 6 22 = 0#22) :
    w = encode (.rdbits (w.extractLsb' 0 6)) :=
  (eq_encode_rdbits w _).2 ⟨(row_iff w (op := 1) (by decide) rfl).2 ⟨hop, hres⟩, rfl⟩

/-- A word of opcode 2 with no reserved bit set (30_encoding.md R72). -/
theorem eq_encode_rdsbits_of_row {w : Word} (hop : w.extractLsb' 28 4 = 2#4) (hres : w.extractLsb' 6 22 = 0#22) :
    w = encode (.rdsbits (w.extractLsb' 0 6)) :=
  (eq_encode_rdsbits w _).2 ⟨(row_iff w (op := 2) (by decide) rfl).2 ⟨hop, hres⟩, rfl⟩

/-- A word of opcode 3 with no reserved bit set (30_encoding.md R72). -/
theorem eq_encode_rdbit_of_row {w : Word} (hop : w.extractLsb' 28 4 = 3#4) (hres : w.extractLsb' 0 28 = 0#28) : w = encode .rdbit := by
  have hrow := (row_iff w (op := 3) (by decide) rfl).2 ⟨hop, hres⟩
  rw [pow_zero, Nat.div_one] at hrow
  exact (eq_encode_rdbit w).2 hrow

/-! ### How they end -/

/-- Command `i` has no output that an abort could leave as a draw. -/
def DrawsNothing (i : Instr) : Prop := ∀ s : State, s.drawOutputs i = s

theorem drawsNothing_rdbits (n : BitVec 6) : DrawsNothing (.rdbits n) := fun _ => ite_self _
theorem drawsNothing_rdsbits (n : BitVec 6) : DrawsNothing (.rdsbits n) := fun _ => ite_self _
theorem drawsNothing_rdbit : DrawsNothing .rdbit := fun _ => ite_self _
theorem drawsNothing_huff (t : BitVec 3) : DrawsNothing (.huff t) := fun _ => ite_self _

theorem takeError_of_drawsNothing {i : Instr} (hi : DrawsNothing i) (c : Config) (e : Err) (p : BitPos) (s : State) :
    takeError c i e p s = s.endErr e p := by
  rcases takeError_cases c i e p s with h | h
  · exact h
  · rw [h, hi]

/-- A value of the pseudocode ends the command with DONE (60_exceptions.md R216). -/
theorem commandWith_of_ok {c : Config} {i : Instr} {s u : State} {v : Word} (hw : i.wf = true) (h : commandBody c i s = .ok v u) :
    commandWith c i s = .next (u.endOk v) := by
  rw [commandWith_eq, if_pos hw, h, endCommand]

/-- An error of a command without outputs writes STATUS and ERRPOS only, whatever the policy (60_exceptions.md R214, R217). -/
theorem commandWith_of_raise {c : Config} {i : Instr} {s u : State} {e : Err} {p : BitPos} (hw : i.wf = true) (hi : DrawsNothing i)
    (h : commandBody c i s = .raise e p u) : commandWith c i s = .next (u.endErr e p) := by
  rw [commandWith_eq, if_pos hw, h, endCommand, takeError_of_drawsNothing hi]

/-! ### Fields -/

section Fields

variable {s : State} {n : Nat}

/-- A field within BITLEN of which every bit has been written is read (40_bitread.md R100). -/
theorem readBits_of_fieldAt {v : Nat} (hle : s.bitpos.toNat + n ≤ s.bitlen.toNat) (hf : fieldAt s s.bitpos.toNat n = some v) :
    readBits n s = .ok v (s.setBitpos (s.bitpos.toNat + n)) := by
  rw [readBits, if_neg (by omega), hf]

/-- The same field as two's complement (40_bitread.md R104). -/
theorem readSBits_of_fieldAt {v : Nat} (hle : s.bitpos.toNat + n ≤ s.bitlen.toNat) (hf : fieldAt s s.bitpos.toNat n = some v) :
    readSBits n s = .ok (sext n v) (s.setBitpos (s.bitpos.toNat + n)) := by
  rw [readSBits, readBits_of_fieldAt hle hf, Res.andThen_ok]

theorem readSBits_short (h : s.bitlen.toNat < s.bitpos.toNat + n) : readSBits n s = .raise .overrun s.bitpos s := by
  rw [readSBits, readBits_short h, Res.andThen_raise]

/-- A field of one bit is that bit (20_memory.md R52, R53). -/
theorem fieldAt_one {p : Nat} {b : Byte} (h : s.fb.read (p / 8) = some b) : fieldAt s p 1 = some (b.getLsbD (7 - p % 8)).toNat := by
  simp [fieldAt, fbBit, h]

end Fields

/-- Settles O8: the words by their row, then RDBITS as the one field it reads. -/
theorem rdbitsReadsAnUnsignedField : Obligations.RdbitsReadsAnUnsignedField := by
  refine ⟨fun w hop => ⟨fun ⟨hres, hn⟩ => ?_, fun hbad => ?_⟩, fun _ _ => runPending_of_error, fun n s hn => ?_, fun n s hn hshort => ?_,
    fun n s fb hn hle hfb => ?_⟩
  · exact decode_eq_ok_iff.2 ⟨(wf_rdbits _).2 hn, eq_encode_rdbits_of_row hop hres⟩
  · exact (illegalWordsRaiseIllegalCmd.1 w).2 (.inr (.inl ⟨hop, hbad⟩))
  · exact exec_of_not_wf (by rw [wf_rdbits]; omega) s
  · rw [exec_eq_commandWith, commandWith_of_raise ((wf_rdbits n).2 hn) (drawsNothing_rdbits n)
      (by rw [commandBody, readBits_short hshort, Res.andThen_raise])]
    rfl
  · rw [exec_eq_commandWith, commandWith_of_ok ((wf_rdbits n).2 hn)
      (by rw [commandBody, readBits_of_fieldAt hle (fieldAt_sum _ _ hfb), Res.andThen_ok])]
    rfl

/-- Settles O9: as RDBITS, the field's value read by `sext_eq`. -/
theorem rdsbitsReadsASignedField : Obligations.RdsbitsReadsASignedField := by
  refine ⟨fun w hop => ⟨fun ⟨hres, hn⟩ => ?_, fun hbad => ?_⟩, fun _ _ => runPending_of_error, fun n s hn => ?_,
    fun n s h1 h32 hshort => ?_, fun n s fb v h1 h32 hle hfb hv => ?_⟩
  · exact decode_eq_ok_iff.2 ⟨(wf_rdsbits _).2 hn, eq_encode_rdsbits_of_row hop hres⟩
  · exact (illegalWordsRaiseIllegalCmd.1 w).2 (.inr (.inr (.inl ⟨hop, hbad⟩)))
  · exact exec_of_not_wf (by rw [wf_rdsbits]; omega) s
  · rw [exec_eq_commandWith, commandWith_of_raise ((wf_rdsbits n).2 ⟨h1, h32⟩) (drawsNothing_rdsbits n)
      (by rw [commandBody, readSBits_short hshort, Res.andThen_raise])]
    rfl
  · have hf : fieldAt s s.bitpos.toNat n.toNat = some v := hv ▸ fieldAt_sum _ _ hfb
    rw [exec_eq_commandWith, commandWith_of_ok ((wf_rdsbits n).2 ⟨h1, h32⟩)
      (by rw [commandBody, readSBits_of_fieldAt hle hf, Res.andThen_ok]), sext_eq h1 (fieldAt_lt hf)]
    rfl

/-- Settles O10: RDBIT is the field of one bit. -/
theorem rdbitReadsOneBit : Obligations.RdbitReadsOneBit := by
  refine ⟨fun w hop => ⟨fun hres => ?_, fun hbad => ?_⟩, fun _ _ => runPending_of_error, fun s hshort => ?_, fun s b hle hb => ?_⟩
  · exact decode_eq_ok_iff.2 ⟨rfl, eq_encode_rdbit_of_row hop hres⟩
  · exact (illegalWordsRaiseIllegalCmd.1 w).2 (.inr (.inr (.inr (.inl ⟨hop, hbad⟩))))
  · rw [exec_eq_commandWith, commandWith_of_raise rfl drawsNothing_rdbit
      (by rw [commandBody, readBits_short hshort, Res.andThen_raise])]
    rfl
  · rw [exec_eq_commandWith, commandWith_of_ok rfl (by rw [commandBody, readBits_of_fieldAt hle (fieldAt_one hb), Res.andThen_ok])]
    rfl

/-! ### Codewords -/

section Huff

variable {c : Config} {t : BitVec 3} {s : State} (ht : 1 ≤ t.toNat)
include ht

/-- A symbol decoded goes to RESULT (40_bitread.md R112). -/
theorem huffWith_of_ok {sym : Nat} {u : State} (h : huffDecode c.tables t.toNat s = .ok sym u) :
    huffWith c t s = .next (u.endOk (wordOfNat sym)) :=
  commandWith_of_ok (i := .huff t) (decide_eq_true ht) (by rw [commandBody, h, Res.andThen_ok])

/-- An error of `HuffDecode` ends HUFF, whatever the policy. -/
theorem huffWith_of_raise {e : Err} {p : BitPos} {u : State} (h : huffDecode c.tables t.toNat s = .raise e p u) :
    huffWith c t s = .next (u.endErr e p) :=
  commandWith_of_raise (i := .huff t) (decide_eq_true ht) (drawsNothing_huff t) (by rw [commandBody, h, Res.andThen_raise])

end Huff

/-- A codeword of a reference table has 1 to 8 bits, and is the one its symbol names (30_encoding.md R81, R86). -/
theorem reference_code {t : Nat} (h1 : 1 ≤ t) (h8 : t < 8) {c : Code} (hc : c ∈ huffCodes referenceTables t) :
    findCode (huffCodes referenceTables t) c.sym = some c ∧ 1 ≤ c.len ∧ c.len ≤ 8 := by
  obtain ⟨hfind, hlen1, hmax, -⟩ := bookOk_spec (reference_bookOk t h1 h8) hc
  exact ⟨hfind, hlen1, hmax.trans (reference_maxLen t h1 h8)⟩

/-- Settles O12: operand 0 is illegal; a codeword, whole or cut at BITLEN, is followed bit by bit by `HuffDecode`. -/
theorem huffDecodesACodeword : Obligations.HuffDecodesACodeword := by
  refine ⟨fun s => exec_of_not_wf (by decide) s, fun t s c ht hc hon => ?_, fun t s c k ht hc hk hspells hend => ?_⟩
  · obtain ⟨hfind, -⟩ := reference_code ht t.isLt hc
    exact huffWith_of_ok (c := machineConfig) ht (huffDecode_spelled ht t.isLt hfind hon)
  · exact huffWith_of_raise (c := machineConfig) ht (huffDecode_short ht t.isLt hc hk hspells hend)

/-- Settles O13: a complete table has a codeword within its 8 bits, and what was decoded was a codeword. -/
theorem huffCompletesWithinEightBits : Obligations.HuffCompletesWithinEightBits := by
  intro t s ht hloaded hleft
  obtain ⟨sym, u, hdecode, hsym, -⟩ := costs_huffDecode ht t.isLt s hloaded hleft
  obtain ⟨c, hfind, -, rfl⟩ := huffDecode_ok ht t.isLt hdecode
  obtain ⟨-, hlen1, hlen8⟩ := reference_code ht t.isLt (findCode_mem hfind).1
  exact ⟨sym, c.len, hsym, hlen1, hlen8, huffWith_of_ok (c := machineConfig) ht hdecode⟩

/-- Settles O14: `HuffDecode` comes to the end of HUFF_MAXLEN bits without a symbol, and BITPOS has not moved. -/
theorem huffRaisesBadCodeWhereNoCodewordMatches : Obligations.HuffRaisesBadCodeWhereNoCodewordMatches :=
  fun _ _ _ _ ht hlen hon hno => huffWith_of_raise ht (huffDecode_badCode hlen hon hno)

end Sys2Proof.Machine
end

section
/-! SUPPORT. The MANT command (41_mantissa.md R120 to R130): what a run of mantissa codes, whole or cut at BITLEN, leaves in MBUF; and the
outputs each command leaves alone (R130, 40_bitread.md section 2, 42_spectrum.md R144, 43_tonal.md R166). -/

namespace Sys2Proof.Machine

/-! ### Which outputs a command may change -/

/-- The outputs that command `i` may not write are in `t` as in `s`. -/
structure OwnOutputs (i : Instr) (s t : State) : Prop where
  tonal : (∀ nb, i ≠ .tonal nb) → t.tc = s.tc ∧ t.tccount = s.tccount
  spectrum : i ≠ .spectrum → t.qm = s.qm ∧ t.sel = s.sel ∧ t.sfi = s.sfi ∧ t.nsb = s.nsb ∧ t.specMode = s.specMode
  mant : (∀ sel mode cnt, i ≠ .mant sel mode cnt) → t.mbuf = s.mbuf
  above : ∀ sel mode cnt, i = .mant sel mode cnt → ∀ k, cnt.toNat ≤ k → t.mbuf.read k = s.mbuf.read k

namespace OwnOutputs

variable {i : Instr} {s t : State}

theorem refl (i : Instr) (s : State) : OwnOutputs i s s :=
  ⟨fun _ => ⟨rfl, rfl⟩, fun _ => ⟨rfl, rfl, rfl, rfl, rfl⟩, fun _ => rfl, fun _ _ _ _ _ _ => rfl⟩

theorem moves (i : Instr) (s : State) : BitMoves (OwnOutputs i s) := fun _ _ h _ _ _ => { h with }

theorem endOk (h : OwnOutputs i s t) (v : Word) : OwnOutputs i s (t.endOk v) := { h with }

theorem endErr (h : OwnOutputs i s t) (e : Err) (p : BitPos) : OwnOutputs i s (t.endErr e p) := { h with }

/-- MANT may change MBUF below entry CNT. -/
theorem withMbuf {sel : BitVec 3} {mode : CodingMode} {cnt : BitVec 8} (h : OwnOutputs (.mant sel mode cnt) s t) {m : Memory Word}
    (hm : ∀ k, cnt.toNat ≤ k → m.read k = t.mbuf.read k) : OwnOutputs (.mant sel mode cnt) s { t with mbuf := m } := by
  refine { h with mant := fun hne => absurd rfl (hne sel mode cnt), above := fun _ _ _ he k hk => ?_ }
  cases he
  exact (hm k hk).trans (h.above _ _ _ rfl k hk)

theorem drawMbuf {sel : BitVec 3} {mode : CodingMode} {cnt : BitVec 8} (h : OwnOutputs (.mant sel mode cnt) s t) :
    OwnOutputs (.mant sel mode cnt) s (t.drawMbuf cnt.toNat) :=
  { h.withMbuf (m := (t.drawMbuf cnt.toNat).mbuf) fun k hk => by rw [State.drawMbuf_mbuf, Memory.read_fill, if_neg (by omega)] with }

theorem writeMbuf {sel : BitVec 3} {mode : CodingMode} {cnt : BitVec 8} (h : OwnOutputs (.mant sel mode cnt) s t) {j : Nat}
    (hj : j < cnt.toNat) (v : Int) : OwnOutputs (.mant sel mode cnt) s (t.writeMbuf j v) :=
  h.withMbuf fun _ hk => Memory.read_write_other _ _ (by omega)

theorem drawOutputs (h : OwnOutputs i s t) : OwnOutputs i s (t.drawOutputs i) :=
  drawOutputs_keeps i h (fun _ _ _ hi _ => by subst hi; exact h.drawMbuf)
    (fun hi => { h with spectrum := fun hne => absurd hi hne }) (fun nb hi => { h with tonal := fun hne => absurd hi (hne nb) })

theorem takeError (h : OwnOutputs i s t) (c : Config) (e : Err) (p : BitPos) : OwnOutputs i s (takeError c i e p t) := by
  rcases takeError_cases c i e p t with he | he <;> rw [he]
  · exact h.endErr e p
  · exact (h.endErr e p).drawOutputs

/-- Every write of the pseudocode of command `i` is to an output of its own. -/
theorem writes (T : Tables) (i : Instr) (s : State) : CommandWrites T i (OwnOutputs i s) := by
  cases i with
  | mant sel mode cnt => exact fun _ _ v hj _ h => h.writeMbuf hj v
  | spectrum => constructor <;> intros <;> rename_i h <;> exact { h with spectrum := fun hne => absurd rfl hne }
  | tonal nb => constructor <;> intros <;> rename_i h <;> exact { h with tonal := fun hne => absurd rfl (hne nb) }
  | _ => trivial

end OwnOutputs

theorem commandBody_ownOutputs (i : Instr) (s : State) (hw : i.wf = true) :
    Ends (commandErr referenceTables i) (OwnOutputs i s) (commandBody machineConfig i s) (fun _ => True) :=
  commandBody_ends machineConfig hw (.inl reference_subbandsOk) (OwnOutputs.moves i s) (OwnOutputs.writes _ i s) (.refl i s)

theorem exec_ownOutputs {i : Instr} {s t : State} (h : exec i s = .next t) : OwnOutputs i s t := by
  rcases exec_next_cases i s t h with ⟨-, rfl⟩ | ⟨hw, ⟨v, u, hbody, rfl⟩ | ⟨e, p, u, hbody, rfl⟩⟩
  · exact (OwnOutputs.refl i s).endErr _ _
  · obtain ⟨hu, -⟩ := hbody ▸ commandBody_ownOutputs i s hw
    exact hu.endOk v
  · obtain ⟨hu, -⟩ := hbody ▸ commandBody_ownOutputs i s hw
    exact hu.takeError _ e p

/-- Settles O23: the writes of the pseudocode, its two endings and the draws of an abort all keep `OwnOutputs`. -/
theorem commandsWriteOnlyTheirOwnOutputs : Obligations.CommandsWriteOnlyTheirOwnOutputs := by
  intro i s t h
  obtain ⟨htonal, hspectrum, hmant, habove⟩ := exec_ownOutputs h
  exact ⟨htonal, hspectrum, hmant, habove⟩

/-! ### MBUF after a run of mantissas -/

/-- MBUF after the mantissas `vs` were delivered to it from entry 0 on. -/
def deliveredMbuf (s : State) (vs : List Int) : Memory Word := (deliver (fun k v s1 => s1.writeMbuf k v) 0 vs s).mbuf

theorem deliver_mbuf (vs : List Int) (s : State) :
    deliver (fun k v s1 => s1.writeMbuf k v) 0 vs s = { s with mbuf := deliveredMbuf s vs } :=
  deliver_keeps (I := fun t => t = { s with mbuf := t.mbuf }) (lo := 0) (hi := 0 + vs.length) (Q := fun _ => True)
    (fun _ _ _ _ _ _ hs1 => by rw [hs1]; rfl) vs 0 s (le_refl _) (le_refl _) (fun _ _ => trivial) rfl

theorem deliveredMbuf_read (s : State) (vs : List Int) (k : Nat) :
    (deliveredMbuf s vs).read k = if k < vs.length then some (BitVec.ofInt 32 (vs.getD k 0)) else s.mbuf.read k := by
  rw [deliveredMbuf, deliver_read (base := 0) (f := State.mbuf) (fun k v s => by rw [Nat.zero_add]; rfl)]
  simp [wordOfInt]

/-! ### MANT on a run of codes -/

section Mant

variable {c : Config} {sel : BitVec 3} {mode : CodingMode} {cnt : BitVec 8} (hw : (Instr.mant sel mode cnt).wf = true)
include hw

/-- Legal operands: a selector that has codes, and a CNT that whole codes carry (30_encoding.md R72, 41_mantissa.md R120). -/
theorem mant_wf_bounds : 1 ≤ sel.toNat ∧ codeCount sel.toNat cnt.toNat * perCode sel.toNat = cnt.toNat := by
  simp only [Instr.wf, Bool.and_eq_true, Bool.or_eq_true, decide_eq_true_eq] at hw
  obtain ⟨⟨⟨hsel, -⟩, -⟩, heven⟩ := hw
  refine ⟨hsel, ?_⟩
  unfold codeCount perCode
  split_ifs <;> omega

section Codes

variable {s : State} {codes : List Nat} (hT : c.tables = referenceTables)
  (hcodes : ∀ raw ∈ codes, codeOk referenceTables sel.toNat mode raw = true)
  (hon : onStream s (mantBits referenceTables sel.toNat mode codes) = true)
include hT hcodes hon

/-- The codes for CNT mantissas are read, their mantissas are in MBUF and CNT in RESULT (41_mantissa.md R120, R130). -/
theorem mantWith_spelled (hlen : codes.length = codeCount sel.toNat cnt.toNat) :
    mantWith c sel mode cnt s = .next (({ s with mbuf := deliveredMbuf s (mantValues referenceTables sel.toNat mode codes) }.setBitpos
      (s.bitpos.toNat + (mantBits referenceTables sel.toNat mode codes).length)).endOk (wordOfNat cnt.toNat)) := by
  obtain ⟨hsel, -⟩ := mant_wf_bounds hw
  refine commandWith_of_ok (i := .mant sel mode cnt) hw ?_
  rw [commandBody, mantBody, mantExtract, hT, ← hlen, mantCodes_spelled hsel sel.isLt writer_mbuf codes 0 s hcodes hon, Res.andThen_ok,
    deliver_mbuf]

/-- A run of codes that breaks off before CNT mantissas, under LEAVE_MUTATED (41_mantissa.md R130, 60_exceptions.md R217). -/
theorem mantWith_cut (hpolicy : c.abortPolicy = .leaveMutated) (hlen : codes.length < codeCount sel.toNat cnt.toNat)
    (hcut : codeCut referenceTables sel.toNat mode s (s.bitpos.toNat + (mantBits referenceTables sel.toNat mode codes).length)) :
    mantWith c sel mode cnt s = .next { s.overran (mantBits referenceTables sel.toNat mode codes).length with
      mbuf := deliveredMbuf s (mantValues referenceTables sel.toNat mode codes) } := by
  obtain ⟨hsel, -⟩ := mant_wf_bounds hw
  rw [mantWith, if_pos hw, mantBody, mantExtract, hT, mantCodes_cut hsel sel.isLt writer_mbuf hlen s hcodes hon hcut, Res.andThen_raise,
    endCommand_raise_leave hpolicy, deliver_mbuf, endErr_overran_mbuf]

end Codes

/-- With 8 bits a mantissa left in a loaded frame there are codes for CNT mantissas on the stream, and they take no more than these bits
(41_mantissa.md R125). -/
theorem exists_mant_codes {s : State} (hloaded : FrameLoaded s) (hleft : s.bitpos.toNat + 8 * cnt.toNat ≤ s.bitlen.toNat) :
    ∃ codes : List Nat, codes.length = codeCount sel.toNat cnt.toNat ∧
      (∀ raw ∈ codes, codeOk referenceTables sel.toNat mode raw = true) ∧
      onStream s (mantBits referenceTables sel.toNat mode codes) = true ∧
      (mantBits referenceTables sel.toNat mode codes).length ≤ 8 * cnt.toNat := by
  obtain ⟨hsel, -⟩ := mant_wf_bounds hw
  obtain ⟨_, t, hread, -, -, -, -, hpos⟩ := costs_mantExtract hsel sel.isLt mode writer_mbuf cnt.toNat s hloaded hleft
  obtain ⟨codes, hlen, hcodes, hon⟩ := mantCodes_ok hsel sel.isLt writer_mbuf _ _ _ _ (by omega) hread
  have hspelled := mantCodes_spelled hsel sel.isLt writer_mbuf codes 0 s hcodes hon
  rw [hlen, ← mantExtract, hread] at hspelled
  obtain ⟨-, rfl⟩ := Res.ok.inj hspelled
  rw [State.setBitpos_bitpos, ← State.setBitpos_bitpos s, onStream_bitpos hon] at hpos
  exact ⟨codes, hlen, hcodes, hon, by omega⟩

end Mant

/-- Settles O27: an illegal operand is refused before anything is read; a run of codes is read and delivered to MBUF. -/
theorem mantDecodesTheCodesOnTheStream : Obligations.MantDecodesTheCodesOnTheStream := by
  refine ⟨fun sel mode cnt s hbad => exec_of_not_wf ?_ s, fun sel mode cnt s codes hw hlen hcodes hon => ?_⟩
  · simp only [Instr.wf, Bool.and_eq_true, Bool.or_eq_true, decide_eq_true_eq]
    omega
  · obtain ⟨-, hcount⟩ := mant_wf_bounds hw
    refine ⟨deliveredMbuf s (mantValues referenceTables sel.toNat mode codes),
      mantWith_spelled (c := machineConfig) hw rfl hcodes hon hlen, fun k => ?_⟩
    rw [deliveredMbuf_read, mantValues_length, hlen, hcount]

/-- Settles O28: the bits left begin with codes for CNT mantissas, which MANT decodes, and each mantissa of a code is in range. -/
theorem mantCompletesWithMantissasInRange : Obligations.MantCompletesWithMantissasInRange := by
  intro sel mode cnt s hw hloaded hleft
  obtain ⟨hsel, -⟩ := mant_wf_bounds hw
  obtain ⟨codes, hlen, hcodes, hon, hbits⟩ := exists_mant_codes hw hloaded hleft
  obtain ⟨m, hexec, hm⟩ := mantDecodesTheCodesOnTheStream.2 sel mode cnt s codes hw hlen hcodes hon
  have hpos := onStream_bitpos hon
  rw [State.setBitpos_bitpos] at hpos
  refine ⟨_, hexec, rfl, rfl, rfl, by simp only [hpos]; omega, fun k hk => ?_⟩
  obtain ⟨hmin, hmax⟩ := mantValues_getD_range hsel sel.isLt hcodes k
  exact ⟨_, hmin, hmax, by rw [hm, if_pos hk]⟩

/-- Settles O29: the codes before the cut are read and delivered, and the abort policy leaves what they wrote. -/
theorem mantKeepsEarlierMantissasOnOverrun : Obligations.MantKeepsEarlierMantissasOnOverrun :=
  fun _ _ _ _ s _ hT hpolicy hw hlen hcodes hon hcut =>
    ⟨_, mantWith_cut hw hT hcodes hon hpolicy hlen hcut, fun k => deliveredMbuf_read s _ k⟩

end Sys2Proof.Machine
end

section
/-! SUPPORT. The SPECTRUM command (42_spectrum.md R144): what a spectral block on the stream, whole or broken off at BITLEN, leaves in QM, SEL,
SFI and SPECINFO, and the block in which no subband is coded (R149). -/

namespace Sys2Proof.Machine

/-! ### A whole block -/

/-- Settles O30: the body reads the block that stands on the stream, and what a command without error has read stood there. -/
theorem spectrumParsesTheSpectralBlock : Obligations.SpectrumParsesTheSpectralBlock := by
  refine ⟨fun s b hb hon => ?_, fun s t h herr => ?_⟩
  · obtain ⟨u, hbody, hholds, hu⟩ := spectrumBody_spelled (c := machineConfig) rfl rfl hb hon
    have hexec : exec .spectrum s = .next (u.endOk (wordOfNat (b.bands.length - 1))) :=
      commandWith_of_ok (c := machineConfig) (i := .spectrum) rfl hbody
    exact ⟨u.qm, u.sel, u.sfi, by rw [hexec, hu]; rfl, hholds⟩
  · rcases everyCommandEndsDoneOrWithAnError .spectrum s t h with ⟨-, ⟨hdone, -⟩ | ⟨herr', -⟩⟩
    · obtain ⟨v, u, hbody, -⟩ := exec_next_done h hdone
      exact spectrumBody_ok rfl rfl hbody
    · exact absurd herr' (by simp [herr])

/-! ### A block in which no subband is coded -/

/-- The block of `n + 1` present subbands, every selector 0 (42_spectrum.md R149). -/
def silentBlock (mode : CodingMode) (n : Nat) : SpectralBlock := { mode := mode, bands := List.replicate (n + 1) ⟨0, 0, []⟩ }

@[simp] theorem silentBlock_length (mode : CodingMode) (n : Nat) : (silentBlock mode n).bands.length = n + 1 := by simp [silentBlock]

@[simp] theorem silentBlock_band (mode : CodingMode) (n : Nat) {i : Nat} (hi : i < (silentBlock mode n).bands.length) :
    (silentBlock mode n).bands[i] = ⟨0, 0, []⟩ := by
  simp [silentBlock]

theorem bandsOk_silent (T : Tables) (mode : CodingMode) (i n : Nat) : bandsOk T mode i (List.replicate n ⟨0, 0, []⟩) = true := by
  induction n generalizing i with
  | zero => rfl
  | succ n ih => simp [List.replicate_succ, bandsOk, Band.ok, ih]

theorem silentBlock_ok (mode : CodingMode) {n : Nat} (hn : n < 32) : (silentBlock mode n).ok referenceTables = true := by
  simp only [SpectralBlock.ok, silentBlock_length, Bool.and_eq_true, decide_eq_true_eq]
  exact ⟨⟨by omega, by omega⟩, bandsOk_silent ..⟩

/-- Its bits are NSB, the mode bit and the selectors alone: a subband that is not coded has no index and no codes. -/
theorem silentBlock_bits (T : Tables) (mode : CodingMode) (n : Nat) :
    (silentBlock mode n).bits T = natBits 5 n ++ [mode.bit] ++ List.replicate (3 * (n + 1)) false := by
  have hsels : (List.replicate (n + 1) (natBits 3 0)).flatten = List.replicate (3 * (n + 1)) false := by
    rw [show natBits 3 0 = List.replicate 3 false from rfl, List.flatten_replicate_replicate, Nat.mul_comm]
  simp [SpectralBlock.bits, silentBlock, List.flatMap_replicate, hsels]

/-- Where the outputs hold it, every line, selector and index is 0. -/
theorem holdsSpectrum_silent {t : State} {mode : CodingMode} {n : Nat} (ht : holdsSpectrum referenceTables t (silentBlock mode n)) :
    (∀ j, j < 1024 → t.qm.read j = some 0#32) ∧ ∀ i, i < 32 → t.sel.read i = some 0#32 ∧ t.sfi.read i = some 0#32 := by
  refine ⟨fun j hj => ?_, fun i hi => ?_⟩
  · by_cases hend : j < subbandStart referenceTables (silentBlock mode n).bands.length
    · obtain ⟨i, hi, hlo, hhi⟩ := exists_subband hend
      rw [holdsSpectrum_line ht hi hlo hhi, silentBlock_band]
      rfl
    · obtain ⟨-, -, habove⟩ := ht
      exact habove j (by omega) hj
  · obtain ⟨hbands, hside, -⟩ := ht
    by_cases hpresent : i < (silentBlock mode n).bands.length
    · obtain ⟨hsel, hsfi, -⟩ := hbands i hpresent
      rw [silentBlock_band] at hsel hsfi
      exact ⟨hsel, hsfi⟩
    · exact hside i (by omega) hi

/-- Settles O32: the bits are those of a block in which no subband is coded, which SPECTRUM parses. -/
theorem allZeroSelectorsZeroTheSpectrum : Obligations.AllZeroSelectorsZeroTheSpectrum := by
  intro s n bit hn hon
  obtain ⟨mode, rfl⟩ : ∃ mode : CodingMode, mode.bit = bit := ⟨CodingMode.ofField bit.toNat, by cases bit <;> rfl⟩
  rw [← silentBlock_bits referenceTables] at hon
  obtain ⟨qm, sel, sfi, hexec, hholds⟩ := spectrumParsesTheSpectralBlock.1 s _ (silentBlock_ok mode hn) hon
  obtain ⟨hqm, hside⟩ := holdsSpectrum_silent hholds
  have hpos := onStream_bitpos hon
  have hlen : ((silentBlock mode n).bits referenceTables).length = 6 + 3 * (n + 1) := by
    simp [silentBlock_bits]
    omega
  rw [State.setBitpos_bitpos] at hpos
  refine ⟨_, hexec, rfl, rfl, hqm, hside, ?_, ?_⟩
  · simp only [hpos]
    omega
  · simp

/-! ### A block that breaks off -/

/-- Under LEAVE_MUTATED an error of the body is all that SPECTRUM adds to what the body wrote (60_exceptions.md R214, R217). -/
theorem spectrumWith_of_raise {c : Config} (hpolicy : c.abortPolicy = .leaveMutated) {s u : State} {e : Err} {p : BitPos}
    (h : spectrumBody c s = .raise e p u) : spectrumWith c s = .next (u.endErr e p) := by
  rw [spectrumWith, h, endCommand_raise_leave hpolicy]

theorem endErr_overran_zero (s : State) : s.endErr .overrun s.bitpos = s.overran 0 := by
  rw [← endErr_overran, Nat.add_zero, setBitpos_self, BitVec.ofNat_toNat, BitVec.setWidth_eq]

/-- Settles O34: each kind of field breaks off the body where it stands, and the abort policy leaves what the body wrote before it. -/
theorem spectrumKeepsEarlierFieldsOnOverrun : Obligations.SpectrumKeepsEarlierFieldsOnOverrun := by
  intro c s b hT horder hpolicy hb
  obtain ⟨-, h32, -⟩ := blockOk_spec hb
  refine ⟨fun hcut => ?nsb, fun hon hcut => ?mode, fun m hm hon hcut => ?selector, fun m x hx hx0 hon hcut => ?index,
    fun m x n hx hx0 hn hon hcut => ?mantissa⟩
  case nsb => rw [spectrumWith_of_raise hpolicy (spectrumBody_cut_nsb c hcut), endErr_overran_zero]
  case mode => rw [spectrumWith_of_raise hpolicy (spectrumBody_cut_mode c (by omega) hon hcut), endErr_overran_nsb]
  case selector =>
    obtain ⟨sel, hbody, hsel⟩ := spectrumBody_cut_sel horder hb hm hon hcut
    exact ⟨sel, by rw [spectrumWith_of_raise hpolicy hbody, endErr_overran_sel], hsel⟩
  case index =>
    obtain ⟨sel, sfi, hbody, hsel, hsfi⟩ := spectrumBody_cut_sfi horder hb hx hx0 hon hcut
    exact ⟨sel, sfi, by rw [spectrumWith_of_raise hpolicy hbody, endErr_overran_sfi], hsel, hsfi⟩
  case mantissa =>
    obtain ⟨sel, sfi, qm, hbody, hsel, hsfi, hqm⟩ := spectrumBody_cut_mant hT horder hb hx hx0 hn rfl hon hcut
    exact ⟨sel, sfi, qm, by rw [spectrumWith_of_raise hpolicy hbody, endErr_overran_qm], hsel, hsfi, hqm⟩

end Sys2Proof.Machine
end

section
/-! SUPPORT. The TONAL command (43_tonal.md R160 to R170): what a tonal block on the stream, whole or broken off, leaves in TC and TCCOUNT,
how TONAL ends with an error of its body, and the ranges of the components. -/

namespace Sys2Proof.Machine

/-! ### Entries of TC after a command -/

theorem Extends.holds {s t : State} {E : List TcEntry} (h : Extends t.tc s.tc 0 E) {k : Nat} (hk : k < E.length) : holdsEntry t k E[k] := by
  obtain ⟨hentries, -⟩ := h
  have hentry := hentries k hk
  rwa [Nat.zero_add] at hentry

theorem Extends.above {m m0 : Memory Word} {E : List TcEntry} (h : Extends m m0 0 E) {a : Nat} (ha : 12 * E.length ≤ a) :
    m.read a = m0.read a := by
  obtain ⟨-, hframe⟩ := h
  exact hframe a (.inr (by omega))

/-- A component that breaks off changes its own entry only: those before it are held as they were. -/
theorem Extends.holds_of_halfRead {s t : State} {m0 : Memory Word} {E : List TcEntry} {pos ncoef sfi qs : Nat} {vs : List Int}
    (h : Extends m0 s.tc 0 E) (hh : HalfRead t.tc m0 E.length pos ncoef sfi qs vs) {k : Nat} (hk : k < E.length) :
    holdsEntry t k E[k] := by
  obtain ⟨-, -, -, -, -, hframe⟩ := hh
  exact EntryIn.congr (h.holds (t := { s with tc := m0 }) hk) fun a ha => hframe a (.inl (by omega))

/-! ### How TONAL ends -/

/-- A command that ends without an error has a value of its pseudocode. -/
theorem exec_next_no_error {i : Instr} {s t : State} (h : exec i s = .next t) (herr : t.err = false) :
    ∃ v u, commandBody machineConfig i s = .ok v u ∧ t = u.endOk v := by
  rcases everyCommandEndsDoneOrWithAnError i s t h with ⟨-, ⟨hdone, -⟩ | ⟨herr', -⟩⟩
  · exact exec_next_done h hdone
  · exact absurd herr' (by simp [herr])

/-- The registers after an error of TONAL's body, whatever the abort policy (60_exceptions.md R211, R214, R215). -/
theorem exec_tonal_of_raise {nb : BitVec 2} {s u : State} {e : Err} {p : BitPos} {q r : Nat}
    (h : tonalBody machineConfig nb.toNat s = .raise e p u) (hp : p.toNat = q) (hu : u.bitpos.toNat = r) :
    ∃ t, exec (.tonal nb) s = .next t ∧ t.busy = false ∧ t.done = false ∧ t.err = true ∧ t.errcode = e.code ∧
      t.errpos.toNat = q ∧ t.bitpos.toNat = r ∧ t.result = s.result := by
  obtain ⟨t, hexec, hbusy, hdone, herr, hcode, herrpos, hbitpos⟩ := exec_raised (i := .tonal nb) rfl h
  rcases everyCommandEndsDoneOrWithAnError _ s t hexec with ⟨-, ⟨hdone', -⟩ | ⟨-, -, -, -, hresult⟩⟩
  · exact absurd hdone' (by simp [hdone])
  · exact ⟨t, hexec, hbusy, hdone, herr, hcode, by rw [herrpos, hp], by rw [hbitpos, hu], hresult⟩

/-- Under LEAVE_MUTATED an error of the body is all that TONAL adds to what the body wrote (60_exceptions.md R214, R217). -/
theorem tonalWith_of_raise {c : Config} (hpolicy : c.abortPolicy = .leaveMutated) {nb : BitVec 2} {s u : State} {e : Err} {p : BitPos}
    (h : tonalBody c nb.toNat s = .raise e p u) : tonalWith c nb s = .next (u.endErr e p) := by
  rw [tonalWith, h, endCommand_raise_leave hpolicy]

/-- A bit position up to BITLEN fits the position registers. -/
theorem toNat_ofNat_of_le_bitlen {s : State} {p : Nat} (h : p ≤ s.bitlen.toNat) : (BitVec.ofNat 17 p).toNat = p := setBitpos_toNat s h

/-! ### A whole block -/

theorem blockOk_shape {nb : Nat} {b : TonalBlock} (h : b.ok referenceTables nb = true) :
    b.shape referenceTables nb = true ∧ (b.entries referenceTables).length ≤ 64 := by
  simp only [TonalBlock.ok, Bool.and_eq_true, decide_eq_true_eq] at h
  exact h

/-- Settles O35: the body reads the block that stands on the stream, and what a TONAL without error has read stood there. -/
theorem tonalParsesTheTonalBlock : Obligations.TonalParsesTheTonalBlock := by
  refine ⟨fun s nb b hb hon => ?_, fun s t nb h herr => ?_⟩
  · obtain ⟨hshape, h64⟩ := blockOk_shape hb
    obtain ⟨tc, hbody, htc⟩ := (tonalBody_spelled (c := machineConfig) rfl hshape hon).1 h64
    exact ⟨tc, commandWith_of_ok (c := machineConfig) (i := .tonal nb) rfl hbody, fun k hk => htc.holds hk, fun a ha => htc.above ha⟩
  · obtain ⟨v, u, hbody, -⟩ := exec_next_no_error h herr
    exact tonalBody_stood rfl hbody

/-- With NC = 0 the body reads nothing more (43_tonal.md R161). -/
theorem tonalBody_nc_zero (c : Config) (nb : Nat) {s : State} (h : onStream s (natBits 5 0) = true) :
    tonalBody c nb s = .ok 0#32 ((s.setTccount 0).setBitpos (s.bitpos.toNat + 5)) := by
  rw [tonalBody, readBits_spelled (by decide) ((onStream_setTccount s 0 _).trans h), Res.andThen_ok, if_pos rfl]
  rfl

/-- Settles O36: the five bits are an NC of 0. -/
theorem tonalWithoutComponentsReadsFiveBits : Obligations.TonalWithoutComponentsReadsFiveBits :=
  fun _ nb hon => commandWith_of_ok (c := machineConfig) (i := .tonal nb) rfl (tonalBody_nc_zero machineConfig nb.toNat hon)

/-! ### The errors of a block -/

/-- Settles O37: the body raises at the selector's first bit, before it writes TC. -/
theorem tonalModeTwoRaisesTonalMode : Obligations.TonalModeTwoRaisesTonalMode := by
  intro s nb nc h1 h32 hon
  have hbody (c : Config) := tonalBody_mode c nb.toNat h1 h32 hon
  have hle := onStream_le hon
  rw [List.length_append, natBits_length] at hle
  exact ⟨exec_tonal_of_raise (hbody machineConfig) (toNat_ofNat_of_le_bitlen (s := s) (by omega)) (setBitpos_toNat s hle),
    fun c hpolicy => tonalWith_of_raise hpolicy (hbody c)⟩

/-- Settles O38: the declared components before are read, and the body raises at the index's first bit. -/
theorem tonalQstepBelowTwoRaisesTonalQstep : Obligations.TonalQstepBelowTwoRaisesTonalQstep := by
  rintro s nb nc cms cv qs p before flags es hnc hlt h4 h2 hok rfl h64 hflags hcv hqs hon hp
  have hle := onStream_le hon
  simp only [List.length_append, natBits_length] at hle
  simp only [List.append_assoc] at hon
  have hbody (c : Config) (hT : c.tables = referenceTables) := tonalBody_qstep hT hnc hlt h4 h2 hok h64 hflags hcv hqs hon hp
  constructor
  · obtain ⟨tc, hraise, -⟩ := hbody machineConfig rfl
    exact exec_tonal_of_raise hraise (toNat_ofNat_of_le_bitlen (s := s) (by omega)) (setBitpos_toNat s (by omega))
  · intro c hT hpolicy
    obtain ⟨tc, hraise, htc⟩ := hbody c hT
    exact ⟨tc, tonalWith_of_raise hpolicy hraise, fun k hk => htc.holds hk, fun a ha => htc.above ha⟩

/-- Settles O39: the body raises at the 65th component's index, with TC holding the 64 components before it. -/
theorem tonalCapStopsAtTheSixtyFifth : Obligations.TonalCapStopsAtTheSixtyFifth := by
  refine ⟨fun s nb b hb hmany hon => ?whole, fun s nb b hb n g p xs r x es q hg hxs hx hes h64 hon hq => ?upToIndex⟩
  case whole =>
    have hle := onStream_le hon
    have hbody (c : Config) (hT : c.tables = referenceTables) := (tonalBody_spelled hT hb hon).2 hmany
    constructor
    · obtain ⟨i, p, tc, hraise, rfl, -, hp, -⟩ := hbody machineConfig rfl
      obtain ⟨t, hexec, hbusy, hdone, herr, hcode, herrpos, hbitpos, hresult⟩ :=
        exec_tonal_of_raise hraise rfl (setBitpos_toNat s (p := i.toNat + 6) (by omega))
      exact ⟨t, hexec, hbusy, hdone, herr, hcode, by rw [hbitpos, herrpos], hresult⟩
    · intro c hT hpolicy
      obtain ⟨i, p, tc, hraise, -, -, -, htc⟩ := hbody c hT
      refine ⟨_, tonalWith_of_raise hpolicy hraise, rfl, rfl, fun k hk hk64 => ?_⟩
      have hheld := htc.holds (t := (((s.setBitpos p).withTc tc).setTccount 64).endErr .tonalCap i) (k := k)
        (by rw [List.length_take]; omega)
      rwa [List.getElem_take] at hheld
  case upToIndex =>
    have hle := onStream_le hon
    rw [List.length_append, natBits_length] at hle
    subst hes hq
    have hbody (c : Config) (hT : c.tables = referenceTables) := tonalBody_cap hT hb hg hxs hx h64 rfl hon
    constructor
    · obtain ⟨tc, hraise, -⟩ := hbody machineConfig rfl
      exact exec_tonal_of_raise hraise (toNat_ofNat_of_le_bitlen (s := s) (by omega)) (setBitpos_toNat s (by omega))
    · intro c hT hpolicy
      obtain ⟨tc, hraise, htc⟩ := hbody c hT
      have hend := tonalWith_of_raise hpolicy hraise
      rw [endErr_tc] at hend
      exact ⟨tc, hend, fun k hk => htc.holds hk, fun a ha => htc.above (by omega)⟩

/-! ### A block that breaks off at BITLEN -/

/-- Settles O40: each kind of field breaks off the body where it stands, and the abort policy leaves what the body wrote before it. -/
theorem tonalKeepsEarlierComponentsOnOverrun : Obligations.TonalKeepsEarlierComponentsOnOverrun := by
  intro c s nb b hT hpolicy hb
  obtain ⟨h31, -, -, hgroups⟩ := blockShape_spec hb
  refine ⟨fun hcut => ?nc, fun hne hon hcut => ?cms, fun n g bits es w hg hboundary h64 hon hcut => ?boundary,
    fun n g p xs r x bits es hg hxs hx hbits hes h64 hon hcut => ?place,
    fun n g p j xs r x m bits es hg hj hxs hx hm hbits hes h64 hon hcut => ?mantissa⟩
  case nc => rw [tonalWith_of_raise hpolicy (tonalBody_cut_nc c nb.toNat hcut), ← endErr_overran_zero]; rfl
  case cms =>
    have hne : b.groups.length ≠ 0 := fun h => hne (List.length_eq_zero_iff.1 h)
    exact tonalWith_of_raise hpolicy (tonalBody_cut_cms c nb.toNat hne (by omega) hon hcut)
  case boundary =>
    obtain ⟨tc, hraise, htc⟩ := tonalBody_cut_boundary hT hb hg hboundary h64 hon hcut
    exact ⟨tc, by rw [tonalWith_of_raise hpolicy hraise, endErr_overran_tc], fun k hk => htc.holds hk, fun a ha => htc.above ha⟩
  case place =>
    subst hbits hes
    obtain ⟨tc, hraise, htc⟩ := tonalBody_cut_place hT hb hg hxs hx h64 rfl hon hcut
    exact ⟨tc, by rw [tonalWith_of_raise hpolicy hraise, endErr_overran_tc], fun k hk => htc.holds hk, fun a ha => htc.above ha⟩
  case mantissa =>
    obtain ⟨-, -, h2, -⟩ := groupOk_spec (hgroups g (List.mem_of_getElem? hg))
    have hdelivered : (mantValues referenceTables g.qs g.mode (x.codes.take m)).length = m := by
      rw [mantValues_length, perCode_of_two_le h2, Nat.mul_one, List.length_take, Nat.min_eq_left (by omega)]
    subst hes
    rw [List.append_assoc (_ ++ natBits 6 x.sfi), List.append_assoc] at hbits
    subst hbits
    obtain ⟨m0, tc, hraise, htc, hhalf⟩ := tonalBody_cut_mant hT hb hg hj hxs hx hm rfl h64 rfl rfl hon hcut
    refine ⟨tc, by rw [tonalWith_of_raise hpolicy hraise, endErr_overran_tc], fun k hk => htc.holds_of_halfRead hhalf hk, ?_⟩
    obtain ⟨hpos, hncoef, hsfi, hqstep, hmants, hframe⟩ := hhalf
    refine ⟨hpos, hncoef, hsfi, hqstep, fun k hk => ?_, fun a ha => ?_⟩
    · rw [hmants k hk, hdelivered, htc.above (by simp only [tcIndex]; omega)]
      rfl
    · rw [hframe a (.inr (by omega)), htc.above (by omega)]

/-! ### The ranges of a component -/

/-- The fields of a component of a TONAL with operand `nb` are in their ranges (43_tonal.md R165, R169, 10_state.md R40). -/
structure TcEntry.InRange (nb : Nat) (e : TcEntry) : Prop where
  pos : e.pos < 256 * (nb + 1)
  ncoef_pos : 1 ≤ e.ncoef
  ncoef_le : e.ncoef ≤ 8
  end_le : e.pos + e.ncoef ≤ 1024
  sfi : e.sfi < 64
  qstep_ge : 2 ≤ e.qstep
  qstep_le : e.qstep ≤ 7
  mants_length : e.mants.length = e.ncoef
  mants_range : ∀ v ∈ e.mants, -32 ≤ v ∧ v ≤ 31

/-- A quarter-band position whose band flag is set lies in a band that has a flag. -/
theorem lt_of_mem_activePositions {flags : List Bool} {j : Nat} (h : j ∈ activePositions flags) : j < 4 * flags.length := by
  rw [activePositions, List.mem_filter, List.mem_range] at h
  exact h.1

/-- The entry of a well-formed component, at a position in the first `nb + 1` of at most 4 bands. -/
theorem TonalComp.entry_inRange {cv qs j nb : Nat} {mode : CodingMode} {x : TonalComp} (hx : x.ok referenceTables cv qs mode j = true)
    (hcv : cv < 8) (h2 : 2 ≤ qs) (h8 : qs < 8) (hj : j < 4 * (nb + 1)) (hnb : nb < 4) :
    (x.entry referenceTables cv qs mode j).InRange nb := by
  simp only [TonalComp.ok, Bool.and_eq_true, decide_eq_true_eq, List.all_eq_true] at hx
  obtain ⟨⟨⟨hsfi, hplace⟩, hlen⟩, hcodes⟩ := hx
  have hcount : coefCount cv j x.place = min (1024 - (64 * j + x.place)) (cv + 1) := rfl
  constructor <;> simp only [TonalComp.entry]
  case mants_length => rw [mantValues_length, perCode_of_two_le h2, Nat.mul_one, hlen]
  case mants_range =>
    intro v hv
    obtain ⟨raw, hraw, hv⟩ := List.mem_flatMap.1 hv
    exact ValueOk.range ⟨raw, hcodes raw hraw, hv⟩ (by omega) h8
  all_goals omega

/-- Every entry of a well-formed block is that of one of its components. -/
theorem TonalBlock.entries_inRange {nb : Nat} {b : TonalBlock} (hb : b.shape referenceTables nb = true) (hnb : nb < 4) {e : TcEntry}
    (he : e ∈ b.entries referenceTables) : e.InRange nb := by
  obtain ⟨-, -, -, hgroups⟩ := blockShape_spec hb
  obtain ⟨g, hg, he⟩ := List.mem_flatMap.1 he
  obtain ⟨⟨j, xs⟩, hjx, he⟩ := List.mem_flatMap.1 he
  obtain ⟨x, hx, rfl⟩ := List.mem_map.1 he
  obtain ⟨hflags, hcv, h2, h8, -, -, hcomps⟩ := groupOk_spec (hgroups g hg)
  have hj := lt_of_mem_activePositions (List.of_mem_zip hjx).1
  rw [hflags] at hj
  exact TonalComp.entry_inRange ((hcomps _ hjx).2 x hx) hcv h2 h8 hj hnb

/-- A TONAL that ends with DONE leaves the components of a block it accepts in TC, and their number in TCCOUNT and RESULT. -/
theorem tonal_done_holds {nb : BitVec 2} {s t : State} (h : exec (.tonal nb) s = .next t) (hd : t.done = true) :
    ∃ b : TonalBlock, b.ok referenceTables nb.toNat = true ∧ t.tccount = BitVec.ofNat 7 (b.entries referenceTables).length ∧
      t.result = BitVec.ofNat 32 (b.entries referenceTables).length ∧
      ∀ k (hk : k < (b.entries referenceTables).length), holdsEntry t k (b.entries referenceTables)[k] := by
  obtain ⟨v, u, -, rfl⟩ := exec_next_done h hd
  obtain ⟨b, hb, hon⟩ := tonalParsesTheTonalBlock.2 s _ nb h rfl
  obtain ⟨tc, hexec, hheld, -⟩ := tonalParsesTheTonalBlock.1 s nb b hb hon
  rw [h] at hexec
  rw [Host.Outcome.next.inj hexec]
  exact ⟨b, hb, rfl, rfl, hheld⟩

/-- Settles O41: a successful TONAL leaves the components of a well-formed block, whose entries are in their ranges. -/
theorem tonalEntriesAreInRange : Obligations.TonalEntriesAreInRange := by
  intro s t nb h hd
  obtain ⟨b, hb, hcount, hresult, hheld⟩ := tonal_done_holds h hd
  obtain ⟨hshape, h64⟩ := blockOk_shape hb
  have hcount : t.tccount.toNat = (b.entries referenceTables).length := by rw [hcount, BitVec.toNat_ofNat]; omega
  refine ⟨by omega, by rw [hcount, hresult, BitVec.toNat_ofNat]; omega, fun k hk => ?_⟩
  rw [hcount] at hk
  obtain ⟨hpos, hn1, hn8, hend, hsfi, hq2, hq7, hlen, hmants⟩ := TonalBlock.entries_inRange hshape nb.isLt (List.getElem_mem hk)
  exact ⟨_, hheld k hk, hpos, hn1, hn8, hend, hsfi, hq2, hq7, hlen, hmants⟩

end Sys2Proof.Machine
end

section
/-! SUPPORT. The registers as the host writes and reads them (44_control.md R190 to R197): one step for each register, what a soft reset
leaves (R195, 70_reset_and_hazards.md R242), and the bits of SPECINFO and TCCOUNT (10_state.md R31, R32). -/

namespace Sys2Proof.Machine

/-! ### Writes of the registers -/

/-- A 32-bit write of a register (10_state.md R24), whether BUSY is 0 or 1. -/
theorem step_write_reg {s : State} (r : Reg) {v : Word} {rest : List Turn} (h : s.agenda = .host (.write r.offset .w32 v) :: rest) :
    step s = .next (writeReg machineConfig r v (s.withAgenda rest)) := by
  rw [step_host h, hostWrite_reg]

theorem writeReg_cmd_idle (c : Config) (v : Word) {s : State} (hb : s.busy = false) : writeReg c .cmd v s = s.issue v :=
  if_neg (by simp [hb])

theorem writeReg_bitpos_idle (c : Config) (v : Word) {s : State} (hb : s.busy = false) :
    writeReg c .bitpos v s = { s with bitpos := v.extractLsb' 0 17 } := by
  rw [writeReg, if_neg (by simp [hb]), State.setBitpos, BitVec.ofNat_toNat, BitVec.setWidth_eq]

theorem writeReg_bitlen_idle (c : Config) (v : Word) {s : State} (hb : s.busy = false) : writeReg c .bitlen v s = s.setBitlen c v :=
  if_neg (by simp [hb])

/-- A register that takes writes only while BUSY = 0 (44_control.md R191, R192). -/
theorem writeReg_input_busy (c : Config) {r : Reg} (hr : r = .cmd ∨ r = .bitpos ∨ r = .bitlen) (v : Word) {s : State} (hb : s.busy = true) :
    writeReg c r v s = s.setOvr := by
  rcases hr with rfl | rfl | rfl <;> exact if_pos hb

/-- A write to FB, or above a smaller FB, is ignored (44_control.md R192; log 18). -/
theorem writeRegion_input_busy (c : Config) {off : Nat} (hlo : 0x1000 ≤ off) (hhi : off < 0x3000) (w : Width) (v : Word) {s : State}
    (hb : s.busy = true) : writeRegion c (regionOf c off) w v s = s.setOvr := by
  rw [regionOf_inputs (by omega), if_neg (by omega), if_neg (by omega)]
  by_cases hfb : off < 0x1000 + c.maxFrameBytes
  · rw [if_pos hfb]; exact if_pos hb
  · rw [if_neg hfb, if_pos hhi]; exact if_pos hb

/-- WR BITLEN is clamped to the bits of FB, which 17 bits can hold (44_control.md R194). -/
theorem setBitlen_toNat {c : Config} (hc : c.maxFrameBytes ≤ 8192) (s : State) (v : Word) :
    (s.setBitlen c v).bitlen.toNat = min (v.extractLsb' 0 17).toNat (8 * c.maxFrameBytes) := by
  rw [State.setBitlen_bitlen, BitVec.toNat_ofNat]
  have hbits : 8 * c.maxFrameBytes ≤ 8 * 8192 := Nat.mul_le_mul_left 8 hc
  exact Nat.mod_eq_of_lt (by omega)

/-- A 1 clears a flag, a 0 keeps it (44_control.md R193). -/
theorem ackStatus_eq (s : State) (v : Word) : s.ackStatus v = { s with
    done := if v.getLsbD 1 then false else s.done
    err := if v.getLsbD 2 then false else s.err
    ovr := if v.getLsbD 3 then false else s.ovr } := by
  simp only [State.ackStatus, Bool.if_false_left, Bool.decide_eq_true, Bool.and_comm]

/-- Settles O42: the write of CMD is `issue` or `setOvr`. -/
theorem cmdWriteIssuesOrSetsOvr : Obligations.CmdWriteIssuesOrSetsOvr := by
  intro s w rest hag
  rw [step_write_reg .cmd hag]
  refine ⟨fun hb => ?_, fun hb => ?_⟩
  · rw [writeReg_cmd_idle _ _ (by exact hb)]; rfl
  · rw [writeReg_input_busy _ (.inl rfl) _ (by exact hb)]; rfl

/-- Settles O43: `setOvr` at every offset that R192 names, whichever side of the end of FB it lies. -/
theorem inputWritesWhileBusySetOvr : Obligations.InputWritesWhileBusySetOvr := by
  intro s off w v rest hb hag h
  rcases h with ⟨hlo, hhi, hal⟩ | ⟨rfl | rfl, rfl⟩
  · rw [step_write hag (accessFault_eq_none (by omega) hal (.inr (by omega))), writeRegion_input_busy _ hlo hhi _ _ (by exact hb)]; rfl
  · rw [step_write_reg .bitpos hag, writeReg_input_busy _ (.inr (.inl rfl)) _ (by exact hb)]; rfl
  · rw [step_write_reg .bitlen hag, writeReg_input_busy _ (.inr (.inr rfl)) _ (by exact hb)]; rfl

/-- Settles O44: the write of STATUS is `ackStatus`. -/
theorem statusWriteClearsTheMarkedBits : Obligations.StatusWriteClearsTheMarkedBits := by
  intro s v rest hag
  rw [step_write_reg .status hag, writeReg, ackStatus_eq]
  rfl

/-- Settles O45: BITPOS takes the field as it is, BITLEN clamped. -/
theorem positionWritesStoreAndClamp : Obligations.PositionWritesStoreAndClamp := by
  intro s v rest hb
  refine ⟨fun hag => ?_, fun hag => ⟨_, step_write_reg .bitlen hag, ?_⟩⟩
  · rw [step_write_reg .bitpos hag, writeReg_bitpos_idle _ _ (by exact hb)]; rfl
  · rw [writeReg_bitlen_idle _ _ (by exact hb)]
    exact ⟨rfl, setBitlen_toNat machine_frameBytes.2 _ v⟩

/-- Settles O47: the write of CTRL without SRST is `setIe`. -/
theorem ctrlWriteSetsInterruptEnable : Obligations.CtrlWriteSetsInterruptEnable := by
  intro s v rest hv hag
  rw [step_write_reg .ctrl hag, writeReg, if_neg (Bool.eq_false_iff.1 hv)]
  rfl

/-! ### Soft reset -/

theorem abandon_idle {s : State} (hb : s.busy = false) : s.abandon = s := if_neg (by simp [hb])

theorem abandon_agenda (s : State) : s.abandon.agenda = s.agenda := by
  rcases abandon_cases s with h | ⟨i, -, -, h⟩ <;> rw [h]
  obtain ⟨-, -, -, -, hagenda⟩ := (drawOutputs_same s i).inputs
  exact hagenda

/-- Abandoning a command changes only outputs it may write (44_control.md R195; log 14). -/
theorem abandon_outputs (s : State) :
    (decode s.pending ≠ .ok .spectrum → s.abandon.qm = s.qm ∧ s.abandon.sel = s.sel ∧ s.abandon.sfi = s.sfi) ∧
    ((∀ nb, decode s.pending ≠ .ok (.tonal nb)) → s.abandon.tc = s.tc) ∧
    (∀ k, (∀ sel mode cnt, decode s.pending = .ok (.mant sel mode cnt) → cnt.toNat ≤ k) → s.abandon.mbuf.read k = s.mbuf.read k) := by
  rcases abandon_cases s with h | ⟨i, -, hd, h⟩ <;> rw [h]
  · exact ⟨fun _ => ⟨rfl, rfl, rfl⟩, fun _ => rfl, fun _ _ => rfl⟩
  · obtain ⟨hspectrum, htonal, hmant⟩ := drawOutputs_outputs s i
    simp only [hd, ne_eq, Except.ok.injEq]
    refine ⟨fun hi => ?_, fun hi => (htonal hi).1, hmant⟩
    obtain ⟨hqm, hsel, hsfi, -, -⟩ := hspectrum hi
    exact ⟨hqm, hsel, hsfi⟩

/-- Settles O46: `clearRegisters` leaves every register 0 and no buffer changed, so the buffers are as `abandon` left them. -/
theorem softResetClearsTheRegisters : Obligations.SoftResetClearsTheRegisters := by
  intro s v rest hv hag
  obtain ⟨hspectrum, htonal, hmant⟩ := abandon_outputs (s.withAgenda rest)
  refine ⟨(s.withAgenda rest).softReset, ?_, regWord_clearRegisters _, rfl, (softReset_fb_pending _).1, abandon_agenda _, fun hb => ?_,
    hspectrum, htonal, hmant⟩
  · rw [step_write_reg .ctrl hag, writeReg, if_pos hv]
  · rw [State.softReset, abandon_idle (by exact hb)]
    exact ⟨rfl, rfl, rfl, rfl, rfl⟩

/-! ### Reads of the registers while BUSY = 0 -/

/-- A 32-bit read of a register while BUSY = 0 (44_control.md R196). -/
theorem step_read_reg_idle {s : State} (r : Reg) {rest : List Turn} (hb : s.busy = false) (h : s.agenda = .host (.read r.offset .w32) :: rest) :
    step s = .next ((s.withAgenda rest).setRdata (regWord (s.withAgenda rest) r)) := by
  rw [step_host h, hostRead_reg, show (s.withAgenda rest).busy = false from hb, Bool.false_and, if_neg Bool.false_ne_true]

/-- `regAt` names the register of each word of the register window (10_state.md R24). -/
theorem offset_regAt {off : Nat} (h4 : off % 4 = 0) (h : off ≤ 0x020) : (regAt (off / 4)).offset = off := by
  obtain ⟨q, rfl⟩ : ∃ q, off = 4 * q := ⟨off / 4, by omega⟩
  rw [Nat.mul_div_cancel_left q (by decide)]
  have hq : q ≤ 8 := by omega
  interval_cases q <;> rfl

/-- TCCOUNT in the low 7 bits of its register (10_state.md R32). -/
theorem tccount_bits (n : BitVec 7) : (n.setWidth 32).extractLsb' 0 7 = n ∧ (n.setWidth 32).extractLsb' 7 25 = 0#25 := by
  rw [BitVec.setWidth_eq_append (by decide)]
  exact ⟨BitVec.extractLsb'_append_eq_right, BitVec.extractLsb'_append_eq_left⟩

/-- The fields of SPECINFO at their bits, and 0 between and above them (10_state.md R31). -/
theorem specinfoWord_bits (s : State) : (specinfoWord s).extractLsb' 0 5 = s.nsb ∧ (specinfoWord s).getLsbD 8 = s.specMode ∧
    (specinfoWord s).extractLsb' 5 3 = 0#3 ∧ (specinfoWord s).extractLsb' 9 23 = 0#23 := by
  unfold specinfoWord
  refine ⟨BitVec.extractLsb'_append_eq_right, ?_, ?_, ?_⟩
  · rw [BitVec.getLsbD_append, BitVec.getLsbD_append, BitVec.getLsbD_append]
    simp
  · rw [BitVec.extractLsb'_append_eq_of_le (by decide)]
    exact BitVec.extractLsb'_append_eq_right
  · rw [BitVec.extractLsb'_append_eq_of_le (by decide), BitVec.extractLsb'_append_eq_of_le (by decide)]
    exact BitVec.extractLsb'_append_eq_left

/-- Settles O49: the read returns `regWord` of the register at the offset, whose fields stand at their bits. -/
theorem registerReadsReturnTheFields : Obligations.RegisterReadsReturnTheFields := by
  intro s off rest hb hag h4 hoff
  have hstep := step_read_reg_idle (regAt (off / 4)) hb ((offset_regAt h4 hoff).symm ▸ hag)
  refine ⟨_, hstep, ?_, ?_, ?_, ?_, ?_, ?_, ?_, ?_, ?_⟩ <;> rintro rfl
  · rfl
  · obtain ⟨hbusy, hbits⟩ := statusWord_bits (s.withAgenda rest)
    exact ⟨hbusy.trans hb, hbits⟩
  · exact ctrlWord_bits (s.withAgenda rest)
  · exact setWidth_bits s.bitpos
  · exact setWidth_bits s.bitlen
  · rfl
  · exact specinfoWord_bits (s.withAgenda rest)
  · exact tccount_bits s.tccount
  · exact setWidth_bits s.errpos

end Sys2Proof.Machine
end

section
/-! SUPPORT. Exceptions (60_exceptions.md): which errors a command of this machine can report and where each leaves the bit pointer (R211,
R212, R215), what ABORT_POLICY decides (R217), and the commands that stop at a bit never written (R224, 10_state.md R41). -/

namespace Sys2Proof.Machine

/-! ### Commands that stop -/

/-- No command of this machine is without a meaning: `exec` answers a next state or a fault. -/
theorem exec_next_or_fault (i : Instr) (s : State) : (∃ t, exec i s = .next t) ∨ ∃ f, exec i s = .fault f := by
  by_cases hw : i.wf = true
  · rw [exec_of_wf hw]
    cases commandBody machineConfig i s with
    | ok v u => exact .inl ⟨_, rfl⟩
    | raise e p u => exact .inl ⟨_, rfl⟩
    | fault f => exact .inr ⟨f, rfl⟩
  · exact .inl ⟨_, exec_of_not_wf hw s⟩

/-- Settles O17: a command that stopped would have come to a bit never written, which a loaded frame has not. -/
theorem loadedFrameNeverStopsACommand : Obligations.LoadedFrameNeverStopsACommand := by
  intro i s hloaded
  rcases exec_next_or_fault i s with hnext | ⟨f, hfault⟩
  · exact hnext
  · obtain ⟨-, hahead⟩ := exec_fault hfault
    exact absurd hloaded hahead.not_loaded

/-- The machine has the reference tables (log 4). -/
theorem machine_tables : machineConfig.tables = referenceTables := rfl

/-- A fault of the pseudocode stops the command. -/
theorem exec_of_body_fault {i : Instr} {s : State} {f : Fault} (hw : i.wf = true) (h : commandBody machineConfig i s = .fault f) :
    exec i s = .fault f := by
  rw [exec_of_wf hw, h, endCommand]

section Unwritten

variable {s : State} {k : Nat} (hu : s.fb.read ((s.bitpos.toNat + k) / 8) = none)
include hu

/-- RDBITS and RDSBITS are one field (40_bitread.md R102, R105); one that has a bit never written is not empty. -/
theorem exec_field_unwritten {n : BitVec 6} (hn : n.toNat ≤ 32) (hle : s.bitpos.toNat + n.toNat ≤ s.bitlen.toNat) (hk : k < n.toNat) :
    exec (.rdbits n) s = .fault .fbUnwritten ∧ exec (.rdsbits n) s = .fault .fbUnwritten := by
  have hread := readBits_unwritten hle hk hu
  refine ⟨exec_of_body_fault ((wf_rdbits n).2 hn) ?_, exec_of_body_fault ((wf_rdsbits n).2 ⟨by omega, hn⟩) ?_⟩
  · rw [commandBody, hread, Res.andThen_fault]
  · rw [commandBody, readSBits, hread, Res.andThen_fault, Res.andThen_fault]

/-- SPECTRUM and TONAL begin with a field of five bits (30_encoding.md R88, R89). -/
theorem exec_block_unwritten (hle : s.bitpos.toNat + 5 ≤ s.bitlen.toNat) (hk : k < 5) :
    exec .spectrum s = .fault .fbUnwritten ∧ ∀ nb, exec (.tonal nb) s = .fault .fbUnwritten := by
  refine ⟨exec_of_body_fault rfl ?_, fun nb => exec_of_body_fault rfl ?_⟩
  · rw [commandBody, spectrumBody, readBits_unwritten hle hk hu, Res.andThen_fault]
  · rw [commandBody, tonalBody, readBits_unwritten (s := s.setTccount 0) hle hk hu, Res.andThen_fault]

end Unwritten

/-- MANT stops where its first code does, for legal operands ask for one code at least (41_mantissa.md R120, R130). -/
theorem exec_mant_of_code_fault {sel : BitVec 3} {mode : CodingMode} {cnt : BitVec 8} {s : State} {f : Fault}
    (hw : (Instr.mant sel mode cnt).wf = true) (h : readCode referenceTables sel.toNat mode s = .fault f) :
    exec (.mant sel mode cnt) s = .fault f := by
  obtain ⟨-, hcnt, -⟩ := (wf_mant sel mode cnt).1 hw
  obtain ⟨-, hcount⟩ := mant_wf_bounds hw
  obtain ⟨n, hn⟩ : ∃ n, codeCount sel.toNat cnt.toNat = n + 1 :=
    Nat.exists_eq_succ_of_ne_zero fun h0 => hcnt (BitVec.eq_of_toNat_eq (hcount.symm.trans (by rw [h0, Nat.zero_mul]; rfl)))
  refine exec_of_body_fault hw ?_
  rw [commandBody, mantBody, mantExtract, hn, mantCodes, machine_tables, h, Res.andThen_fault, Res.andThen_fault]

/-- Settles O18: a fault means a bit never written ahead; BITPOS moves over written bits only (`Underway`); and the pseudocode of each
command named begins with a field or codeword that faults at such a bit. -/
theorem unwrittenBitsStopACommand : Obligations.UnwrittenBitsStopACommand := by
  refine ⟨fun i s f h => exec_fault h, fun i s t h => ?next, fun n s k hn hle hk hu => exec_field_unwritten hu hn hle hk,
    fun s hle hu => ?bit, fun t s c k ht hc hk hspells hlt hu => ?codeword, fun sel cnt s k hw hle hk hu => ?clc,
    fun s k hle hk hu => exec_block_unwritten hu hle hk⟩
  case next =>
    obtain ⟨u, hu, hpos, -, -⟩ := exec_next_inputs h
    rw [hpos]
    exact hu.read
  case bit =>
    exact exec_of_body_fault rfl (by rw [commandBody, readBits_unwritten hle Nat.zero_lt_one hu, Res.andThen_fault])
  case codeword =>
    have hdecode := huffDecode_unwritten ht t.isLt hc hk hspells hlt hu
    refine ⟨exec_of_body_fault (decide_eq_true ht) ?_, fun cnt hw => exec_mant_of_code_fault hw hdecode⟩
    rw [commandBody, machine_tables, hdecode, Res.andThen_fault]
  case clc =>
    refine exec_mant_of_code_fault hw ?_
    rw [readCode, if_neg (by omega), readBits_unwritten hle hk hu]

/-! ### The errors of a command -/

/-- With the reference tables E_BADCODE is no error of a command, and only TONAL has errors beside E_OVERRUN (60_exceptions.md R211, R212,
30_encoding.md R86). -/
theorem commandErr_reference {i : Instr} {e : Err} (h : commandErr referenceTables i e) :
    e = .overrun ∨ (∃ nb, i = .tonal nb) ∧ (e = .tonalMode ∨ e = .tonalQstep ∨ e = .tonalCap) := by
  have hread : readErr referenceTables e → e = .overrun := fun h => h.resolve_right fun ⟨_, hne⟩ => hne rfl
  cases i with
  | tonal nb => exact h.imp hread fun h => ⟨⟨nb, rfl⟩, h⟩
  | rdbits _ | rdsbits _ | rdbit => exact .inl h
  | huff _ | mant _ _ _ | spectrum => exact .inl (hread h)

/-- Settles O19: an illegal operand is one ending, and the errors of the pseudocode are those of `commandErr`. -/
theorem errorsAreThoseOfTheCommand : Obligations.ErrorsAreThoseOfTheCommand := by
  intro i s t h herr
  rcases exec_next_underway h with ⟨hw, rfl⟩ | ⟨hw, ⟨v, u, -, rfl⟩ | ⟨e, p, u, -, he, -, -, ht⟩⟩
  · exact .inl ⟨rfl, hw⟩
  · cases herr
  · obtain ⟨-, -, -, hcode, -⟩ := ht.registers
    rw [State.endErr_errcode] at hcode
    rw [hcode]
    refine .inr ⟨hw, ?_⟩
    rcases commandErr_reference he with rfl | ⟨hi, rfl | rfl | rfl⟩
    · exact .inl rfl
    · exact .inr ⟨hi, .inl rfl⟩
    · exact .inr ⟨hi, .inr (.inl rfl)⟩
    · exact .inr ⟨hi, .inr (.inr rfl)⟩

theorem SameButOutputs.errpos {s t : State} (h : SameButOutputs s t) : t.errpos = s.errpos := by rw [h]

/-- Settles O20: `ErrAt` says for each error of the pseudocode where BITPOS stands, and E_ILLEGAL_CMD is raised where the command began. -/
theorem errorsLeaveBitposByTheirCode : Obligations.ErrorsLeaveBitposByTheirCode := by
  intro c i s t h herr
  rcases command_next_underway h with ⟨-, rfl⟩ | ⟨-, ⟨v, u, -, rfl⟩ | ⟨e, p, u, -, -, hat, hlo, ht⟩⟩
  · simp [Err.code]
  · cases herr
  · obtain ⟨-, -, -, hcode, -, hpos, -⟩ := ht.registers
    rw [hcode, hpos, ht.errpos]
    cases e with
    | illegalCmd => exact hat.elim
    | overrun | badCode | tonalMode | tonalQstep | tonalCap => simpa [Err.code, ErrAt] using And.intro hat hlo

/-! ### What ABORT_POLICY decides -/

/-- One command under two abort policies ends in one state, or with the same error in states that are `w` but for the outputs. -/
theorem command_two_policies {c : Config} {p q : AbortPolicy} {i : Instr} {s t u : State}
    (ht : commandWith { c with abortPolicy := p } i s = .next t) (hu : commandWith { c with abortPolicy := q } i s = .next u) :
    u = t ∨ ∃ w : State, w.done = false ∧ SameButOutputs w t ∧ SameButOutputs w u := by
  rw [commandWith_eq, commandBody_withPolicy] at ht hu
  by_cases hw : i.wf = true
  · rw [if_pos hw] at ht hu
    cases hbody : commandBody c i s with
    | ok v w =>
      rw [hbody] at ht hu
      cases ht; cases hu
      exact .inl rfl
    | raise e info w =>
      rw [hbody] at ht hu
      cases ht; cases hu
      exact .inr ⟨w.endErr e info, rfl, takeError_same _ i e info w, takeError_same _ i e info w⟩
    | fault f => rw [hbody] at ht; cases ht
  · rw [if_neg hw] at ht hu
    cases ht; cases hu
    exact .inl rfl

/-- Settles O24: the policy acts after the pseudocode, on the outputs of a command that raised. -/
theorem abortPolicyChangesOnlyOutputsOfAbortedCommands : Obligations.AbortPolicyChangesOnlyOutputsOfAbortedCommands := by
  intro c i s t u ht hu
  rcases command_two_policies ht hu with rfl | ⟨w, hw, hwt, hwu⟩
  · simp
  · rw [hwt, hwu]
    exact ⟨rfl, rfl, rfl, rfl, rfl, rfl, rfl, rfl, rfl, rfl, rfl, rfl, fun hdone => absurd (hw.symm.trans hdone) Bool.false_ne_true⟩

end Sys2Proof.Machine
end

section
/-! SUPPORT. Reset and hazards (70_reset_and_hazards.md): what makes an idle block busy (R241), the state that reset leaves (R240), and how
many bits SPECTRUM needs to complete (R255). -/

namespace Sys2Proof.Machine

/-! ### Work starts with a write of CMD -/

/-- Of the registers only CMD issues a command (44_control.md R190 to R197). -/
theorem writeReg_stays_idle {c : Config} {g : Reg} (hg : g ≠ .cmd) (v : Word) {s : State} (hb : s.busy = false) :
    (writeReg c g v s).busy = false := by
  cases g
  case cmd => exact absurd rfl hg
  case ctrl => rw [writeReg]; split_ifs; exacts [rfl, hb]
  case bitpos => rw [writeReg_bitpos_idle c v hb]; exact hb
  case bitlen => rw [writeReg_bitlen_idle c v hb]; exact hb
  all_goals exact hb

/-- Nor does a write outside the registers (44_control.md R198, 20_memory.md R57). -/
theorem writeRegion_stays_idle {c : Config} {r : Region} (hr : r ≠ .reg .cmd) (w : Width) (v : Word) {s : State} (hb : s.busy = false) :
    (writeRegion c r w v s).busy = false := by
  cases r
  case reg g => exact writeReg_stays_idle (fun hg => hr (congrArg Region.reg hg)) v hb
  case fb | aboveFb => rw [writeRegion, if_neg (by simp [hb])]; exact hb
  all_goals exact hb

/-- CMD is reached by a 32-bit write at its own offset only, so an idle block stays idle under any other host access. -/
theorem hostAccess_idle {c : Config} {op : HostOp} {s t : State} (hb : s.busy = false) (h : hostAccess c op s = .next t) :
    t.busy = false ∨ ∃ v : Word, op = .write 0x000 .w32 v := by
  cases op with
  | read off w =>
    rw [hostRead_next h]
    exact .inl hb
  | write off w v =>
    obtain ⟨hf, rfl⟩ := hostWrite_next h
    by_cases hr : regionOf c off = .reg .cmd
    · obtain ⟨rfl, rfl⟩ := regionOf_reg hf hr
      exact .inr ⟨v, rfl⟩
    · exact .inl (writeRegion_stays_idle hr w v hb)

/-- The sequencer does nothing on an idle block and power-on reset leaves BUSY = 0, so a block that does not stay idle was written to by the
host. -/
theorem step_from_idle {s t : State} (hb : s.busy = false) (h : step s = .next t) :
    t.busy = false ∨ ∃ (v : Word) (rest : List Turn), s.agenda = .host (.write 0x000 .w32 v) :: rest := by
  cases ha : s.agenda with
  | nil =>
    rw [step_idle ha, sequencerTurn_of_idle hb] at h
    cases h
    exact .inl hb
  | cons turn rest =>
    cases turn with
    | sequencer =>
      rw [step_sequencer ha, sequencerTurn_of_idle (by exact hb)] at h
      cases h
      exact .inl hb
    | host op =>
      rw [step_host ha] at h
      exact (hostAccess_idle (by exact hb) h).imp_right fun ⟨v, hop⟩ => ⟨v, rest, by rw [hop]⟩
    | powerOn =>
      rw [step_powerOn ha] at h
      cases h
      exact .inl rfl

/-- Settles O6: the sequencer's move leaves an idle block as it is, and a step that makes one busy is the write that `step_from_idle` leaves. -/
theorem onlyACmdWriteStartsWork : Obligations.OnlyACmdWriteStartsWork := by
  refine ⟨rfl, rfl, fun s rest hb ha => ?_, fun s hb ha => ?_, fun s t hb h ht => ?_⟩
  · rw [step_sequencer ha, sequencerTurn_of_idle (by exact hb), State.withAgenda]
  · rw [step_idle ha, sequencerTurn_of_idle hb]
  · exact (step_from_idle hb h).resolve_left (by simp [ht])

/-! ### The reset state -/

/-- Settles O59: power-on reset takes the reset state to itself. -/
theorem resetMeetsTheInvariant : Obligations.ResetMeetsTheInvariant := inv_powerOn machineConfig State.reset

/-! ### The bits SPECTRUM needs -/

/-- Settles O31: a spectral block costs at most 8486 bits, and a body that ends with a value ends the command with DONE = 1. -/
theorem spectrumCompletesWithin8486Bits : Obligations.SpectrumCompletesWithin8486Bits := by
  intro s hloaded hleft
  obtain ⟨v, u, hbody, hv, -, -, -, hpos⟩ := costs_spectrumBody (c := machineConfig) rfl rfl s hloaded hleft
  have hexec : exec .spectrum s = .next (u.endOk v) := commandWith_of_ok (c := machineConfig) (i := .spectrum) rfl hbody
  exact ⟨_, hexec, rfl, rfl, hv, hpos⟩

end Sys2Proof.Machine
end

section
/-! SUPPORT. The state of power-on reset (70_reset_and_hazards.md R240), and the two commands that read one bit (40_bitread.md R108). -/

namespace Sys2Proof.Machine

/-! ### Power-on reset -/

/-- Power-on reset leaves nothing for the register part of a soft reset to clear. -/
theorem powerOn_clearRegisters (s : State) : (powerOn s).clearRegisters = powerOn s := rfl

theorem regWord_powerOn (s : State) (r : Reg) : regWord (powerOn s) r = 0#32 := by
  rw [← powerOn_clearRegisters]
  exact regWord_clearRegisters _ r

theorem irq_powerOn (s : State) : irq (powerOn s) = false := rfl

/-- No entry of a buffer holds a value after power-on (10_state.md R41). -/
theorem powerOn_unwritten (s : State) (a : Nat) :
    (powerOn s).fb.read a = none ∧ (powerOn s).qm.read a = none ∧ (powerOn s).sel.read a = none ∧ (powerOn s).sfi.read a = none ∧
      (powerOn s).mbuf.read a = none ∧ (powerOn s).tc.read a = none :=
  ⟨Memory.read_nil a, Memory.read_nil a, Memory.read_nil a, Memory.read_nil a, Memory.read_nil a, Memory.read_nil a⟩

/-- Settles O7: power-on leaves these values from every state, and takes the reset state to itself. -/
theorem powerOnResetLeavesTheResetValues : Obligations.PowerOnResetLeavesTheResetValues := by
  refine ⟨regWord_powerOn State.reset, irq_powerOn State.reset, powerOn_unwritten State.reset, machine_tables, fun s rest hag => ?_⟩
  exact ⟨_, step_powerOn hag, regWord_powerOn _, irq_powerOn _, powerOn_unwritten _⟩

/-! ### RDBIT and RDBITS 1 -/

/-- The command matters to its ending only for the outputs an abort may draw. -/
theorem endCommand_of_drawsNothing {i j : Instr} (hi : DrawsNothing i) (hj : DrawsNothing j) (c : Config) (r : Res Word) :
    endCommand c i r = endCommand c j r := by
  cases r with
  | ok v s => rfl
  | raise e p s => rw [endCommand, endCommand, takeError_of_drawsNothing hi, takeError_of_drawsNothing hj]
  | fault f => rfl

/-- RDBIT's pseudocode is that of RDBITS 1. -/
theorem commandBody_rdbit (c : Config) (s : State) : commandBody c .rdbit s = commandBody c (.rdbits 1#6) s := rfl

/-- Settles O11: they run the same pseudocode, and neither has an output that its ending could treat differently. -/
theorem rdbitIsRdbitsOne : Obligations.RdbitIsRdbitsOne := by
  intro s
  rw [exec_of_wf (i := .rdbit) rfl, exec_of_wf (i := .rdbits 1#6) ((wf_rdbits _).2 (by decide)), commandBody_rdbit]
  exact endCommand_of_drawsNothing drawsNothing_rdbit (drawsNothing_rdbits _) _ _

end Sys2Proof.Machine
end
